-- ==== Sys2Proof/Word.lean ====
section
/-! DEFINITION. Words of the module and the shape of its sparse tables (00_scope R7, R8, R18). -/

namespace Sys2Proof

/-- A byte. -/
abbrev Byte := BitVec 8

/-- A 32-bit register or lane (R18, R71). -/
abbrev W32 := BitVec 32

/-- A 64-bit register or instruction word (R18, R158). -/
abbrev W64 := BitVec 64

/-- A flit: 64 bytes, byte `b` in bits `[8b + 7 : 8b]` (R347). -/
abbrev Flit := BitVec 512

/-- A packet header (R316). -/
abbrev Header := BitVec 128

/-- A sparse table by key: keys strictly rising, one entry for a key. -/
abbrev Table (α : Type) := List (Nat × α)

end Sys2Proof
end

