-- ==== Sys2Proof/Syntax.lean ====
section
/-! DEFINITION. The commands of the block: one constructor of `Instr` for each row of
spec/opcode_table.json, with the row's operands. -/

namespace Sys2Proof

/-! ## Names of units (00_scope R19, 01 R22) -/

/-- A local die of the module: 0-31 are C-dies, 32-39 E-dies (R19). -/
abbrev DieId := Fin 40

/-- A C-die by its local number (R19). -/
abbrev CDieId := Fin 32

/-- E-die `32 + e` by `e` (R25). -/
abbrev EDieId := Fin 8

/-- A physical tile of a C-die of the module (R19, R45). -/
structure TileRef where
  die : CDieId
  tile : Fin 288
  deriving DecidableEq, Repr

/-- Bits [53:0] of a tile instruction word: the operand fields of its unit (R158). -/
abbrev Operands := BitVec 54

/-- A host port (R453) and one of its rings (R459). -/
structure RingRef where
  port : Fin 2
  ring : Fin 64
  deriving DecidableEq, Repr

/-! ## Link contents (09) -/

/-- Flit-time codes (R352). -/
inductive FlitCode where
  | empty | reservedEmpty | data | dataH | chaff | chaffH | control | link
  deriving DecidableEq, Repr

/-- The bits of a frame, bit `i` as R345 and R349 number them: 58,032 of a fabric port, 131,072 of a
die link. -/
abbrev FrameBits := BitVec 131072

/-- A frame that arrives: its bits after lane order, polarity and lane repair are undone (R345, R349), and
what the receiver knows of it from the beat grid: the job beat in which the far end sent it, whether
that was a job beat, and whether it was decoded after its release time (R323, R376). -/
structure RxFrame where
  bits : FrameBits
  beat : BitVec 48
  inJob : Bool
  late : Bool
  deriving DecidableEq, Repr

/-- A control packet: its header flit (R378) and its data flits (R377). -/
structure ControlPacket where
  header : Flit
  data : List Flit
  deriving DecidableEq, Repr

/-- A control-plane request at its destination: the header fields that performing it uses
(R378, R380). -/
structure Request where
  dst : BitVec 16
  src : BitVec 16
  tag : BitVec 16
  epoch : Bool
  length : Nat
  addr : W64
  imm : W64
  data : List Byte
  rrlen : BitVec 5
  rroute : BitVec 64
  deriving DecidableEq, Repr

/-- A response as it reaches its requester (R380, R381). -/
structure Response where
  tag : BitVec 16
  status : BitVec 4
  imm : W64
  data : List Byte
  deriving DecidableEq, Repr

/-- What the two ends of a link exchange in training phase 4 (R367). -/
structure FarEnd where
  moduleNum : BitVec 10
  localDie : BitVec 6
  portCode : BitVec 6
  isEDie : Bool
  lanes8 : Bool
  speed400 : Bool
  credits : List (BitVec 12)
  deriving DecidableEq, Repr

/-- A stamp: seconds and sixteenths of a nanosecond within the second (R492). -/
structure Stamp where
  sec : W64
  sixteenths : Nat
  deriving DecidableEq, Repr

/-- The domain and the sequence number that the header of an IEEE 1588 message names (R503). -/
structure PtpId where
  domain : Byte
  seq : BitVec 16
  deriving DecidableEq, Repr

/-- The stamps of a delay exchange of IEEE 1588: of the module's Delay_Req as it left, and of its arrival as the
Delay_Resp tells it (R503). -/
structure DelayStamps where
  reqTx : Stamp
  reqRx : Stamp
  deriving DecidableEq, Repr

/-- What SETDASA names: the target by its static address, and its dynamic address (R588). -/
structure I3cAssign where
  target : BitVec 7
  addr : BitVec 7
  deriving DecidableEq, Repr

/-- A delay measurement of a link: for one slot, when this end's frame started and when the far end's
was decoded here, and the same two stamps of the far end, which it sent (R374). -/
structure Measure where
  start : Stamp
  decoded : Stamp
  farStart : Stamp
  farDecoded : Stamp
  deriving DecidableEq, Repr

/-- What a training phase reports when it completes (R366, R367, R374). -/
inductive PhaseResult where
  | plain
  | lanes (lock : Byte)
  | exchange (far : FarEnd)
  | measure (ms : List Measure)
  deriving DecidableEq, Repr

/-! ## The host's descriptors (11) -/

/-- A submission descriptor without its opcode, which the command's row gives (R468). `args` is
bytes 0x18 to 0x3F. -/
structure Desc where
  flags : Byte
  cmdId : BitVec 16
  context : W32
  launchSec : W64
  launchNs : W32
  reserved : W32
  args : BitVec 320
  deriving DecidableEq, Repr

/-- What DMA brought in: the bytes, or a failure (R471 status 0x05). -/
inductive DmaData where
  | bytes (b : List Byte)
  | failed
  deriving DecidableEq, Repr

/-- A register that a write or a read names (R12, R455). -/
inductive RegTarget where
  | die (d : DieId) (off : BitVec 24)
  | tile (t : TileRef) (off : BitVec 16)
  | bar0 (p : Fin 2) (off : BitVec 20)
  deriving DecidableEq, Repr

/-! ## Management (15) -/

/-- The paths to the management endpoint, in the order of R595. -/
inductive MgmtPath where
  | pcie0 | pcie1
  | smbus (addr : BitVec 7) (pecGood : Bool)
  | i3c (addr : BitVec 7)
  | control | ethernet
  deriving DecidableEq, Repr

/-- The path is a binding of the MCTP endpoint (R588). -/
def MgmtPath.isMctp : MgmtPath → Bool
  | .pcie0 | .pcie1 | .smbus _ _ | .i3c _ => true
  | .control | .ethernet => false

/-- A management message as it arrives: its path, its TAG and its ARGS bytes; over MCTP the vendor ID before its body,
over Ethernet the address and UDP port that it came from (R592, R597). -/
structure MgmtMsg where
  path : MgmtPath
  tag : Byte
  args : List Byte
  vendor : BitVec 16 := 0
  srcAddr : BitVec 128 := 0
  srcPort : BitVec 16 := 0
  deriving DecidableEq, Repr

/-- What one maintenance beat of a die takes in from its analogue side: the sensor reading of
the round robin, the power reading, whether the memory asks for doubled refresh, and what the links
measured (R374, R412, R515). -/
structure MaintIn where
  sensor : BitVec 16
  power : BitVec 16
  hot : Bool
  delays : List (Fin 32 × Measure)
  deriving DecidableEq, Repr

/-- Memory weight commands carry the manifest that DMA brought in, and for the shards of the manifest, in its order, the
host address and what DMA brings from there; a shard without one comes from a storage appliance (R428, R430, R468). -/
structure WeightCmd where
  ring : RingRef
  desc : Desc
  manifest : DmaData
  shards : List (Option (W64 × DmaData)) := []
  deriving DecidableEq, Repr

/-- The commands of the block: one constructor for each row of the opcode table, in its
order. -/
inductive Instr where
  -- tile instructions: matrix (04)
  | mxld (t : TileRef) (f : Operands)
  | mxmul (t : TileRef) (f : Operands)
  | mxsparse (t : TileRef) (f : Operands)
  | mxacc (t : TileRef) (f : Operands)
  | mxzero (t : TileRef) (f : Operands)
  | mxrd (t : TileRef) (f : Operands)
  -- tile instructions: vector (04)
  | vadd (t : TileRef) (f : Operands)
  | vaddI (t : TileRef) (f : Operands)
  | vaddS (t : TileRef) (f : Operands)
  | vmul (t : TileRef) (f : Operands)
  | vfma (t : TileRef) (f : Operands)
  | vmax (t : TileRef) (f : Operands)
  | vexp (t : TileRef) (f : Operands)
  | vrcp (t : TileRef) (f : Operands)
  | vrsq (t : TileRef) (f : Operands)
  | vcvt (t : TileRef) (f : Operands)
  | vsrnd (t : TileRef) (f : Operands)
  | vred (t : TileRef) (f : Operands)
  | vsel (t : TileRef) (f : Operands)
  | vselCmp (t : TileRef) (f : Operands)
  | vselMov (t : TileRef) (f : Operands)
  -- tile instructions: movement (05)
  | loadv (t : TileRef) (f : Operands)
  | storev (t : TileRef) (f : Operands)
  | send (t : TileRef) (f : Operands)
  | sendm (t : TileRef) (f : Operands)
  | gather (t : TileRef) (f : Operands)
  | land (t : TileRef) (f : Operands)
  | hbmrd (t : TileRef) (f : Operands)
  | hbmwr (t : TileRef) (f : Operands)
  -- tile instructions: sequencing (05)
  | nop (t : TileRef) (f : Operands)
  | loop (t : TileRef) (f : Operands)
  | br (t : TileRef) (f : Operands)
  | waitbeat (t : TileRef) (f : Operands)
  | holdchk (t : TileRef) (f : Operands)
  | fault (t : TileRef) (f : Operands)
  | snap (t : TileRef) (f : Operands)
  | fillBudgetExhausted (t : TileRef)
  -- beats and holds (06)
  | droopStretch (c : CDieId) (r : Fin 4)
  | beatStart (d : DieId)
  | maintenanceBeat (d : DieId) (m : MaintIn)
  | blackoutEnd (d : DieId)
  | landingFlitArrival (t : TileRef) (h : Header) (fidx : Fin 64) (payload : Flit)
  | holdSymbolReceived (d : DieId) (port : Fin 32) (sym : W64)
  | holdTakesEffect (d : DieId)
  | rollCallClose (d : DieId)
  | holderRelease (d : DieId)
  | releaseSymbolReceived (d : DieId) (port : Fin 32) (sym : W64)
  | holdResume (d : DieId)
  | holdTimeout (d : DieId)
  | reqHoldWrite (d : DieId) (on : Bool)
  -- epochs and stops (07)
  | epochArm (d : DieId) (action : BitVec 2) (target : Bool)
  | epochCancel (d : DieId)
  | stop (d : DieId)
  | clear (d : DieId)
  | epochStart (d : DieId)
  | epochSwitch (d : DieId)
  | epochEnd (d : DieId)
  | stopSymbolReceived (d : DieId) (port : Fin 32) (sym : W64)
  -- links (09)
  | frameReceived (d : DieId) (port : Fin 32) (f : RxFrame)
  | replayTimeout (d : DieId) (port : Fin 32)
  | spillMove (d : DieId) (port : Fin 32) (n : Nat)
  | symbolLockLost (d : DieId) (port : Fin 32)
  | symbolLockReturned (d : DieId) (port : Fin 32)
  | linkDown (d : DieId) (port : Fin 32)
  | trainingPhaseComplete (d : DieId) (port : Fin 32) (r : PhaseResult)
  | trainingPhaseTimeout (d : DieId) (port : Fin 32)
  | trainingRestart (d : DieId) (port : Fin 32)
  | trainingPatternReceived (d : DieId) (port : Fin 32)
  | retrain (d : DieId) (port : Fin 32)
  | disable (d : DieId) (port : Fin 32) (on : Bool)
  | farDieReset (d : DieId) (port : Fin 32)
  -- control plane (09)
  | controlPacketArrival (d : DieId) (port : Option (Fin 32)) (p : ControlPacket)
  | escapeTimeout (d : DieId) (port : Fin 32)
  | read (d : DieId) (q : Request)
  | write (d : DieId) (q : Request)
  | addI32 (d : DieId) (q : Request)
  | addI64 (d : DieId) (q : Request)
  | addF32 (d : DieId) (q : Request)
  | message (d : DieId) (q : Request)
  | mgmt (d : DieId) (q : Request)
  | controlResponseArrival (d : DieId) (r : Response)
  | requestTimeout (d : DieId) (tag : BitVec 16)
  -- time (12)
  | timeExchangeReceived (d : DieId) (port : Fin 32) (epoch : Bool) (x : Flit) (arrival : Stamp)
  | ptpSyncReceived (oneStep : Bool) (id : PtpId) (origin arrival : Stamp)
  | ppsInEdge (arrival : Stamp)
  | ppsOutSecond
  | reference10mChange (present : Bool)
  | servoSourceLost
  | set
  | stepAllow
  | sourceWrite (source : BitVec 2)
  | snapshotArm (d : DieId)
  | snapshotTaken (d : DieId)
  | ctxShadowDone (e : EDieId)
  | readClear (r : RegTarget) (wide : Bool)
  | moduleNumWrite (d : DieId) (v : W32)
  | registerWrite (r : RegTarget) (wide : Bool) (v : W64)
  -- host rings (11)
  | sqTailDoorbell (r : RingRef) (v : W32) (descs : List Flit)
  | cqHeadDoorbell (r : RingRef) (v : W32)
  | launchTimeReached (r : RingRef)
  | ringCfgWrite (r : RingRef) (cq : Bool) (v : W32)
  | openContext (r : RingRef) (c : Desc)
  | openContextModify (r : RingRef) (c : Desc)
  | closeContext (r : RingRef) (c : Desc)
  | appendInput (r : RingRef) (c : Desc)
  | fetchResult (r : RingRef) (c : Desc)
  | loadWeightSet (w : WeightCmd)
  | unloadWeightSet (w : WeightCmd)
  | roll (w : WeightCmd)
  | rollComplete (w : WeightCmd)
  | rollAbandon (w : WeightCmd)
  | rollBatchesDrained
  | loadSchedule (r : RingRef) (c : Desc) (image : DmaData)
  | loadLinkWaitEnd
  | loadPortWaitEnd
  | switchEpoch (r : RingRef) (c : Desc)
  | snapshot (r : RingRef) (c : Desc)
  | setPowerState (r : RingRef) (c : Desc)
  | readLog (r : RingRef) (c : Desc)
  | readLogAttestation (r : RingRef) (c : Desc)
  | bar2Read (p : Fin 2) (off : BitVec 28) (size : Nat)
  | bar2Write (p : Fin 2) (off : BitVec 28) (size : Nat) (v : W64)
  | perstAssert (p : Fin 2)
  | hotReset (p : Fin 2)
  | pcieLinkLoss (p : Fin 2)
  | functionLevelReset (p : Fin 2)
  -- batches (11)
  | batchBoundary (e : EDieId)
  | reservedSelection (e : EDieId)
  | slotEmit (e : EDieId) (entry : Nat)
  | inputRecordDmaDone (e : EDieId) (entry : Nat) (record : List Flit)
  | inputRecordDmaFailed (e : EDieId) (entry : Nat)
  | resultArrival (e : EDieId) (h : Header) (flits : List Flit)
  | resultDmaFailed (e : EDieId) (h : Header) (flits : List Flit)
  -- memory and weights (10)
  | memoryPacketArrival (d : DieId) (h : Header) (flits : List Flit) (region : Option (Fin 4))
  | transferPerformed (d : DieId)
  | lateTransferPerformed (d : DieId)
  | memoryDataEmission (d : DieId)
  | shardCheckStart (d : DieId) (v : W64)
  | shardCheckDone (d : DieId)
  | shardTimeout (idx : Nat)
  | redigest (idx : Nat)
  -- power and reset (13)
  | inputPowerSample (voltage current : BitVec 16) (upSecond upCenti : Bool)
  | clampTrip
  | inputLost
  | overvoltageTrip (voltage : BitVec 16)
  | thermalWarning (d : DieId) (sensor : Fin 5) (temp : BitVec 16)
  | thermalTrip (d : DieId) (sensor : Fin 5) (temp : BitVec 16)
  | powerOnReset (byPin : Bool)
  | eDieStartTimeout (e : EDieId)
  | firmwareWatchdogMiss
  | modRstN (lowNs : Nat)
  | modReset (key : BitVec 16)
  | dieReset (d : DieId)
  | powerStateEntry
  | idleTimer
  | wakeN (lowNs : Nat)
  | wakePatternDetected (port : Fin 16)
  | electricalIdleExit (p : Fin 2)
  | wakeSend (e : EDieId) (v : BitVec 2)
  | restore
  | latchedWakeRestore
  | restoreStepLate (step : Fin 4)
  -- boot, firmware, identity (14)
  | firmwareUpdate (p : Fin 2) (floor : Bool)
  | firmwareRecovery (p : Fin 2)
  | getAttestation (m : MgmtMsg)
  | getCertificate (m : MgmtMsg)
  | spareCluster (m : MgmtMsg)
  -- management (15)
  | mgmtSetPowerState (m : MgmtMsg)
  | moduleReset (m : MgmtMsg)
  | mgmtReadLog (m : MgmtMsg)
  | getStatus (m : MgmtMsg)
  | setSetting (m : MgmtMsg)
  | setEndpointId (path : MgmtPath) (eid : Byte)
  | getEndpointId (path : MgmtPath)
  | getEndpointUuid (path : MgmtPath)
  | getMctpVersionSupport (path : MgmtPath) (msgType : Byte)
  | getMessageTypeSupport (path : MgmtPath)
  | getVendorDefinedMessageSupport (path : MgmtPath) (selector : Byte)
  | setdasa (assign : I3cAssign)
  | entdaa (addr : BitVec 7)
  | getTid (path : MgmtPath)
  | setTid (path : MgmtPath) (tid : Byte)
  | getPldmVersion (path : MgmtPath) (pldmType : Byte)
  | getPldmTypes (path : MgmtPath)
  | getPldmCommands (path : MgmtPath) (pldmType : Byte)
  | getSensorReading (path : MgmtPath) (sensor : BitVec 16)
  | getStateSensorReadings (path : MgmtPath) (sensor : BitVec 16)
  | setStateEffecterStates (path : MgmtPath) (effecter : BitVec 16) (state : Byte)
  | getStateEffecterStates (path : MgmtPath) (effecter : BitVec 16)
  | getPdrRepositoryInfo (path : MgmtPath)
  | getPdr (path : MgmtPath) (record : W32)
  | arpRequest (target : W32) (sender : W32) (senderMac : BitVec 48)
  | icmpEcho (v6 : Bool) (src : BitVec 128) (payload : List Byte)
  | neighbourDiscovery (target : BitVec 128) (src : BitVec 128)
  -- rows that stand at the end of the table
  | releaseOfDieReset (d : DieId)
  | pcieLinkUp (p : Fin 2) (width : Nat)
  | ptpFollowUpReceived (id : PtpId) (origin : Stamp)
  | ptpDelayRespReceived (domain : Byte) (stamps : DelayStamps)
  | dhcpv4Reply (addr : W32)
  | routerAdvertisement (pfx : W64)
  | firmwareProgrammingEnd (ok : Bool)
  | ppsOutPulseEnd
  deriving DecidableEq, Repr

end Sys2Proof
end

