-- ==== Sys2Proof/Machine/Map.lean ====
section
/-! DEFINITION. Sparse tables and byte memories: reading, writing and the canonical form of a
memory. -/

namespace Sys2Proof.Machine

variable {α : Type}

/-- Field `[hi:lo]` of a value, as a number (R7). -/
def bitsOf {n : Nat} (v : BitVec n) (hi lo : Nat) : Nat :=
  (v.toNat >>> lo) % 2 ^ (hi + 1 - lo)

/-- Bit `i` of a value (R7). -/
def bitOf {n : Nat} (v : BitVec n) (i : Nat) : Bool := v.getLsbD i

/-- The entry of a key. -/
def tget : Table α → Nat → Option α
  | [], _ => none
  | (j, x) :: m, k => if j = k then some x else tget m k

/-- The entry of a key, or a default. -/
def tgetD (m : Table α) (k : Nat) (d : α) : α := (tget m k).getD d

/-- Sets the entry of a key; keys stay strictly rising. -/
def tput : Table α → Nat → α → Table α
  | [], k, v => [(k, v)]
  | (j, x) :: m, k, v =>
    if j < k then (j, x) :: tput m k v
    else if j = k then (k, v) :: m
    else (k, v) :: (j, x) :: m

/-- Removes the entry of a key. -/
def tdel : Table α → Nat → Table α
  | [], _ => []
  | (j, x) :: m, k => if j = k then m else (j, x) :: tdel m k

/-- Applies a function to every entry that is listed. -/
def tmap (f : Nat → α → α) (m : Table α) : Table α := m.map fun e => (e.1, f e.1 e.2)

/-! ## Byte memories

A memory lists the bytes that differ from zero, the value that an unlisted byte reads as
(log 3). -/

/-- What an unlisted byte reads as: DESIGN CHOICE, the spec gives memories no reset contents
(R113); unsafe (log 3). -/
def Mem.unlisted : Byte := 0

/-- Reads one byte. -/
def Mem.read (m : List Host.Cell) (a : Nat) : Byte := tgetD m a Mem.unlisted

/-- Writes one byte, keeping the canonical form. -/
def Mem.write (m : List Host.Cell) (a : Nat) (b : Byte) : List Host.Cell :=
  if b = Mem.unlisted then tdel m a else tput m a b

/-- The canonical form: addresses strictly rising, no entry equal to an unlisted byte. -/
def Mem.wf (m : List Host.Cell) : Bool :=
  decide (m.Pairwise (fun x y => x.1 < y.1)) && m.all (fun c => c.2 != Mem.unlisted)

/-- The `n` bytes from `a` on. -/
def Mem.readBytes (m : List Host.Cell) (a : Nat) : Nat → List Byte
  | 0 => []
  | n + 1 => Mem.read m a :: Mem.readBytes m (a + 1) n

/-- Writes bytes from `a` on. -/
def Mem.writeBytes (m : List Host.Cell) (a : Nat) : List Byte → List Host.Cell
  | [] => m
  | b :: bs => Mem.writeBytes (Mem.write m a b) (a + 1) bs

/-! ## Sets of addresses: disjoint ranges `[lo, hi)` that do not touch, rising -/

/-- Adds a range to a set of addresses. -/
def addRange (lo hi : Nat) : List (Nat × Nat) → List (Nat × Nat)
  | [] => [(lo, hi)]
  | r :: rs =>
    if hi < r.1 then (lo, hi) :: r :: rs
    else if r.2 < lo then r :: addRange lo hi rs
    else addRange (min r.1 lo) (max r.2 hi) rs

/-- The address lies in the set. -/
def inRanges (rs : List (Nat × Nat)) (a : Nat) : Bool :=
  rs.any fun r => decide (r.1 ≤ a) && decide (a < r.2)

/-- A byte string as a little-endian number (R8). -/
def leNat : List Byte → Nat
  | [] => 0
  | b :: bs => b.toNat + 256 * leNat bs

/-- The little-endian bytes of a number (R8). -/
def leBytes (v : Nat) : Nat → List Byte
  | 0 => []
  | n + 1 => BitVec.ofNat 8 v :: leBytes (v / 256) n

/-- The 64 bytes of a flit at an address, byte `b` in bits `[8b + 7 : 8b]` (R347). -/
def Mem.readFlit (m : List Host.Cell) (a : Nat) : Flit :=
  BitVec.ofNat 512 (leNat (Mem.readBytes m a 64))

/-- Writes a flit at an address. -/
def Mem.writeFlit (m : List Host.Cell) (a : Nat) (f : Flit) : List Host.Cell :=
  Mem.writeBytes m a (leBytes f.toNat 64)

/-- Writes consecutive flits from an address on. -/
def Mem.writeFlits (m : List Host.Cell) (a : Nat) : List Flit → List Host.Cell
  | [] => m
  | f :: fs => Mem.writeFlits (Mem.writeFlit m a f) (a + 64) fs

/-- Reads `n` consecutive flits. -/
def Mem.readFlits (m : List Host.Cell) (a : Nat) : Nat → List Flit
  | 0 => []
  | n + 1 => Mem.readFlit m a :: Mem.readFlits m (a + 64) n

/-- The bytes of a list of flits, in order. -/
def flitBytes (fs : List Flit) : List Byte := fs.flatMap fun f => leBytes f.toNat 64

/-- Cuts a byte string into flits; the last one is filled with zero bytes. -/
def bytesFlits (bs : List Byte) : Nat → List Flit
  | 0 => []
  | n + 1 => BitVec.ofNat 512 (leNat (bs.take 64)) :: bytesFlits (bs.drop 64) n

/-- A field of a byte string as a little-endian number. -/
def fieldLE (bs : List Byte) (off n : Nat) : Nat := leNat ((bs.drop off).take n)

/-- Sets field `[hi:lo]` of a 64-bit value. -/
def setBits (v : W64) (hi lo : Nat) (x : Nat) : W64 :=
  let mask := (BitVec.ofNat 64 (2 ^ (hi + 1 - lo) - 1)) <<< lo
  (v &&& ~~~mask) ||| (BitVec.ofNat 64 (x % 2 ^ (hi + 1 - lo)) <<< lo)

/-- Sign-extends the low `n` bits of a number to an integer (R197, two's complement). -/
def sextInt (n x : Nat) : Int :=
  let y := x % 2 ^ n
  if 2 * y < 2 ^ n then (y : Int) else (y : Int) - (2 : Int) ^ n

end Sys2Proof.Machine
end

