-- ==== Sys2Proof/Machine/Codes.lean ====
section
/-! DEFINITION. The check codes and the digest that the spec names: CRC-8 (R247), CRC-16 (R316,
R351), CRC-32 (R348) and SHAKE256 (R276, R427, R559, R576). -/

namespace Sys2Proof.Machine

/-- The bits of a value, most significant first. -/
def bitsMsb (v : Nat) : Nat → List Bool
  | 0 => []
  | n + 1 => v.testBit n :: bitsMsb v n

/-- One step of an unreflected CRC of width `w` with polynomial `poly`. -/
def crcStep (w poly reg : Nat) (b : Bool) : Nat :=
  let top := reg.testBit (w - 1)
  let r := (2 * reg) % 2 ^ w
  if top != b then r ^^^ poly else r

/-- An unreflected CRC over bits, most significant bit first. -/
def crcBits (w poly init : Nat) (bs : List Bool) : Nat := bs.foldl (crcStep w poly) init

/-- CHECK of a symbol: CRC-8, polynomial 0x07, initial value 0 (R247). -/
def crc8 (bs : List Bool) : Nat := crcBits 8 0x07 0 bs

/-- CRC-16, polynomial 0x1021, initial value 0xFFFF (R316, R351). -/
def crc16 (bs : List Bool) : Nat := crcBits 16 0x1021 0xFFFF bs

/-- CRC-32 of R348: polynomial 0x1EDC_6F41, initial value and final XOR all ones, unreflected. -/
def crc32 (bs : List Bool) : Nat := crcBits 32 0x1EDC6F41 0xFFFFFFFF bs ^^^ 0xFFFFFFFF

/-- Bits of a byte string, each byte most significant bit first. -/
def byteBits (bs : List Byte) : List Bool := bs.flatMap fun b => bitsMsb b.toNat 8

/-- A header with its CHECK filled in (R316). -/
def withCheck (h : Header) : Header :=
  let body := h.toNat / 2 ^ 16
  BitVec.ofNat 128 (body * 2 ^ 16 + crc16 (bitsMsb body 112))

/-- The CHECK of a header is correct (R316, R319). -/
def headerCheckGood (h : Header) : Bool := withCheck h == h

/-- A symbol with its CHECK (R247). -/
def symbolWithCheck (v : W64) : W64 :=
  let body := v.toNat / 2 ^ 8
  BitVec.ofNat 64 (body * 2 ^ 8 + crc8 (bitsMsb body 56))

/-- The CHECK of a symbol is correct (R248). -/
def symbolGood (v : W64) : Bool := symbolWithCheck v == v

/-! ## SHAKE256 (R276: 256 bits of output; the algorithm is the one of FIPS 202)

The permutation works on five planes of five lanes. Its rotations come from the walk over the 24
moving lanes, and its round constants from the feedback register of the standard, so no table of
either is written out. -/

/-- The planes `y = 0 … 4` of the sponge's state, lane `x` of a plane at index `x`. -/
abbrev Planes := List (List W64)

/-- Lane by lane XOR of two planes. -/
def planeXor (p q : List W64) : List W64 := List.zipWith (· ^^^ ·) p q

/-- Every lane takes up the parities of the columns beside its own. -/
def mixColumns (a : Planes) : Planes :=
  let par := a.foldl planeXor (List.replicate 5 0)
  a.map fun p => planeXor p
    (planeXor (par.rotateRight 1) ((par.rotateLeft 1).map (·.rotateLeft 1)))

/-- The walk over the moving lanes from `(x, y)` on: target, source and rotation of each step. -/
def laneWalk (x y t : Nat) : Nat → List (Nat × Nat × Nat)
  | 0 => []
  | n + 1 =>
    let y' := (2 * x + 3 * y) % 5
    (5 * y' + y, 5 * y + x, (t + 1) * (t + 2) / 2 % 64) :: laneWalk y y' (t + 1) n

/-- Rotates the moving lanes and moves them to their places. -/
def moveLanes (a : Planes) : Planes :=
  let flat := a.flatten
  let out := (laneWalk 1 0 0 24).foldl
    (fun b m => b.set m.1 ((flat.getD m.2.1 0).rotateLeft m.2.2)) flat
  (List.range 5).map fun y => (out.drop (5 * y)).take 5

/-- The nonlinear step along each plane. -/
def mixRows (a : Planes) : Planes :=
  a.map fun p => planeXor p
    (List.zipWith (fun b c => ~~~b &&& c) (p.rotateLeft 1) (p.rotateLeft 2))

/-- One step of the register that the round constants come from. -/
def feedback (r : Nat) : Nat := if 128 ≤ r then (2 * r) ^^^ 0x171 else 2 * r

/-- A round constant, bit `2 ^ j - 1` from the register's `j`-th output, and the register after. -/
def roundWord (r : Nat) : Nat × Nat :=
  (List.range 7).foldl (fun a j => (a.1 + a.2 % 2 * 2 ^ (2 ^ j - 1), feedback a.2)) (0, r)

/-- `n` rounds of the permutation. -/
def permute (a : Planes) (r : Nat) : Nat → Planes
  | 0 => a
  | n + 1 =>
    let (c, r) := roundWord r
    permute ((mixRows (moveLanes (mixColumns a))).modifyHead
      (·.modifyHead (· ^^^ BitVec.ofNat 64 c))) r n

/-- The 136 bytes of a block as the first 17 lanes of a state, the others zero. -/
def blockPlanes (bs : List Byte) : Planes :=
  (List.range 5).map fun y => (List.range 5).map fun x =>
    BitVec.ofNat 64 (leNat (((bs.take 136).drop (8 * (5 * y + x))).take 8))

/-- Takes in `n` blocks of a padded message. -/
def absorb (a : Planes) (bs : List Byte) : Nat → Planes
  | 0 => a
  | n + 1 => absorb (permute (List.zipWith planeXor a (blockPlanes bs)) 1 24) (bs.drop 136) n

/-- The message with its suffix 1111 and its padding, up to a whole number of blocks. -/
def shakePadded (bs : List Byte) : List Byte :=
  let fill := 135 - bs.length % 136
  bs ++ if fill = 0 then [0x9F] else 0x1F :: List.replicate (fill - 1) 0 ++ [0x80]

/-- SHAKE256 output of 256 bits over a byte string, byte 0 least significant. -/
def shake256 (bs : List Byte) : BitVec 256 :=
  let zero := List.replicate 5 (List.replicate 5 (0 : W64))
  let out := (absorb zero (shakePadded bs) (bs.length / 136 + 1)).flatten
  BitVec.ofNat 256 ((out.take 4).foldr (fun w n => w.toNat + 2 ^ 64 * n) 0)

end Sys2Proof.Machine
end

