-- ==== Sys2Proof/Config.lean ====
section
/-! DEFINITION. What an implementation fixes and what the spec leaves open: opaque constants.
Nothing can evaluate them, so every theorem about the module holds for every value of them. -/

namespace Sys2Proof

/-- Contents of a V register, its lanes in one number, in the job with serial `gen` before the job
has written it (R74, R113). Log 8. -/
opaque Config.freeVec (gen i : Nat) : BitVec 1024

/-- Contents of an A, S or P register (by register key) in the job with serial `gen` before the
job has written it (R74, R113). Log 8. -/
opaque Config.freeReg (gen key : Nat) : W32

/-- The integer of an accumulator element that the job has not zeroed (R74, R155). Log 8. -/
opaque Config.freeAcc (gen key : Nat) : BitVec 128

/-- The tag of such an element, as a number 0-3. Log 8. -/
opaque Config.freeAccTag (gen key : Nat) : Nat

/-- The window base of an accumulator that the job has not zeroed. Log 8. -/
opaque Config.freeWbase (gen acc : Nat) : BitVec 10

/-- A byte of the data SRAM that neither the image, nor the job with serial `gen`, nor a packet landed
in it has written (R113). Log 8. -/
opaque Config.freeSram (gen a : Nat) : BitVec 8

/-- 32 bytes of a weight row, or its metadata and scales, that the job has not loaded
(R74, R113). Log 8. -/
opaque Config.freeWeights (gen key : Nat) : BitVec 256

/-- The recorded format and kind of a weight buffer that the job has not loaded. Log 8. -/
opaque Config.freeWeightFmt (gen buf : Nat) : BitVec 4

/-- Kind (sparse) of such a buffer. Log 8. -/
opaque Config.freeWeightKind (gen buf : Nat) : Bool

/-- 32 fresh bits of a die's entropy source (R140). Log 10. -/
opaque Config.entropy (n : Nat) : W32

/-- Where inside its 16 ns slot an event falls, in nanoseconds, before reduction modulo 16.
Log 2. -/
opaque Config.freeTick (n : Nat) : Nat

/-- Lanes of a port that have lost their lock while the link is without symbol lock, for each loss (R369, R396).
Log 79. -/
opaque Config.lanesLost (d p t : Nat) : BitVec 8

/-- A value that the spec leaves open at one use, by the count of free values used. Log 1. -/
opaque Config.freeWord (n : Nat) : W64

/-- Which of the results that R147 and R185 allow VEXP of a finite non-zero input has under firmware
version `fw`, before reduction modulo their number; `base2` is MOD[0]. Log 11. -/
opaque Config.vexpUlp (fw : W32) (base2 : Bool) (a : W32) : Nat

/-- The same for VRCP (R147, R185). Log 11. -/
opaque Config.vrcpUlp (fw a : W32) : Nat

/-- The same for VRSQ (R147, R185). Log 11. -/
opaque Config.vrsqUlp (fw a : W32) : Nat

/-- Whether an XMSS signature over `msg` verifies; `key` is 0 for the firmware key, 1 for the factory key
(R549, R554). Log 12. -/
opaque Config.signatureGood (key : Nat) (msg sig : List Byte) : Bool

/-- Whether an XMSS^MT signature over `msg` verifies under the public key of an identity certificate (R554, R572).
Log 12. -/
opaque Config.identityVerifies (publicKey msg sig : List Byte) : Bool

/-- The public key of the identity key that is derived from the seeds of an identity secret record (R572). Log 12. -/
opaque Config.publicKey (seeds : List Byte) : List Byte

/-- Byte `i` of the signature over `msg` with index `index` by the identity key of the seeds (R572). Log 12. -/
opaque Config.signatureByte (seeds : List Byte) (index : Nat) (msg : List Byte) (i : Nat) : Byte

/-- Whether what is programmed into the flash at one use reads back as it was written, by the count of free values
used (R556, R573, R579). Log 49. -/
opaque Config.readbackGood (n : Nat) : Bool

/-- Byte `i` of a signature in the flash that did not read back as it was written, in the same way. Log 49. -/
opaque Config.misreadByte (n i : Nat) : Byte

/-- Oaval's PCI-SIG vendor ID, which the manual does not give (R454). Log 13. -/
opaque Config.vendorId : BitVec 16

/-- The silicon stepping that the revision ID reports (R454). Log 13. -/
opaque Config.stepping : BitVec 8

/-- Oaval's OUI, which the manual does not give (R597). Log 13. -/
opaque Config.oui : BitVec 24

/-- The endpoint UUID that is derived from a serial number (R589). Log 13. -/
opaque Config.uuid (serial : BitVec 128) : BitVec 128

/-- What a PLDM record describes: a numeric sensor, a state sensor or a state effecter (R591). -/
inductive PdrKind where
  | numeric | state | effecter
  deriving DecidableEq, Repr

/-- Unit of a numeric sensor, or the highest state of a state sensor or effecter (R591). -/
inductive PdrUnit where
  | volts256 | amps256 | watts | celsius16
  | states (top : Nat)
  deriving DecidableEq, Repr

/-- A sensor or effecter as the repository describes it, with the thresholds that it reports in its unit (R591). -/
structure PdrEntry where
  id : Nat
  kind : PdrKind
  unit : PdrUnit
  lowerCritical : Option Nat := none
  upperWarning : Option Nat := none
  upperCritical : Option Nat := none
  upperFatal : Option Nat := none
  deriving DecidableEq, Repr

/-- Bytes of the platform descriptor record that describes a sensor or effecter; DSP0248 fixes the layout (R591).
Log 13. -/
opaque Config.pdr (record : PdrEntry) : List Byte

/-- Where firmware places region `n` in the LPDDR5X window of an E-die, before reduction into the
window (R410). Log 63. -/
opaque Config.regionBase (e n : Nat) : Nat

/-- The substitution that the load with serial `gen` puts into force on a C-die of another module, by die
number: bits [15:0] as CDIE_SPARE_MAP gives them (R286). Log 65. -/
opaque Config.remoteMap (die gen : Nat) : W64

/-- Payload bytes of a settings record with these values by setting, whose layout is Oaval's own
(R553). Log 13. -/
opaque Config.settingsByte (values : List (Nat × W64)) (i : Nat) : Byte

/-- A default that stands in the live settings record before SET_SETTING has written it, by setting
number (R553, R594). Log 13. -/
opaque Config.settingDefault (setting : Nat) : W64

/-- Setting 0x05 selects DHCPv4; how the value codes the mode is Oaval's own (R594, R597). Log 13. -/
opaque Config.dhcpMode (v : W64) : Bool

/-- The static IPv4 address that goes with a value of setting 0x05 (R597). Log 13. -/
opaque Config.staticIp4 (v : W64) : W32

end Sys2Proof
end

