-- ==== Sys2Proof/Machine/State.lean ====
section
/-! DEFINITION. Everything the spec gives the module, as plain data, and its value right after
reset. -/

namespace Sys2Proof.Machine

/-! ## The tile (02) -/

/-- TILE_STATUS.STATE (R94). -/
inductive TileState where
  | idle | loaded | running | held | stopped | faulted
  deriving DecidableEq, Repr

/-- A level of the loop stack (R220). -/
structure LoopLevel where
  start : Nat
  fin : Nat
  left : Nat
  deriving DecidableEq, Repr

/-- The files of private registers (R69). -/
inductive RegKind where
  | v | a | s | p | wb | acc
  deriving DecidableEq, Repr

/-- A result in flight: the register, its bits (for an accumulator its rows), the issue count at which it may
be read, and the cycle, waited cycles among them, before which its write ends (R76, R163). -/
structure Busy where
  kind : RegKind
  idx : Nat
  lanes : BitVec 1024
  due : Nat
  ends : Nat
  deriving DecidableEq, Repr

/-- The tag of an accumulator element (R128). -/
inductive Tag where
  | finite | posInf | negInf | nan
  deriving DecidableEq, Repr

/-- An element of an accumulator: its 128-bit integer and its tag (R129). -/
structure AccElem where
  n : BitVec 128
  tag : Tag
  deriving DecidableEq, Repr

/-- A weight buffer (R64, R169): rows of up to 32 bytes, scale bytes, metadata of the rows, the
recorded format and kind, and the cycles, waited ones among them, in which it is written and read (R163,
R171). -/
structure WeightBuf where
  rows : Table (BitVec 256)
  scales : Table Byte
  md : Table W64
  kind : Option (BitVec 4 × Bool)
  written : Option (Nat × Nat)
  readBy : Option (Nat × Nat)
  deriving DecidableEq, Repr

/-- A change of TILE_ACC_STATUS.OVF that an MX instruction makes in a later cycle: when, which
bit, set or clear, and the instruction's word index (R131, R133). `due` counts waited cycles too. -/
structure OvfEvent where
  due : Nat
  acc : Nat
  set : Bool
  pc : BitVec 13
  deriving DecidableEq, Repr

/-- Where the payload of a departing flit comes from (R201, R213, R317): none, a line that is read
now and whose second half is kept, that kept half, 64 bytes at an address, zeros, or the request of
an HBMRD for `len + 1` units from `unit`. -/
inductive FlitSrc where
  | chaff
  | line (addr : Nat)
  | half
  | bytes (addr : Nat)
  | zero
  | request (unit len : Nat)
  deriving DecidableEq, Repr

/-- How the header of a departing flit is built: from the descriptor read last, or already built
(R317). -/
inductive HdrSrc where
  | descriptor (null : Bool) (len : Nat) (beat : BitVec 48)
  | built (h : Header)
  deriving DecidableEq, Repr

/-- What an instruction in flight still does, one access port cycle at a time (R161, R201): a line
of a weight load, the rows of one input line of a product, a descriptor read (of a send, or for the reply
to an HBMRD), a flit that leaves. -/
inductive Micro where
  | weightLine (wb q addr fmt : Nat) (sparse : Bool)
  | product (sparse : Bool) (acc wb fmt first r0 n addr : Nat) (scales : BitVec 1024)
  | descriptor (addr : Nat) (send : Bool)
  | flit (hdr : HdrSrc) (fidx : Nat) (src : FlitSrc)
  deriving DecidableEq, Repr

/-- A step of an instruction in flight: its issue count, and the instruction's word index. -/
structure InFlight where
  due : Nat
  pc : BitVec 13
  op : Micro
  deriving DecidableEq, Repr

/-- A tile (R55). -/
structure Tile where
  state : TileState
  pc : BitVec 13
  bc : BitVec 48
  loops : List LoopLevel
  /-- Words issued in the current beat (R224). -/
  words : Nat
  /-- The tile is at WAITBEAT, or no beat of a job has begun for it (R223). -/
  waiting : Bool
  /-- The tile has raised its hold of this beat (R91, R225). -/
  heldRaised : Bool
  /-- Words issued since the job began: the clock of R163. -/
  clk : Nat
  /-- Cycles since the job began in which the tile waited for a beat, stood in a hold or passed a
  maintenance beat: they count for what is in flight, and for no reader (R79, R131, R163). -/
  idle : Nat
  busy : List Busy
  /-- Steps of instructions in flight, in the order in which they come due (R76, R79). -/
  flight : List InFlight
  /-- The descriptor that the send path read last, and the second half of its last data line. -/
  sendDesc : W64
  sendHalf : Flit
  /-- By path, the issue count at which its occupancy ends (R78, R162). -/
  paths : Table Nat
  /-- SRAM accesses still to come: issue count and bank (R58, R111). -/
  banks : List (Nat × Nat)
  /-- Serial number of the job for registers not yet written in it; 0 before any job (R74). -/
  gen : Nat
  v : Table (BitVec 1024)
  a : Table W32
  s : Table W32
  p : Table W32
  acc : Table AccElem
  wbase : Table (BitVec 10)
  wb0 : WeightBuf
  wb1 : WeightBuf
  ovf : BitVec 4
  ovfEn : BitVec 4
  ovfPend : List OvfEvent
  sram : List Host.Cell
  /-- Word offsets whose ECC holds an uncorrectable, and a correctable, error (R59). -/
  sramBad : List Nat
  sramWeak : List Nat
  /-- Byte ranges `[lo, hi)` of the data SRAM that the image's initial contents, the job or a landed
  packet has written in the current job (R113), and the initial contents of each image bank
  (R279). -/
  known : List (Nat × Nat)
  init0 : List (Nat × Nat)
  init1 : List (Nat × Nat)
  /-- Units with a hardware error that they report at their next instruction (R31, R97). -/
  unitBad : List Nat
  /-- The cycles in which the fill port took a flit in the tile's current job beat, or in a hold slot: which of
  them, and the cycles (R313, R325, R341). -/
  filled : Nat × List Nat
  istore : Table W64
  istoreBad : List Nat
  istoreWeak : List Nat
  /-- Landing-table entries, entry `n` of table `b` at `512 b + n` (R85, R92). -/
  land : Table W64
  /-- The watch set of the pending or standing hold: keys of `land`, which stay across a switch
  (R255, R298). -/
  watch : List Nat
  alloc0 : W32
  alloc1 : W32
  valid0 : Bool
  valid1 : Bool
  span : Bool
  active : Bool
  faultInfo : W32
  faultBeat : W64
  /-- Tile counters by register offset (R98) and their shadows (R510). -/
  counters : Table W64
  shadows : Table W64
  /-- The STOREV of the word before, whose line is written in the cycle of the next word: its address, its lane mask
  and its value (R79, R201). -/
  store : Option (Nat × W32 × BitVec 1024)
  deriving DecidableEq, Repr

def WeightBuf.reset : WeightBuf :=
  { rows := [], scales := [], md := [], kind := none, written := none, readBy := none }

/-- A tile after die reset (R92, R98 to R107; log 3, log 8, log 9). -/
def Tile.reset : Tile :=
  { state := .idle, pc := 0, bc := 0, loops := [], words := 0, waiting := true,
    heldRaised := false, clk := 0, idle := 0, busy := [], flight := [], sendDesc := 0, sendHalf := 0, paths := [], banks := [], gen := 0,
    v := [], a := [], s := [], p := [], acc := [], wbase := [],
    wb0 := WeightBuf.reset, wb1 := WeightBuf.reset,
    ovf := 0, ovfEn := 0, ovfPend := [], sram := [], sramBad := [], sramWeak := [],
    known := [], init0 := [], init1 := [], unitBad := [], filled := (0, []),
    istore := [], istoreBad := [], istoreWeak := [], land := [], watch := [],
    alloc0 := 0, alloc1 := 0, valid0 := false, valid1 := false, span := false, active := false,
    faultInfo := 0, faultBeat := 0, counters := [], shadows := [],
    store := none }

/-! ## Regions, queues and stores of a die (06, 08) -/

/-- A clock region in the current beat (R237 to R240): how late its cycle 0 began, in ps, the
stretched cycles so far, whether it has overrun, and the largest lag found; and the same start,
stretches and overrun of the beat before, in which a tile that is late may still be. -/
structure Region where
  startLag : Nat
  stretches : Nat
  overran : Bool
  lag : Nat
  lastStart : Nat
  lastStretches : Nat
  lastOverran : Bool
  deriving DecidableEq, Repr

/-- A scheduled flit inside a die, in a crossing queue, in the relay store or in an equaliser: the
header of its packet (R316), its index, its payload, the job beat in which it was pushed and how far
into the next slot its push ended, in ps, whether it travels by the late path, the tile that pushed
it, 288 for none of this die; what its port-table entry reserves: the egress code, the job beat,
and the flit time or region cycle; and of a request to the die's own memory its place in the order in which the
die took them (R218, R241 to R243, R265, R321, R324). -/
structure QFlit where
  hdr : Header
  fidx : Nat
  payload : Flit
  beat : Nat
  ready : Nat
  late : Bool
  src : Nat
  egress : Nat
  due : Nat
  time : Nat
  serial : Nat
  deriving DecidableEq, Repr

/-- A flit time of an egress, or a region cycle at a tile, that an on-time packet has in this die:
the egress code, the job beat, the flit time or cycle, the packet's header and the flit's index (R321, R324). -/
structure Reserve where
  egress : Nat
  due : Nat
  time : Nat
  hdr : Header
  idx : Nat
  deriving DecidableEq, Repr

/-- A flit in a delay equaliser: the ingress port, the job beat of its release and its flit
time (R323). -/
structure EqFlit where
  flit : QFlit
  port : Nat
  release : Nat
  time : Nat
  deriving DecidableEq, Repr

/-- Claims of on-time flits on an egress in the slot that ended last: flit times and header attachments
(R326). -/
structure Claims where
  times : List Nat
  headers : Nat
  deriving DecidableEq, Repr

/-- Live interval values of an egress (R337, R338, R398). -/
structure Interval where
  occ : BitVec 256
  peakTimes : Nat
  peakHeaders : Nat
  starved : BitVec 12
  deriving DecidableEq, Repr

/-! ## Links (09) -/

/-- A sequenced entry that the sender keeps until it is acknowledged (R359): of a scheduled flit the header of its
packet, of a control flit the header flit of its packet (R371). -/
structure TxEntry where
  seq : BitVec 24
  code : FlitCode
  hdr : Header
  fidx : Nat
  payload : Flit
  head : Flit
  deriving DecidableEq, Repr

/-- An entry that waits to be sent outside a reserved flit time (R355): replayed, late or
control; whether it holds open the catch-up of R361, the region whose crossing queue it left, 4 for
none (R243), and whether its payload is still in the spill region (R362). -/
structure Waiting where
  entry : TxEntry
  /-- It already has its sequence number (a replay, R359). -/
  again : Bool
  catchUp : Bool
  src : Nat
  spilled : Bool
  deriving DecidableEq, Repr

/-- A control packet that waits for an egress: the ingress that it came in on, 32 for this die, and
its place in the order in which the die took its packets in (R391), and the fabric time in ns of the slot from which
on it has been at the head of its queue (R382). Data flits that have still to arrive follow it (R389). -/
structure CpWait where
  pkt : ControlPacket
  src : Nat
  order : Nat
  headAt : Option Nat
  deriving DecidableEq, Repr

/-- A credit counter of R388. -/
structure Credit where
  adv : BitVec 12
  used : BitVec 12
  ret : BitVec 12
  /-- Credits of this ingress freed so far, to be returned. -/
  freed : BitVec 12
  deriving DecidableEq, Repr

/-- A received exchange kept for the comparison of R498. -/
structure Exchange where
  jobBeat : Nat
  hseq : Byte
  jobnum : Byte
  job : Bool
  held : Bool
  deriving DecidableEq, Repr

/-- The engine of a link, beside its registers (R356 to R392, R496, R497). -/
structure Link where
  /-- Next sequence number to assign. -/
  txSeq : BitVec 24
  /-- Expected number E of the receiver (R357). -/
  rxSeq : BitVec 24
  acked : Bool
  nak : Bool
  /-- NAK was set in the last frame sent (R358). -/
  nakSent : Bool
  /-- ACK + 1 of the replay in progress or just sent (R359). -/
  replayFrom : Option (BitVec 24)
  /-- Fabric time in ns until which a NAK of the same range is ignored, and that of the slot in which
  the last replay started. -/
  nakQuietUntil : Nat
  replayAt : Option Nat
  /-- ACK, ACK_VALID, NAK and the credit counts of the frame in progress, as its control field holds
  them; none before the link's first frame begins (R351). -/
  field : Option Nat
  buffer : List TxEntry
  /-- Entries in the spill region, and how many moved to or from it in the slot with this index (R362). -/
  spill : List TxEntry
  spillSlot : Nat
  spillUsed : Nat
  late : List Waiting
  symbols : List W64
  /-- Control packets that wait for this egress, each with its VC in its header (R382, R390, R391);
  of the one in progress the header, the data flits that can be sent, the index of the next one, how many have
  still to be sent, and its ingress (R377, R389). -/
  ctl : List CpWait
  txHead : Flit
  txControl : List Flit
  txIndex : Nat
  txLeft : Nat
  txSrc : Nat
  /-- Control flits of the packet that is being received, the egress that it takes already, and the
  ingress buffers by virtual channel and class: packets received whole that the die has still to
  route (R377, R387, R389). -/
  rxControl : List Flit
  cut : Option Nat
  arrived : Table (List ControlPacket)
  credits : Table Credit
  creditTurn : Nat
  /-- A cause 0x4 of this link is open, and whether it has still to raise its hold (R246, R361). -/
  causeOpen : Bool
  toRaise : Bool
  /-- The last delayed entry that was sent since the replay started (R361). -/
  lastDelayed : Option (BitVec 24)
  /-- Packets with a flit that left this egress by the late path (R324). -/
  latePackets : List Header
  /-- Beats that one frame spans (R370). -/
  span : Nat
  /-- The far end's training pattern has been received in the training that runs (R373). -/
  heard : Bool
  lockLostAt : Option Nat
  farLocal : Option (BitVec 6)
  delays : List Nat
  xseq : BitVec 16
  prevTx : Stamp
  prevResent : Bool
  rxXseq : Option (BitVec 16)
  rxStamp : Stamp
  exchanges : List Exchange
  alarmAt : Option Nat
  /-- On-time packets that the ingress is receiving: the header, and the far end's job beat and flit
  time of flit 0 (R318, R324). -/
  rxRun : List (Header × Nat × Nat)
  deriving DecidableEq, Repr

def Link.reset : Link :=
  { txSeq := 0, rxSeq := 0, acked := false, nak := false, nakSent := false, replayFrom := none, nakQuietUntil := 0,
    replayAt := none, field := none, buffer := [], spill := [], spillSlot := 0, spillUsed := 0, late := [], symbols := [], ctl := [],
    txHead := 0, txControl := [], txIndex := 0, txLeft := 0, txSrc := 0, rxControl := [], cut := none, arrived := [],
    credits := [], creditTurn := 0, causeOpen := false, toRaise := false, lastDelayed := none,
    latePackets := [], span := 1, heard := false, lockLostAt := none, farLocal := none,
    delays := [], xseq := 0, prevTx := ⟨0, 0⟩, prevResent := false, rxXseq := none,
    rxStamp := ⟨0, 0⟩, exchanges := [], alarmAt := none, rxRun := [] }

/-! ## Holds, epochs and stops (06, 07) -/

/-- A die that holds (R252). -/
structure Holder where
  die : BitVec 16
  beat : Nat
  cause : Nat
  deriving DecidableEq, Repr

/-- The hold engine of a die (R245 to R256). -/
structure Hold where
  seq : Byte
  /-- A hold is pending: the number of job beats still to run after the current one (R250). -/
  left : Option Nat
  holders : List Holder
  /-- The hold stands in this slot (R252). -/
  slot : Option Nat
  closed : Bool
  releases : List (BitVec 16 × Nat)
  /-- Causes this die raised in the pending or standing hold. -/
  mine : List Nat
  released : Bool
  /-- Raises of its units whose symbol is not sent yet: the job beat and the cause (R246). -/
  raised : List (Nat × Nat)
  /-- Symbols already seen (R248). -/
  seen : List W64
  deriving DecidableEq, Repr

def Hold.reset : Hold :=
  { seq := 0, left := none, holders := [], slot := none, closed := false, releases := [],
    mine := [], released := false, raised := [], seen := [] }

/-- The job a die runs (R233, R297, R496). `beat` counts on where the job beat number wraps: the
registers, BC and the symbols hold its low bits (R234). -/
structure Job where
  beat : Nat
  q : W64
  num : Byte
  /-- Job beats since the start or switch (R421). -/
  ran : Nat
  /-- Job beats of the jobs before it, back to the last start (R270, R298). -/
  base : Nat
  /-- The last beat of the job before a switch (R298). -/
  prevLast : Option Nat
  /-- Own hold sequence and job number at recent maintenance beats (R498). -/
  hist : List (Nat × Byte × Byte)
  deriving DecidableEq, Repr

def Job.reset : Job :=
  { beat := 0, q := 0, num := 0, ran := 0, base := 0, prevLast := none, hist := [] }

/-! ## Memory controllers (10) -/

/-- TYPE of a memory schedule entry (R422). -/
inductive SchedType where
  | send | intakeRead | intakeWrite | slotSend
  deriving DecidableEq, Repr

/-- An entry of a memory schedule (R422). -/
structure SchedEntry where
  pos : Nat
  type : SchedType
  len : Nat
  ft0 : Nat
  region : Nat
  addr : Nat
  slot : Nat
  hdr : Header
  deriving DecidableEq, Repr

/-- A memory schedule of an image bank (R421). -/
structure MemSched where
  period : Nat
  entries : List SchedEntry
  deriving DecidableEq, Repr

/-- What a transfer does with its units (R414): it writes them, reads them for a packet, or, for a
SLOT_SEND without a verified adapter, touches none and sends a null packet; a SLOT_SEND entry becomes one or
the other in its performance beat (R435). -/
inductive XferKind where
  | write (data : List Flit)
  | read (hdr : Header)
  | null (hdr : Header)
  | slot (hdr : Header) (slot : Nat)
  deriving DecidableEq, Repr

/-- A transfer that waits for its performance beat (R414 to R416). `order` is 0 for an entry of the
memory schedule, 1 for a local request, 2 for another arrival; `time` is the intake flit time of a local
request, `tile` the tile that issued it, 288 for none, and `serial` its place in issue order (R218); units at or
beyond `bound` read as zero (R435); `wsel` is WSEL of its performance beat, once that has passed (R426); `got` is
what the first part of a transfer in two parts read. -/
structure Xfer where
  beat : Nat
  order : Nat
  time : Nat
  tile : Nat
  serial : Nat
  unit : Nat
  units : Nat
  kind : XferKind
  bound : Option Nat
  wsel : Option W64
  late : Bool
  got : List Flit
  deriving DecidableEq, Repr

/-- Read data whose emission is due (R414, R415). -/
structure Emit where
  beat : Nat
  hdr : Header
  data : List Flit
  late : Bool
  deriving DecidableEq, Repr

/-- A control-plane operation (R380). -/
inductive CpOp where
  | read | write | addI32 | addI64 | addF32
  deriving DecidableEq, Repr

/-- A control-plane request that waits: for a maintenance beat of its die (R51) or for the capacity
of its memory (R419). -/
structure Deferred where
  op : CpOp
  req : Request
  deriving DecidableEq, Repr

/-- An access to a tile window that waits for a maintenance beat of its die: a request of the control plane, or a read
(no value) or a write of a tile register (R51, R80). -/
inductive TileAccess where
  | packet (a : Deferred)
  | register (r : RegTarget) (wide : Bool) (v : Option W64)
  deriving DecidableEq, Repr

/-- The state of a memory controller beside its registers (10). -/
structure MemCtl where
  cells : List Host.Cell
  /-- Units whose check finds an uncorrectable, and a correctable, error (R405, R409). -/
  bad : List Nat
  weak : List Nat
  sched0 : MemSched
  sched1 : MemSched
  xfers : List Xfer
  emits : List Emit
  /-- What WSEL was before, the newest first, each with the count of the last job beat in which it was (R426). -/
  wselPast : List (Nat × W64)
  /-- INTAKE entries already taken by requests: index and job beat since the start (R423). -/
  matched : List (Nat × Nat)
  /-- Units performed in the slot with this index (R415). -/
  usedSlot : Nat
  used : Nat
  /-- Groups that were refreshed last, and how many slots of blackout each has left, the current one included
  (R411). -/
  blackout : List (Nat × Nat)
  m : Nat
  /-- Groups refreshed in the maintenance beat that began last (R411, R413). -/
  refreshed : Nat
  /-- By group, the fabric time of its last refresh in ns (R413). -/
  lastRefresh : Table Nat
  scrub : Nat
  /-- A cause 0x5 of this controller is open, and whether it has still to raise its hold
  (R246, R415). -/
  lateOpen : Bool
  lateToRaise : Bool
  /-- Control-plane accesses that wait for capacity, in order of arrival (R419). -/
  waiting : List Deferred
  /-- The header of the shard check that runs, by word, and the units that the digest engine has read for it, the
  last one first (R419, R431). -/
  check : List W64
  checkRead : List Flit
  /-- The check that runs is a re-digest (R433). -/
  redigest : Bool
  /-- Requests of the die's tiles taken so far (R218). -/
  serial : Nat
  deriving DecidableEq, Repr

def MemCtl.reset : MemCtl :=
  { cells := [], bad := [], weak := [], sched0 := ⟨0, []⟩, sched1 := ⟨0, []⟩, wselPast := [], xfers := [],
    emits := [], matched := [], usedSlot := 0, used := 0, blackout := [], m := 0, refreshed := 0,
    lastRefresh := [], scrub := 0, lateOpen := false, lateToRaise := false, waiting := [],
    check := [], checkRead := [], redigest := false, serial := 0 }

/-! ## Contexts and batches (11) -/

/-- STATE of a context (R465). -/
inductive CtxState where
  | idle | queued | admitted | running | held | faulted
  deriving DecidableEq, Repr

/-- An input or output entry (R464). -/
structure CtxEntry where
  addr : W64
  length : Nat
  offset : Nat
  port : Fin 2
  deriving DecidableEq, Repr

/-- A command that was taken from a ring: its ring, its CMD_ID, and how many resets its port had
seen (R457, R468). -/
structure CmdRef where
  ring : RingRef
  cmdId : BitVec 16
  epoch : Nat
  deriving DecidableEq, Repr

/-- A context record (R464). -/
structure Ctx where
  state : CtxState
  cls : Nat
  eff : Nat
  wsid : BitVec 16
  /-- The weight-set pointer in force: WSID as it was at the last batch boundary (R437). -/
  active : BitVec 16
  submitPort : Fin 2
  cring : Nat
  faultCode : BitVec 16
  userTag : W64
  kvBase : W64
  kvLen : W64
  kvTier : Byte
  position : W32
  waitAge : Nat
  adapterBase : W64
  adapterLen : W32
  inputs : List CtxEntry
  outputs : List CtxEntry
  batchesAdmitted : W64
  inputBytes : W64
  resultBytes : W64
  waitBatches : W64
  ripenings : W64
  inputHolds : W64
  /-- A close that takes effect at the end of the batch, and the command it completes. -/
  closing : Option CmdRef
  deriving DecidableEq, Repr

def Ctx.reset : Ctx :=
  { state := .idle, cls := 0, eff := 0, wsid := 0, active := 0, submitPort := 0, cring := 0, faultCode := 0,
    userTag := 0, kvBase := 0, kvLen := 0, kvTier := 0, position := 0, waitAge := 0,
    adapterBase := 0, adapterLen := 0, inputs := [], outputs := [], batchesAdmitted := 0,
    inputBytes := 0, resultBytes := 0, waitBatches := 0, ripenings := 0, inputHolds := 0,
    closing := none }

/-- An entry of a batch schedule (R473). -/
structure BatchEntry where
  slot : Nat
  reserved : Bool
  emit : Nat
  hdr : Header
  deriving DecidableEq, Repr

/-- A batch schedule of an image bank (R473). -/
structure BatchSched where
  bperiod : Nat
  bfirst : Nat
  inBytes : Nat
  outBytes : Nat
  resSel : Nat
  entries : List BatchEntry
  deriving DecidableEq, Repr

/-- A token slot of the current batch: the context that fills it, its staged record, whether its
DMA failed, whether it was emitted, whether its late packet is owed, whether its result was accepted,
and whether a port reset removed the input or the output entry that it was given (R457, R475 to R478). -/
structure SlotState where
  ctx : Option Nat
  record : Option (List Flit)
  failed : Bool
  emitted : Bool
  owed : Bool
  done : Bool
  inGone : Bool
  outGone : Bool
  adapterBase : W64
  adapterLen : W32
  deriving DecidableEq, Repr

/-- The context engine and batcher of an E-die beside its registers (11). -/
structure CtxEngine where
  /-- Context records by number within the share (R464). -/
  records : Table Ctx
  sched0 : Option BatchSched
  sched1 : Option BatchSched
  /-- A batch has begun in this job (R473). -/
  started : Bool
  batchWsid : BitVec 16
  /-- The set of the batch was behind the barrier of a roll at its boundary (R436, R479). -/
  barred : Bool
  slots : Table SlotState
  /-- The reserved selection of the batch is done (R475). -/
  resDone : Bool
  prevAdmitted : List Nat
  liveFilled : Nat
  liveNull : Nat
  liveWaiting : Nat
  liveRipen : Nat
  /-- CTX_BATCH_CTRL and the rotation in force, and the values written since, each with the count of
  job beats from which it may come into force (R474, R486). -/
  ctrlInForce : W32
  ctrlQueue : List (Nat × W32)
  rotInForce : List (BitVec 16)
  rotQueue : List (Nat × List (BitVec 16))
  /-- Contexts whose copy in the context table share is behind the record (R464). -/
  dirty : List Nat
  deriving DecidableEq, Repr

def CtxEngine.reset : CtxEngine :=
  { records := [], sched0 := none, sched1 := none, started := false, batchWsid := 0xFFFF, barred := false,
    slots := [], resDone := false, prevAdmitted := [], liveFilled := 0, liveNull := 0,
    liveWaiting := 0, liveRipen := 0, ctrlInForce := 0x08000000, ctrlQueue := [],
    rotInForce := [], rotQueue := [], dirty := [] }

/-! ## The die -/

/-- An entry of a die fault log (R513). -/
structure LogEntry where
  sec : W64
  ns : Nat
  code : BitVec 16
  count : Nat
  beat : BitVec 48
  detail : W64
  deriving DecidableEq, Repr

/-- A request of this die whose response is outstanding (R392); `host` names the BAR2 access it
serves (port, read, size; R456); `shard` says that the reader of a weight set waits for it (R430). -/
structure Outstanding where
  tag : BitVec 16
  host : Option (Fin 2 × Bool × Nat)
  shard : Bool
  deriving DecidableEq, Repr

/-- An armed epoch action: its code (R294), its target bank, and its time in ns (R295). -/
structure Armed where
  action : Nat
  target : Bool
  time : Nat
  deriving DecidableEq, Repr

/-- A die (R39). -/
structure Die where
  /-- Die registers that differ from their reset value, by offset (R40). -/
  regs : Table W64
  shadows : Table W64
  sec : W64
  /-- Nanoseconds of the start of the current beat slot (R232, R492; log 2). -/
  ns : Nat
  inReset : Bool
  tiles : Table Tile
  regions : Table Region
  queues : Table (List QFlit)
  relay : List QFlit
  /-- Late flits that arrived at the link switch in the current slot (R322). -/
  incoming : List QFlit
  /-- Flit times and cycles of on-time packets that have still to pass (R324). -/
  reserves : List Reserve
  eq : List EqFlit
  claims : Table Claims
  interval : Table Interval
  links : Table Link
  hold : Hold
  job : Job
  armed : Option Armed
  /-- The active bank of the die's tables and schedules (R297, R328). -/
  bank : Bool
  /-- The stop that this die acted on stands (R300). -/
  stopped : Bool
  outstanding : List Outstanding
  nextTag : BitVec 16
  /-- Control packets that the die has taken in so far (R391). -/
  cpTaken : Nat
  /-- MODULE_NUM has changed: the next maintenance beat sends it to the far ends (R367). -/
  numChanged : Bool
  /-- Control packets delivered here that are still to be performed (R380). -/
  delivered : List ControlPacket
  /-- By source and tag of a MESSAGE packet to E-die 32 that came in at a fabric port of this E-die: the port (R533). -/
  cameBy : Table Nat
  deferred : List TileAccess
  mem : MemCtl
  log : List LogEntry
  /-- Maintenance beats passed, and whether the work of the current one is done. -/
  maintCount : Nat
  maintDone : Bool
  /-- The sensor that is converted next; the power readings since the last refresh of die power, summed,
  and the sums of up to 16 groups of 64 before, newest first (R515). -/
  teleNext : Nat
  powerSum : Nat
  powerSums : List Nat
  ctx : CtxEngine
  /-- By fabric port of an E-die: the fabric time in ns by which its meter is full again, and the packets
  of the management core that wait for it (R568). -/
  meters : Table Nat
  metered : Table (List ControlPacket)
  /-- TIME_BEAT_CTRL.HORIZON was written since the reset (R602). -/
  horizonSet : Bool
  /-- Fence masks in force: the words as of the start of the current job beat (R332). -/
  fence : Table W32
  deriving DecidableEq, Repr

/-- A die after die reset: every register at its Reset column (R16, R539). -/
def Die.reset : Die :=
  { regs := [], shadows := [], sec := 0, ns := 0, inReset := false, tiles := [], regions := [],
    queues := [], relay := [], incoming := [], reserves := [], eq := [], claims := [], interval := [], links := [],
    hold := Hold.reset, job := Job.reset, armed := none, bank := false, stopped := false, outstanding := [], nextTag := 0, cpTaken := 0, numChanged := false,
    delivered := [], cameBy := [], deferred := [], mem := MemCtl.reset, log := [], maintCount := 0, maintDone := false,
    teleNext := 0, powerSum := 0, powerSums := [], ctx := CtxEngine.reset, meters := [],
    metered := [], horizonSet := false, fence := [] }

/-! ## Host ports (11) -/

/-- A completion entry before the fields that its writing gives it (R469). -/
structure Completion where
  type : Nat
  status : Byte
  cmdId : BitVec 16
  context : W32
  value : W64
  bytes : W32
  offset : W32
  position : W32
  detail : W32
  deriving DecidableEq, Repr

/-- A descriptor taken from a ring and not yet performed; `passed` says that its launch time, if it has one, had
passed when it was fetched (R461, R472). -/
structure Taken where
  ring : RingRef
  epoch : Nat
  words : Flit
  passed : Bool
  deriving DecidableEq, Repr

/-- A host port beside the module-wide state (R453 to R463). -/
structure HostPort where
  regs : Table W64
  shadows : Table W64
  /-- Completions owed to a ring that could not take them (R458, R462). -/
  owed : Table (List Completion)
  /-- PHASE of the next entry of a completion ring is 0 (R462). -/
  phase0 : Table Bool
  /-- Rings for which a message was sent that no head doorbell has answered (R463). -/
  msiSent : List Nat
  /-- Port resets seen: completions of commands taken before the last one are discarded
  (R457). -/
  epoch : Nat
  recovery : List Host.Cell
  linkUp : Bool
  /-- Descriptors of a submission ring that a full completion ring keeps the module from taking
  (R461, R462). -/
  untaken : Table (List Flit)
  /-- ECRC generation and checking, enabled through the AER capability (R453). -/
  ecrcGenerate : Bool
  ecrcCheck : Bool
  /-- Uncorrectable errors that the AER capability has recorded (R453). -/
  aer : W32
  deriving DecidableEq, Repr

def HostPort.reset : HostPort :=
  { regs := [], shadows := [], owed := [], phase0 := [], msiSent := [], epoch := 0,
    recovery := [], linkUp := false, untaken := [], ecrcGenerate := false, ecrcCheck := false, aer := 0 }

/-! ## Firmware: weights, loads, power, boot, identity, management (10, 07, 13 to 15) -/

/-- A shard of a resident set: its 64-byte header (R427), the physical die that holds it, whether it
is verified, and how often it was sent again (R432). -/
structure Shard where
  header : List Byte
  die : Nat
  verified : Bool
  resends : Nat
  deriving DecidableEq, Repr

/-- A resident weight set, or with WSID 0xFFFF the adapters of one context (R425, R428, R432): `mixed`
after a roll that did not end, `rolling` behind the barrier of a roll. -/
structure WeightSet where
  wsid : BitVec 16
  slot : Nat
  version : W32
  layers : Nat
  context : Nat
  mixed : Bool
  rolling : Bool
  shards : List Shard
  /-- Base entries on this module: die, first page, pages (R428, R429). -/
  bases : List (Nat × Nat × Nat)
  deriving DecidableEq, Repr

/-- The roll journal (R439). -/
structure Journal where
  seq : W32
  wsid : BitVec 16
  state : Nat
  slot : Nat
  fromV : W32
  toV : W32
  layers : Nat
  layer : Nat
  deriving DecidableEq, Repr

/-- How far the reader is with a shard: it is still to be staged, or request `n` of its payload or of
its header is to be sent or awaits its response, or its status is read, or it is verified (R430). -/
inductive SendStage where
  | staging
  | payload (n : Nat)
  | header (n : Nat)
  | status
  | verified
  deriving DecidableEq, Repr

/-- A shard that the reader distributes: its header, the die number of its destination, how far it is, how often it was
sent again, the host address and what DMA brings from there (none for a shard that a storage appliance writes), and
whether it must be brought afresh (R430, R432). -/
structure ShardSend where
  header : List Byte
  dest : Nat
  stage : SendStage
  resends : Nat
  source : Option (W64 × DmaData) := none
  stale : Bool := false
  deriving DecidableEq, Repr

/-- A weight command that runs (R430, R436): the command, whether a roll still waits for its batches,
whether this module is the reader, the set as its manifest gives it, what the reader sends, in order, the shards of the
manifest that it does not send, and resident shards of other layers that a reset unverified (R438). -/
structure WeightJob where
  cmd : CmdRef
  waiting : Bool
  reader : Bool
  set : WeightSet
  sends : List ShardSend
  rest : List ShardSend := []
  lost : List (List Byte) := []
  deriving DecidableEq, Repr

/-- Firmware's weight state (10). -/
structure Weights where
  sets : List WeightSet
  /-- LOAD_WEIGHT_SET and ROLL commands that run (R438, R471). -/
  loading : Option WeightJob
  rolling : Option WeightJob
  journal : Journal
  deriving DecidableEq, Repr

/-- What a load writes to a tile: instruction words, SRAM contents by start offset, landing entries,
the allocation word, and OVF_FAULT_EN of its control section (R279, R288). -/
structure TilePlan where
  words : List W64
  sram : List (Nat × List Byte)
  land : List W64
  alloc : W32
  ovf : Option (BitVec 4)
  deriving DecidableEq, Repr

/-- How far a load is: in its checks; a live load that still writes the tiles of these dies, or that
sets their VALID bit, or clears it for the code that ends it, in their maintenance beats
(R288, R290). -/
inductive LoadStage where
  | checking
  | writing (bank : Bool) (tiles : List (Nat × List (Nat × TilePlan)))
  | marking (bank : Bool) (dies : List Nat) (code : Nat)
  deriving DecidableEq, Repr

/-- The LOAD_SCHEDULE command that runs and waits (R288, R290, R291, R370). -/
structure LoadJob where
  cmd : CmdRef
  image : List Byte
  placement : W32
  /-- Steps 1 to 3 have passed. -/
  linksDone : Bool
  stage : LoadStage
  deriving DecidableEq, Repr

/-- A power-state entry or restore that runs (R532, R536). -/
inductive PowerMove where
  | none
  | entering (target : Nat)
  | restoring
  deriving DecidableEq, Repr

/-- Who asked for a power state or a reset, and is answered: a ring command, a management message
with the control packet that carried it, or the PLDM effecter (R531, R591). -/
inductive AskFrom where
  | ring (c : CmdRef)
  | message (command : Byte) (m : MgmtMsg) (q : Option Request)
  | effecter (path : MgmtPath)
  deriving DecidableEq, Repr

/-- A request for a power state, or with no target for a module warm reset; PERMIT as it asks
(R531). -/
structure Ask where
  source : AskFrom
  target : Option Nat
  permit : Bool
  deriving DecidableEq, Repr

/-- Why every rail is off (R527, R523, R529). -/
inductive Rails where
  | on | p4 | tripped | lost
  deriving DecidableEq, Repr

/-- The germ and the power firmware beside the germ registers (13). -/
structure Germ where
  rails : Rails
  move : PowerMove
  /-- The entry that runs was started by the idle timer (R547). -/
  byTimer : Bool
  /-- Requests that wait for the end of an entry or a restore, in order (R535, R595). -/
  asked : List Ask
  /-- Consecutive 10 us samples at or above 4.2 kW (R525). -/
  clampRun : Nat
  /-- Consecutive 10 us samples below 34 V (R523). -/
  lowRun : Nat
  /-- Voltage times current of the samples of the last second, in 1/65536 W, newest first (R525, R541). -/
  powers : List Nat
  /-- 10 us samples in a row below 38 V, and above 50 V: how many, and the extreme voltage (R523). -/
  underRun : Option (Nat × Nat)
  overRun : Option (Nat × Nat)
  /-- A wake arrived during the entry that runs (R535). -/
  latched : Bool
  /-- Sensors last seen at or above 90 degrees, with their temperature (R527). -/
  warm : Table Nat
  deriving DecidableEq, Repr

/-- A configuration record as the flash holds it (R552, R553). -/
structure Record where
  magic : W32 := 0x44434652
  type : BitVec 16
  signer : Byte
  seq : W64
  subject : BitVec 16
  /-- The reserved bytes 0x07 and 0x16 to 0x1F. -/
  reserved : BitVec 88 := 0
  payload : List Byte
  sig : List Byte
  deriving DecidableEq, Repr

/-- The configuration flash (R550): the records of the factory area and of the record banks, whether
bank B is the active one, and the firmware image slot, empty when erased; `torn` when a reset
interrupted its programming (R566). -/
structure Flash where
  factory : List Record
  banks : List Record
  bankB : Bool
  slot : List Byte
  torn : Bool
  deriving DecidableEq, Repr

/-- An update or recovery that programs the firmware slot (R564 to R566). -/
structure Programming where
  port : Fin 2
  recovery : Bool
  floor : Bool
  image : List Byte
  deriving DecidableEq, Repr

/-- Boot, firmware and identity beside the CFG_ block (14). -/
structure Boot where
  cfg : Table W64
  flash : Flash
  /-- DIGEST of the running image (R576). -/
  digest : BitVec 256
  programming : Option Programming
  /-- LAST_RESET of a warm reset that waits for the end of programming (R566). -/
  delayedReset : Option Nat
  /-- The last attestation report signed (R596). -/
  report : List Byte
  /-- The image in the slot was installed by recovery since power-on (R570). -/
  recovered : Bool
  deriving DecidableEq, Repr

/-- The servo beside its registers (R501, R502): acc and adj in units of 1/4096 ppb. -/
structure Servo where
  acc : Int
  adj : Int
  good : Nat
  stepAllow : Bool
  /-- Port, GM_MODULE and GM_SOURCE of the master (R502). -/
  master : Option (Nat × Nat × Nat)
  /-- The Sync that has still to give its offset: sequence number, arrival and, once known, origin; origin and
  arrival of the last Sync that was known whole; and the mean path delay of the last delay exchange, in 1/16 ns
  (R503). -/
  ptpSync : Option (BitVec 16 × Stamp × Option Stamp)
  ptpLast : Option (Stamp × Stamp)
  ptpDelay : Option Int
  /-- Fabric time of E-die 32 in ns at the last valid sample of the source, or when the source, the time or the servo's
  operation last began anew (R502). -/
  lastSample : Nat
  /-- The 1PPS output is high, and the fabric time in ns at which it rose (R504). -/
  ppsHigh : Bool
  ppsAt : Nat
  ref10m : Bool
  deriving DecidableEq, Repr

/-- A management request that waits: the microsecond of its arrival, its command and the message; over the control
plane the MESSAGE packet that carries it (R595). -/
structure MgmtReq where
  us : Nat
  command : Byte
  msg : MgmtMsg
  packet : Option Request
  deriving DecidableEq, Repr

/-- The management endpoint (15). -/
structure Mgmt where
  /-- The address straps ADDR1 and ADDR0 of the tray (R588). -/
  straps : BitVec 2
  eid : Byte
  tid : Byte
  i3cAddr : BitVec 7
  /-- Requests that wait to be served, at most 8 (R595). -/
  queue : List MgmtReq
  /-- State asked for through effecter 0x2000 (R591). -/
  effecter : Byte
  ip4 : W32
  ip6 : BitVec 128
  /-- Settings by number: of the live settings record, and as the last reset put them into force
  (R594). -/
  settings : Table W64
  inForce : Table W64
  deriving DecidableEq, Repr

/-- What leaves the module, as the outside world sees it; newest first in `State.sent`. -/
inductive Emission where
  | symbol (d port : Nat) (sym : W64)
  | frame (d port : Nat) (bits : FrameBits)
  | exchange (d port : Nat) (own : FarEnd)
  | moduleNum (d port num : Nat)
  | stamps (d port : Nat) (own : List (Stamp × Stamp))
  | pattern (d port : Nat)
  | wakePattern (d port : Nat)
  | dmaRead (p : Fin 2) (ecrc : Bool) (addr : W64) (len : Nat)
  | dmaWrite (p : Fin 2) (ecrc : Bool) (addr : W64) (data : List Byte)
  | completion (p : Fin 2) (ecrc : Bool) (ring : Nat) (addr : W64) (entry : List Byte)
  | msix (p : Fin 2) (ecrc : Bool) (vector : Nat) (addr : W64) (data : W32)
  | bar2 (p : Fin 2) (data : W64)
  | regRead (r : RegTarget) (data : W64)
  | mgmt (path : MgmtPath) (addr : BitVec 128) (port : BitVec 16) (head : List Byte) (command tag : Byte) (cc : Byte)
      (body : List Byte)
  | ibi (addr : BitVec 7)
  | mctp (path : MgmtPath) (command : String) (cc : Byte) (body : List Byte)
  | ethernet (kind : String) (body : List Byte)
  | pps (high : Bool)
  | mgmtPacket (d : Nat) (q : Request)
  deriving DecidableEq, Repr

/-- A SNAPSHOT command: whether it has been armed, the dies that miss it, those that have taken it, and the E-dies
that have copied their context counters for it (R508, R511). -/
structure SnapJob where
  cmd : CmdRef
  desc : Desc
  armed : Bool
  out : List Nat
  taken : List Nat
  copied : List Nat
  deriving DecidableEq, Repr

/-- The module. -/
structure State where
  pending : List Instr
  sent : List Emission
  dies : Table Die
  port0 : HostPort
  port1 : HostPort
  taken : List Taken
  weights : Weights
  load : Option LoadJob
  /-- SNAPSHOT commands that have not completed, in the order in which they were performed (R508). -/
  snaps : List SnapJob
  germ : Germ
  boot : Boot
  servo : Servo
  mgmt : Mgmt
  /-- Placement of the image in each bank of the module (R282, R290). -/
  placed0 : Option W32
  placed1 : Option W32
  /-- Serial number of the substitutions in force on the other modules of the slice: of the last load made
  without a job (R286, log 65). -/
  remoteGen : Nat
  /-- Jobs started so far: the serial number of the last one (R74). -/
  jobs : Nat
  /-- Free values used so far: the model's own field (log 1). -/
  fz : Nat
  /-- By die, the slot in which its fabric time was last seen or set, and how far into that slot, in ns: the model's own
  field (R493, log 2). -/
  ticks : Table (Nat × Nat)
  deriving DecidableEq, Repr

/-- Why the machine stops with a fault. -/
inductive Fault where
  /-- The spec calls the case undefined and gives it no effect; `rule` is the number of the rule
  that says so. Raised by the meaning whose operands fall in the case. Safe: the run ends, so
  nothing is claimed about what follows. -/
  | undefinedCase (rule : Nat)
  deriving DecidableEq, Repr

/-- Why the machine refuses a command. -/
inductive Refusal where
  /-- The command has no meaning in the model; raised by the arm of `exec` alone. Safe. -/
  | notModelled (mnemonic : String)
  deriving DecidableEq, Repr

/-- The module right after reset: every register at the value of its Reset column, every die
released, nothing queued (log 4). -/
def State.reset : State :=
  { pending := [], sent := [], dies := [], port0 := HostPort.reset, port1 := HostPort.reset,
    taken := [],
    weights := { sets := [], loading := none, rolling := none,
                 journal := ⟨0, 0, 0, 0, 0, 0, 0, 0⟩ },
    load := none, snaps := [],
    germ := { rails := .on, move := .none, byTimer := false, asked := [], clampRun := 0, lowRun := 0, powers := [],
              underRun := none, overRun := none, latched := false, warm := [] },
    boot := { cfg := [], flash := ⟨[], [], false, [], false⟩, digest := 0, programming := none,
              delayedReset := none, report := [], recovered := false },
    servo := { acc := 0, adj := 0, good := 0, stepAllow := false, master := none, ptpSync := none,
               ptpLast := none, ptpDelay := none, lastSample := 0, ppsHigh := false, ppsAt := 0, ref10m := false },
    mgmt := { straps := 0, eid := 0, tid := 0, i3cAddr := 0, queue := [], effecter := 0, ip4 := 0, ip6 := 0,
              settings := [], inForce := [] },
    placed0 := none, placed1 := none, remoteGen := 0, jobs := 0, fz := 0, ticks := [] }

end Sys2Proof.Machine
end

