-- ==== Sys2Proof/Machine/Regs.lean ====
section
/-! DEFINITION. The register maps: for every offset its width, its reset value and the access code
of each bit (R13, R16, R17), and the names of the offsets. -/

namespace Sys2Proof.Machine

/-- What a register map says of one register: its width (64 bits when `wide`), its reset value, the
bits of each access code (R13) and whether it is a cumulative counter (R507). Bits in no mask are
RO. -/
structure RegInfo where
  wide : Bool
  reset : W64
  rw : W64
  w1c : W64
  rc : W64
  wo : W64
  counter : Bool
  deriving DecidableEq, Repr

/-- Bits `[hi:lo]` set. -/
def maskOf (hi lo : Nat) : W64 := setBits 0 hi lo (2 ^ (hi + 1 - lo) - 1)

def ro32 (reset : W64) : RegInfo := ⟨false, reset, 0, 0, 0, 0, false⟩
def ro64 (reset : W64) : RegInfo := ⟨true, reset, 0, 0, 0, 0, false⟩
def rw32 (mask reset : W64) : RegInfo := ⟨false, reset, mask, 0, 0, 0, false⟩
def rw64 (mask reset : W64) : RegInfo := ⟨true, reset, mask, 0, 0, 0, false⟩
def ctr64 : RegInfo := ⟨true, 0, 0, 0, 0, 0, true⟩
def ctr32 : RegInfo := ⟨false, 0, 0, 0, 0, 0, true⟩
def all32 : W64 := maskOf 31 0
def all64 : W64 := maskOf 63 0

/-! ## Names of die register offsets -/

abbrev rDieId : Nat := 0x0
abbrev rSpareMap : Nat := 0x8
abbrev rSpareMapNext : Nat := 0xC
abbrev rBeatCtrl : Nat := 0x20000
abbrev rJobBeat : Nat := 0x20008
abbrev rHoldStatus : Nat := 0x20010
abbrev rHoldTimeout : Nat := 0x20018
abbrev rHoldLastInfo : Nat := 0x20020
abbrev rHoldLastLen : Nat := 0x20024
abbrev rHoldLastBeat : Nat := 0x20028
abbrev rHoldBeatsJob : Nat := 0x20030
abbrev rHoldsTaken : Nat := 0x20040
abbrev rHoldBeats : Nat := 0x20048
/-- TIME_HOLDS_RAISED of cause `c` is at this offset plus `8 (c - 1)`. -/
abbrev rHoldsRaised : Nat := 0x20050
abbrev rSymbolsSent : Nat := 0x20090
abbrev rSymbolsLost : Nat := 0x20098
/-- Region blocks: `0x2_0100 + 0x40 r` (R265). -/
abbrev rRegion : Nat := 0x20100
abbrev rEpochCtrl : Nat := 0x20200
abbrev rEpochSec : Nat := 0x20208
abbrev rEpochNs : Nat := 0x20210
abbrev rStopInfo : Nat := 0x20300
abbrev rStopBeat : Nat := 0x20308
abbrev rStopDetail : Nat := 0x20310
abbrev rStopFlits : Nat := 0x20318
abbrev rTimeNow : Nat := 0x20400
abbrev rTimeSecHi : Nat := 0x20408
abbrev rSetSec : Nat := 0x20410
abbrev rSetNs : Nat := 0x20418
abbrev rServoCtrl : Nat := 0x20420
abbrev rServoStatus : Nat := 0x20424
abbrev rServoOffset : Nat := 0x20428
abbrev rServoFreq : Nat := 0x2042C
abbrev rServoGain : Nat := 0x20430
abbrev rJump : Nat := 0x20434
abbrev rPpsCtrl : Nat := 0x20438
abbrev rNbr0 : Nat := 0x20440
abbrev rNbr1 : Nat := 0x20444
abbrev rPortAsym : Nat := 0x20480
abbrev rPortOffset : Nat := 0x204C0
abbrev rSnapSec : Nat := 0x20500
abbrev rSnapNs : Nat := 0x20508
abbrev rSnapCtrl : Nat := 0x2050C
abbrev rSnapBeat : Nat := 0x20510
abbrev rCtxShadow : Nat := 0x20518
abbrev rExchSent : Nat := 0x20580
abbrev rExchRecv : Nat := 0x20588
abbrev rSamplesDisc : Nat := 0x20590
abbrev rServoUpdates : Nat := 0x20598
abbrev rStepsRefused : Nat := 0x205A0
abbrev rHoldovers : Nat := 0x205A8
abbrev rBeatChecks : Nat := 0x205B0
abbrev rBeatSkipped : Nat := 0x205B8
abbrev rAlignAlarms : Nat := 0x205C0
abbrev rFence0 : Nat := 0x30100
abbrev rFence1 : Nat := 0x30180
abbrev rCpCtrl : Nat := 0x30200
abbrev rCpEscapeTime : Nat := 0x30204
abbrev rCpReqTimeout : Nat := 0x30208
abbrev rCpMap0 : Nat := 0x30210
abbrev rCpMap1 : Nat := 0x30220
abbrev rCpDelivered : Nat := 0x30230
abbrev rCpErrors : Nat := 0x30238
abbrev rCpDropped : Nat := 0x30240
abbrev rCpTimedOut : Nat := 0x30248
abbrev rCpRate : Nat := 0x30300
abbrev rCpRateWaits : Nat := 0x30310
/-- Egress blocks: `0x3_1000 + 0x80 p` (R335). -/
abbrev rEgress : Nat := 0x31000
/-- Link blocks: `0x4_0000 + 0x200 p` (R394). -/
abbrev rLink : Nat := 0x40000
abbrev rMemStatus : Nat := 0x50000
abbrev rAperture0 : Nat := 0x50008
abbrev rWsel : Nat := 0x50010
abbrev rErrUnit : Nat := 0x50018
abbrev rAperture1 : Nat := 0x50020
abbrev rUnitsRead : Nat := 0x50040
abbrev rUnitsWritten : Nat := 0x50048
abbrev rEccCorrected : Nat := 0x50050
abbrev rEccUncorrectable : Nat := 0x50058
abbrev rRefreshes : Nat := 0x50060
abbrev rRefreshesHold : Nat := 0x50068
abbrev rTransfersLate : Nat := 0x50070
abbrev rCpUnits : Nat := 0x50078
abbrev rScrubUnits : Nat := 0x50080
abbrev rSetBase : Nat := 0x50100
abbrev rLpddrRegion : Nat := 0x50400
abbrev rShardHdr : Nat := 0x51000
abbrev rShardStatus : Nat := 0x51040
abbrev rShardsVerified : Nat := 0x51048
abbrev rShardsMismatched : Nat := 0x51050
abbrev rWtCtrl : Nat := 0x52000
abbrev rWtRefetched : Nat := 0x52008
abbrev rWtRedigest : Nat := 0x52010
abbrev rBatchCtrl : Nat := 0x60000
abbrev rBatchIndex : Nat := 0x60008
abbrev rRotation : Nat := 0x60010
abbrev rRotationLen : Nat := 0x60030
abbrev rBatchFilled : Nat := 0x60100
abbrev rBatchNull : Nat := 0x60104
abbrev rBatchWaiting : Nat := 0x60108
abbrev rBatchRipen : Nat := 0x6010C
abbrev rBatchOvf : Nat := 0x60110
abbrev rCtxAdmitted : Nat := 0x60200
abbrev rResultsDelivered : Nat := 0x60208
abbrev rResultsDiscarded : Nat := 0x60210
abbrev rResultsMissing : Nat := 0x60218
abbrev rCtxInputHolds : Nat := 0x60220
abbrev rFaultLog : Nat := 0x70000
abbrev rLogHead : Nat := 0x72000
abbrev rLogOverwritten : Nat := 0x72008
abbrev rDieTempMax : Nat := 0x80000
abbrev rDiePower : Nat := 0x80004
abbrev rRegionTemp : Nat := 0x80010
abbrev rPwrStatus : Nat := 0x80100
abbrev rIdleCtrl : Nat := 0x80104
abbrev rWakeEn : Nat := 0x80108
abbrev rWakeCause : Nat := 0x8010C
abbrev rResetCtrl : Nat := 0x80110
abbrev rDieResetMask : Nat := 0x80118
abbrev rPwrInput : Nat := 0x80120
abbrev rModulePower : Nat := 0x80124
abbrev rTripInfo : Nat := 0x80128
abbrev rClampTrips : Nat := 0x80140
abbrev rThermalTrips : Nat := 0x80148
abbrev rPowerAlarms : Nat := 0x80150
abbrev rStateEntries : Nat := 0x80158
abbrev rWakesLatched : Nat := 0x80160
abbrev rWarmResets : Nat := 0x80168
abbrev rDieResets : Nat := 0x80170
abbrev rWakeSend : Nat := 0x80180
abbrev rRoute0 : Nat := 0x100000
abbrev rRoute1 : Nat := 0x108000
/-- Shadows of die registers: `0x80_0000 + x` (R510). -/
abbrev rShadow : Nat := 0x800000

/-! Offsets in a link block (R394). -/

abbrev lCtrl : Nat := 0x0
abbrev lStatus : Nat := 0x4
abbrev lDownTime : Nat := 0x8
abbrev lReplayTimeout : Nat := 0xC
abbrev lDelay : Nat := 0x10
abbrev lCreditAdv : Nat := 0x18
abbrev lTxSequenced : Nat := 0x40
abbrev lRxAccepted : Nat := 0x48
abbrev lRxCheckFailed : Nat := 0x50
abbrev lRxDuplicate : Nat := 0x58
abbrev lRxOutOfOrder : Nat := 0x60
abbrev lReplayed : Nat := 0x68
abbrev lReplays : Nat := 0x70
abbrev lReplayTimeouts : Nat := 0x78
abbrev lNaksSent : Nat := 0x80
abbrev lSpilled : Nat := 0x88
abbrev lDiscarded : Nat := 0x90
abbrev lRetrains : Nat := 0x98
abbrev lTrainFailures : Nat := 0xA0
abbrev lLinkDowns : Nat := 0xA8
abbrev lFecCorrected : Nat := 0xB0
abbrev lFecUncorrectable : Nat := 0xB8
abbrev lControlFailed : Nat := 0xC0
abbrev lCreditIgnored : Nat := 0xC8
abbrev lEqLate : Nat := 0xD0
abbrev lEscaped : Nat := 0xD8
abbrev lCreditWait : Nat := 0xE0
abbrev lStarveMap : Nat := 0xE8

/-! ## Kinds of dies and ports -/

/-- The die is an E-die (R19). -/
def isEDie (d : Nat) : Bool := 32 ≤ d

/-- The die has an egress with this port code (R320, R335). -/
def hasPort (d p : Nat) : Bool :=
  if isEDie d then (8 ≤ p && p ≤ 11) || p == 16 + 2 * (d - 32) || p == 17 + 2 * (d - 32)
  else p ≤ 5

/-- The port code is a fabric port (R320). -/
def isFabricPort (p : Nat) : Bool := 16 ≤ p && p ≤ 31

/-- The port codes of a die, in order. -/
def portsOf (d : Nat) : List Nat := (List.range 32).filter (hasPort d)

/-- Reset value of a word of FAB_CPMAP0 and FAB_CPMAP1 (R385): entry `n` is byte `n`. -/
def cpMapReset (d word : Nat) : W64 :=
  let entry := fun n =>
    if isEDie d then
      if n < 4 then 8 + n else if n == 4 then 16 + 2 * (d - 32)
      else if n == 5 then 17 + 2 * (d - 32) else 0x3F
    else if n ≤ 5 then n else 0x3F
  BitVec.ofNat 64 (entry (4 * word) + entry (4 * word + 1) * 2 ^ 8 + entry (4 * word + 2) * 2 ^ 16
    + entry (4 * word + 3) * 2 ^ 24)

/-- A register of a link block (R394 to R398). DESIGN CHOICE: LNK_REPLAY_TIMEOUT of a fabric port is 0 before its first
training (log 82). -/
def linkReg (fabric : Bool) (off : Nat) : Option RegInfo :=
  if off == lCtrl then
    some { wide := false, reset := 0, rw := maskOf 30 30 ||| maskOf 27 26 ||| maskOf 18 16 ||| 1,
           w1c := 0, rc := 0, wo := maskOf 31 31, counter := false }
  else if off == lStatus then some { ro32 0 with w1c := maskOf 21 21 }
  else if off == lDownTime then some (rw32 (maskOf 16 0) 2000)
  else if off == lReplayTimeout then some (rw32 (maskOf 23 0) (if fabric then 0 else 64))
  else if off == lDelay then some (ro32 0)
  else if 0x18 ≤ off && off ≤ 0x2C && off % 4 == 0 then some (ro32 0)
  else if 0x40 ≤ off && off ≤ 0xE0 && off % 8 == 0 then some ctr64
  else if off == lStarveMap then some (ro32 0)
  else none

/-- A register of an egress block (R335 to R338). -/
def egressReg (off : Nat) : Option RegInfo :=
  if off ≤ 0x30 && off % 8 == 0 then some ctr64
  else if off == 0x38 || off == 0x3C then some (ro32 0)
  else if 0x40 ≤ off && off ≤ 0x58 && off % 8 == 0 then some (ro64 0)
  else none

/-- A register of a region block (R265, R271, R272). -/
def regionReg (off : Nat) : Option RegInfo :=
  if off == 0 then some { ro32 0 with rc := maskOf 15 0 }
  else if off == 0x8 || off == 0x10 || off == 0x18 then some ctr64
  else if off == 0x20 then some (ro32 0)
  else none

/-- Time registers of a die (R516 to R519). -/
def timeReg (d off : Nat) : Option RegInfo :=
  let e32 := d == 32
  let only := fun (b : Bool) (r : RegInfo) => if b then some r else none
  if off == rTimeNow then some (ro64 0)
  else if off == rTimeSecHi then some (ro32 0)
  else if off == rSetSec then only e32 (rw64 all64 0)
  else if off == rSetNs then only e32 (rw32 (maskOf 29 0) 0)
  else if off == rServoCtrl then
    only e32 { wide := false, reset := 0x30002710, rw := maskOf 29 28 ||| maskOf 15 0, w1c := 0,
               rc := 0, wo := maskOf 31 30, counter := false }
  else if off == rServoStatus then only e32 { ro32 (BitVec.ofNat 64 (3 * 2 ^ 19)) with w1c := maskOf 29 29 }
  else if off == rServoOffset || off == rServoFreq then only e32 (ro32 0)
  else if off == rServoGain then only e32 (rw32 all32 0x00800004)
  else if off == rJump then only e32 (rw32 (maskOf 15 0) 100)
  else if off == rPpsCtrl then
    only e32 (rw32 (maskOf 31 31 ||| maskOf 23 0) 0x00640000)
  else if off == rNbr0 || off == rNbr1 then only e32 (rw32 all32 0)
  else if rPortAsym ≤ off && off < rPortAsym + 64 && off % 4 == 0 then
    only e32 (rw32 (maskOf 15 0) 0)
  else if rPortOffset ≤ off && off < rPortOffset + 64 && off % 4 == 0 then only e32 (ro32 0)
  else if off == rSnapSec then some (rw64 all64 0)
  else if off == rSnapNs then some (rw32 (maskOf 29 0) 0)
  else if off == rSnapCtrl then some { ro32 0 with wo := maskOf 16 16 }
  else if off == rSnapBeat then some (ro64 0)
  else if off == rCtxShadow then only (isEDie d) (ro64 0)
  else if off == rExchSent || off == rExchRecv || off == rSamplesDisc || off == rBeatChecks
      || off == rBeatSkipped then some ctr64
  else if off == rServoUpdates || off == rStepsRefused || off == rHoldovers
      || off == rAlignAlarms then only e32 ctr64
  else none

/-- Beat, hold, epoch and stop registers of a die (R265 to R272, R293, R294). -/
def beatReg (d off : Nat) : Option RegInfo :=
  if off == rBeatCtrl then
    some (rw32 (maskOf 31 31 ||| maskOf 25 16 ||| maskOf 12 8) 0x1E00)
  else if off == rJobBeat then some (ro64 0)
  else if off == rHoldStatus then some (ro32 0)
  else if off == rHoldTimeout then some (rw32 all32 0x00100000)
  else if off == rHoldLastInfo || off == rHoldLastLen then some (ro32 0)
  else if off == rHoldLastBeat || off == rHoldBeatsJob then some (ro64 0)
  else if off == rHoldsTaken || off == rHoldBeats then some ctr64
  else if rHoldsRaised ≤ off && off ≤ 0x20080 && off % 8 == 0 then some ctr64
  else if off == rSymbolsSent || off == rSymbolsLost then some ctr64
  else if rRegion ≤ off && off < rRegion + 0x100 then
    if isEDie d then none else regionReg ((off - rRegion) % 0x40)
  else if off == rEpochCtrl then
    some { wide := false, reset := 0, rw := maskOf 11 9, w1c := maskOf 30 28, rc := 0,
           wo := maskOf 2 0, counter := false }
  else if off == rEpochSec then some (rw64 all64 0)
  else if off == rEpochNs then some (rw32 (maskOf 29 0) 0)
  else if off == rStopInfo then some (ro32 0)
  else if off == rStopBeat || off == rStopDetail then some (ro64 0)
  else if off == rStopFlits then some ctr64
  else none

/-- Data-plane and control-plane registers of a die (R335, R400, R568). -/
def fabReg (d off : Nat) : Option RegInfo :=
  if rFence0 ≤ off && off < rFence0 + 0x100 && off % 4 == 0 then some (rw32 all32 0)
  else if off == rCpCtrl then some (rw32 1 0)
  else if off == rCpEscapeTime then some (rw32 (maskOf 19 0) 2000)
  else if off == rCpReqTimeout then some (rw32 (maskOf 23 0) 10000)
  else if rCpMap0 ≤ off && off < rCpMap0 + 0x20 && off % 4 == 0 then
    some (rw32 all32 (cpMapReset d ((off - rCpMap0) / 4 % 4)))
  else if rCpDelivered ≤ off && off ≤ rCpTimedOut && off % 8 == 0 then some ctr64
  else if off == rCpRate || off == rCpRate + 4 then
    if isEDie d then some (rw32 (maskOf 15 0) 40) else none
  else if off == rCpRateWaits || off == rCpRateWaits + 8 then
    if isEDie d then some ctr64 else none
  else if rEgress ≤ off && off < rEgress + 0x80 * 32 then
    if hasPort d ((off - rEgress) / 0x80) then egressReg ((off - rEgress) % 0x80) else none
  else none

/-- Memory, shard and weight registers of a die (R442 to R447). -/
def memReg (d off : Nat) : Option RegInfo :=
  if off == rMemStatus || off == rWsel then some (ro32 0)
  else if off == rAperture0 || off == rAperture1 then some (rw64 all64 0)
  else if off == rErrUnit then some (ro64 0)
  else if 0x50040 ≤ off && off ≤ 0x50080 && off % 8 == 0 then some ctr64
  else if rSetBase ≤ off && off < 0x50300 && off % 8 == 0 then some (rw64 all64 0)
  else if rLpddrRegion ≤ off && off < 0x50480 && off % 8 == 0 then
    if isEDie d then some (ro64 0) else none
  else if rShardHdr ≤ off && off < 0x51040 && off % 8 == 0 then some (rw64 all64 0)
  else if off == rShardStatus then some (ro32 0)
  else if off == rShardsVerified || off == rShardsMismatched then some ctr64
  else if off == rWtCtrl then if d == 32 then some (rw32 all32 0x031803E8) else none
  else if off == rWtRefetched || off == rWtRedigest then if d == 32 then some ctr64 else none
  else none

/-- Batcher registers of an E-die (R485, R486). -/
def ctxReg (d off : Nat) : Option RegInfo :=
  if off == rBatchCtrl then some (rw32 (maskOf 31 24 ||| 1) 0x08000000)
  else if off == rBatchIndex then some (ro64 0)
  else if rRotation ≤ off && off < 0x60030 && off % 4 == 0 then
    if d == 32 then some (rw32 all32 0xFFFFFFFF) else none
  else if off == rRotationLen then if d == 32 then some (rw32 (maskOf 4 0) 0) else none
  else if 0x60100 ≤ off && off ≤ rBatchOvf && off % 4 == 0 then some (ro32 0)
  else if 0x60200 ≤ off && off ≤ 0x60220 && off % 8 == 0 then some ctr64
  else none

/-- Telemetry and germ registers (R516, R541 to R545). -/
def pwrReg (d off : Nat) : Option RegInfo :=
  if off == rDieTempMax || off == rDiePower then some (ro32 0)
  else if rRegionTemp ≤ off && off < rRegionTemp + (if isEDie d then 8 else 20) && off % 4 == 0 then
    some (ro32 0)
  else if off == rWakeSend then
    if isEDie d then some { ro32 0 with wo := maskOf 1 0 } else none
  else if d != 32 then none
  else if off == rPwrStatus then some { ro32 0 with w1c := maskOf 25 25 }
  else if off == rIdleCtrl then some (rw32 (maskOf 30 28 ||| maskOf 19 0) 0x10000258)
  else if off == rWakeEn then some (rw32 0xFFFF000F 0xFFFF000F)
  else if off == rWakeCause then some { ro32 0 with w1c := 0xFFFF800F }
  else if off == rResetCtrl then some { ro32 0 with wo := maskOf 31 31 ||| maskOf 15 0 }
  else if off == rDieResetMask then some { ro64 0 with wo := maskOf 39 0 }
  else if off == rPwrInput then some (ro32 0)
  else if off == rModulePower then some { ro32 0 with rc := maskOf 15 0 }
  else if off == rTripInfo then some (ro64 0)
  else if rClampTrips ≤ off && off ≤ rDieResets && off % 8 == 0 then some ctr64
  else none

/-- The register of a die at an offset, `none` where the map has none (R40, R50). -/
def dieReg (d off : Nat) : Option RegInfo :=
  if off == rDieId then
    some { wide := false, reset := BitVec.ofNat 64 ((if isEDie d then 64 else 0) + d),
           rw := maskOf 25 16, w1c := maskOf 31 31, rc := 0, wo := 0, counter := false }
  else if off == rSpareMap || off == rSpareMapNext then
    if isEDie d then none else some (ro32 0xFFFF)
  else if 0x20000 ≤ off && off < 0x20400 then beatReg d off
  else if 0x20400 ≤ off && off < 0x30000 then timeReg d off
  else if 0x30000 ≤ off && off < 0x40000 then fabReg d off
  else if rLink ≤ off && off < rLink + 0x200 * 32 then
    let p := (off - rLink) / 0x200
    if hasPort d p then linkReg (isFabricPort p) ((off - rLink) % 0x200) else none
  else if 0x50000 ≤ off && off < 0x60000 then memReg d off
  else if 0x60000 ≤ off && off < 0x70000 then if isEDie d then ctxReg d off else none
  else if rFaultLog ≤ off && off < rFaultLog + 0x2000 && off % 8 == 0 then some (ro64 0)
  else if off == rLogHead then some (ro32 0)
  else if off == rLogOverwritten then some ctr64
  else if 0x80000 ≤ off && off < 0x90000 then pwrReg d off
  else if rRoute0 ≤ off && off < rRoute0 + 0x10000 && off % 8 == 0 then
    some (rw64 (maskOf 63 63 ||| maskOf 57 52 ||| maskOf 43 40 ||| maskOf 31 24) 0)
  else none

/-- The shadow of a die register (R509, R510): cumulative counters and per-batch counters have
one. -/
def shadowReg (d off : Nat) : Option RegInfo :=
  if off < rShadow then none
  else
    let x := off - rShadow
    match dieReg d x with
    | none => none
    | some r =>
      if r.counter then some (ro64 0)
      else if isEDie d && rBatchFilled ≤ x && x ≤ rBatchOvf then some (ro32 0)
      else none

/-! ## BAR0 (R455, R481 to R484, R569 to R571) -/

abbrev bSqBase : Nat := 0x80000
abbrev bSqCfg : Nat := 0x80008
abbrev bCqBase : Nat := 0x80010
abbrev bCqCfg : Nat := 0x80018
abbrev bDmaWin : Nat := 0x81000
abbrev bFabWin : Nat := 0x82000
abbrev bPortCtrl : Nat := 0x82008
abbrev bPortStatus : Nat := 0x8200C
abbrev bFabLastErr : Nat := 0x82010
abbrev bDmaBlocked : Nat := 0x82100
abbrev bDoorbellsIgnored : Nat := 0x82108
abbrev bFabErrors : Nat := 0x82110
abbrev bCommands : Nat := 0x82118
abbrev bCompletions : Nat := 0x82120
abbrev bDiscarded : Nat := 0x82128
abbrev cBootStatus : Nat := 0x83000
abbrev cFwVersion : Nat := 0x83004
abbrev cFwFloor : Nat := 0x83008
abbrev cFwCtrl : Nat := 0x83010
abbrev cFwOffset : Nat := 0x83014
abbrev cFwLength : Nat := 0x83018
abbrev cIdxNext : Nat := 0x83020
abbrev cIdxReserved : Nat := 0x83028
abbrev cSignatures : Nat := 0x83030
abbrev cFlashErases : Nat := 0x83038
abbrev cFlashRefused : Nat := 0x83040

/-- A register of BAR0 at an offset (R455, R481 to R484). DESIGN CHOICE: bits [5:0] of CTX_SQ_BASE and CTX_CQ_BASE are
reserved (log 84). -/
def bar0Reg (off : Nat) : Option RegInfo :=
  if off < 0x80000 then
    -- a doorbell page reads back the last accepted value at its offset 0 (R460)
    if off % 0x1000 == 0 then some (ro32 0) else none
  else if off < 0x80800 then
    let x := off % 0x20
    if x == 0 || x == 0x10 then some (rw64 (maskOf 63 6) 0)
    else if x == 0x8 then some (rw32 (maskOf 31 31 ||| maskOf 20 16) 0)
    else if x == 0x18 then some (rw32 (maskOf 31 31 ||| maskOf 29 29 ||| maskOf 27 16) 0)
    else none
  else if bDmaWin ≤ off && off < bDmaWin + 0x80 && off % 8 == 0 then
    some (if off % 16 == 0 then rw64 (maskOf 63 12 ||| 1) 0 else rw64 (maskOf 63 12) 0)
  else if off == bFabWin then some (rw64 (maskOf 63 28) 0)
  else if off == bPortCtrl then some (rw32 (maskOf 5 0) 0)
  else if off == bPortStatus then some { ro32 0 with w1c := maskOf 31 28 }
  else if off == bFabLastErr then some { ro32 0 with rc := maskOf 3 0 }
  else if bDmaBlocked ≤ off && off ≤ bDiscarded && off % 8 == 0 then some ctr64
  else if off == cBootStatus || off == cFwVersion || off == cFwFloor then some (ro32 0)
  else if off == cFwCtrl then
    some { ro32 0 with wo := maskOf 31 28 }
  else if off == cFwOffset || off == cFwLength then some (rw32 all32 0)
  else if off == cIdxNext || off == cIdxReserved then some (ro64 0)
  else if off == cSignatures || off == cFlashErases || off == cFlashRefused then some ctr64
  -- shadows of the port's counters and of the CFG_ block's (R510)
  else if bDmaBlocked + 0x1000 ≤ off && off ≤ bDiscarded + 0x1000 && off % 8 == 0 then some (ro64 0)
  else if cSignatures + 0x1000 ≤ off && off ≤ cFlashRefused + 0x1000 && off % 8 == 0 then some (ro64 0)
  else if 0x90000 ≤ off && off < 0x90820 && off % 4 == 0 then
    -- MSI-X table: vector control resets to masked, as PCI Express fixes it
    some (rw32 all32 (if off % 16 == 12 then 1 else 0))
  else if 0x91000 ≤ off && off < 0x91018 && off % 8 == 0 then some (ro64 0)
  else none

/-- An offset of the module-wide CFG_ block (R569). -/
def isCfg (off : Nat) : Bool := 0x83000 ≤ off && off < 0x83048

/-! ## Tile registers (R98) -/

abbrev tStatus : Nat := 0x0
abbrev tBank : Nat := 0x8
abbrev tAlloc0 : Nat := 0x10
abbrev tAlloc1 : Nat := 0x14
abbrev tAccStatus : Nat := 0x18
abbrev tFaultInfo : Nat := 0x20
abbrev tFaultBeat : Nat := 0x28
abbrev tIssued : Nat := 0x40
abbrev tFlitsLanded : Nat := 0x48
abbrev tPacketsLanded : Nat := 0x50
abbrev tNullLanded : Nat := 0x58
abbrev tMissed : Nat := 0x60
abbrev tSramEcc : Nat := 0x68
abbrev tIstoreEcc : Nat := 0x70

/-- Access of a landing-table entry (R92). -/
def landInfo : RegInfo :=
  rw64 (maskOf 63 63 ||| maskOf 59 59 ||| maskOf 25 20 ||| maskOf 13 0) 0

/-- A tile register at an offset from +0xF_0000 (R98). -/
def tileReg (off : Nat) : Option RegInfo :=
  if off == tStatus then some (ro32 0)
  else if off == tBank then some (rw32 (maskOf 3 1) 0)
  else if off == tAlloc0 || off == tAlloc1 then some (rw32 (maskOf 28 16 ||| maskOf 12 0) 0)
  else if off == tAccStatus then
    some { wide := false, reset := 0, rw := maskOf 7 4, w1c := maskOf 3 0, rc := 0, wo := 0,
           counter := false }
  else if off == tFaultInfo then some (ro32 0)
  else if off == tFaultBeat then some (ro64 0)
  else if tIssued ≤ off && off ≤ tIstoreEcc && off % 8 == 0 then some ctr64
  else if 0x1000 ≤ off && off < 0x3000 && off % 8 == 0 then some landInfo
  else if 0x8040 ≤ off && off ≤ 0x8070 && off % 8 == 0 then some (ro64 0)
  else none

end Sys2Proof.Machine
end

