-- ==== Sys2Proof/Machine/Ops.lean ====
section
/-! DEFINITION. The named operations over the state: dies, tiles, links, registers and their
fields, fabric time, free values, what leaves the module, the fault log and symbols. -/

namespace Sys2Proof.Machine

/-- What a command answers. -/
abbrev Out := Host.Outcome State Fault Refusal

/-- The case that rule `r` of the spec calls undefined. -/
def undef (r : Nat) : Out := .fault (.undefinedCase r)

/-! ## Dies, tiles, links -/

def State.die (s : State) (d : Nat) : Die := tgetD s.dies d Die.reset

def State.setDie (s : State) (d : Nat) (x : Die) : State := { s with dies := tput s.dies d x }

def State.modDie (s : State) (d : Nat) (f : Die → Die) : State := s.setDie d (f (s.die d))

/-- A tile that the table does not list is as reset leaves it, or STOPPED while its die's stop
stands (R300). -/
def Die.tile (x : Die) (t : Nat) : Tile :=
  tgetD x.tiles t (if x.stopped then { Tile.reset with state := .stopped } else Tile.reset)

def Die.setTile (x : Die) (t : Nat) (y : Tile) : Die := { x with tiles := tput x.tiles t y }

def Die.modTile (x : Die) (t : Nat) (f : Tile → Tile) : Die := x.setTile t (f (x.tile t))

def State.tile (s : State) (t : TileRef) : Tile := (s.die t.die.val).tile t.tile.val

def State.setTile (s : State) (t : TileRef) (y : Tile) : State :=
  s.modDie t.die.val (·.setTile t.tile.val y)

def State.modTile (s : State) (t : TileRef) (f : Tile → Tile) : State :=
  s.setTile t (f (s.tile t))

def Region.reset : Region :=
  { startLag := 0, stretches := 0, overran := false, lag := 0, lastStart := 0, lastStretches := 0,
    lastOverran := false }

def Die.region (x : Die) (r : Nat) : Region := tgetD x.regions r Region.reset

def Die.setRegion (x : Die) (r : Nat) (y : Region) : Die := { x with regions := tput x.regions r y }

def Die.link (x : Die) (p : Nat) : Link := tgetD x.links p Link.reset

def Die.setLink (x : Die) (p : Nat) (y : Link) : Die := { x with links := tput x.links p y }

def Die.modLink (x : Die) (p : Nat) (f : Link → Link) : Die := x.setLink p (f (x.link p))

def Die.queue (x : Die) (q : Nat) : List QFlit := tgetD x.queues q []

def Die.setQueue (x : Die) (q : Nat) (fs : List QFlit) : Die := { x with queues := tput x.queues q fs }

def State.port (s : State) (p : Fin 2) : HostPort := if p = 0 then s.port0 else s.port1

def State.setPort (s : State) (p : Fin 2) (x : HostPort) : State :=
  if p = 0 then { s with port0 := x } else { s with port1 := x }

def State.modPort (s : State) (p : Fin 2) (f : HostPort → HostPort) : State :=
  s.setPort p (f (s.port p))

/-- Applies a change to every die of a list. -/
def State.onDies (s : State) (ds : List Nat) (f : State → Nat → State) : State := ds.foldl f s

def allDies : List Nat := List.range 40
def cDies : List Nat := List.range 32
def eDies : List Nat := (List.range 8).map (32 + ·)

/-! ## Registers of a die -/

def regReset (d off : Nat) : W64 :=
  match dieReg d off with
  | some r => r.reset
  | none => 0

/-- Value that a register stores. -/
def Die.reg (x : Die) (d off : Nat) : W64 := tgetD x.regs off (regReset d off)

def Die.setReg (x : Die) (off : Nat) (v : W64) : Die := { x with regs := tput x.regs off v }

def Die.field (x : Die) (d off hi lo : Nat) : Nat := bitsOf (x.reg d off) hi lo

def Die.setField (x : Die) (d off hi lo v : Nat) : Die :=
  x.setReg off (setBits (x.reg d off) hi lo v)

def Die.bit (x : Die) (d off i : Nat) : Bool := bitOf (x.reg d off) i

def Die.setBit (x : Die) (d off i : Nat) (b : Bool) : Die := x.setField d off i i b.toNat

/-- Adds to a 64-bit counter, which wraps (R507). -/
def Die.bump (x : Die) (off : Nat) (n : Nat := 1) : Die :=
  x.setReg off (tgetD x.regs off 0 + BitVec.ofNat 64 n)

def Die.lreg (x : Die) (d p off : Nat) : W64 := x.reg d (rLink + 0x200 * p + off)

def Die.lfield (x : Die) (d p off hi lo : Nat) : Nat := x.field d (rLink + 0x200 * p + off) hi lo

def Die.setLField (x : Die) (d p off hi lo v : Nat) : Die :=
  x.setField d (rLink + 0x200 * p + off) hi lo v

def Die.lbump (x : Die) (p off : Nat) (n : Nat := 1) : Die := x.bump (rLink + 0x200 * p + off) n

def Die.ebump (x : Die) (p off : Nat) (n : Nat := 1) : Die := x.bump (rEgress + 0x80 * p + off) n

def HostPort.reg (h : HostPort) (off : Nat) : W64 :=
  tgetD h.regs off (match bar0Reg off with | some r => r.reset | none => 0)

def HostPort.setReg (h : HostPort) (off : Nat) (v : W64) : HostPort :=
  { h with regs := tput h.regs off v }

def HostPort.bump (h : HostPort) (off : Nat) (n : Nat := 1) : HostPort :=
  h.setReg off (h.reg off + BitVec.ofNat 64 n)

/-- A register of the module-wide CFG_ block (R569). -/
def State.cfg (s : State) (off : Nat) : W64 := tgetD s.boot.cfg off 0

def State.setCfg (s : State) (off : Nat) (v : W64) : State :=
  { s with boot := { s.boot with cfg := tput s.boot.cfg off v } }

/-- The power state (R542). -/
def State.pst (s : State) : Nat := (s.die 32).field 32 rPwrStatus 31 29

/-- An entry into a power state runs (R532). -/
def State.entering (s : State) : Bool := match s.germ.move with | .entering _ => true | _ => false

/-- A job runs on the die: TIME_BEAT_CTRL.JOB (R266). -/
def Die.jobOn (x : Die) (d : Nat) : Bool := x.bit d rBeatCtrl 0

/-- The horizon H in force (R266). -/
def Die.horizon (x : Die) (d : Nat) : Nat := x.field d rBeatCtrl 25 16 + 1

/-- The fill budget F (R266). -/
def Die.fill (x : Die) (d : Nat) : Nat := x.field d rBeatCtrl 12 8

/-- Module number that the die holds (R52). -/
def Die.moduleNum (x : Die) (d : Nat) : Nat := x.field d rDieId 25 16

def State.moduleNum (s : State) (d : Nat) : Nat := (s.die d).moduleNum d

/-- Die number: module number × 64 + local number (R19). -/
def Die.number (x : Die) (d : Nat) : Nat := (x.moduleNum d * 64 + d) % 2 ^ 16

def State.dieNumber (s : State) (d : Nat) : Nat := (s.die d).number d

/-- The links of a die that belong to the slice (R395, R248). -/
def Die.sliceLinks (x : Die) (d : Nat) : List Nat :=
  (portsOf d).filter fun p => bitOf (x.lreg d p lCtrl) 0

/-- The port leads out of the slice: neither scheduled traffic nor hold and release symbols cross it
(R44). -/
def Die.outside (x : Die) (d p : Nat) : Bool := isFabricPort p && !bitOf (x.lreg d p lCtrl) 0

/-! ## Time -/

/-- Nanoseconds in a second. -/
abbrev second : Nat := 1000000000

/-- Fabric time of the start of the die's slot, in ns (R492). -/
def Die.timeNs (x : Die) : Nat := x.sec.toNat * second + x.ns

/-- The index of the die's slot (R235). -/
def Die.slotIndex (x : Die) : Nat := x.timeNs / 16

/-- The die's clock passes to its next slot boundary (R232). -/
def Die.nextSlot (x : Die) : Die :=
  if x.ns + 16 < second then { x with ns := x.ns + 16 }
  else { x with sec := x.sec + 1, ns := x.ns + 16 - second }

/-- The die's current slot is a maintenance beat (R235, R251). -/
def Die.isMaint (x : Die) (d : Nat) : Bool :=
  match x.hold.slot with
  | some j => j % 64 == 63
  | none => if x.jobOn d then x.job.beat % 64 == 63 else x.slotIndex % 64 == 63

/-- How far into its slot a die's fabric time was last seen or set, in ns. -/
def State.tickLow (s : State) (d : Nat) : Nat :=
  match tget s.ticks d with
  | some (i, t) => if i = (s.die d).slotIndex then t % 16 else 0
  | none => 0

/-- Where inside its slot an event of a die falls, in ns: free, but not before what was last seen of the die's time
there (R493, log 2). -/
def State.tick (s : State) (d : Nat) : Nat := s.tickLow d + Config.freeTick s.fz % (16 - s.tickLow d)

/-- Uses up one free value. -/
def State.used (s : State) : State := { s with fz := s.fz + 1 }

/-- The die's fabric time at this event has been seen. -/
def State.timed (s : State) (d : Nat) : State :=
  { s with ticks := tput s.ticks d ((s.die d).slotIndex, s.tick d), fz := s.fz + 1 }

/-- The die's fabric time at this event: seconds and nanoseconds (log 2). -/
def State.now (s : State) (d : Nat) : W64 × Nat :=
  let x := s.die d
  let n := x.ns + s.tick d
  if n < second then (x.sec, n) else (x.sec + 1, n - second)

/-- The same in ns. -/
def State.nowNs (s : State) (d : Nat) : Nat := (s.now d).1.toNat * second + (s.now d).2

/-- TIME_NOW of a die (R516). -/
def State.timeNow (s : State) (d : Nat) : W64 :=
  let (sec, ns) := s.now d
  BitVec.ofNat 64 (sec.toNat % 2 ^ 34 * 2 ^ 30 + ns)

/-! ## What leaves the module -/

def State.emit (s : State) (e : Emission) : State := { s with sent := e :: s.sent }

def State.emits (s : State) (es : List Emission) : State := { s with sent := es.reverse ++ s.sent }

/-! ## The die fault log (R513) -/

/-- The job beat that a log entry or a stop record carries: 0 with no job (R513). -/
def Die.logBeat (x : Die) (d : Nat) : Nat := if x.jobOn d then x.job.beat else 0

/-- Appends to the log, or counts up its newest entry when code and detail are the same. -/
def Die.addLog (x : Die) (e : LogEntry) : Die :=
  match x.log with
  | f :: fs =>
    if f.code = e.code ∧ f.detail = e.detail then
      { x with log := { f with count := min (f.count + 1) 65535 } :: fs }
    else
      let y := { x with log := (e :: f :: fs).take 256 }
      let y := y.setReg rLogHead (BitVec.ofNat 64 (((tgetD y.regs rLogHead 0).toNat + 1) % 256))
      if x.log.length < 256 then y else y.bump rLogOverwritten
  | [] =>
    { x with log := [e] }.setReg rLogHead
      (BitVec.ofNat 64 (((tgetD x.regs rLogHead 0).toNat + 1) % 256))

/-- Logs an event of a die at its fabric time (R513). -/
def State.logEvent (s : State) (d : Nat) (code : Nat) (detail : W64) : State :=
  let (sec, ns) := s.now d
  let x := s.die d
  (s.setDie d (x.addLog { sec := sec, ns := ns, code := BitVec.ofNat 16 code, count := 1,
                          beat := BitVec.ofNat 48 (x.logBeat d), detail := detail })).timed d

/-- The 32 bytes of a log entry (R513). -/
def LogEntry.bytes (e : LogEntry) : List Byte :=
  leBytes e.sec.toNat 8 ++ leBytes e.ns 4 ++ leBytes e.code.toNat 2 ++ leBytes e.count 2
    ++ leBytes e.beat.toNat 6 ++ [0, 0] ++ leBytes e.detail.toNat 8

/-- The entry at an index of the log. -/
def Die.logAt (x : Die) (i : Nat) : Option LogEntry :=
  let head := (tgetD x.regs rLogHead 0).toNat
  x.log[(head + 511 - i) % 256]?

/-! ## Symbols (R247, R248) -/

/-- A symbol with its check. -/
def mkSymbol (type cause die beat seq : Nat) : W64 :=
  symbolWithCheck (BitVec.ofNat 64 ((type % 16) * 2 ^ 60 + (cause % 16) * 2 ^ 56
    + (die % 2 ^ 16) * 2 ^ 40 + (beat % 2 ^ 24) * 2 ^ 16 + (seq % 256) * 2 ^ 8))

/-- What identifies a symbol: TYPE, DIE, BEAT and SEQ (R248). -/
def symbolKey (v : W64) : W64 := v &&& 0xF0FFFFFFFFFFFF00

/-- Queues the two copies of a symbol on every slice link except one (R248). -/
def Die.spread (x : Die) (d : Nat) (except : Option Nat) (sym : W64) : Die :=
  let y := { x with hold := { x.hold with seen := symbolKey sym :: x.hold.seen } }
  ((x.sliceLinks d).filter fun p => some p != except).foldl
    (fun y p => y.modLink p fun l => { l with symbols := l.symbols ++ [sym, sym] }) y

/-- The latest count, not after `own`, whose low 24 bits are `low` (R248, R301). -/
def rebuild24 (own low : Nat) : Nat :=
  let c := own / 2 ^ 24 * 2 ^ 24 + low % 2 ^ 24
  if c ≤ own then c else c - 2 ^ 24

/-! ## Memory headers (R316) -/

/-- Builds a header with its check. -/
def mkHeader (die dest kind epoch null late len fidx route arg beat : Nat) : Header :=
  withCheck (BitVec.ofNat 128 ((die % 2 ^ 16) * 2 ^ 112 + (dest % 2 ^ 9) * 2 ^ 103
    + (kind % 4) * 2 ^ 101 + (epoch % 2) * 2 ^ 100 + (null % 2) * 2 ^ 99 + (late % 2) * 2 ^ 98
    + (len % 64) * 2 ^ 92 + (fidx % 64) * 2 ^ 86 + (route % 2 ^ 12) * 2 ^ 74
    + (arg % 2 ^ 32) * 2 ^ 42 + (beat % 2 ^ 24) * 2 ^ 18))

def hDie (h : Header) : Nat := bitsOf h 127 112
def hDest (h : Header) : Nat := bitsOf h 111 103
def hKind (h : Header) : Nat := bitsOf h 102 101
def hEpoch (h : Header) : Nat := bitsOf h 100 100
def hNull (h : Header) : Bool := bitOf h 99
def hLate (h : Header) : Bool := bitOf h 98
def hLen (h : Header) : Nat := bitsOf h 97 92
def hFidx (h : Header) : Nat := bitsOf h 91 86
def hRoute (h : Header) : Nat := bitsOf h 85 74
def hArg (h : Header) : Nat := bitsOf h 73 42
def hLand (h : Header) : Nat := bitsOf h 73 65
def hBeat (h : Header) : Nat := bitsOf h 41 18

/-- The late header of flit `i` of a packet (R324, R359). -/
def lateHeader (h : Header) (i : Nat) : Header :=
  mkHeader (hDie h) (hDest h) (hKind h) (hEpoch h) (hNull h).toNat 1 (hLen h) i (hRoute h)
    (hArg h) (hBeat h)

/-- Two headers are of one packet: they agree outside LATE, FIDX and CHECK. -/
def samePacket (a b : Header) : Bool := lateHeader a 0 == lateHeader b 0

/-- A header built from a send descriptor (R208, R317). -/
def descHeader (desc : W64) (null : Bool) (len beat : Nat) : Header :=
  mkHeader (bitsOf desc 63 48) (bitsOf desc 47 39) 0 (bitsOf desc 29 29) null.toNat 0 len 0
    (bitsOf desc 27 16) (bitsOf desc 38 30 * 2 ^ 23) beat

/-! ## Lists -/

/-- Sets an entry of a list. -/
def listSet {α : Type} : List α → Nat → α → List α
  | [], _, _ => []
  | _ :: xs, 0, y => y :: xs
  | x :: xs, n + 1, y => x :: listSet xs n y

/-- Removes the first entry that satisfies a test. -/
def removeFirst {α : Type} (f : α → Bool) : List α → List α
  | [] => []
  | x :: xs => if f x then xs else x :: removeFirst f xs

end Sys2Proof.Machine
end

