-- ==== Sys2Proof/Machine/Completion.lean ====
section
/-! DEFINITION. DMA windows, completion entries, MSI-X and the port status (11), and what the end
or the stop of a job does to the contexts of a batch (R478). -/

namespace Sys2Proof.Machine

/-! ## DMA windows (R458, R483) -/

/-- One enabled window of the port holds the whole byte range. -/
def HostPort.dmaAllowed (h : HostPort) (addr len : Nat) : Bool :=
  (List.range 8).any fun w =>
    let base := h.reg (bDmaWin + 16 * w)
    let limit := h.reg (bDmaWin + 16 * w + 8)
    bitOf base 0 && decide (bitsOf base 63 12 * 4096 ≤ addr)
      && decide (addr + len ≤ (bitsOf limit 63 12 + 1) * 4096)

/-- Tries a DMA: whether it is issued; a blocked one is counted (R458). -/
def State.dmaTry (s : State) (p : Fin 2) (addr len : Nat) : State × Bool :=
  if (s.port p).dmaAllowed addr len then (s, true)
  else (s.modPort p (·.bump bDmaBlocked), false)

/-- The module reads host memory with requests of up to 512 bytes, with an ECRC where its generation is enabled
(R453). -/
def State.emitReads (s : State) (p : Fin 2) (addr len : Nat) : State :=
  (List.range ((len + 511) / 512)).foldl (fun s i =>
    s.emit (.dmaRead p (s.port p).ecrcGenerate (BitVec.ofNat 64 (addr + 512 * i)) (min 512 (len - 512 * i)))) s

/-- It writes host memory with requests of at most the max payload size, 512 bytes (R453). -/
def State.emitWrites (s : State) (p : Fin 2) (addr : Nat) (bs : List Byte) : State :=
  (List.range ((bs.length + 511) / 512)).foldl (fun s i =>
    s.emit (.dmaWrite p (s.port p).ecrcGenerate (BitVec.ofNat 64 (addr + 512 * i))
      ((bs.drop (512 * i)).take 512))) s

/-- The uncorrectable errors that end a DMA, by their bit: poisoned data, completion timeout, completer abort,
unsupported request, and an ECRC error where it is checked (R453, R471; PRESUMED, log 84). -/
def HostPort.dmaErrors (h : HostPort) : List Nat := [12, 14, 15, 20] ++ (if h.ecrcCheck then [19] else [])

/-- A DMA of a port failed: its AER capability records which error it was; the model leaves that free (R453, R471). -/
def State.dmaError (s : State) (p : Fin 2) : State :=
  let es := (s.port p).dmaErrors
  let i := es.getD ((Config.freeWord s.fz).toNat % es.length) 12
  (s.modPort p fun h => { h with aer := h.aer ||| BitVec.ofNat 32 (2 ^ i) }).used

/-! ## MSI-X (R463) -/

abbrev bMsixTable : Nat := 0x90000
abbrev bMsixPba : Nat := 0x91000

/-- The message of a vector: one write of the address and the data of its table entry (R458). -/
def HostPort.message (h : HostPort) (p : Fin 2) (v : Nat) : Emission :=
  let word := fun (i : Nat) => (h.reg (bMsixTable + 16 * v + 4 * i)).toNat % 2 ^ 32
  .msix p h.ecrcGenerate v (BitVec.ofNat 64 (word 0 + word 1 * 2 ^ 32)) (BitVec.ofNat 32 (word 2))

/-- Sends the message of a vector, or marks it pending while the table entry masks it. -/
def State.msix (s : State) (p : Fin 2) (v : Nat) : State :=
  if bitOf ((s.port p).reg (bMsixTable + 16 * v + 12)) 0 then
    s.modPort p fun h =>
      let off := bMsixPba + 8 * (v / 64)
      h.setReg off (setBits (h.reg off) (v % 64) (v % 64) 1)
  else s.emit ((s.port p).message p v)

/-- Sets a bit of PCIE_PORT_STATUS[31:28]; vector 129 is sent when it becomes 1 (R463, R484). -/
def State.portStatus (s : State) (p : Fin 2) (i : Nat) : State :=
  let v := (s.port p).reg bPortStatus
  if bitOf v i then s
  else (s.modPort p (·.setReg bPortStatus (setBits v i i 1))).msix p 129

/-! ## Completion rings (R459 to R463, R469) -/

def HostPort.cqCfg (h : HostPort) (n : Nat) : W64 := h.reg (bCqCfg + 0x20 * n)
def HostPort.sqCfg (h : HostPort) (n : Nat) : W64 := h.reg (bSqCfg + 0x20 * n)

/-- A ring configuration is in use: ENABLE set and SIZE from 4 to 16 (R482). -/
def ringOn (cfg : W64) : Bool :=
  bitOf cfg 31 && decide (4 ≤ bitsOf cfg 20 16) && decide (bitsOf cfg 20 16 ≤ 16)

/-- Entries of a ring. -/
def ringSize (cfg : W64) : Nat := 2 ^ bitsOf cfg 20 16

/-- The head that the host wrote last to a completion doorbell (R460). -/
def HostPort.cqHead (h : HostPort) (n : Nat) : Nat := (h.reg (0x40000 + 0x1000 * n)).toNat

/-- The tail that the host wrote last to a submission doorbell (R460). -/
def HostPort.sqTail (h : HostPort) (n : Nat) : Nat := (h.reg (0x1000 * n)).toNat

/-- The completion ring is full: its tail plus one equals its head (R462). -/
def HostPort.cqFull (h : HostPort) (n : Nat) : Bool :=
  let cfg := h.cqCfg n
  ringOn cfg && (bitsOf cfg 15 0 + 1) % ringSize cfg == h.cqHead n

/-- The bytes of an entry (R469). -/
def Completion.encode (c : Completion) (sqHead ring : Nat) (sec : W64) (ns : Nat)
    (phase : Bool) : List Byte :=
  leBytes c.type 1 ++ [c.status] ++ leBytes c.cmdId.toNat 2 ++ leBytes c.context.toNat 4
    ++ leBytes c.value.toNat 8
    ++ leBytes (if c.type = 0 then sqHead + ring * 2 ^ 16 else 0) 4
    ++ leBytes c.bytes.toNat 4 ++ leBytes c.offset.toNat 4 ++ leBytes c.position.toNat 4
    ++ leBytes sec.toNat 8 ++ leBytes ns 4 ++ leBytes c.detail.toNat 4
    ++ List.replicate 12 0 ++ leBytes (if phase then 2 ^ 31 else 0) 4

/-- Writes an entry to a ring that can take it: the entry, the tail, PHASE and the interrupt. -/
def State.cqWrite (s : State) (p : Fin 2) (n : Nat) (c : Completion) : State :=
  let h := s.port p
  let cfg := h.cqCfg n
  let tail := bitsOf cfg 15 0
  let next := (tail + 1) % ringSize cfg
  let addr := h.reg (bCqBase + 0x20 * n) + BitVec.ofNat 64 (64 * tail)
  let (sec, ns) := s.now (32 + p.val)
  let e := c.encode (bitsOf (h.sqCfg n) 15 0) n sec ns (!(tgetD h.phase0 n false))
  let h := h.setReg (bCqCfg + 0x20 * n) (setBits cfg 15 0 next)
  let h := if next = 0 then { h with phase0 := tput h.phase0 n (!(tgetD h.phase0 n false)) } else h
  let s := ((s.setPort p (h.bump bCompletions)).timed (32 + p.val)).emit (.completion p (s.port p).ecrcGenerate n addr e)
  if c.type = 3 then s.msix p 128
  else if bitOf cfg 29 && !(s.port p).msiSent.contains n then
    (s.modPort p fun h => { h with msiSent := n :: h.msiSent }).msix p (bitsOf cfg 27 21)
  else s

/-- Writes the entries that a ring is owed, in order, until it can take no more (R458, R462). -/
def State.cqDrain (s : State) (p : Fin 2) (n : Nat) : Nat → State
  | 0 => s
  | fuel + 1 =>
    let h := s.port p
    match tgetD h.owed n [] with
    | [] => s
    | c :: cs =>
      let cfg := h.cqCfg n
      if !ringOn cfg || h.cqFull n then s
      else
        let addr := (h.reg (bCqBase + 0x20 * n)).toNat + 64 * bitsOf cfg 15 0
        let (s, ok) := s.dmaTry p addr 64
        if ok then
          ((s.modPort p fun h => { h with owed := tput h.owed n cs }).cqWrite p n c).cqDrain p n fuel
        else s

/-- Owes an entry to a ring and writes what the ring can take. -/
def State.cqPost (s : State) (p : Fin 2) (n : Nat) (c : Completion) : State :=
  let before := tgetD (s.port p).owed n []
  let s := s.modPort p fun h => { h with owed := tput h.owed n (before ++ [c]) }
  -- an entry behind others waits for the head doorbell that they wait for
  if before.isEmpty then s.cqDrain p n 1 else s

def Completion.base : Completion :=
  { type := 0, status := 0, cmdId := 0, context := 0, value := 0, bytes := 0, offset := 0,
    position := 0, detail := 0 }

/-- Completes a command on the completion ring paired with its ring; the completion of a command
taken before a reset of its port is discarded and counted (R457, R472). -/
def State.complete (s : State) (c : CmdRef) (status : Nat) (context : W32 := 0) (bytes : Nat := 0)
    (detail : Nat := 0) : State :=
  if c.epoch = (s.port c.ring.port).epoch then
    s.cqPost c.ring.port c.ring.ring.val
      { Completion.base with status := BitVec.ofNat 8 status, cmdId := c.cmdId,
                             context := context, bytes := BitVec.ofNat 32 bytes,
                             detail := BitVec.ofNat 32 detail }
  else s.modPort c.ring.port (·.bump bDiscarded)

/-- An EVENT entry on one port (R469). -/
def State.eventOn (s : State) (p : Fin 2) (code detail : Nat) : State :=
  s.cqPost p (bitsOf ((s.port p).reg bPortCtrl) 5 0)
    { Completion.base with type := 3, value := BitVec.ofNat 64 (code % 256 + detail * 256) }

/-- An EVENT entry on both ports. -/
def State.event (s : State) (code detail : Nat) : State :=
  (s.eventOn 0 code detail).eventOn 1 code detail

/-! ## The regions of an E-die's memory (R410) -/

/-- Size of a region in bytes. -/
def regionSize (e n : Nat) : Nat :=
  match n with
  | 0 => 0x40000000
  | 1 => 0x800000
  | 2 => 0x20000000
  | 3 => if e = 32 then 0x100000000 else 0
  | 4 => 0x80000000
  | 5 => 0x200000000
  | _ => 0

/-- Byte offset of a region in the LPDDR5X window, on a page, inside the populated memory
(log 63). -/
def regionOff (e n : Nat) : Nat :=
  Config.regionBase e n % (0x3000000000 - regionSize e n) / 4096 * 4096

/-! ## Context records (R464) -/

/-- Bytes of the first four entries, filled up with empty ones. -/
def entryBytes (es : List CtxEntry) : Nat → List Byte
  | 0 => []
  | n + 1 =>
    match es with
    | e :: es =>
      leBytes e.addr.toNat 8 ++ leBytes e.length 4
        ++ leBytes (e.offset % 2 ^ 31 + e.port.val * 2 ^ 31) 4 ++ entryBytes es n
    | [] => List.replicate 16 0 ++ entryBytes [] n

def CtxState.num : CtxState → Nat
  | .idle => 0
  | .queued => 1
  | .admitted => 2
  | .running => 3
  | .held => 4
  | .faulted => 5

/-- The 48 counter bytes. -/
def Ctx.counterBytes (y : Ctx) : List Byte :=
  [y.batchesAdmitted, y.inputBytes, y.resultBytes, y.waitBatches, y.ripenings, y.inputHolds].flatMap
    fun w => leBytes w.toNat 8

/-- The 256 bytes of a record. -/
def Ctx.bytes (y : Ctx) : List Byte :=
  let body := leBytes y.state.num 1 ++ leBytes (y.cls % 4 + y.eff % 4 * 4) 1
    ++ leBytes y.wsid.toNat 2 ++ leBytes y.submitPort.val 1 ++ leBytes y.cring 1
    ++ leBytes y.faultCode.toNat 2 ++ leBytes y.userTag.toNat 8 ++ leBytes y.kvBase.toNat 8
    ++ leBytes y.kvLen.toNat 8 ++ [y.kvTier, 0, 0, 0] ++ leBytes y.position.toNat 4
    ++ leBytes y.waitAge 4 ++ leBytes 0 4 ++ leBytes y.adapterBase.toNat 8
    ++ leBytes y.adapterLen.toNat 4 ++ leBytes 0 4 ++ entryBytes y.inputs 4
    ++ entryBytes y.outputs 4 ++ y.counterBytes ++ List.replicate 12 0
  body ++ leBytes (crc32 (byteBits body)) 4

/-! ## Contexts at the end of a batch (R468, R478) -/

def CtxEngine.ctx (x : CtxEngine) (c : Nat) : Ctx := tgetD x.records c Ctx.reset

def CtxEngine.setCtx (x : CtxEngine) (c : Nat) (y : Ctx) : CtxEngine :=
  { x with records := tput x.records c y }

/-- Brings the copy of a context in the context table share up to date (R464). -/
def Die.writeCtx (x : Die) (e c : Nat) : Die :=
  { x with
    ctx := { x.ctx with dirty := x.ctx.dirty.filter (· != c) }
    mem := { x.mem with cells := Mem.writeBytes x.mem.cells (regionOff e 1 + 256 * c) (x.ctx.ctx c).bytes } }

/-- Brings all copies up to date: at every batch boundary, and before the engine loses what it caches (R464). -/
def Die.flushCtx (x : Die) (e : Nat) : Die := x.ctx.dirty.foldl (fun x c => x.writeCtx e c) x

/-- Changes a context record; its copy follows at once at a change of its state, else at the next batch boundary
(R464). -/
def Die.modCtx (x : Die) (e c : Nat) (f : Ctx → Ctx) : Die :=
  let was := x.ctx.ctx c
  let x := { x with ctx := { x.ctx.setCtx c (f was) with dirty := c :: x.ctx.dirty.filter (· != c) } }
  if (f was).state == was.state then x else x.writeCtx e c

def State.modCtx (s : State) (e c : Nat) (f : Ctx → Ctx) : State := s.modDie e (·.modCtx e c f)

/-- A context is faulted (R465). -/
def Ctx.fault (y : Ctx) (code : Nat) : Ctx :=
  { y with state := .faulted, faultCode := BitVec.ofNat 16 code }

def CtxState.all : List CtxState := [.idle, .queued, .admitted, .running, .held, .faulted]

/-- The entries that 64 bytes of a record hold. -/
def ctxEntries (bs : List Byte) : List CtxEntry :=
  ((List.range 4).map fun i =>
    let b := (bs.drop (16 * i)).take 16
    let off := fieldLE b 12 4
    { addr := BitVec.ofNat 64 (fieldLE b 0 8), length := fieldLE b 8 4, offset := off % 2 ^ 31
      port := Fin.ofNat 2 (off / 2 ^ 31) }).filter (·.length ≠ 0)

/-- The record that a copy holds, when its CHECK is good and its state is one of R465's; what is no field of the
descriptor stays (R464, R466). -/
def Ctx.load (y : Ctx) (bs : List Byte) : Option Ctx :=
  let w := fun (i n : Nat) => fieldLE bs i n
  if w 252 4 ≠ crc32 (byteBits (bs.take 252)) then none
  else
    CtxState.all[w 0 1 % 16]?.map fun st =>
      { y with
        state := st, cls := w 1 1 % 4, eff := w 1 1 / 4 % 4, wsid := BitVec.ofNat 16 (w 2 2)
        submitPort := Fin.ofNat 2 (w 4 1), cring := w 5 1 % 64, faultCode := BitVec.ofNat 16 (w 6 2)
        userTag := BitVec.ofNat 64 (w 8 8), kvBase := BitVec.ofNat 64 (w 16 8), kvLen := BitVec.ofNat 64 (w 24 8)
        kvTier := BitVec.ofNat 8 (w 32 1), position := BitVec.ofNat 32 (w 36 4), waitAge := w 40 4
        adapterBase := BitVec.ofNat 64 (w 48 8), adapterLen := BitVec.ofNat 32 (w 56 4)
        inputs := ctxEntries ((bs.drop 64).take 64), outputs := ctxEntries ((bs.drop 128).take 64)
        batchesAdmitted := BitVec.ofNat 64 (w 192 8), inputBytes := BitVec.ofNat 64 (w 200 8)
        resultBytes := BitVec.ofNat 64 (w 208 8), waitBatches := BitVec.ofNat 64 (w 216 8)
        ripenings := BitVec.ofNat 64 (w 224 8), inputHolds := BitVec.ofNat 64 (w 232 8) }

/-- The engine of an E-die that starts loads the descriptors of its contexts from their copies; one whose CHECK fails
leaves its context FAULTED (R466). -/
def Die.loadCtxs (x : Die) (e : Nat) : Die :=
  x.ctx.records.foldl (fun x r =>
    match r.2.load (Mem.readBytes x.mem.cells (regionOff e 1 + 256 * r.1) 256) with
    | some y => { x with ctx := x.ctx.setCtx r.1 y }
    | none => x.modCtx e r.1 (·.fault 0x01)) x

/-- A closed context: entries dropped, adapter region freed (R468). -/
def Ctx.closed (y : Ctx) : Ctx :=
  { y with state := .idle, inputs := [], outputs := [], adapterBase := 0, adapterLen := 0,
           closing := none }

/-- WSID of an adapter manifest (R427). -/
abbrev adapterWsid : Nat := 0xFFFF

/-- The responses that the reader of a weight set awaits are nobody's any more. -/
def State.readerForget (s : State) : State :=
  s.modDie 32 fun x => { x with outstanding := x.outstanding.map fun o => { o with shard := false } }

/-- The adapters of a context are gone with its adapter region; a command that still loads or rolls them
fails (R435, R468, log 44). -/
def State.dropAdapters (s : State) (c : Nat) : State :=
  let hit := fun (a : WeightSet) => a.wsid.toNat == adapterWsid && a.context == c
  let w := s.weights
  let cut := fun (j : Option WeightJob) => j.filter fun j => !hit j.set
  let s := { s with weights := { w with
    sets := w.sets.filter (!hit ·), loading := cut w.loading, rolling := cut w.rolling } }
  let fail := fun (s : State) (j : Option WeightJob) =>
    match j with
    | some j => if hit j.set then s.readerForget.complete j.cmd 0x0B else s
    | none => s
  fail (fail s w.loading) w.rolling

/-- Closes a context (R468). -/
def State.closeCtx (s : State) (e c : Nat) : State :=
  (s.modCtx e c Ctx.closed).dropAdapters ((e - 32) * 2 ^ 15 + c)

/-- Performs a close that waited for the end of the batch, and completes its command (R468). -/
def State.finishClose (s : State) (e c : Nat) : State :=
  let y := (s.die e).ctx.ctx c
  match y.closing with
  | none => s
  | some cmd =>
    (s.closeCtx e c).complete cmd 0
      (context := BitVec.ofNat 32 ((e - 32) * 2 ^ 15 + c))

/-- One slot at the end of its batch: without an accepted result the context returns to QUEUED and
the miss is counted; a pending close acts (R478). -/
def State.endSlot (s : State) (e : Nat) (sl : SlotState) : State :=
  match sl.ctx with
  | none => s
  | some c =>
    let s :=
      if sl.done then s
      else
        match ((s.die e).ctx.ctx c).state with
        | .admitted | .running | .held =>
          (s.modCtx e c fun y => { y with state := .queued }).modDie e (·.bump rResultsMissing)
        | _ => s
    s.finishClose e c

/-- The batch of an E-die ends with its job (R478). -/
def State.endBatch (s : State) (e : Nat) : State :=
  let s := (s.die e).ctx.slots.foldl (fun s sl => s.endSlot e sl.2) s
  s.modDie e fun x => { x with ctx := { x.ctx with slots := [] } }

end Sys2Proof.Machine
end

