-- ==== Sys2Proof/Machine/Num.lean ====
section
/-! DEFINITION. Number formats, exact values, rounding and the FP32 operations of the vector unit
(03). Every value is kept exactly; one function rounds. -/

namespace Sys2Proof.Machine

/-- An exact value: not a number, an infinity, or `± mag × 2^e` with its sign, zero included
(R118, R119). -/
inductive Num where
  | nan
  | inf (neg : Bool)
  | fin (neg : Bool) (mag : Nat) (e : Int)
  deriving DecidableEq, Repr

/-- A floating format (R118): exponent and mantissa bits, bias, and its special codes. -/
structure FFmt where
  ebits : Nat
  mbits : Nat
  bias : Int
  /-- The exponent field of all ones holds infinity and NaNs (IEEE 754). -/
  ieee : Bool
  /-- The code of all ones below the sign is the NaN (E4M3). -/
  topNan : Bool
  deriving DecidableEq, Repr

/-- A format by its element kind (R117, R118). -/
inductive Fmt where
  | float (f : FFmt)
  | int8
  | mxint8
  deriving DecidableEq, Repr

def fmtE4M3 : FFmt := ⟨4, 3, 7, false, true⟩
def fmtE5M2 : FFmt := ⟨5, 2, 15, true, false⟩
def fmtE3M2 : FFmt := ⟨3, 2, 3, false, false⟩
def fmtE2M3 : FFmt := ⟨2, 3, 1, false, false⟩
def fmtE2M1 : FFmt := ⟨2, 1, 1, false, false⟩
def fmtBF16 : FFmt := ⟨8, 7, 127, true, false⟩
def fmtFP16 : FFmt := ⟨5, 10, 15, true, false⟩
def fmtFP32 : FFmt := ⟨8, 23, 127, true, false⟩

/-- The element format of a format code; `none` where the code is reserved (R117). -/
def fmtOf (code : Nat) : Option Fmt :=
  match code with
  | 0 | 6 => some (.float fmtE4M3)
  | 1 | 7 => some (.float fmtE5M2)
  | 2 => some (.float fmtE3M2)
  | 3 => some (.float fmtE2M3)
  | 4 => some (.float fmtE2M1)
  | 5 => some .mxint8
  | 8 => some .int8
  | 9 => some (.float fmtBF16)
  | 10 => some (.float fmtFP16)
  | 11 => some (.float fmtFP32)
  | _ => none

/-- Element bits of a format code (R117). -/
def fmtBits (code : Nat) : Nat :=
  match code with
  | 2 | 3 => 6
  | 4 => 4
  | 9 | 10 => 16
  | 11 => 32
  | _ => 8

/-- The code is an MX format with block scales (R117). -/
def fmtIsMx (code : Nat) : Bool := code ≤ 5

/-- The MX K class of a format code (R117). -/
def fmtK (code : Nat) : Nat :=
  match code with
  | 4 => 64
  | 9 | 10 => 16
  | _ => 32

/-- Decodes an element code of a floating format (R118). -/
def FFmt.decode (f : FFmt) (v : Nat) : Num :=
  let neg := v.testBit (f.ebits + f.mbits)
  let ex := (v >>> f.mbits) % 2 ^ f.ebits
  let man := v % 2 ^ f.mbits
  let top := 2 ^ f.ebits - 1
  if f.ieee && ex == top then
    if man == 0 then .inf neg else .nan
  else if f.topNan && ex == top && man == 2 ^ f.mbits - 1 then .nan
  else if ex == 0 then .fin neg man (1 - f.bias - f.mbits)
  else .fin neg (2 ^ f.mbits + man) ((ex : Int) - f.bias - f.mbits)

/-- Decodes an element of a format (R118); the integers are two's complement. -/
def Fmt.decode (f : Fmt) (v : Nat) : Num :=
  match f with
  | .float g => g.decode v
  | .int8 => let i := sextInt 8 v; .fin (decide (i < 0)) i.natAbs 0
  | .mxint8 => let i := sextInt 8 v; .fin (decide (i < 0)) i.natAbs (-6)

/-- Decodes an element of a format code; a reserved code has no values. -/
def decodeCode (code v : Nat) : Num :=
  match fmtOf code with
  | some f => f.decode v
  | none => .nan

/-- FP32 bits as a value. -/
def ofFP32 (w : W32) : Num := fmtFP32.decode w.toNat

/-- Rounding modes (R134); the stochastic modes carry the 32-bit random word (R139, R140). -/
inductive Round where
  | rne | rtz | rup | rdn | rna
  | stoch (r : W32)
  deriving DecidableEq, Repr

/-- `floor (mag × 2^e / 2^g)` and the rest of the division, as a fraction `num / 2^den`. -/
def alignMag (mag : Nat) (e g : Int) : Nat × Nat × Nat :=
  if g ≤ e then (mag * 2 ^ (e - g).toNat, 0, 0)
  else
    let k := (g - e).toNat
    (mag / 2 ^ k, mag % 2 ^ k, k)

/-- Whether a magnitude with quotient `q` and rest `num / 2^den` is raised (R134, R139). -/
def raises (rm : Round) (neg : Bool) (q num den : Nat) : Bool :=
  if num == 0 then false
  else match rm with
    | .rne => decide (2 * num > 2 ^ den) || (2 * num == 2 ^ den && q % 2 == 1)
    | .rtz => false
    | .rup => !neg
    | .rdn => neg
    | .rna => decide (2 * num ≥ 2 ^ den)
    | .stoch r => decide (r.toNat < num * 2 ^ 32 / 2 ^ den)

/-- `floor (log2 (mag × 2^e))` of a non-zero magnitude. -/
def floorLog (mag : Nat) (e : Int) : Int := (Nat.log2 mag : Int) + e

/-- The rounded magnitude on the grid of a floating format with unbounded exponent: quotient and
grid exponent. -/
def FFmt.roundMag (f : FFmt) (rm : Round) (neg : Bool) (mag : Nat) (e : Int) : Nat × Int :=
  let g := max (floorLog mag e) (1 - f.bias) - f.mbits
  let (q, num, den) := alignMag mag e g
  (if raises rm neg q num den then q + 1 else q, g)

/-- The largest finite code below the sign of a floating format (R118). -/
def FFmt.maxCode (f : FFmt) : Nat :=
  if f.ieee then (2 ^ f.ebits - 1) * 2 ^ f.mbits - 1
  else if f.topNan then 2 ^ (f.ebits + f.mbits) - 2
  else 2 ^ (f.ebits + f.mbits) - 1

/-- Code below the sign of a rounded magnitude `q × 2^g`, unbounded above. -/
def FFmt.code (f : FFmt) (q : Nat) (g : Int) : Nat :=
  if q < 2 ^ f.mbits then q
  else
    -- a carry into the next binade leaves q = 2^(mbits + 1)
    let (q, g) := if q ≥ 2 ^ (f.mbits + 1) then (q / 2, g + 1) else (q, g)
    (g + f.bias + f.mbits).toNat * 2 ^ f.mbits + (q - 2 ^ f.mbits)

/-- Conversions into these formats follow IEEE 754 overflow; into the others they saturate
(R123). -/
def FFmt.overflows (f : FFmt) : Bool := f == fmtBF16 || f == fmtFP16 || f == fmtFP32

/-- The code below the sign that overflow gives under a rounding mode (R123, R139). -/
def FFmt.overflowCode (f : FFmt) (rm : Round) (neg : Bool) : Nat :=
  let infCode := (2 ^ f.ebits - 1) * 2 ^ f.mbits
  if f.overflows then
    match rm with
    | .rne | .rna | .stoch _ => infCode
    | .rtz => f.maxCode
    | .rup => if neg then f.maxCode else infCode
    | .rdn => if neg then infCode else f.maxCode
  else f.maxCode

/-- The canonical NaN code of a floating format, or +0 where it has none (R136). -/
def FFmt.nanCode (f : FFmt) : Nat :=
  if f.topNan || f == fmtE5M2 then 0x7F
  else if f.ieee then (2 ^ f.ebits - 1) * 2 ^ f.mbits + 2 ^ (f.mbits - 1)
  else 0

/-- Rounds a value once into a floating format (R123, R136). -/
def FFmt.convert (f : FFmt) (rm : Round) (x : Num) : Nat :=
  let sign := fun (neg : Bool) => if neg then 2 ^ (f.ebits + f.mbits) else 0
  match x with
  | .nan => f.nanCode
  | .inf neg =>
    sign neg + (if f.ieee then (2 ^ f.ebits - 1) * 2 ^ f.mbits else f.maxCode)
  | .fin neg mag e =>
    if mag == 0 then sign neg
    else
      let (q, g) := f.roundMag rm neg mag e
      let c := f.code q g
      sign neg + (if c > f.maxCode then f.overflowCode rm neg else c)

/-- Rounds a value once into an 8-bit integer element with grid `2^g`: saturating to ±127, NaN to
zero, as a two's complement byte (R136). -/
def convertInt (g : Int) (rm : Round) (x : Num) : Nat :=
  let byte := fun (neg : Bool) (q : Nat) =>
    let q := min q 127
    if neg then (256 - q) % 256 else q
  match x with
  | .nan => 0
  | .inf neg => byte neg 127
  | .fin neg mag e =>
    let (q, num, den) := alignMag mag e g
    byte neg (if raises rm neg q num den then q + 1 else q)

/-- Rounds a value once into a format (R136). -/
def Fmt.convert (f : Fmt) (rm : Round) (x : Num) : Nat :=
  match f with
  | .float g => g.convert rm x
  | .int8 => convertInt 0 rm x
  | .mxint8 => convertInt (-6) rm x

/-- Rounds a value into FP32. -/
def toFP32 (rm : Round) (x : Num) : W32 := BitVec.ofNat 32 (fmtFP32.convert rm x)

/-- The canonical NaN of FP32 (R145). -/
def canonicalNaN : W32 := 0x7FC00000

/-! ## Exact arithmetic -/

/-- A finite value as an integer at exponent `g ≤ e`. -/
def finInt (neg : Bool) (mag : Nat) (e g : Int) : Int :=
  let m : Int := (mag : Int) * 2 ^ (e - g).toNat
  if neg then -m else m

/-- An integer at exponent `g` as a value; zero takes the given sign. -/
def intNum (i g : Int) (zeroNeg : Bool) : Num :=
  if i == 0 then .fin zeroNeg 0 g else .fin (decide (i < 0)) i.natAbs g

def Num.neg : Num → Num
  | .nan => .nan
  | .inf s => .inf (!s)
  | .fin s m e => .fin (!s) m e

/-- Exact sum, with the IEEE 754 sign of a zero sum under round to nearest. -/
def Num.add : Num → Num → Num
  | .nan, _ => .nan
  | _, .nan => .nan
  | .inf s, .inf t => if s == t then .inf s else .nan
  | .inf s, _ => .inf s
  | _, .inf t => .inf t
  | .fin s m e, .fin t n f =>
    let g := min e f
    intNum (finInt s m e g + finInt t n f g) g (s && t && m == 0 && n == 0)

/-- Exact product. -/
def Num.mul : Num → Num → Num
  | .nan, _ => .nan
  | _, .nan => .nan
  | .inf s, .inf t => .inf (s != t)
  | .inf s, .fin t n _ => if n == 0 then .nan else .inf (s != t)
  | .fin s m _, .inf t => if m == 0 then .nan else .inf (s != t)
  | .fin s m e, .fin t n f => .fin (s != t) (m * n) (e + f)

/-- Multiplies by a power of two. -/
def Num.scale (x : Num) (k : Int) : Num :=
  match x with
  | .fin s m e => .fin s m (e + k)
  | y => y

/-- Strictly less, for values that are not NaN; zeros of either sign are equal. -/
def Num.lt : Num → Num → Bool
  | .nan, _ => false
  | _, .nan => false
  | .inf s, .inf t => s && !t
  | .inf s, .fin _ _ _ => s
  | .fin _ _ _, .inf t => !t
  | .fin s m e, .fin t n f =>
    let g := min e f
    decide (finInt s m e g < finInt t n f g)

/-- Equal as numbers; zeros of either sign are equal, NaN equals nothing. -/
def Num.eqv (x y : Num) : Bool :=
  match x, y with
  | .nan, _ => false
  | _, .nan => false
  | a, b => !(a.lt b) && !(b.lt a)

def Num.isNan : Num → Bool
  | .nan => true
  | _ => false

def Num.isNeg : Num → Bool
  | .nan => false
  | .inf s => s
  | .fin s _ _ => s

def Num.isZero : Num → Bool
  | .fin _ m _ => m == 0
  | _ => false

/-! ## FP32 operations in round to nearest even (R145, R184) -/

/-- `sa × a + sb × b` with one rounding; `true` negates (R184). -/
def fpAdd (na nb : Bool) (a b : W32) : W32 :=
  let x := if na then (ofFP32 a).neg else ofFP32 a
  let y := if nb then (ofFP32 b).neg else ofFP32 b
  toFP32 .rne (x.add y)

def fpMul (a b : W32) : W32 := toFP32 .rne ((ofFP32 a).mul (ofFP32 b))

/-- `sp × (a × b) + sc × c` with one rounding. -/
def fpFma (np nc : Bool) (a b c : W32) : W32 :=
  let x := (ofFP32 a).mul (ofFP32 b)
  let x := if np then x.neg else x
  let z := if nc then (ofFP32 c).neg else ofFP32 c
  toFP32 .rne (x.add z)

/-- Maximum, or minimum, with the NaN and signed-zero rules of R145 and R184. -/
def fpMax (wantMin : Bool) (a b : W32) : W32 :=
  let x := ofFP32 a
  let y := ofFP32 b
  if x.isNan && y.isNan then canonicalNaN
  else if x.isNan then b
  else if y.isNan then a
  else
    -- +0 is greater than −0
    let less := x.lt y || (x.isZero && y.isZero && x.isNeg && !y.isNeg)
    if wantMin then (if less then a else b) else (if less then b else a)

/-- The values of E8M0 scales: the exponent, or `none` for NaN (R120). -/
def scaleExp (b : Byte) : Option Int := if b = 0xFF then none else some ((b.toNat : Int) - 127)

/-- The random word of seeded stochastic rounding (R139). -/
def srsWord (seed : W32) (bc : BitVec 48) (e : Nat) : W32 :=
  let x := seed ^^^ (bc.setWidth 32 * 0x9E3779B9) ^^^ (BitVec.ofNat 32 e * 0x85EBCA6B)
  let x := (x ^^^ (x >>> 16)) * 0x7FEB352D
  let x := (x ^^^ (x >>> 15)) * 0x846CA68B
  x ^^^ (x >>> 16)

/-- `emax_F` of R137. -/
def blockEmax (code : Nat) : Int :=
  match code with
  | 0 => 8
  | 1 => 15
  | 2 => 4
  | 3 => 2
  | 4 => 2
  | _ => 0

/-- The largest magnitude of finite values, as a pair, `none` if a value is not finite. -/
def maxMag : List Num → Option (Nat × Int)
  | [] => some (0, 0)
  | x :: xs =>
    match x, maxMag xs with
    | .fin _ m e, some (n, f) =>
      let g := min e f
      if m * 2 ^ (e - g).toNat ≥ n * 2 ^ (f - g).toNat then some (m, e) else some (n, f)
    | _, _ => none

/-- Conversion of FP32 values into one MX block: the scale and the elements (R137). `rm` gives the
rounding mode of each element index. -/
def toBlock (code : Nat) (rm : Nat → Round) (xs : List Num) : Byte × List Nat :=
  match maxMag xs with
  | none => (0xFF, xs.map fun _ => 0)
  | some (m, e) =>
    if m == 0 then (0, xs.map fun _ => 0)
    else
      let s := min (max (floorLog m e - blockEmax code) (-127)) 127
      (BitVec.ofNat 8 (s + 127).toNat,
       xs.zipIdx.map fun (x, i) =>
         match fmtOf code with
         | some f => f.convert (rm i) (x.scale (-s))
         | none => 0)

/-! ## Exact block products and window accumulation (R126 to R130) -/

/-- A block result: a tag, or an exact value `i × 2^e`. -/
inductive Block where
  | nan
  | inf (neg : Bool)
  | fin (i e : Int)
  deriving DecidableEq, Repr

/-- Adds one term to a block result: NaN absorbs, infinities of both signs give NaN (R128). -/
def Block.addTerm (b : Block) (t : Num) : Block :=
  match b, t with
  | .nan, _ => .nan
  | _, .nan => .nan
  | .inf s, .inf u => if s == u then .inf s else .nan
  | .inf s, .fin _ _ _ => .inf s
  | .fin _ _, .inf u => .inf u
  | .fin i e, .fin s m f =>
    let g := min e f
    .fin (i * 2 ^ (e - g).toNat + finInt s m f g) g

/-- The exact sum of terms as a block result (R126, R128). -/
def blockSum (ts : List Num) : Block := ts.foldl Block.addTerm (.fin 0 0)

/-- `floor (i × 2^e / 2^w)` (R130). -/
def floorShift (i e w : Int) : Int :=
  if w ≤ e then i * 2 ^ (e - w).toNat else i / 2 ^ (w - e).toNat

end Sys2Proof.Machine
end

