-- ==== Sys2Proof/Machine/Operands.lean ====
section
/-! DEFINITION. Operands of tile instructions: the fields of each unit's word (R165, R180, R204,
R214, R219), the private registers (R69), scalar operand codes (R181), immediates (R182), addresses
(R166, R205) and the packing of elements (R124). -/

namespace Sys2Proof.Machine

/-- Field `[hi:lo]` of an operand field string. -/
def fld (f : Operands) (hi lo : Nat) : Nat := bitsOf f hi lo

/-- The instruction word of a unit, an operation and its operand fields (R158). -/
def tileWord (unit op : Nat) (f : Operands) : W64 :=
  BitVec.ofNat 64 ((unit % 4) * 2 ^ 62 + (op % 256) * 2 ^ 54 + f.toNat)

/-! ## Private registers; a register that the job has not written reads free (R74, log 8) -/

def keyA (i : Nat) : Nat := i
def keyS (i : Nat) : Nat := 16 + i
def keyP (i : Nat) : Nat := 24 + i

/-- A vector register as one 1,024-bit value, lane 0 lowest (R71). -/
def Tile.readV (y : Tile) (i : Nat) : BitVec 1024 := tgetD y.v i (Config.freeVec y.gen i)

def Tile.readA (y : Tile) (i : Nat) : W32 := tgetD y.a i (Config.freeReg y.gen (keyA i))

def Tile.readS (y : Tile) (i : Nat) : W32 := tgetD y.s i (Config.freeReg y.gen (keyS i))

/-- P0 reads as all ones (R70). -/
def Tile.readP (y : Tile) (i : Nat) : W32 :=
  if i = 0 then 0xFFFFFFFF else tgetD y.p i (Config.freeReg y.gen (keyP i))

/-- Lane `i` of a vector value (R71). -/
def lane (v : BitVec 1024) (i : Nat) : W32 := BitVec.ofNat 32 (v.toNat >>> (32 * i))

/-- Builds a vector value from its lanes. -/
def ofLanes (f : Nat → W32) : BitVec 1024 :=
  BitVec.ofNat 1024 ((List.range 32).foldr (fun i n => (f i).toNat + 2 ^ 32 * n) 0)

/-- The bits of the lanes that a predicate selects (R183). -/
def laneMask (p : W32) : BitVec 1024 :=
  ofLanes fun i => if p.getLsbD i then 0xFFFFFFFF else 0

def allLanes : BitVec 1024 := BitVec.allOnes 1024

def byteOf (n b : Nat) : Byte := BitVec.ofNat 8 (n >>> (8 * b))

/-! ## Scalar operand codes (R181) -/

/-- A register that an instruction reads or writes: its file, its number and its bits. -/
abbrev RegUse := RegKind × Nat × BitVec 1024

/-- The code names an operand that may be read. -/
def scalarReadable (c : Nat) : Bool := c ≤ 0x19

/-- The code names an operand that may be written. -/
def scalarWritable (c : Nat) : Bool := c ≤ 0x17

def Tile.readScalar (y : Tile) (c : Nat) : W32 :=
  if c < 0x10 then y.readA c
  else if c < 0x18 then y.readS (c - 0x10)
  else if c = 0x18 then y.bc.setWidth 32
  else BitVec.ofNat 32 (bitsOf y.bc 47 32)

/-- The register that a scalar code reads, if any. -/
def scalarUse (c : Nat) : List RegUse :=
  if c < 0x10 then [(.a, c, 1)] else if c < 0x18 then [(.s, c - 0x10, 1)] else []

/-! ## Addresses -/

/-- A[AR] plus a signed offset, modulo 2^32 (R166, R205). -/
def addrSum (a : W32) (bits off : Nat) : Nat :=
  (a + BitVec.ofInt 32 (sextInt bits off)).toNat

def alignDown (a n : Nat) : Nat := a / n * n

/-- Bank of an SRAM offset (R56). -/
def bankOf (a : Nat) : Nat := a / 0x10000

/-! ## Elements (R124) -/

/-- Element `e` of a line or register given as a little-endian number. -/
def element (line bits e : Nat) : Nat := (line >>> (bits * e)) % 2 ^ bits

/-! ## Data SRAM as instructions read it (R113, log 8) -/

/-- A byte of the data SRAM: free where nothing has written it in the current job. -/
def Tile.byte (y : Tile) (a : Nat) : Byte :=
  if inRanges y.known a then Mem.read y.sram a else Config.freeSram y.gen a

/-- The `n` bytes from `a` on. -/
def Tile.bytes (y : Tile) (a n : Nat) : List Byte := (List.range n).map fun i => y.byte (a + i)

/-- The 64 bytes of a flit. -/
def Tile.flitAt (y : Tile) (a : Nat) : Flit := BitVec.ofNat 512 (leNat (y.bytes a 64))

/-- The 128-byte line at an offset, as a number. -/
def Tile.line (y : Tile) (a : Nat) : Nat := leNat (y.bytes a 128)

/-! ## Counters of a tile, writes of its data SRAM -/

def Tile.counter (y : Tile) (off : Nat) : W64 := tgetD y.counters off 0

def Tile.count (y : Tile) (off : Nat) (n : Nat := 1) : Tile :=
  { y with counters := tput y.counters off (y.counter off + BitVec.ofNat 64 n) }

/-- Writes SRAM bytes; a word that is written whole holds good check bits again (R59). -/
def Tile.storeSram (y : Tile) (a : Nat) (bs : List Byte) : Tile :=
  let whole := fun (w : Nat) => decide (a ≤ 4 * w) && decide (4 * w + 4 ≤ a + bs.length)
  { y with sram := Mem.writeBytes y.sram a bs
           sramBad := y.sramBad.filter (!whole ·)
           sramWeak := y.sramWeak.filter (!whole ·) }

/-- A write by an instruction or a landed packet: the bytes are written in the current job (R113). -/
def Tile.writeSram (y : Tile) (a : Nat) (bs : List Byte) : Tile :=
  let y := y.storeSram a bs
  { y with known := addRange a (a + bs.length) y.known }

/-- A write through the control plane: of a word that it covers in part the rest is read, corrected
and written back (R59). -/
def Tile.cpWriteSram (y : Tile) (a : Nat) (bs : List Byte) : Tile :=
  let y := y.storeSram a bs
  let part := fun (w : Nat) => decide (a < 4 * w + 4) && decide (4 * w < a + bs.length)
  let k := y.sramWeak.countP part
  let y := { y with sramWeak := y.sramWeak.filter (!part ·) }
  if k = 0 then y else y.count tSramEcc k

end Sys2Proof.Machine
end

