-- ==== Sys2Proof/Machine/Flags.lean ====
section
/-! DEFINITION. Flags: the accumulator overflow flags (R105, R131, R133, R178). The
module's status pins (R585) stand in Boot.lean. -/

namespace Sys2Proof.Machine

def setFlag (v : BitVec 4) (i : Nat) (b : Bool) : BitVec 4 :=
  if b then v ||| ((1 : BitVec 4) <<< i) else v &&& ~~~((1 : BitVec 4) <<< i)

/-- Inserts a flag event in the order in which the events come due. -/
def insertOvf (e : OvfEvent) : List OvfEvent → List OvfEvent
  | [] => [e]
  | f :: fs => if e.due < f.due then e :: f :: fs else f :: insertOvf e fs

/-- Makes the flag changes of the cycles before cycle `t`, in order, up to the first one that
raises KIND 0x07, which is answered beside the tile (R131). -/
def settleOvf (t : Nat) (en : BitVec 4) : List OvfEvent → BitVec 4 →
    BitVec 4 × List OvfEvent × Option OvfEvent
  | [], v => (v, [], none)
  | e :: es, v =>
    if e.due < t then
      let v := setFlag v e.acc e.set
      if e.set && en.getLsbD e.acc then (v, es, some e) else settleOvf t en es v
    else (v, e :: es, none)

/-- The tile's cycle since its job began, waited cycles among them (R79, R163). -/
def Tile.now (y : Tile) : Nat := y.clk + y.idle

/-- A cycle after all the flag changes that are still to come. -/
def Tile.settledBy (y : Tile) : Nat := y.ovfPend.foldl (fun m e => max m (e.due + 1)) 0

/-- The tile's flags as of the start of cycle `t`. -/
def Tile.settle (y : Tile) (t : Nat) : Tile × Option OvfEvent :=
  let (v, es, f) := settleOvf t y.ovfEn y.ovfPend y.ovf
  ({ y with ovf := v, ovfPend := es }, f)

end Sys2Proof.Machine
end

