-- ==== Sys2Proof/Machine/Product.lean ====
section
/-! DEFINITION. Weight buffers, exact accumulators and block products of the matrix unit
(R126 to R133, R141 to R143, R167 to R175). -/

namespace Sys2Proof.Machine

/-! ## Layout (R167, R168) -/

/-- Bytes of a dense row of a format. -/
def rowBytes (fmt : Nat) : Nat := if fmtBits fmt = 6 then 24 else 32

/-- Rows in a line: dense rows, or input rows of MXSPARSE. -/
def rowsPerLine (sparseInput : Bool) (fmt : Nat) : Nat :=
  if sparseInput then 2 else if fmtBits fmt = 6 then 5 else 4

/-- Row `i` of a line, as a number. -/
def lineRow (line bytes i : Nat) : Nat := (line >>> (8 * bytes * i)) % 2 ^ (8 * bytes)

/-- Lines that MXLD reads. -/
def weightLines (fmt : Nat) (sparse : Bool) : Nat :=
  if sparse then 10 else if fmtBits fmt = 6 then 7 else 8

/-! ## Weight buffers (R64, R169) -/

def Tile.wb (y : Tile) (i : Nat) : WeightBuf := if i = 0 then y.wb0 else y.wb1

def Tile.setWb (y : Tile) (i : Nat) (w : WeightBuf) : Tile :=
  if i = 0 then { y with wb0 := w } else { y with wb1 := w }

/-- Elements of weight row `j`; free where the job has not loaded them (log 8). -/
def Tile.weightRow (y : Tile) (wb j : Nat) : Nat :=
  (tgetD (y.wb wb).rows j (Config.freeWeights y.gen (64 * wb + j))).toNat

def Tile.weightScale (y : Tile) (wb b : Nat) : Byte :=
  tgetD (y.wb wb).scales b
    (byteOf (Config.freeWeights y.gen (64 * wb + 32 + b / 32)).toNat (b % 32))

def Tile.weightMeta (y : Tile) (wb j : Nat) : Nat :=
  (tgetD (y.wb wb).md j (BitVec.ofNat 64
    ((Config.freeWeights y.gen (64 * wb + 34 + j / 4)).toNat >>> (64 * (j % 4))))).toNat

/-- The recorded format and kind of a buffer. -/
def Tile.weightKind (y : Tile) (wb : Nat) : Nat × Bool :=
  match (y.wb wb).kind with
  | some (f, s) => (f.toNat, s)
  | none => ((Config.freeWeightFmt y.gen wb).toNat, Config.freeWeightKind y.gen wb)

/-- Line `q` of a weight load enters its buffer (R167, R170). -/
def Tile.loadWeights (y : Tile) (wb q fmt : Nat) (sparse : Bool) (line : Nat) : Tile :=
  let w := y.wb wb
  y.setWb wb <|
    if sparse && 8 ≤ q then
      { w with md := (List.range 16).foldl (fun m i =>
          tput m (16 * (q - 8) + i) (BitVec.ofNat 64 (lineRow line 8 i))) w.md }
    else
      let rpl := rowsPerLine false fmt
      { w with rows := (List.range rpl).foldl (fun m i =>
          if rpl * q + i < 32 then
            tput m (rpl * q + i) (BitVec.ofNat 256 (lineRow line (rowBytes fmt) i))
          else m) w.rows }

/-! ## Accumulators (R128 to R133) -/

def accKey (acc row col : Nat) : Nat := 1024 * acc + 32 * row + col

def tagOf (n : Nat) : Tag :=
  match n % 4 with
  | 0 => .finite
  | 1 => .posInf
  | 2 => .negInf
  | _ => .nan

/-- An element of an accumulator: zero since the last MXZERO, free before the first one of the job
(R74, R155; log 8). -/
def Tile.accElem (y : Tile) (acc row col : Nat) : AccElem :=
  let k := accKey acc row col
  tgetD y.acc k
    (match tget y.wbase acc with
     | some _ => ⟨0, .finite⟩
     | none => ⟨Config.freeAcc y.gen k, tagOf (Config.freeAccTag y.gen k)⟩)

/-- WBASE of an accumulator (R129). -/
def Tile.accBase (y : Tile) (acc : Nat) : Int :=
  (tgetD y.wbase acc (Config.freeWbase y.gen acc)).toInt

/-- Tags combine (R128). -/
def Tag.join : Tag → Tag → Tag
  | .nan, _ => .nan
  | _, .nan => .nan
  | .finite, t => t
  | t, .finite => t
  | .posInf, .posInf => .posInf
  | .negInf, .negInf => .negInf
  | _, _ => .nan

/-- Adds a block result into an element: the element and whether it saturated (R128, R130). -/
def AccElem.add (wbase : Int) (e : AccElem) : Block → AccElem × Bool
  | .nan => ({ e with tag := .nan }, false)
  | .inf neg => ({ e with tag := e.tag.join (if neg then .negInf else .posInf) }, false)
  | .fin i x =>
    let sum := e.n.toInt + floorShift i x wbase
    if sum > 2 ^ 127 - 1 then ({ e with n := BitVec.ofInt 128 (2 ^ 127 - 1) }, true)
    else if sum < -(2 ^ 127) then ({ e with n := BitVec.ofInt 128 (-(2 ^ 127)) }, true)
    else ({ e with n := BitVec.ofInt 128 sum }, false)

/-- Adds a list of block results, each with its column, into a row. -/
def Tile.addCols (y : Tile) (acc row : Nat) : List (Nat × Block) → Tile × Bool
  | [] => (y, false)
  | (j, b) :: bs =>
    let (e, o) := (y.accElem acc row j).add (y.accBase acc) b
    let (y, o') := ({ y with acc := tput y.acc (accKey acc row j) e }).addCols acc row bs
    (y, o || o')

/-- Adds block results into a row; a saturation sets OVF when the instruction issued in
`due - 6 - row` writes it, whether or not words issue until then (R131, R163). -/
def Tile.addRow (y : Tile) (acc row due : Nat) (pc : BitVec 13) (bs : List (Nat × Block)) : Tile :=
  let (y, o) := y.addCols acc row bs
  if o then
    { y with ovfPend := insertOvf { due := due + y.idle, acc := acc, set := true, pc := pc } y.ovfPend }
  else y

/-! ## Block products -/

/-- Scale byte index of block `k` of row `j`: `per` scale bytes a row. -/
def scaleOf (code : Nat) (byte : Byte) : Option Int :=
  if fmtIsMx code then scaleExp byte else some 0

/-- A value times two scales; a NaN scale gives NaN (R128). -/
def scaled (x : Num) : Option Int → Option Int → Num
  | some a, some b => x.scale (a + b)
  | _, _ => .nan

/-- Block results of a dense row `x` (row `r` of the instruction) against weight row `j`
(R126, R172). -/
def Tile.denseBlocks (y : Tile) (wb fmt j r x : Nat) (scales : Nat) : List Block :=
  let wf := (y.weightKind wb).1
  let wrow := y.weightRow wb j
  let k4 := fmtK fmt = 64
  let len := if fmtK fmt = 16 then 16 else 32
  (List.range (if k4 then 2 else 1)).map fun k =>
    let sw := scaleOf wf (y.weightScale wb (if k4 then 2 * j + k else j))
    let sx := scaleOf fmt (byteOf scales (if k4 then 2 * r + k else r))
    blockSum ((List.range len).map fun i =>
      scaled ((decodeCode wf (element wrow (fmtBits wf) (len * k + i))).mul
        (decodeCode fmt (element x (fmtBits fmt) (len * k + i)))) sw sx)

/-- The kept elements of a sparse weight row with the logical elements they stand at
(R142, R173). -/
def keptPairs (fp4 : Bool) (code : Nat) : List (Nat × Nat) :=
  (List.range 16).flatMap fun g => (List.range 2).flatMap fun q =>
    let pos := (code >>> (4 * g + 2 * q)) % 4
    if fp4 then [(4 * g + 2 * q, 8 * g + 2 * pos), (4 * g + 2 * q + 1, 8 * g + 2 * pos + 1)]
    else [(2 * g + q, 4 * g + pos)]

/-- Every metadata code of a row names its first position below its second (R144). -/
def metaGood (code : Nat) : Bool :=
  (List.range 16).all fun g => (code >>> (4 * g)) % 4 < (code >>> (4 * g + 2)) % 4

/-- Block results of an MXSPARSE input row `x` against weight row `j` (R143, R174). -/
def Tile.sparseBlocks (y : Tile) (wb fmt j r x : Nat) (scales : Nat) : List Block :=
  let wf := (y.weightKind wb).1
  let fp4 := wf = 4
  let wrow := y.weightRow wb j
  let per := if fp4 then 4 else 2
  let terms := (keptPairs fp4 (y.weightMeta wb j)).map fun (c, l) =>
    let sw := scaleOf wf (y.weightScale wb (if fp4 then 2 * j + c / 32 else j))
    let sx := scaleOf fmt (byteOf scales (per * r + l / 32))
    (l / 32, scaled ((decodeCode wf (element wrow (fmtBits wf) c)).mul
      (decodeCode fmt (element x (fmtBits fmt) l))) sw sx)
  (List.range per).map fun k => blockSum ((terms.filter fun t => t.1 == k).map (·.2))

/-- The rows of one input line of a product, issued in cycle `t`: row `r0 + i` of the instruction
for `i < n` (R172, R173). -/
def Tile.productLine (y : Tile) (sparse : Bool) (acc wb fmt first r0 n t : Nat) (pc : BitVec 13)
    (scales line : Nat) : Tile :=
  (List.range n).foldl (fun y i =>
    let r := r0 + i
    let x := lineRow line (if sparse then 64 else rowBytes fmt) i
    let bs := (List.range 32).flatMap fun j =>
      (if sparse then y.sparseBlocks wb fmt j r x scales
       else y.denseBlocks wb fmt j r x scales).map fun b => (j, b)
    y.addRow acc (first + r) (t + r + 6) pc bs) y

/-- A step of MXLD, MXMUL or MXSPARSE in flight; the other steps are of the send path. -/
def Tile.mxStep (y : Tile) (m : InFlight) : Tile :=
  match m.op with
  | .weightLine wb q addr fmt sparse => y.loadWeights wb q fmt sparse (y.line addr)
  | .product sparse acc wb fmt first r0 n addr scales =>
    y.productLine sparse acc wb fmt first r0 n (m.due - r0) m.pc scales.toNat (y.line addr)
  | .descriptor _ _ | .flit _ _ _ => y

/-- Completes the matrix instructions in flight (R79); the flits of the others are counted by the
die that stops (R300). -/
def Tile.finishMx (y : Tile) : Tile :=
  { y.flight.foldl Tile.mxStep y with flight := [] }

end Sys2Proof.Machine
end

