-- ==== Sys2Proof/Machine/Stop.lean ====
section
/-! DEFINITION. Stops of the slice (R299 to R304), faults that a tile records (R95, R96) and the
raising of a hold by a unit of a die (R245, R246). -/

namespace Sys2Proof.Machine

/-- The stop class of a fault kind (R299, R304). -/
def stopClass (kind : Nat) : Nat :=
  if kind = 0x3F then 4
  else if 0x30 ≤ kind then 3
  else if 0x20 ≤ kind then 1
  else if 0x10 ≤ kind then 2
  else 1

/-- Fields of TIME_STOP_DETAIL that name a place on a link (R303). -/
def stopDetailAt (link slot : Nat) (h : Header) : W64 :=
  BitVec.ofNat 64 ((link % 32) * 2 ^ 59 + (slot % 256) * 2 ^ 51 + hDie h * 2 ^ 35
    + hDest h * 2 ^ 26 + hLand h * 2 ^ 17)

/-! ## Banks, windows and landing entries of a tile -/

/-- The active image bank (R100). -/
def Tile.bank (y : Tile) : Nat := y.active.toNat

/-- The allocation window of the active bank, as byte offsets `[lo, hi)` (R81, R103, R104). -/
def Tile.window (y : Tile) : Nat × Nat :=
  let w := if y.active then y.alloc1 else y.alloc0
  let base := bitsOf w 12 0
  let limit := min (bitsOf w 28 16) 6144
  if base > 6143 then (0, 0) else (base * 128, limit * 128)

/-- Every byte of `n` bytes at an address lies inside the active window (R82). -/
def Tile.inWindow (y : Tile) (a n : Nat) : Bool :=
  decide (y.window.1 ≤ a) && decide (a + n ≤ y.window.2)

/-- Key of entry `n` in the landing table of bank `b`. -/
def landKey (b n : Nat) : Nat := 512 * b + n

/-- Entry `n` of the landing table of the active bank. -/
def Tile.landing (y : Tile) (n : Nat) : W64 := tgetD y.land (landKey y.bank n) 0

def Tile.setLanding (y : Tile) (n : Nat) (v : W64) : Tile :=
  { y with land := tput y.land (landKey y.bank n) v }

def leEnable (v : W64) : Bool := bitOf v 63
def leState (v : W64) : Nat := bitsOf v 62 61
def leArmed (v : W64) : Bool := bitOf v 60
def leNoHold (v : W64) : Bool := bitOf v 59
def leNull (v : W64) : Bool := bitOf v 58
def leRcvd (v : W64) : Nat := bitsOf v 57 51
def leDeadline (v : W64) : Nat := bitsOf v 47 32
def leLength (v : W64) : Nat := bitsOf v 25 20
def leBase (v : W64) : Nat := bitsOf v 13 0

/-- An entry becomes EMPTY: STATE, ARMED, NULL and FLITS_RCVD are cleared (R86). -/
def leEmpty (v : W64) : W64 :=
  setBits (setBits (setBits (setBits v 62 61 0) 60 60 0) 58 58 0) 57 51 0

/-! ## What a stop does to a tile -/

/-- Some byte of the range lies in a landing place of the active table that is not VALID
(R112). -/
def Tile.unready (y : Tile) (a n : Nat) : Bool :=
  y.land.any fun (k, v) =>
    k / 512 == y.bank && leEnable v && leState v != 2
      && decide (leBase v * 64 < a + n)
      && decide (a < leBase v * 64 + 64 * (leLength v + 1))

/-- A masked line write: the lanes that the mask selects (R57, R211). -/
def Tile.storeLine (y : Tile) (a : Nat) (p : W32) (v : BitVec 1024) : Tile :=
  ((List.range 32).filter (p.getLsbD ·)).foldl
    (fun y i => y.writeSram (a + 4 * i) (leBytes (lane v i).toNat 4)) y

/-- The line of a STOREV in flight is written (R79). -/
def Tile.finishStore (y : Tile) : Tile :=
  match y.store with
  | none => y
  | some (a, p, v) => { y.storeLine a p v with store := none }

/-- The STOREV of the word before writes its line in the tile's current cycle; `none` where the line meets a landing
place that is not VALID then (R112, R201). -/
def Tile.writeStore (y : Tile) : Option Tile :=
  match y.store with
  | none => some y
  | some (a, p, _) =>
    if (List.range 32).any fun i => p.getLsbD i && y.unready (a + 4 * i) 4 then none else some y.finishStore

/-- A tile at a stop of its die: its instructions in flight complete, and it is STOPPED unless it
recorded the fault (R79, R300). -/
def Tile.stop (y : Tile) : Tile :=
  let y := y.finishMx.finishStore
  let v := y.ovfPend.foldl (fun o e => setFlag o e.acc e.set) y.ovf
  let y : Tile := { y with busy := [], banks := [], paths := [], watch := [],
                           ovf := v, ovfPend := [] }
  if y.state = .faulted then y else { y with state := .stopped }

/-- A hold that is abandoned; the sequence and the symbols seen stay (R300). -/
def Hold.abandon (h : Hold) : Hold :=
  { Hold.reset with seq := h.seq, seen := h.seen }

/-- Flits that the instructions of a tile in flight still send as they complete (R79). -/
def Tile.flitsDue (y : Tile) : Nat :=
  y.flight.countP fun m => match m.op with
    | .flit .. => true
    | _ => false

/-- Scheduled flits that a stop discards and counts: those in crossing queues, where a region's entry stands until its
flit time, in equalisers and on the late path of the link switch and of the egresses, replayed entries apart, and those
that instructions in flight still push (R79, R243, R300). -/
def Die.flitsLost (x : Die) : Nat :=
  x.queues.foldl (fun n q => n + q.2.length) 0 + x.eq.length + x.relay.countP (fun f => f.late || decide (f.src < 288)) + x.incoming.length
    + x.tiles.foldl (fun n y => n + y.2.flitsDue) 0
    + x.links.foldl (fun n l => n + (l.2.late.filter fun w => !w.again).length) 0

/-- The transfers of a job that is over are dropped. -/
def MemCtl.drop (m : MemCtl) : MemCtl :=
  { m with xfers := [], emits := [], wselPast := [], matched := [], lateOpen := false, lateToRaise := false }

/-- What a die does when it raises a stop or receives its first one (R300). -/
def Die.halt (x : Die) (d : Nat) : Die :=
  let x := x.bump rStopFlits x.flitsLost
  let x := { x with
    stopped := true
    tiles := tmap (fun _ y => y.stop) x.tiles
    queues := []
    eq := []
    relay := []
    incoming := []
    reserves := []
    claims := []
    links := tmap (fun _ l => { l with late := l.late.filter (·.again), rxRun := [] }) x.links
    regions := []
    hold := x.hold.abandon
    mem := x.mem.drop }
  let x := x.setBit d rBeatCtrl 0 false
  if x.armed.isSome then { x.setBit d rEpochCtrl 28 true with armed := none } else x

/-- The module learns of a stop: PCIE_PORT_STATUS and an EVENT entry, once for the first of its
dies (R469, R484). -/
def State.stopReached (s : State) (origin : Nat) : State :=
  if s.dies.any fun e => e.2.stopped then s
  else ((s.portStatus 0 31).portStatus 1 31).event 1 origin

/-- Halts a die and returns the contexts of its batch (R300, R478). -/
def State.haltDie (s : State) (d origin : Nat) : State :=
  let s := s.stopReached origin
  let s := s.modDie d (·.halt d)
  if isEDie d then (s.endBatch d).modDie d fun x => { x with ctx := { x.ctx with started := false } }
  else s

/-- A die raises a stop: symbol, record, log and halt. `logDetail` is DETAIL of the log entry
(R299 to R303, R513). A die that has stopped only sends the symbol. -/
def State.raiseStop (s : State) (d kind : Nat) (detail logDetail : W64) : State :=
  let x := s.die d
  let num := s.dieNumber d
  let sym := mkSymbol 3 (stopClass kind) num x.job.beat x.hold.seq.toNat
  let s := if x.hold.seen.contains (symbolKey sym) then s else s.modDie d (·.spread d none sym)
  if x.stopped then s
  else
    let s := s.logEvent d kind logDetail
    let s := s.modDie d fun x =>
      let x := x.setReg rStopInfo (BitVec.ofNat 64 (2 ^ 31 + 2 ^ 30 + kind * 2 ^ 24
        + stopClass kind * 2 ^ 20 + num))
      let x := x.setReg rStopBeat (BitVec.ofNat 64 (x.job.beat % 2 ^ 48))
      x.setReg rStopDetail detail
    s.haltDie d num

/-- A fault that the die itself finds (R304). -/
def State.dieFault (s : State) (d kind : Nat) (detail : W64 := 0) : State :=
  s.raiseStop d kind detail detail

/-! ## Tiles -/

/-- The fault record of a tile (R106). -/
def faultInfoWord (kind pc bank unit land : Nat) : W32 :=
  BitVec.ofNat 32 (2 ^ 31 + (kind % 32) * 2 ^ 26 + (pc % 2 ^ 13) * 2 ^ 13 + (bank % 2) * 2 ^ 12
    + (unit % 4) * 2 ^ 10 + land % 512)

/-- A tile detects a fault: it stops issuing, records it unless a fault is recorded, enters FAULTED
and reports it to its die, which stops the slice (R95, R96, R299). Its instructions in flight write no result
(R79). `h` is the header of the packet whose arrival raised it (R303). DESIGN CHOICE: TILE_STATUS.PC stays at the word that raised the fault (R99, log 71). -/
def State.tileFault (s : State) (d t kind pc unit land : Nat) (h : Header := 0) : State :=
  let y := (s.die d).tile t
  if bitOf y.faultInfo 31 then s
  else
    let y := { y with
      state := .faulted, busy := [], flight := [], ovfPend := [], banks := [], paths := []
      store := none, faultInfo := faultInfoWord kind pc y.bank unit land
      faultBeat := y.bc.setWidth 64 }
    let s := s.modDie d (·.setTile t y)
    s.raiseStop d kind (stopDetailAt 0 0 h ||| BitVec.ofNat 64 t) (BitVec.ofNat 64 (pc % 2 ^ 13 + t * 2 ^ 16))

/-- The flag changes of a tile up to cycle `t` are made: one that raises KIND 0x07 is the tile's fault
(R131). -/
def State.settleUpTo (s : State) (d n t : Nat) : State :=
  let y := (s.die d).tile n
  if y.ovfPend.isEmpty then s
  else
    let (y, sat) := y.settle t
    let s := s.modDie d (·.setTile n y)
    match sat with
    | some e => s.tileFault d n 0x07 e.pc.toNat 0 0
    | none => s

/-- The flag changes of the cycles before the tile's current one. -/
def State.settleTile (s : State) (d n : Nat) : State := s.settleUpTo d n ((s.die d).tile n).now

/-- The matrix instructions in flight on the tiles of a die have completed, as they have before the
accesses of a maintenance beat (R80), in a hold (R79) and at the end of a job: their flags are set and
cleared, and an enabled saturation is a fault. -/
def State.settleAll (s : State) (d : Nat) : State :=
  (s.die d).tiles.foldl (fun s e => s.settleUpTo d e.1 ((s.die d).tile e.1).settledBy) s

/-! ## Raising a hold (R245, R246) -/

/-- A hold raised or received with `n` job beats still to run after the current one: the earliest
one decides when the hold takes effect, and the others join it (R250). -/
def Hold.join (h : Hold) (n : Nat) : Hold :=
  { h with left := some (match h.left with | some m => min m n | none => n) }

/-- Takes a holder into the roll; of two raises of one die the earlier one stays, and of one beat the lowest
cause (R246, R252, R270). -/
def addHolder (h : Holder) : List Holder → List Holder
  | [] => [h]
  | a :: as =>
    if a.die = h.die then
      (if h.beat < a.beat then h else if h.beat = a.beat then { a with cause := min a.cause h.cause } else a) :: as
    else a :: addHolder h as

/-- The job beat count of the die, across switches: raises are ordered by it (R270, R298). -/
def Die.beatNow (x : Die) : Nat := x.job.base + x.job.beat

/-- A unit of the die raises a hold in the job beat with count `b`: the current one, or the one before
it where the unit's region lags. A pending hold is joined; the symbol is sent when no unit can raise in that
beat any more (R239, R246, R250). -/
def Die.raiseIn (x : Die) (d b cause : Nat) : Die :=
  let x := x.bump (rHoldsRaised + 8 * (cause - 1))
  let h := { x.hold with
    raised := x.hold.raised ++ [(b, cause)]
    mine := if x.hold.mine.contains cause then x.hold.mine else x.hold.mine ++ [cause]
    holders := addHolder ⟨BitVec.ofNat 16 (x.number d), b, cause⟩ x.hold.holders }
  { x with hold := if h.slot.isNone then h.join (x.horizon d - (x.beatNow - b)) else h }

/-- A unit of the die raises a hold in the current job beat (R246). -/
def Die.raiseHold (x : Die) (d cause : Nat) : Die := x.raiseIn d x.beatNow cause

/-- A hold may be raised now: a job runs and the slot is a job beat (R246). -/
def Die.inJobBeat (x : Die) (d : Nat) : Bool := x.jobOn d && x.hold.slot.isNone

/-- The job beat that the low 48 bits in BC name: the current one, or the one before it, in which a tile that
is late may still be (R234, R238). -/
def Die.fullBeat (x : Die) (bc : BitVec 48) : Nat :=
  if BitVec.ofNat 48 x.job.beat = bc then x.job.beat else x.job.beat - 1

/-- A tile that is in the job beat `bc` raises a hold (R239, R246). -/
def State.raiseFor (s : State) (d : Nat) (bc : BitVec 48) (cause : Nat) : State :=
  s.modDie d fun x => x.raiseIn d (x.job.base + x.fullBeat bc) cause

end Sys2Proof.Machine
end

