-- ==== Sys2Proof/Machine/Switch.lean ====
section
/-! DEFINITION. Port tables, the header check, crossing queues and flit times: what the link switch
and the regions of a die do with one flit (08, R241 to R244). -/

namespace Sys2Proof.Machine

/-- Endpoint code of a die's memory controller, and of the context engine of an E-die (R310). -/
abbrev destMem : Nat := 0x1F0
abbrev destCtx : Nat := 0x1F1

/-- EGRESS code "deliver on this die" (R320). -/
abbrev egDeliver : Nat := 0x30

/-- A port table entry (R320). -/
def Die.route (x : Die) (bank r : Nat) : W64 := tgetD x.regs (rRoute0 + 0x8000 * bank + 8 * r) 0

def rtValid (v : W64) : Bool := bitOf v 63
def rtEgress (v : W64) : Nat := bitsOf v 57 52
def rtDbeat (v : W64) : Nat := bitsOf v 43 40
def rtFt0 (v : W64) : Nat := bitsOf v 31 24

/-- DEST is not reserved for this die kind (R310). -/
def destGood (d dest : Nat) : Bool :=
  if isEDie d then dest == destMem || dest == destCtx else dest < 288 || dest == destMem

/-- The header check of a die (R319). -/
def State.headerGood (s : State) (d : Nat) (h : Header) : Bool :=
  let e := (s.die d).route (hEpoch h) (hRoute h)
  headerCheckGood h && hKind h != 3 && (!hNull h || hKind h == 0)
    && rtValid e && (rtEgress e == egDeliver || hasPort d (rtEgress e))
    && (rtEgress e != egDeliver || (hDie h == s.dieNumber d && destGood d (hDest h)))

/-- Some tile of the module holds a spanning image (R61). -/
def State.spanning (s : State) : Bool := s.dies.any fun x => x.2.tiles.any fun y => y.2.span

/-- The header names bank 1 while a spanning image runs, and the port table has no way for it: such a packet never
arrives, and the image is undefined (R116). The packet stays in the link switch until the next slot boundary, which
answers so. -/
def State.strayBank (s : State) (d : Nat) (h : Header) : Bool :=
  hEpoch h == 1 && !(s.die d).bank && headerCheckGood h && hKind h != 3 && (!hNull h || hKind h == 0)
    && !rtValid ((s.die d).route 1 (hRoute h)) && s.spanning

/-- A packet without a way stands in the die (R116). -/
def State.strayWaits (s : State) (d : Nat) : Bool :=
  let x := s.die d
  (x.relay ++ x.incoming ++ x.eq.map (·.flit)).any fun f => s.strayBank d f.hdr

/-- Key of the crossing queue between two clock domains of a C-die: regions 0-3, link switch 4
(R241, R311). -/
def qKey (src dst : Nat) : Nat := 5 * src + dst

/-- The link switch as a clock domain. -/
abbrev qSwitch : Nat := 4

/-- Two regions share an edge (R311). -/
def sharesEdge (a b : Nat) : Bool :=
  (a, b) ∈ [(0, 1), (1, 0), (2, 3), (3, 2), (0, 2), (2, 0), (1, 3), (3, 1)]

/-- The queue that a flit pushed by a tile of region `r` enters (R311, R317). -/
def State.sendQueue (s : State) (d r : Nat) (h : Header) : Nat :=
  let e := (s.die d).route (hEpoch h) (hRoute h)
  let r' := hDest h / 72
  if hKind h = 0 ∧ s.headerGood d h ∧ rtEgress e = egDeliver ∧ hDest h < 288
      ∧ (r' = r ∨ sharesEdge r r') then qKey r r'
  else qKey r qSwitch

/-! ## Flit times and reservations (R313, R320, R321) -/

/-- Flit times of an egress per beat (R313). -/
def flitTimes (p : Nat) : Nat := if isFabricPort p then 100 else 250

/-- Header attachments of an egress per beat (R313). -/
def attachments (p : Nat) : Nat := if isFabricPort p then 8 else 16

/-- A flit time that schedules may use (R313). -/
def schedulable (n : Nat) : Bool := n % 25 != 24

/-- Every cycle of a region intake may be used (R313). -/
def everyCycle (_ : Nat) : Bool := true

/-- The `f`-th flit time or cycle that schedules may use, at or after `ft` in `beat`: its beat and its
number. Those that `ok` does not admit and maintenance beats are skipped (R321). The fuel covers the 64
flits of a packet. -/
def slotOf (ok : Nat → Bool) (times beat ft f : Nat) : Nat → Nat × Nat
  | 0 => (beat, ft)
  | fuel + 1 =>
    if beat % 64 = 63 ∨ times ≤ ft then slotOf ok times (beat + 1) 0 f fuel
    else if ok ft then
      match f with
      | 0 => (beat, ft)
      | g + 1 => slotOf ok times beat (ft + 1) g fuel
    else slotOf ok times beat (ft + 1) f fuel

/-- Fuel of `slotOf`. -/
abbrev slotFuel : Nat := 160

/-- The egress is a region's intake: a delivery to a tile (R321). -/
def toTile (egress dest : Nat) : Bool := egress == egDeliver && decide (dest < 288)

/-- The beat and the flit time or cycle of flit `f` of a packet to `dest` that takes `ft` in `beat` with its flit
0: at a link, at the intake of an endpoint, or at a region with fill budget `fill` (R313, R321). -/
def flitSlot (fill egress dest beat ft f : Nat) : Nat × Nat :=
  if toTile egress dest then slotOf everyCycle fill beat ft f slotFuel
  else if egress = egDeliver then slotOf schedulable 250 beat ft f slotFuel
  else slotOf schedulable (flitTimes egress) beat ft f slotFuel

/-- Picoseconds from the start of a slot to flit time `n` of an egress (R313). -/
def flitPs (egress n : Nat) : Nat := n * (if isFabricPort egress then 160 else 64)

/-- A flit with the egress, beat and time that a port-table entry reserves for it; `ref` is the reference
beat of its packet (R321). -/
def Die.routed (x : Die) (d : Nat) (e : W64) (ref : Nat) (f : QFlit) : QFlit :=
  let (b, t) := flitSlot (x.fill d) (rtEgress e) (hDest f.hdr) (ref + rtDbeat e + 1 - x.job.base) (rtFt0 e) f.fidx
  { f with egress := rtEgress e, due := x.job.base + b, time := t }

/-- The flit times or cycles of a packet whose flit 0 is here on time (R321, R324). -/
def Die.reserve (x : Die) (d : Nat) (f : QFlit) : Die :=
  if f.late || f.fidx != 0 then x
  else
    { x with reserves := x.reserves ++ (List.range (hLen f.hdr + 1)).map fun i =>
        let (b, t) := flitSlot (x.fill d) f.egress (hDest f.hdr) (f.due - x.job.base) f.time i
        ⟨f.egress, x.job.base + b, t, f.hdr, i⟩ }

/-- The place of a flit: flit 0 counts from its own reference beat `ref`, and the later ones from that of flit 0, whose
packet holds their places. A later flit that finds none, its flit 0 being late or its own place past, is late
(R321, R322, R324). -/
def Die.slotted (x : Die) (d : Nat) (e : W64) (ref : Nat) (f : QFlit) : QFlit :=
  let y := x.routed d e ref f
  if f.fidx = 0 then y
  else
    match x.reserves.find? fun r => samePacket r.hdr f.hdr && r.idx == f.fidx with
    | some r => { y with egress := r.egress, due := r.due, time := r.time }
    | none => { y with late := true }

/-! ## Region clocks (R237, R238) -/

/-- Clock period of a region in ps (R237). -/
def Die.period (x : Die) (d r : Nat) : Nat :=
  500 + 2 * x.field d (rRegion + 0x40 * r + 0x20) 10 8

/-- Lag of cycle `words - 1` of a beat that began `start` ps late and has `stretches` stretched
cycles: the time from the end of the slot to the end of that cycle, 0 when it ends in time
(R238, R239). -/
def lagOf (start stretches period words : Nat) : Nat := start + (words + stretches) * period - 16000

/-! ## Crossing queues (R241 to R244) -/

/-- Entries that a crossing queue holds (R241). -/
abbrev queueDepth : Nat := 8

/-- The consumer side sees the entry `ps` picoseconds into the die's slot: it was pushed in an earlier beat, or
in a hold slot at all; one that was pushed late is there from `ready` ps on of the slot after its beat
(R242). -/
def Die.sees (x : Die) (f : QFlit) (ps : Nat) : Bool :=
  match x.hold.slot with
  | some j => decide (f.beat < x.beatNow) || (f.beat == x.beatNow && (decide (0 < j) || decide (f.ready ≤ ps)))
  | none => decide (f.beat + 1 < x.beatNow) || (f.beat + 1 == x.beatNow && decide (f.ready ≤ ps))

/-- A slot in ps (R232). -/
abbrev slotPs : Nat := 16000

/-- The flit has missed the flit time or cycle that was reserved for it, `ps` picoseconds into the die's
slot: it is late (R243, R324, R325). -/
def Die.missed (x : Die) (f : QFlit) (ps : Nat) : Bool :=
  f.late || decide (f.due < x.beatNow) || (f.due == x.beatNow && (x.hold.slot.isSome || !x.sees f ps))

/-- An endpoint of the die took the flit at its reserved flit time, `ps` picoseconds into a beat that is over; its packet
may end in a later beat (R321). -/
def Die.tookIn (x : Die) (f : QFlit) (ps : Nat) : Bool :=
  f.egress == egDeliver && !f.late && decide (f.due < x.beatNow)
    && (decide (f.beat + 1 < f.due) || (f.beat + 1 == f.due && decide (f.ready ≤ ps)))

/-- The flit has left its crossing queue `ps` picoseconds into the die's slot, at the flit time that was reserved for it
(R243). -/
def Die.passed (x : Die) (f : QFlit) (ps : Nat) : Bool :=
  let at' := flitPs f.egress f.time
  x.tookIn f at' || (f.due == x.beatNow && decide (at' ≤ ps) && !x.missed f at')

/-- The flit is an entry that region `r` pushed, has been given its place, and stands in the region's queue toward the
link switch until then (R243). -/
def Die.standing (x : Die) (r ps : Nat) (f : QFlit) : Bool :=
  decide (f.src < 288) && f.src / 72 == r && !x.passed f ps

/-- Late entries of a region that wait for their turn at an egress stand in its queue too; those that a replay holds
back are in the egress (R243, R361). -/
def Link.lateOf (l : Link) (r : Nat) : Nat := l.late.countP fun w => w.src == r && !w.catchUp

/-- Entries that a crossing queue holds `ps` picoseconds into the die's slot (R243, R244). -/
def Die.occupied (x : Die) (q ps : Nat) : Nat :=
  let n := (x.queue q).length
  if q % 5 = qSwitch then
    n + x.relay.countP (x.standing (q / 5) ps) + x.links.foldl (fun n l => n + l.2.lateOf (q / 5)) 0
  else n

/-- Pushes a flit into a crossing queue, `ps` picoseconds into the die's slot; a push into a full queue is not performed
and stops the slice (R244). -/
def State.push (s : State) (d q ps : Nat) (f : QFlit) : State :=
  let x := s.die d
  if x.occupied q ps < queueDepth then s.modDie d (·.setQueue q (x.queue q ++ [f]))
  else s.dieFault d 0x31 (stopDetailAt 0 0 f.hdr)

/-- An earlier entry of the flit's queue toward the link switch still waits, on the late path of an egress other than
`p` too (R243). -/
def Die.waitsBehind (x : Die) (p ps : Nat) (f : QFlit) : Bool :=
  decide (f.src < 288)
    && ((x.relay.takeWhile (· != f)).any (x.standing (f.src / 72) ps)
      || x.links.any fun l => l.1 != p && l.2.lateOf (f.src / 72) != 0)

end Sys2Proof.Machine
end

