-- ==== Sys2Proof/Machine/Arrivals.lean ====
section
/-! DEFINITION. The fill port of a tile: the cycles that its image reserves and those that a late flit may take
(R242, R243, R325), and the faults that an arrival raises (R87). -/

namespace Sys2Proof.Machine

/-! ## What an arriving flit finds (R87) -/

/-- The KIND of the schedule fault that an arriving flit raises, 0 for none: an overwrite has the
lower KIND where both apply (R87, R95, R104). A null packet arrives with its last flit. DEDUCED: a
flit of a FILLING entry that is not the next one breaks no row of R87; it lands at its own index, and
the entry is VALID with the flit of index LENGTH (log 27). -/
def Tile.landFault (y : Tile) (h : Header) (fidx : Nat) : Nat :=
  let e := y.landing (hLand h)
  let first := decide (fidx = 0) && !hNull h
  let null := hNull h && decide (fidx = hLen h)
  let beyond := decide (0xC0000 < 64 * leBase e + 64 * (leLength e + 1))
  let mismatch := hEpoch h != y.bank || !leEnable e || hLen h != leLength e
    || ((first || null) && beyond)
  let st := leState e
  if hEpoch h == y.bank && (first || null) && st != 0 then 0x03
  else if mismatch then 0x04
  else if !hNull h && fidx != 0 && st != 1 then 0x04
  else 0

/-! ## Cycles of a tile's beat (R238, R242) -/

/-- The job beat, counted as `Die.beatNow` counts, in which a tile is. -/
def Die.tileBeat (x : Die) (t : Nat) : Nat := x.job.base + x.fullBeat (x.tile t).bc

/-- The tile is in the beat of the die's slot, not in the one before it (R238). -/
def Die.inSlot (x : Die) (t : Nat) : Bool := BitVec.ofNat 48 x.job.beat == (x.tile t).bc

/-- Where cycle `c` of a tile's beat begins, in ps from the start of that beat's slot (R238). -/
def Die.cycleStart (x : Die) (d t c : Nat) : Nat :=
  let g := x.region (t / 72)
  if x.inSlot t then g.startLag + (c + g.stretches) * x.period d (t / 72)
  else g.lastStart + (c + g.lastStretches) * x.period d (t / 72)

/-- Cycles that a tile's beat, or a hold slot, has (R237, R238). -/
def Die.cyclesOf (x : Die) (d t : Nat) : Nat :=
  let g := x.region (t / 72)
  if x.hold.slot.isSome then 16000 / x.period d (t / 72)
  else if x.inSlot t then (16000 - g.startLag) / x.period d (t / 72) - g.stretches
  else (16000 + g.startLag - g.lastStart) / x.period d (t / 72) - g.lastStretches

/-- The entry is available in cycle `c` of the tile's beat; in a hold slot, in any cycle (R242, R251). -/
def Die.there (x : Die) (d t c : Nat) (f : QFlit) : Bool :=
  if x.hold.slot.isSome then x.sees f slotPs
  else
    let b := x.tileBeat t
    decide (f.beat + 1 < b) || (f.beat + 1 == b && decide (f.ready ≤ x.cycleStart d t c))

/-- The entry has missed the intake cycle that its image reserves for it, or has none: it is late (R243, R325). -/
def Die.missedCycle (x : Die) (d : Nat) (f : QFlit) : Bool :=
  let t := hDest f.hdr
  let y := x.tile t
  f.late || decide (f.due < x.tileBeat t)
    || (f.due == x.tileBeat t && (x.hold.slot.isSome || !x.there d t f.time f
          || (!y.waiting && decide (f.time + 1 < y.words))))

/-- The entry's reserved cycle is the one that the tile has just passed, or, at WAITBEAT, one of those that it
passes there. -/
def Die.atCycle (x : Die) (t : Nat) (f : QFlit) : Bool :=
  let y := x.tile t
  f.due == x.tileBeat t && (if y.waiting then decide (y.words ≤ f.time + 1) else y.words == f.time + 1)

/-- What `Tile.filled` counts in now: the tile's job beat, or the hold slot. -/
def Die.fillKey (x : Die) (t : Nat) : Nat :=
  if x.hold.slot.isSome then 2 * x.slotIndex + 1 else 2 * x.tileBeat t

/-- Cycles of the tile's beat, or of the hold slot, in which its fill port has taken a flit. -/
def Die.fillTaken (x : Die) (t : Nat) : List Nat :=
  let f := (x.tile t).filled
  if f.1 = x.fillKey t then f.2 else []

/-- The image reserves the tile's intake in cycle `c` of its beat (R325). -/
def Die.cycleReserved (x : Die) (t c : Nat) : Bool :=
  x.reserves.any fun r =>
    r.egress == egDeliver && r.due == x.tileBeat t && r.time == c && hDest r.hdr == t

/-- The cycles in which the tile's fill port may take a late flit now: the one that the tile has just passed; at
WAITBEAT those that follow, up to the fill budget; in a maintenance beat and in a hold slot every cycle. The image
leaves them free, and no flit has come in them (R314, R325). -/
def Die.freeCycles (x : Die) (d t : Nat) : List Nat :=
  let y := x.tile t
  let all := List.range (x.cyclesOf d t)
  let cs :=
    if x.hold.slot.isSome then all
    else if !y.waiting then (if y.words = 0 then [] else [y.words - 1])
    else if y.bc.toNat % 64 = 63 then all
    else all.filter fun c => decide (y.words ≤ c + 1) && decide (c < x.fill d) && !x.cycleReserved t c
  (if !y.waiting && x.hold.slot.isNone then cs.filter (!x.cycleReserved t ·) else cs).filter
    (!(x.fillTaken t).contains ·)

/-- The crossing queue into the tile's region in which the flit stands, its entry, and the entries before it. -/
def Die.arriving (x : Die) (t : Nat) (h : Header) (fidx : Nat) (payload : Flit) :
    Option (Nat × QFlit × List QFlit) :=
  let same := fun (f : QFlit) =>
    samePacket f.hdr h && f.fidx == fidx && (hNull h || f.payload == payload)
  (List.range 5).findSome? fun q =>
    let key := qKey q (t / 72)
    ((x.queue key).find? same).map fun f => (key, f, (x.queue key).takeWhile (!same ·))

/-- What an arrival at the fill port is: at its reserved cycle or late, with that cycle; two in one cycle, which is
undefined (R341); or none now. -/
inductive Intake where
  | none | onTime (cycle : Nat) | late (cycle : Nat) | twice
  deriving DecidableEq

/-- The fill port takes one flit a cycle, and the entries of a queue in push order: an entry behind another one waits,
and is late once its cycle has passed (R243, R325). -/
def Die.intake (x : Die) (d t : Nat) (f : QFlit) (before : List QFlit) : Intake :=
  if !before.isEmpty then .none
  else if x.missedCycle d f then
    match (x.freeCycles d t).find? fun c => x.there d t c f with
    | some c => .late c
    | none => .none
  else if !x.atCycle t f then .none
  else if (x.fillTaken t).contains f.time then .twice
  else .onTime f.time

/-- The on-time arrival in cycle `c` of the tile's beat that would raise a fault: its KIND and the header (R95). -/
def Die.arrivalFault (x : Die) (d t c : Nat) : Option (Nat × Header) :=
  if x.hold.slot.isSome then none
  else
    (List.range 5).findSome? fun q =>
      match x.queue (qKey q (t / 72)) with
      | f :: _ =>
        let k := (x.tile t).landFault f.hdr f.fidx
        if hDest f.hdr == t && !f.late && f.due == x.tileBeat t && f.time == c && x.there d t c f && k != 0 then
          some (k, f.hdr)
        else none
      | [] => none

end Sys2Proof.Machine
end

