-- ==== Sys2Proof/Machine/Issue.lean ====
section
/-! DEFINITION. How a tile issues a word (R75 to R80, R95, R96, R159 to R163, R198 to R203, R224):
fetch, the checks at issue, the hazards that the spec leaves undefined, the results with their
latencies, and the steps of instructions in flight. -/

namespace Sys2Proof.Machine

/-- Continues with the next state. -/
def Out.bind (o : Out) (k : State → Out) : Out :=
  match o with
  | .next s => k s
  | .fault r => .fault r
  | .refused r => .refused r

/-! ## SRAM reads by instructions -/

/-- Words of a byte range that a list of word offsets names. -/
def wordsIn (ws : List Nat) (a n : Nat) : Nat :=
  (ws.filter fun w => decide (a / 4 ≤ w) && decide (4 * w < a + n)).length

/-- Counts the words of a range that ECC corrected as they were read (R59). -/
def Tile.corrected (y : Tile) (a n : Nat) : Tile :=
  let k := wordsIn y.sramWeak a n
  if k = 0 then y else y.count tSramEcc k

/-- The byte range that a step reads through the access port. -/
def Micro.range : Micro → Option (Nat × Nat)
  | .weightLine _ _ a _ _ => some (a, 128)
  | .product _ _ _ _ _ _ _ a _ => some (a, 128)
  | .descriptor a _ => some (a, 8)
  | .flit _ _ (.line a) => some (a, 128)
  | .flit _ _ (.bytes a) => some (a, 64)
  | .flit _ _ _ => none

/-- The unit of the instruction that a step belongs to. -/
def Micro.unit : Micro → Nat
  | .weightLine .. | .product .. => 0
  | .descriptor .. | .flit .. => 2

/-- A step that reads a word with an uncorrectable error in the cycle with count `c`. -/
def Tile.badStep (y : Tile) (c : Nat) : Option InFlight :=
  y.flight.find? fun m => decide (m.due ≤ c) &&
    match m.op.range with
    | some (a, n) => wordsIn y.sramBad a n != 0
    | none => false

/-- A fault that an instruction raises in the tile's cycle with count `c`, unless another one of that cycle has a
lower KIND: an arrival, a saturation with its fault enabled, or a step in flight that reads a bad word (R95,
R131). -/
def State.cycleFault (s : State) (d t c kind pc unit : Nat) (land : Nat := 0) : State :=
  let x := s.die d
  let y := x.tile t
  match x.arrivalFault d t (y.words + c - y.clk) with
  | some (k, h) => if k < kind then s.tileFault d t k y.pc.toNat 0 (hLand h) h else s.tileFault d t kind pc unit land
  | none =>
    let settled := y.settle (c + 1 + y.idle)
    match (if 7 < kind then settled.2 else none) with
    | some e => (s.modDie d (·.setTile t settled.1)).tileFault d t 0x07 e.pc.toNat 0 0
    | none =>
      match (if 0x10 < kind then y.badStep c else none) with
      | some m => s.tileFault d t 0x10 m.pc.toNat m.op.unit 0
      | none => s.tileFault d t kind pc unit land

/-- What a tile does with a byte range that an instruction reads in its cycle with count `c`: undefined in an unready
landing place (R112), a tile fault at an uncorrectable word (R59), else it goes on. -/
def State.readRange (s : State) (d t c pc unit : Nat) (r : Option (Nat × Nat)) (k : State → Out) :
    Out :=
  match r with
  | none => k s
  | some (a, n) =>
    let y := (s.die d).tile t
    if y.unready a n then undef 112
    else if wordsIn y.sramBad a n ≠ 0 then .next (s.cycleFault d t c 0x10 pc unit)
    else k (s.modDie d (·.modTile t (·.corrected a n)))

/-! ## Steps in flight -/

/-- The payload of an HBMRD request flit (R317). -/
def requestPayload (desc : W64) (unit len : Nat) : Flit :=
  BitVec.ofNat 512 (desc.toNat + (unit % 2 ^ 32) * 2 ^ 64 + (len % 64) * 2 ^ 96)

/-- Payload of a departing flit. -/
def Tile.payload (y : Tile) : FlitSrc → Flit
  | .chaff | .zero => 0
  | .line a => y.flitAt a
  | .half => y.sendHalf
  | .bytes a => y.flitAt a
  | .request u len => requestPayload y.sendDesc u len

/-- Header of a departing flit (R317). -/
def Tile.header (y : Tile) : HdrSrc → Header
  | .descriptor null len beat => descHeader y.sendDesc null len beat.toNat
  | .built h => h

/-- How far into the next slot cycle `c` of a tile's current beat ends, in ps; 0 when it ends in the beat's
own slot (R238, R242). -/
def Die.overEnd (x : Die) (d t c : Nat) : Nat :=
  let y := x.tile t
  let g := x.region (t / 72)
  if x.hold.slot.isNone && BitVec.ofNat 48 x.job.beat == y.bc then
    lagOf g.startLag g.stretches (x.period d (t / 72)) (c + 1)
  else lagOf g.lastStart g.lastStretches (x.period d (t / 72)) (c + 1)

/-- The end of cycle `c` of a tile's beat, in ps from the start of the die's slot (R238, R242). -/
def Die.pushPs (x : Die) (d t c : Nat) : Nat :=
  if x.hold.slot.isNone && x.inSlot t then x.cycleStart d t (c + 1) else x.overEnd d t c

/-- A flit leaves the tile's mesh stop at the end of the cycle with issue count `due` and is pushed into its
crossing queue, for a region with its place at that region's intake (R200, R312, R321). -/
def State.depart (s : State) (d t due : Nat) (hs : HdrSrc) (fidx : Nat) (src : FlitSrc) : State :=
  let x := s.die d
  let y := x.tile t
  let h := y.header hs
  let key := s.sendQueue d (t / 72) h
  let b := x.job.base + x.fullBeat y.bc
  let q : QFlit := { hdr := h, fidx := fidx, payload := y.payload src, beat := b
                     ready := x.overEnd d t (y.words + due - y.clk), late := false, src := t
                     egress := egDeliver, due := 0, time := 0, serial := 0 }
  let y := match src with
    | .line a => { y with sendHalf := y.flitAt (a + 64) }
    | _ => y
  let ps := x.pushPs d t (y.words + due - y.clk)
  let x := x.setTile t y
  if key % 5 = qSwitch then (s.setDie d x).push d key ps q
  else
    let q := x.slotted d (x.route (hEpoch h) (hRoute h)) b q
    (s.setDie d (x.reserve d q)).push d key ps q

/-- Reserved bits of a send descriptor are zero (R208). -/
def descClean (v : W64) : Bool := bitsOf v 28 28 == 0 && bitsOf v 15 0 == 0

/-- One step of an instruction in flight. A send whose descriptor has reserved bits set is undefined
(R228); an HBMRD carries them to the controller, which refuses them (R418). -/
def State.flightStep (s : State) (d t : Nat) (m : InFlight) : Out :=
  s.readRange d t m.due m.pc.toNat m.op.unit m.op.range fun s =>
    match m.op with
    | .descriptor a send =>
      let v := BitVec.ofNat 64 (leNat (((s.die d).tile t).bytes a 8))
      if send && !descClean v then undef 228
      else .next (s.modDie d (·.modTile t fun y => { y with sendDesc := v }))
    | .flit h i src => .next (s.depart d t m.due h i src)
    | _ => .next (s.modDie d (·.modTile t (·.mxStep m)))

/-- Performs the steps that come due by cycle `upto`, in order, while the tile runs. -/
def State.runFlight (d t upto : Nat) : Nat → State → Out
  | 0, s => .next s
  | n + 1, s =>
    let y := (s.die d).tile t
    match y.flight with
    | [] => .next s
    | m :: ms =>
      if m.due ≤ upto ∧ y.state = .running then
        ((s.modDie d (·.setTile t { y with flight := ms })).flightStep d t m).bind
          (State.runFlight d t upto n)
      else .next s

/-- Adds a step in the order of due cycles. -/
def insertFlight (m : InFlight) : List InFlight → List InFlight
  | [] => [m]
  | a :: as => if m.due < a.due then m :: a :: as else a :: insertFlight m as

/-! ## Results and hazards -/

/-- A result: the register's bits that it writes, its latency L and the value (R76). -/
structure Wr where
  kind : RegKind
  idx : Nat
  mask : BitVec 1024
  lat : Nat
  val : BitVec 1024

def Tile.readReg (y : Tile) (k : RegKind) (i : Nat) : BitVec 1024 :=
  match k with
  | .v => y.readV i
  | .a => (y.readA i).setWidth 1024
  | .s => (y.readS i).setWidth 1024
  | .p => (y.readP i).setWidth 1024
  | .wb | .acc => 0

def Tile.storeReg (y : Tile) (k : RegKind) (i : Nat) (v : BitVec 1024) : Tile :=
  match k with
  | .v => { y with v := tput y.v i v }
  | .a => { y with a := tput y.a i (v.setWidth 32) }
  | .s => { y with s := tput y.s i (v.setWidth 32) }
  | .p => { y with p := tput y.p i (v.setWidth 32) }
  | .wb | .acc => y

/-- The register, or the row of the accumulator, has a pending write in cycle `t` (R108, R195). -/
def Tile.pendingOn (y : Tile) (t : Nat) (u : RegUse) : Bool :=
  y.busy.any fun b => b.kind == u.1 && b.idx == u.2.1 && decide (t < b.due)
    && (u.1 != .acc || b.lanes &&& u.2.2 != 0)

/-- Bits of a register with a pending write whose last cycle satisfies a test. -/
def Tile.pendingBits (y : Tile) (k : RegKind) (i : Nat) (f : Nat → Bool) : BitVec 1024 :=
  y.busy.foldl (fun m b => if b.kind == k && b.idx == i && f b.ends then m ||| b.lanes else m) 0

/-- Two results for the same register in the same cycle (R109). -/
def Tile.clash (y : Tile) (w : Wr) : Bool :=
  y.busy.any fun b => b.kind == w.kind && b.idx == w.idx && b.ends == y.now + w.lat

/-- Writes a result. Bits with a pending write that completes later keep the value of that write,
which is the value the register is left with; P0 discards writes. Latencies are counted in region cycles, waited
cycles among them (R70, R76, R163). -/
def Tile.write (y : Tile) (w : Wr) : Tile :=
  if w.kind = .p ∧ w.idx = 0 then y
  else
    let ends := y.now + w.lat
    let m := w.mask &&& ~~~(y.pendingBits w.kind w.idx fun b => decide (ends < b))
    let v := (y.readReg w.kind w.idx &&& ~~~m) ||| (w.val &&& m)
    let y := y.storeReg w.kind w.idx v
    { y with busy := { kind := w.kind, idx := w.idx, lanes := m, due := y.clk + w.lat, ends := ends } :: y.busy }

/-- Writes results in order; `none` where two meet in one cycle (R109). -/
def Tile.writes (y : Tile) : List Wr → Option Tile
  | [] => some y
  | w :: ws => if y.clash w then none else (y.write w).writes ws

/-! ## The plan of an instruction -/

/-- Where the next word issues (R220, R222, R223). -/
inductive Ctl where
  | seq
  | taken (pc : BitVec 13) (loops : List LoopLevel)
  | enter (l : LoopLevel)
  | skip (fin : Nat)

/-- What an instruction that raises nothing at issue does: its path and occupancy, the registers it
reads, the cycles and addresses of its SRAM accesses, the byte ranges that are checked against the
window, the range it touches in its issue cycle, its results, the accumulator and buffer marks
(with their latencies), its further steps, its other changes of the tile, the hold it raises,
where the next word issues, and the rule, if any, that leaves the case undefined. -/
structure Act where
  path : Nat
  occ : Nat := 1
  reads : List RegUse := []
  banks : List (Nat × Nat) := []
  window : List (Nat × Nat) := []
  touch : Option (Nat × Nat) := none
  results : List Wr := []
  marks : List (RegUse × Nat) := []
  flight : List (Nat × Micro) := []
  change : Tile → Tile := id
  hold : Option Nat := none
  ctl : Ctl := .seq
  wait : Bool := false
  undef : Option Nat := none

/-- What an instruction does at issue: invalid encoding, another fault with its landing index, or an
action. -/
inductive Plan where
  | invalid
  | fault (kind land : Nat)
  | run (a : Act)

/-! Paths (R162, R198). -/

abbrev pathLoad : Nat := 0
abbrev pathProduct : Nat := 1
abbrev pathReadout : Nat := 2
abbrev pathVx : Nat := 3
abbrev pathLs : Nat := 4
abbrev pathSend : Nat := 5
abbrev pathLand : Nat := 6
abbrev pathSq : Nat := 7

/-- A plan that depends on registers: reading one with a pending write is undefined before anything
that follows from its value (R108). -/
def Tile.early (y : Tile) (rs : List RegUse) (p : Plan) : Plan :=
  if rs.any (y.pendingOn y.clk) then .run { path := pathSq, reads := rs } else p

/-! ## Sequencing (R219 to R223) -/

/-- `end_check(w)`: the loop stack, and where the next word issues if a level repeats. -/
def endCheck (w : Nat) : List LoopLevel → List LoopLevel × Option Nat
  | [] => ([], none)
  | l :: ls =>
    if w = l.fin then
      if 1 < l.left then ({ l with left := l.left - 1 } :: ls, some l.start) else endCheck w ls
    else (l :: ls, none)

/-- PC and loop stack after a word (R220, R222). DESIGN CHOICE: word 0 follows word 8,191 of a spanning image, as PC has
13 bits (log 83). -/
def Tile.sequence (y : Tile) (c : Ctl) : Tile :=
  match c with
  | .seq =>
    let (ls, n) := endCheck y.pc.toNat y.loops
    { y with loops := ls, pc := match n with | some p => BitVec.ofNat 13 p | none => y.pc + 1 }
  | .taken p ls => { y with loops := ls, pc := p }
  | .enter l => { y with loops := l :: y.loops, pc := y.pc + 1 }
  | .skip fin =>
    let (ls, n) := endCheck fin y.loops
    { y with loops := ls,
             pc := BitVec.ofNat 13 (match n with | some p => p | none => fin + 1) }

/-! ## Issue -/

/-- The word index lies in the active image (R61). -/
def Tile.inImage (y : Tile) : Bool :=
  y.span || (if y.active then decide (4096 ≤ y.pc.toNat) else decide (y.pc.toNat < 4096))

/-- The OPs that a unit has (R164, R201). -/
def assigned (w : W64) : Bool :=
  let op := bitsOf w 61 54
  match bitsOf w 63 62 with
  | 0 => 1 ≤ op && op ≤ 6
  | 1 => [0x10, 0x11, 0x12, 0x14, 0x16, 0x18, 0x1C, 0x1D, 0x1E, 0x20, 0x21, 0x28, 0x30, 0x31,
          0x32].contains op
  | 2 => [0x01, 0x02, 0x10, 0x11, 0x12, 0x20, 0x30, 0x31].contains op
  | _ => op ≤ 6

/-- A tile may issue a word: it is RUNNING, it is not at WAITBEAT, and its beat is no maintenance
beat (R68, R80). -/
def State.mayIssue (s : State) (d t : Nat) : Bool :=
  let x := s.die d
  let y := x.tile t
  !x.inReset && x.jobOn d && y.state == .running && !y.waiting && y.bc.toNat % 64 != 63

/-- What a fetch finds (R61, R63, R96). -/
inductive Fetch where
  | fault (kind : Nat)
  | word (w : W64) (corrected : Bool)

def Tile.fetch (y : Tile) : Fetch :=
  let pc := y.pc.toNat
  if !y.inImage then .fault 0x02
  else if y.istoreBad.contains pc then .fault 0x11
  else .word (tgetD y.istore pc 0) (y.istoreWeak.contains pc)

/-- The hazards of an action in the tile's current cycle, beside a read of a register with a pending
write, by the rule that leaves each of them undefined. -/
def Tile.hazard (y : Tile) (a : Act) : Option Nat :=
  let t := y.clk
  if t < tgetD y.paths a.path 0 then some 110
  else
    let mine := a.banks.map fun b => (t + b.1, bankOf b.2)
    if mine.any (y.banks.contains ·) || !mine.Nodup then some 111
    else if a.wait && (y.flight.any (fun m => decide (t < m.due))
        || y.paths.any (fun p => decide (t + 1 < p.2))
        || y.banks.any (fun b => decide (t < b.1))) then some 163
    else a.undef

/-- The effects of an action on its tile. -/
def Tile.act (y : Tile) (a : Act) : Option Tile :=
  let t := y.clk
  match y.writes a.results with
  | none => none
  | some y =>
    let y := { y with
      paths := tput y.paths a.path (t + a.occ)
      banks := a.banks.map (fun b => (t + b.1, bankOf b.2)) ++ y.banks.filter (fun b => decide (t < b.1))
      busy := (a.marks.map fun m => { kind := m.1.1, idx := m.1.2.1, lanes := m.1.2.2,
                                      due := t + m.2, ends := y.now + m.2 }) ++ y.busy.filter (fun b => decide (t < b.due))
      flight := a.flight.foldl (fun fs m => insertFlight ⟨t + m.1, y.pc, m.2⟩ fs) y.flight }
    let y := a.change y
    let y := y.sequence a.ctl
    some { y with words := y.words + 1, clk := y.clk + 1, waiting := a.wait }

/-- The hardware error that a unit of the tile reports as it takes an instruction (R31, R97) is
reported. -/
def Tile.reportUnit (y : Tile) (unit : Nat) : Tile :=
  { y with unitBad := y.unitBad.filter (· != unit) }

/-- Performs a plan in the tile's current cycle, the word counted as issued (R98). `after` is what
the die does once the word has issued. Faults of the word come before the error of its unit: their
KIND is lower (R95). -/
def State.perform (s : State) (d t unit : Nat) (p : Plan) (after : State → State) : Out :=
  let s := s.modDie d (·.modTile t (·.count tIssued))
  let y := (s.die d).tile t
  let pc := y.pc.toNat
  match p with
  | .invalid => .next (s.cycleFault d t y.clk 0x02 pc unit)
  | .fault kind land => .next (s.cycleFault d t y.clk kind pc unit land)
  | .run a =>
    if a.reads.any (y.pendingOn y.clk) then undef 108
    else if a.window.all fun w => y.inWindow w.1 w.2 then
      match y.hazard a with
      | some r => undef r
      | none =>
        (State.runFlight d t y.clk (y.flight.length + 1) s).bind fun s =>
          if ((s.die d).tile t).state = .running then
            s.readRange d t y.clk pc unit a.touch fun s =>
             if ((s.die d).tile t).unitBad.contains unit then
               .next ((s.modDie d (·.modTile t (·.reportUnit unit))).cycleFault d t y.clk 0x12 pc unit)
             else
              match ((s.die d).tile t).writeStore with
              | none => undef 112
              | some z =>
                match z.act a with
                | none => undef 109
                | some z =>
                  let s := s.modDie d (·.setTile t z)
                  let s := match a.hold with
                    | some c => s.raiseFor d z.bc c
                    | none => s
                  .next (after s)
          else .next s
    else .next (s.cycleFault d t y.clk 0x01 pc unit)

/-- What a tile has done by the start of its current cycle: the overflow flags of earlier cycles are settled (R131)
and the steps that came due in them are done; then, while it still runs, `k`. -/
def State.throughPast (s : State) (d t : Nat) (k : State → Out) : Out :=
  let y := (s.die d).tile t
  let (y, sat) := y.settle y.now
  let s := s.modDie d (·.setTile t y)
  match sat with
  | some e => .next (s.tileFault d t 0x07 e.pc.toNat 0 0)
  | none =>
    (State.runFlight d t (y.clk - 1) (y.flight.length + 1) s).bind fun s =>
      if ((s.die d).tile t).state = .running then k s else .next s

/-- The budget of the beat is used up (R224). -/
def State.budgetDone (s : State) (d t : Nat) : Bool := decide ((s.die d).fill d ≤ ((s.die d).tile t).words)

/-- A fetch finds the word of a command, or one that no command can be (R159, R164). -/
def Fetch.performs (f : Fetch) (w : W64) : Bool :=
  match f with
  | .fault _ => true
  | .word v _ => v == w || !assigned v

/-- A tile issues the word of a command, if that word is the one at its PC. Before it issues, earlier cycles are
over, and the budget and the fetch are checked (R224, R96). -/
def issueTile (ref : TileRef) (unit op : Nat) (f : Operands) (plan : State → Tile → Plan)
    (after : State → State) (s : State) : Out :=
  let d := ref.die.val
  let t := ref.tile.val
  if !s.mayIssue d t || !(s.budgetDone d t || ((s.die d).tile t).fetch.performs (tileWord unit op f)) then .next s
  else
    s.throughPast d t fun s =>
      let y := (s.die d).tile t
      if s.budgetDone d t then .next (s.cycleFault d t y.clk 0x02 y.pc.toNat 3)
      else
        match y.fetch with
        | .fault kind => .next (s.cycleFault d t y.clk kind y.pc.toNat 3)
        | .word w corrected =>
          let s := if corrected then s.modDie d (·.modTile t (·.count tIstoreEcc)) else s
          if w = tileWord unit op f then s.perform d t unit (plan s ((s.die d).tile t)) after
          else s.perform d t (bitsOf w 63 62) .invalid id

end Sys2Proof.Machine
end

