-- ==== Sys2Proof/Machine/Intake.lean ====
section
/-! DEFINITION. Flits that are for endpoints of this die other than tiles: the reservations of local memory
requests (R422, R423) and packets whose flits have all reached an intake (R321, R325). -/

namespace Sys2Proof.Machine

/-! ## Memory schedules (R421 to R423) -/

/-- The memory schedule of the active bank. -/
def Die.memSched (x : Die) : MemSched := if x.bank then x.mem.sched1 else x.mem.sched0

/-- The job beats since the start, in the current and the next two periods, in which an entry
runs, when its intake beat comes after `push`. -/
def occurrences (period pos push : Nat) : List Nat :=
  let p := push / period
  [p * period + pos, (p + 1) * period + pos, (p + 2) * period + pos].filter fun b =>
    decide (push + 2 ≤ b)

/-- The INTAKE entry that a request of a region takes: of the matching type, the next one whose intake
beat had not passed when it was pushed, and that no earlier request took: its index, and the
job beat since the start in which it runs (R423). -/
def Die.takeIntake (x : Die) (region push : Nat) (type : SchedType) : Option (Nat × Nat) :=
  let sc := x.memSched
  if sc.period = 0 then none
  else
    let all := (List.range sc.entries.length).flatMap fun i =>
      match sc.entries[i]? with
      | some e =>
        if e.type = type ∧ e.region = region then
          ((occurrences sc.period e.pos push).filter fun b => !x.mem.matched.contains (i, b)).map
            fun b => (i, b)
        else []
      | none => []
    all.foldl (fun (best : Option (Nat × Nat)) c =>
      match best with
      | some b => if c.2 < b.2 then some c else some b
      | none => some c) none

/-- The EGRESS code, none of the port table's, of a local request that matches no INTAKE entry. -/
abbrev egNone : Nat := 0x3F

/-- Flit 0 of a local request takes its INTAKE entry: the intake flit time FT0 of the job beat before the one
in which the entry runs (R422, R423). -/
def Die.requestSlot (x : Die) (f : QFlit) : Die × QFlit :=
  let push := x.job.ran - (x.beatNow - f.beat)
  let type := if hKind f.hdr = 1 then SchedType.intakeWrite else .intakeRead
  let f := { f with serial := x.mem.serial }
  let x := { x with mem := { x.mem with serial := x.mem.serial + 1 } }
  match x.takeIntake (f.src / 72) push type with
  | none => (x, { f with egress := egNone })
  | some (i, b) =>
    let e := x.memSched.entries[i]?
    let units := if hKind f.hdr = 1 then hLen f.hdr else bitsOf f.payload 103 96
    let kept := x.mem.matched.filter fun m => decide (x.job.ran ≤ m.2 + 1024)
    ({ x with mem := { x.mem with matched := (i, b) :: kept } },
     { f with egress := if e.any (·.len == units) then egDeliver else egNone
              due := x.beatNow + (b - 1) - x.job.ran, time := e.elim 0 (·.ft0) })

/-- A later flit of a local request has the flit times that follow those of flit 0. -/
def Die.requestNext (x : Die) (d : Nat) (f : QFlit) : QFlit :=
  match x.relay.reverse.find? fun g => samePacket g.hdr f.hdr && g.src == f.src && g.fidx == 0 with
  | none => { f with egress := egNone }
  | some g =>
    let (b, t) := flitSlot (x.fill d) egDeliver destMem (g.due - x.job.base) g.time f.fidx
    { f with egress := g.egress, due := x.job.base + b, time := t, serial := g.serial }

/-! ## Packets that are whole (R321, R325) -/

/-- Flits of a packet for an endpoint of this die that have left its queues and equalisers. -/
def Die.stored (x : Die) (h : Header) : List QFlit :=
  x.relay.filter fun f => samePacket f.hdr h && (f.egress == egDeliver || f.egress == egNone)

/-- What the arrival of a packet at an intake is: whether it matched a reservation, whether a flit of it was
late, the beat count of its last reserved flit time, 0 where a flit came by the late path, that flit time, the
tile that pushed it and its place in issue order, and the regions of this die whose flits of it came late. -/
structure Arrival where
  reserved : Bool
  late : Bool
  due : Nat
  time : Nat
  src : Nat
  serial : Nat
  lates : List Nat

/-- The flits `fs` of a packet have reached the intake in the die's slot: on time in the beat that the packet reserved
for its last flit, or late (R243, R321, R325). -/
def Die.arrivalOf (x : Die) (h : Header) (flits : List Flit) (fs : List QFlit) : Option Arrival :=
  let whole := flits.length == hLen h + 1 && (List.range flits.length).all fun i =>
    fs.any fun f => f.fidx == i && some f.payload == flits[i]?
  let lates := fs.filter fun f =>
    let ps := flitPs egDeliver f.time
    (x.missed f ps && !x.tookIn f ps) || x.waitsBehind egNone ps f
  let last := fs.find? fun f => f.fidx == hLen h
  let due := if fs.any (·.late) then 0 else last.elim 0 (·.due)
  if !whole || (lates.isEmpty && decide (x.beatNow < due)) then none
  else
    some { reserved := fs.all (·.egress == egDeliver), late := !lates.isEmpty, due := due
           time := last.elim 0 (·.time), src := last.elim 288 (·.src), serial := last.elim 0 (·.serial)
           lates := (lates.filter fun f => decide (f.src < 288)).map (·.src / 72) }

/-- A packet that region `region` pushed, or that came from elsewhere (4), and whose flits stand in the link switch, has
reached the intake. Of the packets with one header, as of two requests that a tile sends in one beat, the first
does (R218, R317). -/
def Die.arrival (x : Die) (h : Header) (flits : List Flit) (region : Nat) : Option Arrival :=
  let fs := x.stored h
  (fs.filter fun z => z.fidx == 0 && z.src / 72 == region).findSome? fun z =>
    x.arrivalOf h flits (fs.filter fun f => f.src == z.src && f.serial == z.serial)

/-- The flits of a packet leave the link switch; crossing entries that left late are counted for the region that
pushed them (R265). -/
def Die.takePacket (x : Die) (h : Header) (a : Arrival) : Die :=
  a.lates.foldl (fun x r => x.bump (rRegion + 0x40 * r + 0x18))
    { x with relay := x.relay.filter fun f =>
        !(samePacket f.hdr h && (f.egress == egDeliver || f.egress == egNone) && f.src == a.src
          && f.serial == a.serial) }

end Sys2Proof.Machine
end

