-- ==== Sys2Proof/Machine/Wire.lean ====
section
/-! DEFINITION. Frames as bits: forward error correction (R346), the layouts of a fabric-port and of a
die-link frame (R347, R349), flit and group checks (R348, R350), the control field (R351) and the
flit-time codes (R352, R353). -/

namespace Sys2Proof

/-- CODE of a flit time (R352). -/
def FlitCode.num : FlitCode → Nat
  | .empty => 0
  | .reservedEmpty => 1
  | .data => 2
  | .dataH => 3
  | .chaff => 4
  | .chaffH => 5
  | .control => 6
  | .link => 7

def FlitCode.ofNum (n : Nat) : FlitCode :=
  match n with
  | 1 => .reservedEmpty
  | 2 => .data
  | 3 => .dataH
  | 4 => .chaff
  | 5 => .chaffH
  | 6 => .control
  | 7 => .link
  | _ => .empty

def FlitCode.sequenced (c : FlitCode) : Bool :=
  match c with
  | .data | .dataH | .chaff | .chaffH | .control => true
  | _ => false

def FlitCode.headed (c : FlitCode) : Bool := c == .dataH || c == .chaffH

end Sys2Proof

namespace Sys2Proof.Machine

/-! ## RS(234,230) over GF(2^8) (R346) -/

/-- A field element times α. -/
def gfDouble (a : Nat) : Nat := if a < 128 then 2 * a else (2 * a) ^^^ 0x11D

/-- Product of two field elements, over the low `n` bits of the second. -/
def gfMulBits (a b : Nat) : Nat → Nat
  | 0 => 0
  | n + 1 => gfDouble (gfMulBits a b n) ^^^ (if b.testBit (7 - n) then a else 0)

def gfMul (a b : Nat) : Nat := gfMulBits a b 8

/-- α^n. -/
def gfPow : Nat → Nat
  | 0 => 1
  | n + 1 => gfDouble (gfPow n)

/-- The exponent of a field element other than 0. -/
def gfLog (a : Nat) : Nat := ((List.range 255).find? fun n => gfPow n == a).getD 0

def gfDiv (a b : Nat) : Nat := if a = 0 then 0 else gfPow ((gfLog a + 255 - gfLog b) % 255)

/-- The value of a codeword at α^j, its symbols from the highest power down. -/
def syndrome (word : List Nat) (j : Nat) : Nat :=
  word.foldl (fun a b => (Nat.repeat gfDouble j a) ^^^ b) 0

/-- The errors of a codeword with the syndromes `a b c d`: powers of x and values. None, one or two
errors explain them, or `none` where the code cannot correct the word. -/
def rsErrors (a b c d : Nat) : Option (List (Nat × Nat)) :=
  let det := gfMul a c ^^^ gfMul b b
  if a = 0 ∧ b = 0 ∧ c = 0 ∧ d = 0 then some []
  else if det = 0 then
    let x := gfDiv b a
    if a ≠ 0 ∧ b ≠ 0 ∧ gfMul b x = c ∧ gfMul c x = d ∧ gfLog x < 234 then some [(gfLog x, a)] else none
  else
    let sum := gfDiv (gfMul a d ^^^ gfMul b c) det
    let prod := gfDiv (gfMul b d ^^^ gfMul c c) det
    match (List.range 234).filter fun n =>
        let x := gfPow n
        gfMul x x ^^^ gfMul sum x ^^^ prod == 0 with
    | [m, n] =>
      let e := gfDiv (b ^^^ gfMul a (gfPow m)) (gfPow m ^^^ gfPow n)
      some [(m, a ^^^ e), (n, e)]
    | _ => none

/-- A codeword of 230 data symbols and 4 parity symbols after decoding, with the number of symbols that
were corrected; `none` where it cannot be corrected. DEDUCED: the first data symbol is the coefficient of
the highest power of x (log 73). -/
def rsDecode (word : List Nat) : Option (List Nat × Nat) :=
  let s := syndrome word
  match rsErrors (s 0) (s 1) (s 2) (s 3) with
  | none => none
  | some es =>
    some (es.foldl (fun w e => w.modify (233 - e.1) (· ^^^ e.2)) word, es.length)

/-- The four parity symbols of 230 data symbols: the remainder of the division by the product of the
x - α^j, whose coefficients below x^4 are 0x0F, 0x36, 0x78 and 0x40. -/
def rsParity (data : List Nat) : List Nat :=
  data.foldl (fun r b =>
    let t := r.headD 0 ^^^ b
    List.zipWith (fun q g => q ^^^ gfMul t g) (r.drop 1 ++ [0]) [0x0F, 0x36, 0x78, 0x40]) [0, 0, 0, 0]

/-- Byte `i` of a frame. -/
def frameByte (f : FrameBits) (i : Nat) : Nat := bitsOf f (8 * i + 7) (8 * i)

/-- Codeword `c` of a frame. -/
def codeword (f : FrameBits) (c : Nat) : List Nat :=
  (List.range 230).map (fun i => frameByte f (31 * i + c))
    ++ (List.range 4).map fun j => frameByte f (7130 + 4 * c + j)

/-- Byte `i` of a frame becomes `v`. -/
def setByte (f : FrameBits) (i v : Nat) : FrameBits :=
  f ^^^ BitVec.ofNat 131072 ((frameByte f i ^^^ v) <<< (8 * i))

/-- The data string of a fabric-port frame as FEC leaves it, the bytes that it corrected, and the
codewords that it could not correct, whose bytes pass as they came (R346). -/
def fecDecode (f : FrameBits) : FrameBits × Nat × Nat :=
  (List.range 31).foldl (fun (a : FrameBits × Nat × Nat) c =>
    match rsDecode (codeword f c) with
    | none => (a.1, a.2.1, a.2.2 + 1)
    | some (_, 0) => a
    | some (w, n) =>
      ((List.range 230).foldl (fun g i => setByte g (31 * i + c) (w.getD i 0)) a.1, a.2.1 + n, a.2.2))
    (f, 0, 0)

/-- The parity of a fabric-port frame is filled in. -/
def fecEncode (f : FrameBits) : FrameBits :=
  (List.range 31).foldl (fun (g : FrameBits) c =>
    let ps := rsParity ((codeword f c).take 230)
    (List.range 4).foldl (fun g j => setByte g (7130 + 4 * c + j) (ps.getD j 0)) g) f

/-! ## What a frame holds -/

/-- One flit entry: its flit time; SEQ and CRC only a fabric-port entry has (R347, R350). -/
structure RxEntry where
  time : Nat
  code : FlitCode
  seq : BitVec 12
  payload : Flit
  crc : W32
  deriving DecidableEq, Repr

/-- A frame taken apart: its flit entries in order, its header attachments, its control field, and on a
die link its group checks. -/
structure Frame where
  entries : List RxEntry
  headers : List Header
  control : BitVec 116
  groups : List W32
  deriving DecidableEq, Repr

/-- The data string of a fabric-port frame (R347). -/
def fabricFrame (f : FrameBits) : Frame :=
  { entries := (List.range 100).map fun n =>
      let o := 1140 + 559 * n
      { time := n, code := FlitCode.ofNum (bitsOf f (o + 526) (o + 524))
        seq := BitVec.ofNat 12 (bitsOf f (o + 523) (o + 512))
        payload := BitVec.ofNat 512 (bitsOf f (o + 511) o)
        crc := BitVec.ofNat 32 (bitsOf f (o + 558) (o + 527)) }
    headers := (List.range 8).map fun a => BitVec.ofNat 128 (bitsOf f (116 + 128 * a + 127) (116 + 128 * a))
    control := BitVec.ofNat 116 (bitsOf f 115 0), groups := [] }

/-- A die-link frame (R349). -/
def dieLinkFrame (f : FrameBits) : Frame :=
  { entries := (List.range 250).map fun n =>
      { time := n, code := FlitCode.ofNum (bitsOf f (130048 + 3 * n + 2) (130048 + 3 * n)), seq := 0
        payload := BitVec.ofNat 512 (bitsOf f (512 * n + 511) (512 * n)), crc := 0 }
    headers := (List.range 16).map fun a =>
      BitVec.ofNat 128 (bitsOf f (128000 + 128 * a + 127) (128000 + 128 * a))
    control := BitVec.ofNat 116 (bitsOf f 131071 130958)
    groups := (List.range 5).map fun g =>
      BitVec.ofNat 32 (bitsOf f (130798 + 32 * g + 31) (130798 + 32 * g)) }

/-- A frame that arrives on port `p`, with what FEC corrected and could not correct. -/
def readFrame (fabric : Bool) (f : FrameBits) : Frame × Nat × Nat :=
  if fabric then
    let (g, n, k) := fecDecode f
    (fabricFrame g, n, k)
  else (dieLinkFrame f, 0, 0)

/-! ## Numbers, headers and checks (R348, R350, R353, R356) -/

/-- An entry as its place in the frame gives it: its extended sequence number, or the next one to be
assigned, and its header (R353, R356). -/
structure Placed where
  entry : RxEntry
  seq : BitVec 24
  hdr : Option Header

/-- Numbers the entries of a frame and attaches the headers. -/
def placeEntries (n : BitVec 24) (hs : List Header) : List RxEntry → List Placed
  | [] => []
  | e :: es =>
    let h := if e.code.headed then some (hs.headD 0) else none
    let hs := if e.code.headed then hs.drop 1 else hs
    ⟨e, n, h⟩ :: placeEntries (if e.code.sequenced then n + 1 else n) hs es

def headerBits (h : Option Header) : List Bool :=
  match h with
  | some h => bitsMsb h.toNat 128
  | none => []

/-- Flit check of a fabric-port entry (R348). -/
def Placed.check (a : Placed) : Nat :=
  crc32 (bitsMsb a.entry.payload.toNat 512
    ++ bitsMsb (if a.entry.code.sequenced then a.seq.toNat else 0) 24
    ++ bitsMsb a.entry.code.num 3 ++ headerBits a.hdr)

/-- Check of group `g` of a die-link frame (R350); `next` is the number after the frame's last
sequenced entry. -/
def groupCheck (as : List Placed) (next : BitVec 24) (g : Nat) : Nat :=
  let mine := as.filter fun a => a.entry.time / 50 == g
  let first := match as.find? fun a => decide (50 * g ≤ a.entry.time) && a.entry.code.sequenced with
    | some a => a.seq
    | none => next
  crc32 (bitsMsb first.toNat 24
    ++ mine.flatMap (fun a => bitsMsb a.entry.payload.toNat 512)
    ++ mine.flatMap (fun a => bitsMsb a.entry.code.num 3)
    ++ mine.flatMap fun a => headerBits a.hdr)

/-- The entry passes its check (R348, R350). -/
def Placed.good (a : Placed) (fabric : Bool) (badGroups : List Nat) : Bool :=
  if fabric then a.check == a.entry.crc.toNat && a.entry.seq == a.seq.setWidth 12
  else !badGroups.contains (a.entry.time / 50)

/-- Groups of a die-link frame whose check fails; its entries are `as`, numbered from `first`. -/
def badGroups (fabric : Bool) (f : Frame) (first : BitVec 24) : List Nat :=
  if fabric then []
  else
    let as := placeEntries first f.headers f.entries
    let next := first + BitVec.ofNat 24 (f.entries.countP (·.code.sequenced))
    (List.range 5).filter fun g => groupCheck as next g != (f.groups.getD g 0).toNat

/-! ## The control field (R351) -/

/-- Bits of the control field that its CHECK covers. -/
def fieldBits (fabric : Bool) : Nat := if fabric then 100 else 98

/-- The control field passes its CHECK. -/
def fieldGood (fabric : Bool) (v : BitVec 116) : Bool :=
  let n := fieldBits fabric
  crc16 (bitsMsb (v.toNat % 2 ^ n) n) == v.toNat / 2 ^ n % 2 ^ 16

/-- A control field with its CHECK: BASE below the fields `rest` of bits [81:24]. -/
def fieldOf (fabric : Bool) (base : BitVec 24) (rest : Nat) : BitVec 116 :=
  let n := fieldBits fabric
  let v := base.toNat + rest % 2 ^ 58 * 2 ^ 24
  BitVec.ofNat 116 (v + crc16 (bitsMsb v n) * 2 ^ n)

/-! ## Frames that leave -/

/-- Numbers of a frame's bits, as one natural number: a value at a bit offset. -/
def putAt (acc : Nat) (off v : Nat) : Nat := acc + v * 2 ^ off

/-- The bits of a fabric-port frame (R346 to R348). -/
def fabricBits (as : List Placed) (control : BitVec 116) : FrameBits :=
  let n := as.foldl (fun acc a =>
    putAt acc (1140 + 559 * a.entry.time) (a.entry.payload.toNat
      + (if a.entry.code.sequenced then a.seq.toNat % 2 ^ 12 else 0) * 2 ^ 512 + a.entry.code.num * 2 ^ 524
      + a.check * 2 ^ 527)) control.toNat
  let hs := as.filterMap (·.hdr)
  let n := (hs.zipIdx).foldl (fun acc h => putAt acc (116 + 128 * h.2) h.1.toNat) n
  fecEncode (BitVec.ofNat 131072 n)

/-- The bits of a die-link frame (R349, R350). -/
def dieLinkBits (as : List Placed) (next : BitVec 24) (control : BitVec 116) : FrameBits :=
  let n := as.foldl (fun acc a =>
    putAt (putAt acc (512 * a.entry.time) a.entry.payload.toNat) (130048 + 3 * a.entry.time)
      a.entry.code.num) (putAt 0 130958 control.toNat)
  let hs := as.filterMap (·.hdr)
  let n := (hs.zipIdx).foldl (fun acc h => putAt acc (128000 + 128 * h.2) h.1.toNat) n
  BitVec.ofNat 131072 ((List.range 5).foldl (fun acc g => putAt acc (130798 + 32 * g)
    (groupCheck as next g)) n)

/-- The bits of a frame: all its flit times in order, the sequence number of the first sequenced one, its
headers in order, and bits [81:24] of its control field. -/
def frameBits (fabric : Bool) (es : List RxEntry) (base : BitVec 24) (hs : List Header) (rest : Nat) :
    FrameBits :=
  let as := placeEntries base hs es
  let control := fieldOf fabric base rest
  if fabric then fabricBits as control
  else dieLinkBits as (base + BitVec.ofNat 24 (es.countP (·.code.sequenced))) control

end Sys2Proof.Machine
end

