-- ==== Sys2Proof/Machine/Fabric.lean ====
section
/-! DEFINITION. What the link switch and the links of a die do in a slot: crossing queues, equaliser
releases, the relay store, fences, collisions and the frames that leave (R241 to R244, R321 to R333,
R344 to R363, R390). The flits that leave in a slot are decided as the slot ends. -/

namespace Sys2Proof.Machine

/-! ## Links -/

/-- The link is active, at full or reduced rate (R396). -/
def Die.linkActive (x : Die) (d p : Nat) : Bool :=
  let st := x.lfield d p lStatus 31 29
  st == 2 || st == 3

def Die.fullRate (x : Die) (d p : Nat) : Bool := x.lfield d p lStatus 31 29 == 2

/-- Entries that a replay buffer holds (R362). -/
def bufferSize (p : Nat) : Nat := if isFabricPort p then 65536 else 2048

/-- The replay of the egress has not caught up (R361). -/
def Link.replaying (l : Link) : Bool := l.late.any (·.catchUp)

/-- Beats of equalised data latency (R323, R375). DESIGN CHOICE: a fabric port without a class has that of
class SR (log 74). -/
def delayBeats (cls p : Nat) : Nat :=
  if !isFabricPort p then 1
  else match cls with
    | 1 => 8
    | 2 => 9
    | 3 => 11
    | 4 => 44
    | 5 => 107
    | 6 => 325
    | 7 => 638
    | _ => 8

/-! ## Routing a flit inside the die -/

/-- A scheduled flit that is discarded because its link is not active at full rate, or because its link
enters phase 0, is counted (R370, R371). -/
def Die.discardAt (x : Die) (p : Nat) : Die := x.lbump p lDiscarded

/-- The mesh takes a flit of KIND 1 or 2 for this die straight to the die's memory controller (R317). -/
def Die.localRequest (x : Die) (d : Nat) (f : QFlit) : Bool :=
  decide (f.src < 288) && hKind f.hdr != 0 && hDie f.hdr == x.number d

/-- A flit of a packet that the die holds takes its place in the relay store: the egress, the beat
and the flit time that the port table or an INTAKE entry reserves (R321, R322, R422). -/
def Die.place (x : Die) (d ref : Nat) (f : QFlit) : Die :=
  let (x, f) :=
    if !x.localRequest d f then (x, x.slotted d (x.route (hEpoch f.hdr) (hRoute f.hdr)) ref f)
    else if f.fidx = 0 then x.requestSlot f
    else (x, x.requestNext d f)
  -- what an earlier die or queue made late has no place here (R324)
  let f := if f.late then { f with due := 0, time := 0 } else f
  { x.reserve d f with relay := x.relay ++ [f] }

/-- A fault that a step of the link switch finds: KIND and TIME_STOP_DETAIL. -/
abbrev Found := List (Nat × W64)

/-- The fault of a cycle is recorded: of several the one with the lowest KIND (R327). -/
def State.recordFound (s : State) (d : Nat) : Found → State
  | [] => s
  | b :: bs =>
    let b := bs.foldl (fun (a c : Nat × W64) => if c.1 < a.1 then c else a) b
    s.dieFault d b.1 b.2

/-- A flit comes out of a crossing queue into the link switch, or from an endpoint; the header of flit 0 is
checked (R319, log 20). -/
def State.takeFound (s : State) (d : Nat) (f : QFlit) : State × Found :=
  let own := (s.die d).localRequest d f
  if !own && s.strayBank d f.hdr then (s.modDie d fun x => { x with relay := x.relay ++ [{ f with egress := egNone }] }, [])
  else if !own && !s.headerGood d f.hdr then
    (s, if f.fidx = 0 then [(0x21, stopDetailAt 0 0 f.hdr)] else [])
  else (s.modDie d (·.place d f.beat f), [])

/-- A flit that an endpoint of the die emits enters the link switch. -/
def State.takeFlit (s : State) (d : Nat) (f : QFlit) : State :=
  let (s, bad) := s.takeFound d f
  s.recordFound d bad

/-- The link switch sees the entries of the regions' queues toward it that are there `ps` picoseconds into the slot, in
push order, and gives them their places (R242, R322). -/
def State.drainQueues (s : State) (d ps : Nat) : State × Found :=
  (List.range 4).foldl (fun (a : State × Found) r =>
    let q := qKey r qSwitch
    let x := a.1.die d
    let fs := (x.queue q).filter (x.sees · ps)
    if fs.isEmpty then a
    else fs.foldl (fun (a : State × Found) f =>
        let (s, bad) := a.1.takeFound d f
        (s, a.2 ++ bad))
      (a.1.setDie d (x.setQueue q ((x.queue q).filter (!x.sees · ps))), a.2)) (s, [])

/-- Equalisers release the flits of the die's job beat; they can leave in later beats only (R322, R323). -/
def Die.releaseEq (x : Die) (d : Nat) : Die :=
  let due := x.eq.filter fun e => decide (e.release ≤ x.beatNow)
  due.foldl (fun x e => x.place d e.release e.flit)
    { x with eq := x.eq.filter fun e => decide (x.beatNow < e.release) }

/-- Late flits that arrived in the slot that ends can leave from the next one on (R322). -/
def Die.admitLate (x : Die) (d : Nat) : Die :=
  x.incoming.foldl (fun x f => x.place d x.beatNow { f with beat := x.beatNow }) { x with incoming := [] }

/-! ## Into the regions (R243, R244, R321, R325) -/

/-- A flit is reserved an earlier cycle than another. -/
def QFlit.earlier (f g : QFlit) : Bool := decide (f.due < g.due) || (f.due == g.due && decide (f.time < g.time))

def insertFlit (f : QFlit) : List QFlit → List QFlit
  | [] => [f]
  | g :: gs => if f.earlier g then f :: g :: gs else g :: insertFlit f gs

/-- A flit that a region takes in the next beat is pushed into the region's queue, tagged with the beat before;
a full queue overflows (R244). DESIGN CHOICE: the relay store holds it until then, the flits of one beat go in
the order of their cycles, and late flits wait until the queue has room (log 75). -/
def State.feedRegions (s : State) (d : Nat) : State :=
  let x := s.die d
  let mine := x.relay.filter fun f => toTile f.egress (hDest f.hdr)
  let late := mine.filter fun f => f.late || decide (f.due ≤ x.beatNow)
  let next := (mine.filter fun f => !f.late && f.due == x.beatNow + 1).foldl (fun l f => insertFlit f l) []
  let key := fun (f : QFlit) => qKey qSwitch (hDest f.hdr / 72)
  let go := fun (s : State) (f : QFlit) =>
    let s := s.modDie d fun x => { x with relay := removeFirst (· == f) x.relay }
    s.push d (key f) slotPs { f with beat := (s.die d).beatNow, ready := 0 }
  let s := late.foldl (fun s f => if ((s.die d).queue (key f)).length < queueDepth then go s f else s) s
  next.foldl (fun s f => if (s.die d).stopped then s else go s f) s

/-! ## Fences (R332, R333) -/

/-- The far module of a fabric port is fenced for packets of a bank. -/
def Die.fenced (x : Die) (d p bank : Nat) : Bool :=
  let far := x.reg d (rEgress + 0x80 * p + 0x38)
  let m := bitsOf far 9 0
  isFabricPort p && bitOf far 31 && (tgetD x.fence (32 * bank + m / 32) 0).getLsbD (m % 32)

/-- What a fabric-port egress does with a flit under the fence masks: it passes, or it is
discarded, or it stops the slice. -/
inductive FenceAct where
  | pass | discard | stop
  deriving DecidableEq

def Die.fenceAct (x : Die) (d p : Nat) (h : Header) : FenceAct :=
  if x.fenced d p (hEpoch h) then
    if hDie h / 64 = x.field d (rEgress + 0x80 * p + 0x38) 9 0 then .discard else .stop
  else .pass

/-! ## The late path (R243, R324) -/

/-- A waiting entry for the late path. -/
def lateEntry (f : QFlit) (catchUp : Bool) : Waiting :=
  { entry := { seq := 0, code := if hNull f.hdr then .chaff else .data, hdr := f.hdr,
               fidx := f.fidx, payload := f.payload, head := 0 }
    again := false, catchUp := catchUp, src := f.src / 72, spilled := false }

/-- A flit joins the late path of an egress; later flits of its packet will follow (R324). -/
def Link.addLate (l : Link) (f : QFlit) (catchUp : Bool) : Link :=
  let k := lateHeader f.hdr 0
  let seen := if f.fidx = hLen f.hdr then l.latePackets.filter (· != k)
              else if l.latePackets.contains k then l.latePackets else k :: l.latePackets
  { l with late := l.late ++ [lateEntry f catchUp], latePackets := seen }

/-- A flit leaves the relay store for egress `p` outside its reserved flit time, or is discarded; a crossing
entry that goes late is counted for its region (R265, R324, R333, R371). -/
def Die.goLate (x : Die) (d p n : Nat) (catchUp : Bool) (f : QFlit) : Die × Found :=
  let y := { x with relay := removeFirst (· == f) x.relay }
  if !x.fullRate d p then (y.discardAt p, [])
  else
    match x.fenceAct d p f.hdr with
    | .stop => (y, [(0x22, stopDetailAt p n f.hdr)])
    | .discard =>
      let y := y.ebump p 0x30
      (if f.fidx = 0 then y.ebump p 0x28 else y, [])
    | .pass =>
      let y := y.modLink p (·.addLate f catchUp)
      (if f.src < 288 then y.bump (rRegion + 0x40 * (f.src / 72) + 0x18) else y, [])

/-! ## Control packets (R377, R387 to R391) -/

/-- Fields of a control header (R378). -/
def cField (p : ControlPacket) (hi lo : Nat) : Nat := bitsOf p.header hi lo

def cVc (p : ControlPacket) : Nat := cField p 397 397
def cTc (p : ControlPacket) : Nat := cField p 396 395
def cFence (p : ControlPacket) : Bool := cField p 394 394 == 1
def cDlen (p : ControlPacket) : Nat := cField p 392 390

/-- Credit counter of a packet: headers; the next one counts its data (R387). -/
def creditIdx (p : ControlPacket) : Nat := 6 * cVc p + 2 * (cTc p - 1)

def Credit.reset : Credit := { adv := 0, used := 0, ret := 0, freed := 0 }

def Link.credit (l : Link) (i : Nat) : Credit := tgetD l.credits i Credit.reset

/-- Credits that the sender has left on a counter (R388). -/
def Credit.avail (c : Credit) : Nat := (c.adv + c.ret - c.used).toNat

def Link.hasCredit (l : Link) (p : ControlPacket) : Bool :=
  let i := creditIdx p
  decide (1 ≤ (l.credit i).avail) && decide (cDlen p ≤ (l.credit (i + 1)).avail)

def Link.spend (l : Link) (p : ControlPacket) : Link :=
  let i := creditIdx p
  let c := l.credit i
  let e := l.credit (i + 1)
  let c := { c with used := c.used + 1 }
  let e := { e with used := e.used + BitVec.ofNat 12 (cDlen p) }
  { l with credits := tput (tput l.credits i c) (i + 1) e }

/-- The packets at the heads of the egress's queues, one queue for each virtual channel and class (R387). -/
def Link.heads (l : Link) : List CpWait :=
  l.ctl.filter fun c => (l.ctl.find? fun b => cVc b.pkt == cVc c.pkt && cTc b.pkt == cTc c.pkt) == some c

/-- No packet that came before a fenced one on the same ingress still waits for the egress (R391). -/
def Link.fenceOpen (l : Link) (c : CpWait) : Bool :=
  !cFence c.pkt || l.ctl.all fun b => b.src != c.src || decide (c.order ≤ b.order)

/-- The next control packet that may start: the head of a queue, with credits for the whole packet
(R389 to R391). -/
def Link.nextControl (l : Link) : Option CpWait :=
  l.heads.find? fun c => l.fenceOpen c && l.hasCredit c.pkt

/-! ## Frames (R353 to R363, R388, R390) -/

/-- A frame as it fills: the link, the entries so far (latest first), header attachments that late
heads may use, the late run that continues, the flits that claimed their flit times, and counts: late
flits, late headers, late chaff, entries sent again, new sequence numbers. -/
structure Fill where
  link : Link
  entries : List (Nat × TxEntry)
  attach : Nat
  run : Option (Header × Nat)
  claimed : List (Nat × QFlit)
  lates : Nat
  lateHeads : Nat
  lateNulls : Nat
  again : Nat
  fresh : Nat

/-- Puts a sequenced entry into the frame and the replay buffer (R356, R359). -/
def Fill.sequenced (w : Fill) (n : Nat) (e : TxEntry) : Fill :=
  let e := { e with seq := w.link.txSeq }
  { w with link := { w.link with txSeq := w.link.txSeq + 1, buffer := w.link.buffer ++ [e] }
           entries := (n, e) :: w.entries, fresh := w.fresh + 1 }

def linkEntry (payload : Flit) : TxEntry :=
  { seq := 0, code := .link, hdr := 0, fidx := 0, payload := payload, head := 0 }

/-- A flit time that passes with a code that is not sequenced. -/
def Fill.bare (w : Fill) (n : Nat) (code : FlitCode) : Fill :=
  { w with entries := (n, { linkEntry 0 with code := code }) :: w.entries }

/-- Takes up to eight different symbols for one LINK flit; a second copy waits for another flit
(R354). -/
def takeSymbols : List W64 → List W64 → List W64 → List W64 × List W64
  | [], taken, left => (taken.reverse, left.reverse)
  | v :: vs, taken, left =>
    if taken.length < 8 ∧ ¬taken.contains v then takeSymbols vs (v :: taken) left
    else takeSymbols vs taken (v :: left)

def symbolsFlit (vs : List W64) : Flit :=
  BitVec.ofNat 512 (vs.foldr (fun v n => v.toNat + 2 ^ 64 * n) 0)

/-- The replay buffer can take another entry (R363). -/
def Link.room (l : Link) (p : Nat) : Bool := decide (l.buffer.length < bufferSize p)

/-- Sends the late entry at the head of the late path, if the flit time can take it. -/
def Fill.late (w : Fill) (p n : Nat) : Option Fill :=
  match w.link.late with
  | [] => none
  | a :: rest =>
    let control := a.entry.code == .control
    let goes := match w.run with
      | some (h, i) => samePacket h a.entry.hdr && i == a.entry.fidx
      | none => false
    if a.spilled || !(a.again || w.link.room p) || (!control && !goes && w.attach == 0) then none
    else
      let chaff := !control && hNull a.entry.hdr
      let e := if control then a.entry
        else if goes then { a.entry with code := if chaff then .chaff else .data }
        else { a.entry with code := if chaff then .chaffH else .dataH
                            hdr := lateHeader a.entry.hdr a.entry.fidx }
      let w := { w with
        link := { w.link with late := rest }
        attach := if control || goes then w.attach else w.attach - 1
        run := if control then w.run else some (a.entry.hdr, a.entry.fidx + 1)
        lates := if control then w.lates else w.lates + 1
        lateHeads := if control || goes then w.lateHeads else w.lateHeads + 1
        lateNulls := if chaff then w.lateNulls + 1 else w.lateNulls }
      let q := if a.again then e.seq else w.link.txSeq
      -- the replay buffer keeps the header of the packet (R359)
      let w := if a.again then { w with entries := (n, e) :: w.entries, again := w.again + 1 }
        else
          let w := w.sequenced n e
          { w with link := { w.link with buffer := w.link.buffer.dropLast ++ [{ a.entry with seq := q }] } }
      some (if a.catchUp then { w with link := { w.link with lastDelayed := some q } } else w)

/-- Sends the next control flit, if one may go: of the packet in progress, or the header of the next packet.
DEDUCED: in a frame that carries entries sent again, more of which still wait, none goes, since the numbers of a frame's
entries follow one another (R356, log 76). -/
def Fill.control (w : Fill) (p n : Nat) : Option Fill :=
  let l := w.link
  let send := fun (l : Link) (i : Nat) (f : Flit) =>
    { w with link := l }.sequenced n { seq := 0, code := .control, hdr := 0, fidx := i, payload := f, head := l.txHead }
  if !l.room p || (w.again != 0 && l.late.any (·.again)) then none
  else if l.txLeft ≠ 0 then
    match l.txControl with
    | [] => none
    | f :: fs => some (send { l with txControl := fs, txIndex := l.txIndex + 1, txLeft := l.txLeft - 1 } l.txIndex f)
  else
    match l.nextControl with
    | none => none
    | some c =>
      some (send { l.spend c.pkt with
        ctl := removeFirst (· == c) l.ctl, txControl := c.pkt.data, txIndex := 1, txLeft := cDlen c.pkt
        txHead := c.pkt.header, txSrc := c.src } 0 c.pkt.header)

/-- Fills one flit time that no on-time flit claims, in the order of R355. -/
def Fill.free (w : Fill) (p n : Nat) : Fill :=
  match w.link.symbols with
  | v :: vs =>
    let (taken, left) := takeSymbols (v :: vs) [] []
    { w with link := { w.link with symbols := left }
             entries := (n, linkEntry (symbolsFlit taken)) :: w.entries }
  | [] =>
    match w.late p n with
    | some w => w
    | none => (w.control p n).getD w

/-- Raises the hold of a link on this die, or leaves it to be raised in the first job beat
(R246, R361). -/
def Die.linkHold (x : Die) (d p : Nat) : Die :=
  let l := x.link p
  if bitOf (x.lreg d p lCtrl) 0 ∧ x.jobOn d then
    if x.inJobBeat d then
      (x.setLink p { l with causeOpen := true, toRaise := false }).raiseHold d 4
    else if l.causeOpen then x
    else x.setLink p { l with causeOpen := true, toRaise := true }
  else x

/-- An on-time flit takes its flit time. -/
def Fill.claim (w : Fill) (n : Nat) (f : QFlit) : Fill :=
  let code := if hNull f.hdr then (if f.fidx = 0 then FlitCode.chaffH else .chaff)
              else if f.fidx = 0 then .dataH else .data
  { w with claimed := w.claimed ++ [(n, f)] }.sequenced n ⟨0, code, f.hdr, f.fidx, f.payload, 0⟩

/-- What became of the flit time of an egress: nothing reserved it, an on-time flit took it, it passes empty
and marked, or empty and unmarked (R324, R333). -/
inductive Turn where
  | free | taken | marked | unmarked
  deriving DecidableEq

/-- The flit `f` reserved flit time `n` of egress `p` in the die's job beat: it takes it, or it goes late, is
discarded or collides (R243, R324, R326, R333, R361, R363). -/
def Die.claimTime (x : Die) (d p n : Nat) (w : Fill) (turn : Turn) (f : QFlit) : Die × Fill × Turn × Found :=
  let l := x.link p
  if !x.fullRate d p || x.fenceAct d p f.hdr != .pass then
    let (x, bad) := x.goLate d p n false f
    (x, w, if turn = .free then .unmarked else turn, bad)
  else if x.missed f (flitPs p n) then
    -- one that is not here yet joins the late path when it comes
    let (x, bad) := if x.sees f (flitPs p n) then x.goLate d p n false f else (x, [])
    (x, w, if turn = .free then .marked else turn, bad)
  else if x.waitsBehind p (flitPs p n) f || l.lateOf (f.src / 72) != 0 then
    -- it follows the entries before it in its queue
    let (x, bad) := if x.waitsBehind p (flitPs p n) f then (x, []) else x.goLate d p n l.replaying f
    (x, w, if turn = .free then .marked else turn, bad)
  else if l.latePackets.contains (lateHeader f.hdr 0) then
    -- in a replay it is held back like any other flit (R361)
    let (x, bad) := x.goLate d p n l.replaying f
    (x, w, if turn = .free then .marked else turn, bad)
  else if turn = .taken || (f.fidx == 0 && (w.claimed.filter fun c => c.2.fidx == 0).length == attachments p) then
    ({ x with relay := removeFirst (· == f) x.relay }, w, turn, [(0x20, stopDetailAt p n f.hdr)])
  else if l.replaying || !l.room p then
    let x := if l.replaying || l.causeOpen then x else x.linkHold d p
    let (x, bad) := x.goLate d p n true f
    (x, w, .marked, bad)
  else
    let w := { w with link := l }.claim n f
    (({ x with relay := removeFirst (· == f) x.relay }).setLink p w.link, w, .taken, [])

/-- The flit has lost its place at egress `p` before flit time `n`: it joins the late path as soon as it is here and no
earlier entry of its queue still waits for another place (R243, R324). -/
def Die.lostPlace (x : Die) (p n : Nat) (job : Bool) (f : QFlit) : Bool :=
  f.egress == p && x.sees f (flitPs p n) && !x.waitsBehind p (flitPs p n) f
    && (f.late || decide (f.due < x.beatNow) || (f.due == x.beatNow && (!job || decide (f.time < n))))

/-- Flit time `n` of egress `p` in a slot; `job` says that the slot is a job beat. -/
def Die.passTime (x : Die) (d p n : Nat) (job : Bool) (w : Fill) : Die × Fill × Found :=
  let (x, bad) := (x.relay.filter (·.egress == p)).foldl (fun (a : Die × Found) f =>
    if a.1.lostPlace p n job f then
      let (y, b) := a.1.goLate d p n false f
      (y, a.2 ++ b)
    else a) (x, [])
  let mine := if job then x.relay.filter fun f => !f.late && f.egress == p && f.due == x.beatNow && f.time == n
    else []
  let (x, w, turn, bad) := mine.foldl (fun (a : Die × Fill × Turn × Found) f =>
    let (x, w, turn, b) := a.1.claimTime d p n a.2.1 a.2.2.1 f
    (x, w, turn, a.2.2.2 ++ b)) (x, w, .free, bad)
  let held := x.reserves.find? fun r => job && r.egress == p && r.due == x.beatNow && r.time == n
  let turn : Turn := match held with
    | some r => if turn = .free then (if x.fenceAct d p r.hdr = .pass then .marked else .unmarked) else turn
    | none => turn
  let w := { w with link := x.link p }
  match turn with
  | .free =>
    let w := w.free p n
    (x.setLink p w.link, w, bad)
  | .marked => (x.ebump p 0x18, w.bare n .reservedEmpty, bad)
  | .unmarked | .taken => (x, w, bad)

/-! ## Frames that leave -/

/-- Claims of the slot that ends, and the interval records of an egress: the slot map and the peaks (R326,
R337, R338). -/
def Interval.reset : Interval := { occ := 0, peakTimes := 0, peakHeaders := 0, starved := 0 }

def Die.noteClaims (x : Die) (p : Nat) (c : List (Nat × QFlit)) : Die :=
  if c.isEmpty then { x with claims := x.claims.filter fun e => e.1 != p }
  else
    let i := tgetD x.interval p Interval.reset
    let occ := c.foldl (fun (o : BitVec 256) e => o ||| ((1 : BitVec 256) <<< e.1)) i.occ
    let heads := (c.filter fun e => e.2.fidx == 0).length
    let i := { i with occ := occ, peakTimes := max i.peakTimes c.length,
                      peakHeaders := max i.peakHeaders heads }
    { x with interval := tput x.interval p i, claims := tput x.claims p ⟨c.map (·.1), heads⟩ }

/-- The two credit returns of a frame, in turn: credit counters and their counts (R388). -/
def Link.creditReturns (l : Link) : List (Nat × BitVec 12) :=
  [2 * (l.creditTurn % 6), 2 * (l.creditTurn % 6) + 1].map fun i => (i, (l.credit i).freed)

/-- Bits [81:24] of the control field of a frame that begins now (R351, R358). -/
def Link.fieldNow (l : Link) : Nat :=
  (l.creditReturns.zipIdx).foldl (fun v c => v + (c.1.1 * 2 ^ 12 + c.1.2.toNat) * 2 ^ (26 + 16 * c.2))
    ((l.rxSeq - 1).toNat + l.acked.toNat * 2 ^ 24 + l.nak.toNat * 2 ^ 25)

/-- The first slot of a frame: each frame is counted from fabric time 0 by the beats that it spans. DESIGN
CHOICE where it spans more than one (R370, log 77). -/
def Die.frameStarts (x : Die) (p : Nat) : Bool := x.slotIndex % (x.link p).span == 0

/-- The last slot of a frame. -/
def Die.frameEnds (x : Die) (p : Nat) : Bool := (x.slotIndex + 1) % (x.link p).span == 0

/-- A frame begins on an active link: what its control field tells; a run of frames with NAK set is counted
once (R358, R388). -/
def Die.beginFrame (x : Die) (d p : Nat) : Die :=
  if !x.linkActive d p || !x.frameStarts p then x
  else
    let l := x.link p
    let x := x.setLink p { l with field := some l.fieldNow, creditTurn := l.creditTurn + 1, nakSent := l.nak }
    if l.nak && !l.nakSent then x.lbump p lNaksSent else x

/-- Credit counters that packets at the heads of queues wait for (R394, R398). -/
def Link.starvedBits (l : Link) : BitVec 12 :=
  l.heads.foldl (fun m c =>
    let i := creditIdx c.pkt
    let m := if (l.credit i).avail = 0 then m ||| ((1 : BitVec 12) <<< i) else m
    if (l.credit (i + 1)).avail < cDlen c.pkt then m ||| ((1 : BitVec 12) <<< (i + 1)) else m) 0

/-- The entries of all flit times of a frame, those that carry nothing EMPTY. -/
def allEntries (es : List (Nat × TxEntry)) : Nat → List RxEntry
  | 0 => []
  | k + 1 =>
    let e := (es.find? fun e => e.1 == k).elim ({ linkEntry 0 with code := .empty }) (·.2)
    allEntries es k ++ [{ time := k, code := e.code, seq := e.seq.setWidth 12, payload := e.payload, crc := 0 }]

/-- The bits of a frame: BASE is the number of its first sequenced entry, or the next one to be assigned
(R351). -/
def Fill.bits (w : Fill) (p : Nat) : FrameBits :=
  let es := w.entries.reverse
  let base := ((es.find? fun e => e.2.code.sequenced).elim w.link.txSeq fun e => e.2.seq)
  frameBits (isFabricPort p) (allEntries es (flitTimes p)) base
    ((es.filter fun e => e.2.code.headed).map (·.2.hdr)) (w.link.field.getD 0)

/-- A beat is over at an egress: control packets that wait for its credits are counted and marked, and those that have
come to the head of a queue wait there from now on (R382, R394, R398). -/
def Die.noteWaits (x : Die) (d p : Nat) : Die :=
  let l := x.link p
  if l.ctl.isEmpty then x
  else
    let heads := l.heads
    let x := x.setLink p { l with ctl := l.ctl.map fun c =>
      if c.headAt.isNone && heads.contains c then { c with headAt := some x.timeNs } else c }
    let starved := l.starvedBits
    if starved = 0 || !x.linkActive d p then x
    else
      let i := tgetD x.interval p Interval.reset
      { x with interval := tput x.interval p { i with starved := i.starved ||| starved } }.lbump p lCreditWait

/-- The frame of a slot is complete: its counters, and the departure stamp of a time exchange that it carries, which is
the start of the frame (R335, R394, R497). -/
def State.endFrame (s : State) (d p : Nat) (w : Fill) (held : List TxEntry) : State :=
  let x := s.die d
  let l := w.link
  let start := 16 * (x.timeNs - 16 * (l.span - 1))
  let exch := w.entries.filter fun e => e.2.code == .control && e.2.fidx == 0 && bitsOf e.2.payload 389 382 == 0x40
  let l := if exch.isEmpty then l else
    { l with prevTx := ⟨BitVec.ofNat 64 (start / (16 * second)), start % (16 * second)⟩
             prevResent := exch.any fun e => held.any fun b => b.seq == e.2.seq }
  let l := if w.again != 0 && !l.late.any (·.again) then
      { l with nakQuietUntil := x.timeNs + (x.lreg d p lReplayTimeout).toNat } else l
  let x := (x.setLink p l).noteClaims p w.claimed
  let nulls := (w.claimed.filter fun c => hNull c.2.hdr).length
  let heads := (w.claimed.filter fun c => c.2.fidx == 0).length
  let x := if w.claimed.isEmpty then x else
    ((x.ebump p 0x0 (w.claimed.length - nulls)).ebump p 0x8 nulls).ebump p 0x20 heads
  let x := if w.lates = 0 then x else
    ((x.ebump p 0x10 w.lates).ebump p 0x8 w.lateNulls).ebump p 0x20 w.lateHeads
  let x := if w.fresh = 0 then x else x.lbump p lTxSequenced w.fresh
  let x := if w.again = 0 then x else x.lbump p lReplayed w.again
  (s.setDie d x).emit (.frame d p (w.bits p))

/-- A frame before its first flit time: attachments that the image leaves unused in the beat are free for late
headers (R324). -/
def Die.openFrame (x : Die) (p : Nat) (job : Bool) : Fill :=
  let heads := if job then x.relay.countP fun f =>
      f.egress == p && f.due == x.beatNow && f.fidx == 0 && !f.late else 0
  { link := x.link p, entries := [], attach := attachments p - heads, run := none, claimed := []
    lates := 0, lateHeads := 0, lateNulls := 0, again := 0, fresh := 0 }

/-- The flit time of a port that begins in the `m`-th 64 ps of a slot (R313). -/
def flitAt (p m : Nat) : Option Nat :=
  if !isFabricPort p then some m
  else
    let n := (2 * m + 4) / 5
    if n * 5 / 2 = m ∧ n < 100 then some n else none

/-- The `m`-th 64 ps of a slot: entries that come into the link switch then, and the flit times of the ports that
begin then. -/
def State.passStep (s : State) (d : Nat) (job : Bool) (ws : List (Nat × Fill)) (m : Nat) :
    State × List (Nat × Fill) × Found :=
  let (s, bad) := if (s.die d).jobOn d then s.drainQueues d (64 * m) else (s, [])
  let (x, ws, bad) := ws.foldl (fun (a : Die × List (Nat × Fill) × Found) (w : Nat × Fill) =>
    match flitAt w.1 m with
    | none => (a.1, a.2.1 ++ [w], a.2.2)
    | some n =>
      let (x, v, b) := a.1.passTime d w.1 n (job && !a.1.stopped) w.2
      (x, a.2.1 ++ [(w.1, v)], a.2.2 ++ b)) (s.die d, [], bad)
  (s.setDie d x, ws, bad)

/-- The flit times of a slot on all ports in time order; of the faults of one time the one with the lowest
KIND is recorded (R327). -/
def State.passTimes (s : State) (d : Nat) (job : Bool) (ws : List (Nat × Fill)) : List Nat → State × List (Nat × Fill)
  | [] => (s, ws)
  | m :: ms =>
    let (s, ws, bad) := s.passStep d job ws m
    let s := s.recordFound d bad
    s.passTimes d job (ws.map fun w => (w.1, { w.2 with link := (s.die d).link w.1 })) ms

/-- Scheduled flits whose link is not active at full rate are discarded as their time comes (R370, R371). -/
def Die.dropInactive (x : Die) (d : Nat) : Die :=
  (portsOf d).foldl (fun x p =>
    if x.fullRate d p then x
    else
      (x.relay.filter fun f => f.egress == p && (f.late || decide (f.due ≤ x.beatNow))).foldl
        (fun x f => (x.goLate d p 0 false f).1) x) x

/-- The ports whose frames end with the slot, with the frames before their first flit time. A frame leaves only if the
link was active as it began (R351). -/
def Die.openFrames (x : Die) (d : Nat) (job : Bool) : List (Nat × Fill) :=
  ((portsOf d).filter fun p => x.linkActive d p && x.frameEnds p && (x.link p).field.isSome).map fun p =>
    (p, x.openFrame p job)

/-- The frames of the slot that ends leave (R344, R355). -/
def State.sendFrames (s : State) (d : Nat) (job : Bool) : State :=
  let s := s.modDie d (·.dropInactive d)
  let x := s.die d
  let held := fun (p : Nat) => (x.link p).spill ++ (x.link p).buffer
  let (s, ws) := s.passTimes d job (x.openFrames d job) (List.range 250)
  let s := ws.foldl (fun s w => s.endFrame d w.1 { w.2 with link := (s.die d).link w.1 } (held w.1)) s
  s.modDie d fun x => (portsOf d).foldl (fun x p => x.noteWaits d p) x

/-- Entries that became available only after the last flit time of the slot. -/
def State.drainLast (s : State) (d : Nat) : State :=
  if (s.die d).jobOn d then
    let (s, bad) := s.drainQueues d slotPs
    s.recordFound d bad
  else s

/-- What the link switch of a die does as its slot ends: the flit times of the slot with the entries that came late,
equaliser releases, and the flits that regions take next (R242, R322 to R326, R344). -/
def State.closeSlot (s : State) (d : Nat) : State :=
  let job := (s.die d).inJobBeat d
  let s := (s.sendFrames d job).drainLast d
  let s := s.modDie d fun x =>
    if x.jobOn d then
      let x := (if job then x.releaseEq d else x).admitLate d
      { x with reserves := x.reserves.filter fun r => decide (x.beatNow < r.due) }
    else { x with incoming := [] }
  if (s.die d).jobOn d then s.feedRegions d else s

/-- Crossing entries that are there as a slot begins come into the link switch; a fault that one raises is set against
those of the slot's first flit times, which fall in the same cycle (R242, R327). -/
def State.openDrain (s : State) (d : Nat) : State :=
  let (t, bad) := s.drainQueues d 0
  if bad.isEmpty then t
  else
    let job := (t.die d).inJobBeat d
    t.recordFound d (bad ++ (t.passStep d job ((t.die d).openFrames d job) 0).2.2)

/-- What the link switch and the links of a die do as a slot begins: crossing entries that are there, and the
control fields of the frames (R242, R351). -/
def State.openFabric (s : State) (d : Nat) : State :=
  (if (s.die d).jobOn d then s.openDrain d else s).modDie d fun x =>
    (portsOf d).foldl (fun x p => x.beginFrame d p) x

end Sys2Proof.Machine
end

