-- ==== Sys2Proof/Machine/Memory.lean ====
section
/-! DEFINITION. The memory controllers (10): units, refresh groups, the aperture, transfers and what
read data becomes, the memory schedule, and the digest check of a shard. -/

namespace Sys2Proof.Machine

/-! ## Units and groups (R403, R404, R407, R408) -/

/-- Populated units of a die's memory (R418). -/
def memUnits (d : Nat) : Nat := if isEDie d then 0xC0000000 else 0x24000000

/-- Scheduled capacity in units per job beat (R403, R407). -/
def memCapacity (d : Nat) : Nat := if isEDie d then 32 else 288

/-- Refresh groups of a die's memory. -/
def memGroups (d : Nat) : Nat := if isEDie d then 2 else 3

/-- Refresh group of a unit (R404, R408). -/
def memGroup (d u : Nat) : Nat := if isEDie d then u / 1024 % 2 else u / 0xC000000

/-- The group is in blackout in the die's slot (R411). -/
def Die.inBlackout (x : Die) (g : Nat) : Bool := x.mem.blackout.any fun b => b.1 == g && b.2 != 0

/-- A slot of the groups in blackout is over (R411). -/
def MemCtl.passBlackout (m : MemCtl) : MemCtl :=
  { m with blackout := m.blackout.map fun b => (b.1, b.2 - 1) }

/-- A group leaves blackout when its 16 slots are over (R411). -/
def execBlackoutEnd (d : DieId) (s : State) : Out :=
  .next (s.modDie d.val fun x => { x with
    mem := { x.mem with blackout := x.mem.blackout.filter fun b => b.2 != 0 } })

/-! ## Capacity of a slot (R415, R419) -/

/-- Units performed in the die's slot so far. -/
def Die.memUsed (x : Die) : Nat := if x.mem.usedSlot = x.slotIndex then x.mem.used else 0

def Die.memUse (x : Die) (n : Nat) : Die :=
  { x with mem := { x.mem with usedSlot := x.slotIndex, used := x.memUsed + n } }

/-- Units of a transfer that are performed in one beat (R414). -/
def Xfer.part (d : Nat) (t : Xfer) : Nat :=
  match t.kind with
  | .null _ => 0
  | _ => if isEDie d then min t.units 32 else t.units

/-- Units of scheduled transfers that are due in this beat and not yet performed. -/
def Die.memDue (x : Die) (d : Nat) : Nat :=
  if x.hold.slot.isSome then 0
  else (x.mem.xfers.filter fun t => !t.late && decide (t.beat ≤ x.beatNow)).foldl
    (fun n t => n + t.part d) 0

/-- Capacity that scheduled transfers leave in this beat (R419). -/
def Die.memLeft (x : Die) (d : Nat) : Nat := memCapacity d - x.memUsed - x.memDue d

/-! ## The aperture (R425) -/

/-- The unit that a scheduled transfer touches for address `u` under the value `w` of WSEL; `none` where reads
return zero and writes are discarded. -/
def Die.remap (x : Die) (d : Nat) (w : W64) (u : Nat) : Option Nat :=
  let ap := x.reg d (if x.bank then rAperture1 else rAperture0)
  let base := bitsOf ap 31 0
  let p := u / 64
  if base ≤ p ∧ p < base + bitsOf ap 63 32 then
    let e := x.reg d (rSetBase + 8 * bitsOf w 5 0)
    if bitOf w 31 && bitOf e 63 && decide (p - base < bitsOf e 62 32) then
      let v := (p - base + bitsOf e 31 0) * 64 + u % 64
      if v < memUnits d then some v else none
    else none
  else if u < memUnits d then some u else none

/-! ## Reading and writing units (R405, R406, R409) -/

/-- A unit is read with an uncorrectable error: counted, recorded, logged and reported; what firmware
puts into the event's detail is open (R406, log 1). -/
def State.memError (s : State) (d u : Nat) : State :=
  let s := s.modDie d fun x =>
    (x.bump rEccUncorrectable).setReg rErrUnit (BitVec.ofNat 64 u)
  let s := s.logEvent d (if isEDie d then 0x42 else 0x41) (BitVec.ofNat 64 u)
  (s.event 2 ((Config.freeWord s.fz).toNat % 2 ^ 56)).used

/-- Reads one unit of the memory. -/
def State.readUnit (s : State) (d u : Nat) : State × Flit :=
  let x := s.die d
  let f := Mem.readFlit x.mem.cells (64 * u)
  let s := if x.mem.bad.contains u then s.memError d u
           else if x.mem.weak.contains u then s.modDie d (·.bump rEccCorrected) else s
  (s, f)

/-- Writes one unit; a write replaces what was wrong with it (R405). -/
def Die.writeUnit (x : Die) (u : Nat) (f : Flit) : Die :=
  { x with mem := { x.mem with
      cells := Mem.writeFlit x.mem.cells (64 * u) f
      bad := x.mem.bad.filter (· != u), weak := x.mem.weak.filter (· != u) } }

/-- Reads the units of a list, `none` reading as zero. -/
def State.readUnits (s : State) (d : Nat) : List (Option Nat) → State × List Flit
  | [] => (s, [])
  | o :: os =>
    let (s, f) := match o with
      | some u => s.readUnit d u
      | none => (s, 0)
    let (s, fs) := s.readUnits d os
    (s, f :: fs)

/-- Writes flits to the units of a list, `none` discarding. -/
def Die.writeUnits (x : Die) : List (Option Nat) → List Flit → Die
  | o :: os, f :: fs =>
    (match o with
      | some u => x.writeUnit u f
      | none => x).writeUnits os fs
  | _, _ => x

/-! ## Transfers (R414 to R416) -/

/-- The transfer `a` is performed before `b` (R416). -/
def Xfer.before (a b : Xfer) : Bool :=
  decide (a.beat < b.beat) || (a.beat == b.beat && (decide (a.order < b.order)
    || (a.order == b.order && decide (a.time < b.time))))

/-- Adds a transfer in order of performance; of two alike the earlier one stays first. -/
def insertXfer (t : Xfer) : List Xfer → List Xfer
  | [] => [t]
  | a :: as => if t.before a then t :: a :: as else a :: insertXfer t as

/-- The units that the next part of a transfer touches, after the aperture. -/
def Xfer.touched (t : Xfer) (x : Die) (d : Nat) : List (Option Nat) :=
  (List.range (t.part d)).map fun i =>
    if (match t.bound with | some b => decide (b ≤ i) | none => false) then none
    else x.remap d (t.wsel.getD (x.reg d rWsel)) (t.unit + i)

/-- The next part fits the capacity that is left and touches no group in blackout (R415). -/
def Die.canPerform (x : Die) (d : Nat) (t : Xfer) (left : Nat) : Bool :=
  decide (t.part d ≤ left) && (t.touched x d).all fun o =>
    match o with
    | some u => !x.inBlackout (memGroup d u)
    | none => true

/-- What late transfers that can be performed in this beat leave of the capacity (R419). -/
def Die.lateLeft (x : Die) (d : Nat) : Nat :=
  (x.mem.xfers.filter (·.late)).foldl
    (fun left t => if x.canPerform d t left then left - t.part d else left) (x.memLeft d)

/-- An earlier request of the same tile has still to be performed, or to reach the intake (R218). -/
def Die.xferBlocked (x : Die) (t : Xfer) : Bool :=
  decide (t.tile < 288)
    && (x.mem.xfers.any (fun a => a.tile == t.tile && decide (a.serial < t.serial))
      || x.relay.any fun f => hKind f.hdr != 0 && f.src == t.tile && decide (f.serial < t.serial))

/-- A read whose last part is done waits for its emission, in the next beat, or at once when it is
late (R414, R415). -/
def Die.addEmit (x : Die) (hdr : Header) (data : List Flit) (late : Bool) : Die :=
  let e : Emit := { beat := if late then x.beatNow else x.beatNow + 1, hdr := hdr, data := data,
                    late := late }
  { x with mem := { x.mem with emits := x.mem.emits ++ [e] } }

/-- The rest of a transfer in two parts (R414). -/
def Xfer.rest (t : Xfer) (n now : Nat) (data : List Flit) : Xfer :=
  { t with
    beat := now + 1, time := 0, unit := t.unit + n, units := t.units - n
    bound := t.bound.map (· - n), got := data
    kind := match t.kind with
      | .write fs => .write (fs.drop n)
      | k => k }

/-- Performs the next part of a transfer (R414, R425). -/
def State.performXfer (s : State) (d : Nat) (t : Xfer) : State :=
  let x := s.die d
  let n := t.part d
  let us := t.touched x d
  let s := s.modDie d fun x =>
    { x.memUse n with mem := { (x.memUse n).mem with xfers := removeFirst (· == t) x.mem.xfers } }
  let more := decide (n < t.units)
  let again := fun (x : Die) (data : List Flit) =>
    { x with mem := { x.mem with xfers := insertXfer (t.rest n x.beatNow data) x.mem.xfers } }
  match t.kind with
  | .null h | .slot h _ => s.modDie d fun x => x.addEmit h (List.replicate t.units 0) t.late
  | .write fs =>
    s.modDie d fun x =>
      let x := (x.writeUnits us (fs.take n)).bump rUnitsWritten n
      if more then again x [] else if t.late then x.bump rTransfersLate else x
  | .read h =>
    let (s, fs) := s.readUnits d us
    s.modDie d fun x =>
      let x := x.bump rUnitsRead n
      if more then again x (t.got ++ fs)
      else
        let x := x.addEmit h (t.got ++ fs) t.late
        if t.late then x.bump rTransfersLate else x

/-- The cause 0x5 of a controller is over when nothing late is left to perform or to emit
(R415). -/
def MemCtl.settleLate (m : MemCtl) : MemCtl :=
  if m.xfers.any (·.late) || m.emits.any (·.late) then m
  else { m with lateOpen := false, lateToRaise := false }

/-- A controller raises its hold for a late transfer, once a beat, or leaves it for the first job
beat after a hold (R246, R415). -/
def Die.memHold (x : Die) (d : Nat) : Die :=
  if x.inJobBeat d then
    let y := { x with mem := { x.mem with lateOpen := true, lateToRaise := false } }
    if x.hold.raised.contains (x.beatNow, 5) then y else y.raiseHold d 5
  else if x.mem.lateOpen then x
  else { x with mem := { x.mem with lateOpen := true, lateToRaise := true } }

/-! ## Adapters (R435) -/

/-- Every shard of a set is verified, and the set is neither mixed nor being rolled (R432, R436,
R440). -/
def WeightSet.admissible (w : WeightSet) : Bool := !w.mixed && !w.rolling && w.shards.all (·.verified)

/-- Every shard of the context's adapter is verified (R435). -/
def State.adapterGood (s : State) (c : Nat) : Bool :=
  s.weights.sets.any fun w =>
    w.wsid == 0xFFFF && w.context == c && !w.shards.isEmpty && w.admissible

/-- The slot of the die's current batch with a token slot number (R473). -/
def CtxEngine.sched (x : CtxEngine) (bank : Bool) : Option BatchSched :=
  if bank then x.sched1 else x.sched0

def Die.tokenSlot (x : Die) (n : Nat) : Option SlotState :=
  match x.ctx.sched x.bank with
  | none => none
  | some b =>
    match (List.range b.entries.length).find? fun i =>
        (b.entries[i]?).any fun e => e.slot == n with
    | none => none
    | some i => tget x.ctx.slots i

/-- First unit of the LPDDR5X window's fabric address (R48, R408). -/
def lpddrUnit (a : W64) : Nat := (bitsOf a 47 0 - 0x2000000000) / 64

/-- The header of emitted data: BEAT and CHECK are filled in (R317, R422). -/
def emitHeader (h : Header) (null : Bool) (beat : Nat) : Header :=
  mkHeader (hDie h) (hDest h) (hKind h) (hEpoch h) (hNull h || null).toNat 0 (hLen h) 0 (hRoute h)
    (hArg h) beat

/-- What a transfer takes from its performance beat: WSEL, and for a SLOT_SEND entry the adapter of the context
in its token slot, or the null packet (R426, R435). -/
def State.fixXfer (s : State) (d : Nat) (t : Xfer) : Xfer :=
  let x := s.die d
  let t := { t with wsel := some (t.wsel.getD (x.reg d rWsel)) }
  match t.kind with
  | .slot h n =>
    let null := { t with kind := .null (emitHeader h true 0) }
    match x.tokenSlot n with
    | none => null
    | some sl =>
      match sl.ctx with
      | none => null
      | some c =>
        if s.adapterGood ((d - 32) * 2 ^ 15 + c) then
          { t with kind := .read h, unit := lpddrUnit sl.adapterBase + t.unit
                   bound := some (sl.adapterLen.toNat - t.unit) }
        else null
  | _ => t

/-- Transfers whose performance beat is over keep what that beat gave them (R426). -/
def State.fixPassed (s : State) (d : Nat) : State :=
  s.modDie d fun x => { x with mem := { x.mem with
    xfers := x.mem.xfers.map fun t => if t.beat < x.beatNow then s.fixXfer d t else t } }

/-- The transfer cannot be performed in its beat: it is late (R415). -/
def State.makeLate (s : State) (d : Nat) (t : Xfer) : State :=
  let late := { s.fixXfer d t with late := true }
  s.modDie d fun x =>
    ({ x with mem := { x.mem with
        xfers := x.mem.xfers.map fun a => if a == t then late else a } }).memHold d

/-- In a job beat, the next transfer that is due is performed, or becomes late (R414 to R416); one of a tile
whose earlier request has still to be performed cannot be (R218). -/
def execTransferPerformed (d : DieId) (s : State) : Out :=
  let d := d.val
  let x := s.die d
  if !x.inJobBeat d || x.inReset then .next s
  else
    match x.mem.xfers.find? fun t => !t.late && decide (t.beat ≤ x.beatNow) with
    | none => .next s
    | some t =>
      let u := s.fixXfer d t
      if t.beat = x.beatNow ∧ x.canPerform d u (memCapacity d - x.memUsed) ∧ !x.xferBlocked t then
        let x := { x with mem := { x.mem with xfers := x.mem.xfers.map fun a => if a == t then u else a } }
        .next ((s.setDie d x).performXfer d u)
      else .next (s.makeLate d t)

/-- A late transfer is performed in the first beat with room outside blackout, in a job beat or a
hold slot (R415, R420). -/
def execLateTransferPerformed (d : DieId) (s : State) : Out :=
  let d := d.val
  let x := s.die d
  if !x.jobOn d || x.inReset then .next s
  else
    match x.mem.xfers.find? fun t => t.late && x.canPerform d t (x.memLeft d) && !x.xferBlocked t with
    | none => .next s
    | some t => .next ((s.performXfer d t).modDie d fun x => { x with mem := x.mem.settleLate })

/-- Read data is emitted as one packet: flit 0 in the beat after the performance, or by the late
path (R414, R415). -/
def execMemoryDataEmission (d : DieId) (s : State) : Out :=
  let d := d.val
  let x := s.die d
  if !x.jobOn d || x.inReset then .next s
  else
    match x.mem.emits.find? fun e => e.late || (x.hold.slot.isNone && decide (e.beat ≤ x.beatNow)) with
    | none => .next s
    | some e =>
      let h := emitHeader e.hdr false (e.beat - x.job.base)
      let s := s.setDie d { x with mem := { x.mem with emits := removeFirst (· == e) x.mem.emits } }
      let flits := (List.range e.data.length).zip e.data
      let s := flits.foldl (fun s f =>
        s.takeFlit d { hdr := h, fidx := f.1, payload := f.2, beat := e.beat, ready := 0, late := e.late,
                       src := 288, egress := egNone, due := 0, time := 0, serial := 0 }) s
      .next (s.modDie d fun x => { x with mem := x.mem.settleLate })

/-! ## Packets at the intake (R418, R423) -/

/-- Fields of an HBMRD request (R317). -/
def reqDesc (f : Flit) : W64 := BitVec.ofNat 64 (f.toNat % 2 ^ 64)
def reqUnit (f : Flit) : Nat := bitsOf f 95 64
def reqLen (f : Flit) : Nat := bitsOf f 103 96

/-- The packet passes the check of R418. -/
def intakeGood (d : Nat) (h : Header) (flits : List Flit) : Bool :=
  if hKind h = 1 then decide (hArg h + hLen h < memUnits d) && decide (flits.length = hLen h + 1)
  else if hKind h = 2 then
    match flits with
    | [f] => decide (reqLen f ≤ 63) && descClean (reqDesc f)
        && decide (reqUnit f + reqLen f < memUnits d)
    | _ => false
  else false

/-- The transfer that a packet asks for, in the beat `beat`. -/
def packetXfer (h : Header) (flits : List Flit) (a : Arrival) (own beat : Nat) : Xfer :=
  let base : Xfer := { beat := beat, order := if a.src < 288 then 1 else 2
                       time := if a.src < 288 then a.time else 0, tile := a.src, serial := a.serial
                       unit := hArg h, units := hLen h + 1, kind := .write flits, bound := none, wsel := none
                       late := false, got := [] }
  if hKind h = 1 then base
  else
    match flits with
    | f :: _ =>
      { base with unit := reqUnit f, units := reqLen f + 1
                  kind := .read (descHeader (reqDesc f) false (reqLen f) own) }
    | [] => base

/-- WSEL as it was in the job beat with count `b` (R426). -/
def Die.wselAt (x : Die) (d b : Nat) : W64 :=
  ((x.mem.wselPast.filter fun e => decide (b ≤ e.1)).getLast?).elim (x.reg d rWsel) (·.2)

/-- A request reaches its controller: it waits for the beat after that of its last flit. A late one is a late transfer,
performed on arrival, with a hold only when its beat is over (R325, R414, R415). DESIGN CHOICE: whether the
beat of a request is over that lost its place at an earlier die is free (log 35). -/
def State.addRequest (s : State) (d : Nat) (h : Header) (flits : List Flit) (a : Arrival) : State :=
  let x := s.die d
  let now := x.beatNow
  let add := fun (x : Die) (t : Xfer) => { x with mem := { x.mem with xfers := insertXfer t x.mem.xfers } }
  let unknown := a.late && a.due == 0
  let s := if unknown then s.used else s
  let beat := if !unknown then a.due + 1
    else if (Config.freeWord (s.fz - 1)).toNat % 2 = 0 then now - 1
    else if x.hold.slot.isSome then now + 1 else now
  let t := packetXfer h flits a x.job.beat beat
  if beat < now || (beat == now && x.hold.slot.isSome) then
    let t := { t with late := true, wsel := some (x.wselAt d beat) }
    s.modDie d fun x => (add x t).memHold d
  else s.modDie d fun x => add x { t with late := a.late }

/-- A KIND 1 or KIND 2 packet whose flits stand in the link switch reaches the intake of the memory controller: it is
checked, a local request against its INTAKE entry too, and waits for its beat (R415, R418, R423). `region` is that
of a local request. -/
def execMemoryPacketArrival (d : DieId) (h : Header) (flits : List Flit) (region : Option (Fin 4))
    (s : State) : Out :=
  let d := d.val
  let x := s.die d
  if x.inReset || !x.jobOn d then .next s
  else
    match x.arrival h flits (region.elim 4 (·.val)) with
    | none => .next s
    | some a =>
      let s := s.setDie d (x.takePacket h a)
      if a.reserved && intakeGood d h flits then .next (s.addRequest d h flits a)
      else .next (s.dieFault d 0x21 (stopDetailAt 0 0 h))

/-! ## The memory schedule (R421, R422, R435) -/

/-- The transfer of a SEND or SLOT_SEND entry in the job beat of the die. -/
def schedXfer (x : Die) (e : SchedEntry) : Option Xfer :=
  let base : Xfer := { beat := x.beatNow, order := 0, time := 0, tile := 288, serial := 0, unit := e.addr
                       units := e.len + 1, kind := .read e.hdr, bound := none, wsel := none, late := false
                       got := [] }
  match e.type with
  | .send => some base
  | .slotSend => some { base with kind := .slot e.hdr e.slot }
  | _ => none

/-- The transfers that the memory schedule gives the job beat that begins (R421); a late condition
that arose in a hold slot raises its hold (R246). -/
def State.memBeat (s : State) (d : Nat) : State :=
  let x := s.die d
  let x := if x.mem.lateToRaise then
      let y := { x with mem := { x.mem with lateToRaise := false } }
      if y.mem.lateOpen then y.raiseHold d 5 else y
    else x
  -- a request that came late before its beat has not been performed in it (R415)
  let x := if !x.mem.lateOpen && x.mem.xfers.any fun t => t.late && t.beat + 1 == x.beatNow then x.memHold d else x
  let sc := x.memSched
  if sc.period = 0 then s.setDie d x
  else
    let ts := (sc.entries.filter fun e => e.pos == x.job.ran % sc.period).filterMap
      (schedXfer x)
    let all := ts.foldl (fun l t => insertXfer t l) x.mem.xfers
    s.setDie d { x with mem := { x.mem with xfers := all } }

/-! ## The digest engine (R427, R431) -/

/-- Bytes of the shard header of the check. -/
def shardBytes (ws : List W64) : List Byte := ws.flatMap fun w => leBytes w.toNat 8

/-- The header keeps R427 and names a place inside the populated memory. -/
def shardHeaderGood (d : Nat) (h : List Byte) : Bool :=
  let len := fieldLE h 16 4
  let ctx := fieldLE h 28 4
  fieldLE h 0 4 == 0x53444853 && len % 64 == 0 && decide (64 ≤ len) && decide (len ≤ 0x4000000)
    && fieldLE h 22 1 == (if isEDie d then 1 else 0) && fieldLE h 23 1 == 0
    && (if fieldLE h 4 2 = 0xFFFF then decide (ctx < 2 ^ 18) else ctx == 0)
    && decide (fieldLE h 24 4 + len / 64 ≤ memUnits d)

/-- Words of _SHARD_HDR. -/
def Die.shardHdr (x : Die) (d : Nat) : List W64 :=
  (List.range 8).map fun i => x.reg d (rShardHdr + 8 * i)

/-- A write of the word at byte 56 starts a check; while one runs it starts none (R431). -/
def Die.startCheck (x : Die) (d : Nat) (v : W64) : Die :=
  let x := x.setReg (rShardHdr + 56) v
  if x.field d rShardStatus 31 29 = 1 then x
  else
    let ws := x.shardHdr d
    let st := if shardHeaderGood d (shardBytes ws) then 1 else 4
    { x.setField d rShardStatus 31 29 st with mem := { x.mem with check := ws, checkRead := [], redigest := false } }

def execShardCheckStart (d : DieId) (v : W64) (s : State) : Out :=
  if (s.die d.val).inReset then .next s else .next (s.modDie d.val (·.startCheck d.val v))

/-- Units of the shard whose check runs. -/
def Die.checkUnits (x : Die) : Nat := fieldLE (shardBytes x.mem.check) 16 4 / 64

/-- The digest engine has read the whole shard. -/
def Die.checkRead (x : Die) : Bool := x.mem.checkRead.length == x.checkUnits

/-- The digest engine reads on, from the capacity `left`: at most 4 units in a beat, none of a group in blackout
(R419). -/
def State.digestRead (s : State) (d left : Nat) : State :=
  let x := s.die d
  if x.field d rShardStatus 31 29 ≠ 1 then s
  else
    let first := fieldLE (shardBytes x.mem.check) 24 4 + x.mem.checkRead.length
    let us := ((List.range (min (min 4 left) (x.checkUnits - x.mem.checkRead.length))).map (first + ·)).takeWhile
      fun u => !x.inBlackout (memGroup d u)
    let (s, fs) := s.readUnits d (us.map some)
    s.modDie d fun x =>
      let x := x.memUse us.length
      { x with mem := { x.mem with checkRead := fs.reverse ++ x.mem.checkRead } }

/-- The payload that the digest engine read is the one that the header's digest names (R427). -/
def Die.shardMatches (x : Die) : Bool :=
  let h := shardBytes x.mem.check
  shake256 (h.take 32 ++ flitBytes x.mem.checkRead.reverse) == BitVec.ofNat 256 (leNat ((h.drop 32).take 32))

end Sys2Proof.Machine
end

