-- ==== Sys2Proof/Machine/Route.lean ====
section
/-! DEFINITION. Control packets: header fields and check, source routes, the escape rule, delivery,
and the error responses of a die that cannot forward (R377 to R392). -/

namespace Sys2Proof.Machine

/-! ## The header flit (R378, R379) -/

/-- The fields of a control header. -/
structure CpHeader where
  dst : Nat
  src : Nat
  route : Nat := 0
  rlen : Nat := 0
  hop : Nat := 0
  hops : Nat := 0
  vc : Nat := 0
  tc : Nat
  fence : Nat := 0
  epoch : Nat
  dlen : Nat
  opcode : Nat
  tag : Nat
  status : Nat := 0
  length : Nat := 0
  rrlen : Nat := 0
  rroute : Nat := 0
  imm : Nat := 0
  addr : Nat := 0
  deriving DecidableEq, Repr

/-- The header as a number, CHECK zero. -/
def CpHeader.word (h : CpHeader) : Nat :=
  (h.dst % 2 ^ 16) * 2 ^ 496 + (h.src % 2 ^ 16) * 2 ^ 480 + (h.route % 2 ^ 64) * 2 ^ 416
    + (h.rlen % 2 ^ 5) * 2 ^ 411 + (h.hop % 2 ^ 5) * 2 ^ 406 + (h.hops % 2 ^ 8) * 2 ^ 398
    + (h.vc % 2) * 2 ^ 397 + (h.tc % 4) * 2 ^ 395 + (h.fence % 2) * 2 ^ 394
    + (h.epoch % 2) * 2 ^ 393 + (h.dlen % 8) * 2 ^ 390 + (h.opcode % 2 ^ 8) * 2 ^ 382
    + (h.tag % 2 ^ 16) * 2 ^ 366 + (h.status % 16) * 2 ^ 362 + (h.length % 2 ^ 9) * 2 ^ 353
    + (h.rrlen % 2 ^ 5) * 2 ^ 348 + (h.rroute % 2 ^ 64) * 2 ^ 284 + (h.imm % 2 ^ 64) * 2 ^ 160
    + (h.addr % 2 ^ 64) * 2 ^ 96

/-- The fields of a packet's header. -/
def cpHeader (p : ControlPacket) : CpHeader :=
  { dst := cField p 511 496, src := cField p 495 480, route := cField p 479 416
    rlen := cField p 415 411, hop := cField p 410 406, hops := cField p 405 398
    vc := cField p 397 397, tc := cField p 396 395, fence := cField p 394 394
    epoch := cField p 393 393, dlen := cField p 392 390, opcode := cField p 389 382
    tag := cField p 381 366, status := cField p 365 362, length := cField p 361 353
    rrlen := cField p 352 348, rroute := cField p 347 284, imm := cField p 223 160
    addr := cField p 159 96 }

/-- CHECK of a header with its data: HOP, HOPS and VC count as zero (R379). -/
def cpCheck (word : Nat) (data : List Flit) : Nat :=
  let clean : BitVec 512 := BitVec.ofNat 512 word &&& ~~~(BitVec.ofNat 512 (0x3FFF * 2 ^ 397))
  crc32 (bitsMsb (clean.toNat / 2 ^ 32) 480 ++ byteBits (flitBytes data))

/-- A packet with its CHECK filled in. -/
def cpPacket (h : CpHeader) (data : List Flit) : ControlPacket :=
  { header := BitVec.ofNat 512 (h.word + cpCheck h.word data), data := data }

/-- CHECK is good at the destination (R379). -/
def cpGood (p : ControlPacket) : Bool := cField p 31 0 == cpCheck p.header.toNat p.data

/-- A request, which gets exactly one response (R380, R381). -/
def cpRequest (h : CpHeader) : Bool := h.tc == 1 && decide (h.opcode < 0x80)

/-- HOP, HOPS and VC change on the way; CHECK does not cover them. -/
def cpHopped (p : ControlPacket) (hop hops vc : Nat) : ControlPacket :=
  let clean := p.header &&& ~~~(BitVec.ofNat 512 (0x3FFF * 2 ^ 397))
  { p with header := clean ||| BitVec.ofNat 512 ((hop % 32) * 2 ^ 406 + (hops % 256) * 2 ^ 398
                                                  + (vc % 2) * 2 ^ 397) }

/-- The request of a packet, as its destination performs it. -/
def cpToRequest (p : ControlPacket) : Request :=
  let h := cpHeader p
  { dst := BitVec.ofNat 16 h.dst, src := BitVec.ofNat 16 h.src, tag := BitVec.ofNat 16 h.tag
    epoch := h.epoch == 1, length := h.length, addr := BitVec.ofNat 64 h.addr
    imm := BitVec.ofNat 64 h.imm, data := (flitBytes p.data).take h.length
    rrlen := BitVec.ofNat 5 h.rrlen, rroute := BitVec.ofNat 64 h.rroute }

/-! ## Die links of the module (R25) -/

/-- The die and port at the far end of a die link. -/
def farOf (d p : Nat) : Option (Nat × Nat) :=
  if isEDie d then (if 8 ≤ p ∧ p ≤ 11 then some (4 * (d - 32) + (p - 8), 5) else none)
  else if p ≤ 4 then some (d ^^^ 2 ^ p, p)
  else if p = 5 then some (32 + d / 4, 8 + d % 4)
  else none

/-! ## The escape rule (R383) -/

/-- The lowest set bit of a number below 2^16. -/
def lowestBit (n : Nat) : Nat := ((List.range 16).find? n.testBit).getD 0

/-- The escape egress of die `num` toward die `dst`, as a port code. -/
def escapeEgress (num dst : Nat) : Nat :=
  let diff := (num / 64) ^^^ (dst / 64)
  let hl := num % 64
  let dl := dst % 64
  let dim := lowestBit diff
  let tgt := if diff ≠ 0 then 32 + dim / 2 else dl
  if diff ≠ 0 ∧ hl = tgt then 16 + dim
  else if 32 ≤ hl then (if tgt < 32 ∧ tgt / 4 = hl - 32 then 8 + tgt % 4 else 8)
  else
    let g := if tgt < 32 then tgt / 4 else tgt - 32
    let x := (hl / 4) ^^^ g
    if x ≠ 0 then 2 + lowestBit x
    else if 32 ≤ tgt then 5
    else lowestBit ((hl ^^^ tgt) % 4)

/-! ## Routing (R382) -/

/-- What a die does with a control packet: it delivers it, sends it on an egress (`escaped` when the
packet moved to VC1 here), or answers with a status. -/
inductive CpFate where
  | deliver
  | out (egress : Nat) (p : ControlPacket) (escaped : Bool)
  | error (status : Nat)

/-- Entry `n` of a control port map (R384). -/
def Die.cpMap (x : Die) (d epoch n : Nat) : Nat :=
  bitsOf (x.reg d ((if epoch = 1 then rCpMap1 else rCpMap0) + 4 * (n / 4))) (8 * (n % 4) + 7)
    (8 * (n % 4))

/-- The egress can take a control packet: status 0 when it can (R373, R381, R382). -/
def Die.egressStatus (x : Die) (d e : Nat) : Nat :=
  if !hasPort d e then 6
  else if bitOf (x.lreg d e lStatus) 25 then 3
  else if !x.linkActive d e then 6
  else 0

/-- Where a packet goes from a die (R381, R382, R386). DESIGN CHOICE: a packet whose HOPS would reach 255 toward an
egress that cannot take it has the status of the egress (log 82). -/
def State.cpRoute (s : State) (d : Nat) (p : ControlPacket) : CpFate :=
  let x := s.die d
  let h := cpHeader p
  let num := s.dieNumber d
  if h.dst = num then .deliver
  else if 40 ≤ h.dst % 64 then .error 2
  else
    let send := fun (e hop vc : Nat) (escaped : Bool) =>
      let st := x.egressStatus d e
      if st ≠ 0 then CpFate.error st
      else if 255 ≤ h.hops + 1 then .error 7
      else .out e (cpHopped p hop (h.hops + 1) vc) escaped
    if h.vc = 1 then send (escapeEgress num h.dst) h.hop 1 false
    else if h.hop < h.rlen then
      let n := if h.hop < 16 then h.route / 2 ^ (4 * h.hop) % 16 else 15
      if n = 15 then .error 6
      else
        let e := x.cpMap d h.epoch n
        if e = 0x3F then .error 6 else send e (h.hop + 1) 0 false
    else send (escapeEgress num h.dst) h.hop 1 true

/-- A packet's place among those that wait for an egress: behind the others, but before packets of its queue that the
die took in after it on the same ingress (R391). -/
def insertCp (c : CpWait) : List CpWait → List CpWait
  | [] => [c]
  | b :: bs =>
    if b.src = c.src ∧ c.order < b.order ∧ cVc b.pkt = cVc c.pkt ∧ cTc b.pkt = cTc c.pkt then c :: b :: bs
    else b :: insertCp c bs

/-- A packet joins the control packets that wait for an egress. -/
def Die.cpQueue (x : Die) (e : Nat) (c : CpWait) (escaped : Bool) : Die :=
  let x := x.modLink e fun l => { l with ctl := insertCp c l.ctl }
  if escaped then x.lbump e lEscaped else x

/-- A packet that came in on ingress `src`, 32 for this die itself, joins an egress (R391). -/
def Die.cpJoin (x : Die) (e src : Nat) (p : ControlPacket) (escaped : Bool) : Die :=
  ({ x with cpTaken := x.cpTaken + 1 }).cpQueue e ⟨p, src, x.cpTaken, none⟩ escaped

/-- The ingress number of packets that a die originates. -/
abbrev cpSelf : Nat := 32

/-- Sends a packet that this die originates or forwards and that gets no answer when it cannot go:
a response, or a packet of TC3 (R381). -/
def State.cpSend (s : State) (d : Nat) (p : ControlPacket) : State :=
  match s.cpRoute d p with
  | .deliver => s.modDie d fun x => { x.bump rCpDelivered with delivered := x.delivered ++ [p] }
  | .out e q esc => s.modDie d (·.cpJoin e cpSelf q esc)
  | .error _ => s.modDie d (·.bump rCpDropped)

/-- The error response to a request: its destination sends it by the request's return route; a die that forwards, with
RLEN 0, so that it travels by the escape rule (R380, R381). -/
def errorResponse (h : CpHeader) (num status : Nat) (atEnd : Bool) : ControlPacket :=
  cpPacket { dst := h.src, src := num, tc := 2, epoch := h.epoch, dlen := 0
             route := if atEnd then h.rroute else 0, rlen := if atEnd then h.rrlen else 0
             opcode := h.opcode + 0x80, tag := h.tag, status := status } []

/-- A packet that cannot go on, or that its destination refuses: a request gets its error response, another packet is
dropped (R381). -/
def State.cpError (s : State) (d : Nat) (p : ControlPacket) (status : Nat) (atEnd : Bool := false) : State :=
  let h := cpHeader p
  if cpRequest h then
    (s.modDie d (·.bump rCpErrors)).cpSend d (errorResponse h (s.dieNumber d) status atEnd)
  else s.modDie d (·.bump rCpDropped)

/-- DLEN fits the operation and LENGTH (R380). -/
def dlenGood (h : CpHeader) (p : ControlPacket) : Bool :=
  h.dlen == p.data.length &&
    match h.opcode with
    | 0x01 => h.dlen == 0 && decide (1 ≤ h.length) && decide (h.length ≤ 256)
    | 0x02 => h.dlen == (h.length + 63) / 64 && decide (1 ≤ h.length) && decide (h.length ≤ 256)
    | 0x10 => h.dlen == (h.length + 63) / 64 && decide (h.length ≤ 256)
    | _ => h.dlen == 0

/-- A packet reaches its destination (R379 to R381). -/
def State.cpDeliver (s : State) (d : Nat) (p : ControlPacket) : State :=
  let h := cpHeader p
  let s := s.modDie d (·.bump rCpDelivered)
  let keep := s.modDie d fun x => { x with delivered := x.delivered ++ [p] }
  if !cpGood p then s.cpError d p 8 true
  else if h.tc == 1 && [0x01, 0x02, 0x03, 0x04, 0x05, 0x10].contains h.opcode then
    if dlenGood h p then keep else s.cpError d p 8 true
  else if h.tc == 2 && decide (0x80 ≤ h.opcode) then keep
  else if h.tc == 3 && h.opcode == 0x41 then keep
  else s.cpError d p 8 true

/-- A control packet from an ingress is delivered, source-routed or escape-routed (R382). -/
def State.cpForward (s : State) (d src : Nat) (p : ControlPacket) : State :=
  match s.cpRoute d p with
  | .deliver => s.cpDeliver d p
  | .out e q esc => s.modDie d (·.cpJoin e src q esc)
  | .error st => s.cpError d p st

/-! ## Commands -/

/-- Ingress buffers of a packet's channel and class are free again: `n` headers and `k` data flits (R388, R389). -/
def Link.free (l : Link) (p : ControlPacket) (n k : Nat) : Link :=
  let i := creditIdx p
  let c := l.credit i
  let e := l.credit (i + 1)
  let c := { c with freed := c.freed + BitVec.ofNat 12 n }
  let e := { e with freed := e.freed + BitVec.ofNat 12 k }
  { l with credits := tput (tput l.credits i c) (i + 1) e }

/-- The ingress buffer of a packet: one for each channel and class (R387). -/
def cpBuffer (p : ControlPacket) : Nat := 3 * cVc p + cTc p - 1

/-- A packet leaves its ingress buffer whole. -/
def Link.takeArrived (l : Link) (p : ControlPacket) : Link :=
  let rest := removeFirst (· == p) (tgetD l.arrived (cpBuffer p) [])
  Link.free { l with arrived := tput l.arrived (cpBuffer p) rest } p 1 p.data.length

/-- Reserved bits of a control header are zero, and its TC is not the reserved one (R378, R402). -/
def cpClean (p : ControlPacket) : Bool :=
  cField p 283 224 == 0 && cField p 95 32 == 0 && cTc p != 0

/-- The packet with the table version of this die, and its CHECK (R379, R384). -/
def cpOriginated (epoch : Nat) (p : ControlPacket) : ControlPacket :=
  let w := (p.header &&& ~~~(BitVec.ofNat 512 (2 ^ 393 + (2 ^ 32 - 1)))).toNat + epoch % 2 * 2 ^ 393
  { p with header := BitVec.ofNat 512 (w + cpCheck w p.data) }

/-- A packet that the die originates: its table version is FAB_CP_CTRL.EPOCH (R384), and the response to a request is
awaited (R392). -/
def State.cpOriginate (s : State) (d : Nat) (p : ControlPacket) : State :=
  let q := cpOriginated ((s.die d).field d rCpCtrl 0 0) p
  let h := cpHeader q
  let s := if cpRequest h && h.src == s.dieNumber d then
      s.modDie d fun x => { x with outstanding := x.outstanding ++ [⟨BitVec.ofNat 16 h.tag, none, false⟩] }
    else s
  s.cpForward d cpSelf q

/-- A packet of which the header and some data flits have been received passes on while the rest of it arrives
(R389); it is not delivered, nor answered, before it is whole. -/
def State.cpCutThrough (s : State) (d port : Nat) (p : ControlPacket) : State :=
  let l := (s.die d).link port
  if l.cut.isSome || l.rxControl != p.header :: p.data then s
  else
    match s.cpRoute d p with
    | .out e q esc =>
      s.modDie d fun x =>
        (x.modLink port fun l => { l.free p 1 p.data.length with cut := some e }).cpJoin e port q esc
    | _ => s

/-- Key of a MESSAGE packet in `Die.cameBy`. -/
def messageKey (src tag : BitVec 16) : Nat := src.toNat * 2 ^ 16 + tag.toNat

/-- An E-die notes the fabric port at which a MESSAGE packet to E-die 32 came into the module (R533). -/
def State.noteCame (s : State) (d port : Nat) (p : ControlPacket) : State :=
  let h := cpHeader p
  if isFabricPort port && h.opcode == 0x10 && h.dst == s.dieNumber 32 then
    s.modDie d fun x =>
      { x with cameBy := tput x.cameBy (messageKey (BitVec.ofNat 16 h.src) (BitVec.ofNat 16 h.tag)) (port - 16) }
  else s

/-- A control packet arrives on a link, or is originated on the die (R382). OPCODE 0x40 travels on
one link only (R496, R521). -/
def execControlPacketArrival (d : DieId) (port : Option (Fin 32)) (p : ControlPacket) (s : State) :
    Out :=
  let d := d.val
  let whole := p.data.length == cDlen p
  if (s.die d).inReset then .next s
  else if !cpClean p then undef 402
  else if (cpHeader p).opcode = 0x40 then undef 521
  else
    match port with
    | none => .next (if whole then s.cpOriginate d p else s)
    | some q =>
      if !hasPort d q.val then .next s
      else
        let s := s.noteCame d q.val p
        if !whole then .next (s.cpCutThrough d q.val p)
        else .next ((s.modDie d (·.modLink q.val (·.takeArrived p))).cpForward d q.val p)

/-- The ingress that receives the rest of a packet has it follow to another egress (R389). -/
def Die.moveCut (x : Die) (c : CpWait) (e : Nat) : Die :=
  if c.src = cpSelf ∨ c.pkt.data.length = cDlen c.pkt then x
  else x.modLink c.src fun l => { l with cut := some e }

/-- The head of a VC0 queue of an egress, of any class, that has waited for longer than FAB_CP_ESCAPE_TIME; of several
the one that has waited longest (R382, R387). -/
def Die.overdue (x : Die) (d p : Nat) : Option CpWait :=
  let limit := x.field d rCpEscapeTime 19 0
  ((x.link p).heads.filter fun c => cVc c.pkt == 0 && c.headAt.any fun t => decide (t + limit ≤ x.timeNs)).foldl
    (fun (a : Option CpWait) c =>
      match a with
      | some b => if c.headAt.getD 0 < b.headAt.getD 0 then some c else a
      | none => some c) none

/-- The packet at the head of a VC0 queue of an egress has waited too long: it moves to VC1 and takes the
escape egress (R382). -/
def execEscapeTimeout (d : DieId) (port : Fin 32) (s : State) : Out :=
  let d := d.val
  let x := s.die d
  let l := x.link port.val
  match x.overdue d port.val with
  | none => .next s
  | some c =>
    if x.inReset || !hasPort d port.val then .next s
    else
      let s := s.setDie d (x.setLink port.val { l with ctl := removeFirst (· == c) l.ctl })
      let h := cpHeader c.pkt
      let e := escapeEgress (s.dieNumber d) h.dst
      let st := x.egressStatus d e
      if st ≠ 0 then .next ((s.modDie d (·.moveCut c 32)).cpError d c.pkt st)
      else .next (s.modDie d fun x =>
        (x.moveCut c e).cpQueue e { c with pkt := cpHopped c.pkt h.hop h.hops 1, headAt := none } true)

end Sys2Proof.Machine
end

