-- ==== Sys2Proof/Machine/Access.lean ====
section
/-! DEFINITION. The local address space of a die (R46 to R51), the checks on a control-plane access
(R18, R50, R380, R381), the response, and accesses to a memory window (R419). -/

namespace Sys2Proof.Machine

/-! ## Address decode (R47, R48) -/

/-- A place of a die's local space: a tile's data SRAM, instruction store or registers, the memory
window, or the die registers, each with its offset. -/
inductive Place where
  | sram (t off : Nat)
  | istore (t off : Nat)
  | tileReg (t off : Nat)
  | mem (off : Nat)
  | dieReg (off : Nat)
  deriving DecidableEq, Repr

/-- The register that holds the byte at an offset of a map: its offset (R18). -/
def regAt (info : Nat → Option RegInfo) (off : Nat) : Option Nat :=
  let w := off / 4 * 4
  if (info w).isSome then some w
  else if w % 8 = 4 ∧ ((info (w - 4)).any (·.wide)) then some (w - 4)
  else none

/-- A die register or a shadow (R40, R510). -/
def dieOrShadow (d off : Nat) : Option RegInfo :=
  if off < rShadow then dieReg d off else shadowReg d off

/-- The place of a byte offset; `none` where it is unmapped or unpopulated. -/
def placeOf (d off : Nat) : Option Place :=
  if 0xF000000000 ≤ off ∧ off < 0xF001000000 then
    let o := off - 0xF000000000
    if (regAt (dieOrShadow d) o).isSome then some (.dieReg o) else none
  else if isEDie d then
    if 0x2000000000 ≤ off ∧ off < 0x5000000000 then some (.mem (off - 0x2000000000)) else none
  else if 0x1000000000 ≤ off ∧ off < 0x1900000000 then some (.mem (off - 0x1000000000))
  else if off < 0x12000000 then
    let t := off / 0x100000
    let o := off % 0x100000
    if o < 0xC0000 then some (.sram t o)
    else if o < 0xD0000 then some (.istore t (o - 0xC0000))
    else if o < 0xF0000 then none
    else if (regAt tileReg (o - 0xF0000)).isSome then some (.tileReg t (o - 0xF0000)) else none
  else none

/-- A place lies in a tile window. -/
def Place.tile : Place → Option Nat
  | .sram t _ | .istore t _ | .tileReg t _ => some t
  | .mem _ | .dieReg _ => none

/-- Two bytes lie in one part of the space: one part of one tile window, one register, or the memory
window. -/
def Place.joins (d : Nat) (a b : Place) : Bool :=
  match a, b with
  | .sram t _, .sram u _ => t == u
  | .istore t _, .istore u _ => t == u
  | .tileReg t x, .tileReg u y => t == u && regAt Machine.tileReg x == regAt Machine.tileReg y
  | .dieReg x, .dieReg y => regAt (dieOrShadow d) x == regAt (dieOrShadow d) y
  | .mem _, .mem _ => true
  | _, _ => false

/-- A register access has a width of 4 or 8 bytes and is aligned to it (R18, R50). -/
def Place.widthGood (a : Place) (n : Nat) : Bool :=
  match a with
  | .tileReg _ o | .dieReg o => (n == 4 || n == 8) && o % n == 0
  | _ => true

/-! ## The checks (R380, R381) -/

/-- Bytes that an operation touches. -/
def CpOp.size (op : CpOp) (q : Request) : Nat :=
  match op with
  | .read | .write => q.length
  | .addI32 | .addF32 => 4
  | .addI64 => 8

def CpOp.isAdd : CpOp → Bool
  | .read | .write => false
  | _ => true

/-- Offset within the die of a request. -/
def reqOff (q : Request) : Nat := bitsOf q.addr 47 0

/-- The bytes lie in two tile windows (R51). -/
def twoWindows (d off n : Nat) : Bool :=
  !isEDie d && decide (off + n ≤ 0x12000000) && off / 0x100000 != (off + n - 1) / 0x100000

/-- The status that turns an access away before it acts, 0 for none. DEDUCED: an access that spans two tile windows has
status 0x8 although the last byte of a window is unmapped, for else R51 would name no access (log 32). -/
def State.accessStatus (s : State) (d : Nat) (op : CpOp) (q : Request) : Nat :=
  let n := op.size q
  let places := (List.range n).map fun i => placeOf d (reqOff q + i)
  if n = 0 ∨ 256 < n ∨ bitsOf q.addr 63 48 ≠ q.dst.toNat ∨ (op = .write ∧ q.data.length ≠ n)
      ∨ twoWindows d (reqOff q) n then 8
  else if places.any (·.isNone) then 1
  else
    match placeOf d (reqOff q) with
    | none => 1
    | some a =>
      let map := (s.die d).reg d rSpareMap
      if places.any fun p => (p.bind Place.tile).any (gatedPhys map) then 4
      else if reqOff q / 4096 ≠ (reqOff q + n - 1) / 4096 ∨ (op.isAdd ∧ reqOff q % n ≠ 0) then 8
      else if !a.widthGood n || places.any (fun p => match p with
          | some b => !a.joins d b
          | none => true) then 8
      else 0
where
  /-- The physical tile belongs to a gated-off cluster (R33, R45). -/
  gatedPhys (map : W64) (t : Nat) : Bool :=
    let c := bitsOf map (4 * (t / 72) + 3) (4 * (t / 72))
    (t % 72) / 8 == (if c < 8 then c else 8)

/-! ## The response (R380, R381) -/

/-- The response to a request: the return route of the request, its tag and its table version. An error
response carries no data. -/
def State.response (s : State) (d opcode : Nat) (q : Request) (status : Nat) (imm : W64)
    (data : List Byte) : ControlPacket :=
  let n := if status = 0 then (data.length + 63) / 64 else 0
  cpPacket { dst := q.src.toNat, src := s.dieNumber d, route := q.rroute.toNat,
                      rlen := q.rrlen.toNat, tc := 2, epoch := q.epoch.toNat, dlen := n,
                      opcode := opcode + 0x80, tag := q.tag.toNat, status := status,
                      length := if status = 0 then data.length else 0,
                      imm := if status = 0 then imm.toNat else 0 } (bytesFlits data n)

/-- Answers a request. -/
def State.respond (s : State) (d opcode : Nat) (q : Request) (status : Nat) (imm : W64)
    (data : List Byte) : State :=
  let p := s.response d opcode q status imm data
  let s := if status = 0 then s else s.modDie d (·.bump rCpErrors)
  s.cpSend d p

def CpOp.opcode : CpOp → Nat
  | .read => 0x01
  | .write => 0x02
  | .addI32 => 0x03
  | .addI64 => 0x04
  | .addF32 => 0x05

/-! ## Atomic additions -/

/-- The sum of an addition, as bytes: the old value and IMM (R380). -/
def CpOp.sum (op : CpOp) (old : Nat) (imm : W64) : List Byte :=
  match op with
  | .addI32 => leBytes (old + imm.toNat) 4
  | .addI64 => leBytes (old + imm.toNat) 8
  | .addF32 =>
    leBytes (fpAdd false false (BitVec.ofNat 32 old) (imm.setWidth 32)).toNat 4
  | _ => leBytes old 4

/-! ## Accesses to a memory window (R419) -/

/-- Units that an access to a memory window touches. -/
def memTouched (off n : Nat) : List Nat :=
  (List.range ((off + n - 1) / 64 - off / 64 + 1)).map (off / 64 + ·)

/-- Writes bytes; a unit that is written whole holds good check bits again (R405). -/
def Die.memWriteBytes (x : Die) (off : Nat) (bs : List Byte) : Die :=
  let whole := fun (u : Nat) => decide (off ≤ 64 * u) && decide (64 * u + 64 ≤ off + bs.length)
  { x with mem := { x.mem with
      cells := Mem.writeBytes x.mem.cells off bs
      bad := x.mem.bad.filter (!whole ·), weak := x.mem.weak.filter (!whole ·) } }

/-- A write covers the last byte of a shard that a storage appliance brings into the weight staging of E-die 32: it is
brought afresh (R430, R432, log 44). -/
def ShardSend.freshen (g : ShardSend) (off n : Nat) : ShardSend :=
  let last := regionOff 32 4 + fieldLE g.header 16 4 - 1
  if g.stage == .staging && g.source.isNone && decide (off ≤ last) && decide (last < off + n) then
    { g with stale := false }
  else g

/-- Bytes of E-die 32's memory have been written through the control plane. -/
def Weights.freshen (w : Weights) (off n : Nat) : Weights :=
  let f := fun (j : WeightJob) => { j with sends := j.sends.map (·.freshen off n) }
  { w with loading := w.loading.map f, rolling := w.rolling.map f }

/-- Performs an access to the memory window of a die and answers it. -/
def State.memAccess (s : State) (d off : Nat) (op : CpOp) (q : Request) : State :=
  let n := op.size q
  let us := memTouched off n
  let s := s.modDie d fun x => (x.memUse us.length).bump rCpUnits us.length
  match op with
  | .write =>
    let s := if d = 32 then { s with weights := s.weights.freshen off n } else s
    (s.modDie d (·.memWriteBytes off q.data)).respond d 0x02 q 0 0 []
  | _ =>
    let (s, _) := s.readUnits d (us.map some)
    let bs := Mem.readBytes (s.die d).mem.cells off n
    match op with
    | .read => s.respond d 0x01 q 0 0 bs
    | _ =>
      let old := leNat bs
      (s.modDie d (·.memWriteBytes off (op.sum old q.imm))).respond d op.opcode q 0
        (BitVec.ofNat 64 old) []

/-- The unit of the spill region that holds the entry with a sequence number: FP(2e) at the base of the region, FP(2e + 1)
256 MiB above it (R362, R410). -/
def spillUnit (d p : Nat) (seq : BitVec 24) : Nat :=
  (regionOff d 2 + p % 2 * 0x10000000) / 64 + seq.toNat % 4194304

/-- Entries that a port has moved to or from its spill region in the die's slot. -/
def Die.spillUsed (x : Die) (p : Nat) : Nat :=
  let l := x.link p
  if l.spillSlot = x.slotIndex then l.spillUsed else 0

/-- Entries that it can still move in the slot: 8 at 32 GB/s, within what late transfers leave of the capacity
(R362, R419). -/
def Die.spillRoom (x : Die) (d p : Nat) : Nat := min (8 - x.spillUsed p) (x.lateLeft d)

def Die.spillUse (x : Die) (p n : Nat) : Die :=
  (x.memUse n).modLink p fun l => { l with spillSlot := x.slotIndex, spillUsed := x.spillUsed p + n }

/-- Entries that the fabric ports of an E-die move to or from their spill regions in this slot, as far as they want
to: at 32 GB/s a port moves 8 in a slot (R362). -/
def Die.spillWant (x : Die) : Nat :=
  x.links.foldl (fun n l =>
    if !isFabricPort l.1 then n
    else
      let want := if bufferSize l.1 ≤ l.2.buffer.length then 8 else l.2.late.countP (·.spilled)
      n + min (8 - x.spillUsed l.1) want) 0

/-- What late transfers and replay spill leave of the capacity of this beat (R419). -/
def Die.cpLeft (x : Die) (d : Nat) : Nat := x.lateLeft d - x.spillWant

/-- The first access that waits fits what comes before it leaves of this beat's capacity, outside
blackout (R419). -/
def Die.memFits (x : Die) (d off n : Nat) : Bool :=
  let us := memTouched off n
  decide (us.length ≤ x.cpLeft d) && us.all fun u => !x.inBlackout (memGroup d u)

/-- Performs the accesses that wait, in order, while they fit. -/
def State.serveMem (s : State) (d : Nat) : Nat → State
  | 0 => s
  | fuel + 1 =>
    let x := s.die d
    match x.mem.waiting with
    | [] => s
    | w :: ws =>
      match placeOf d (reqOff w.req) with
      | some (.mem off) =>
        if x.memFits d off (w.op.size w.req) then
          let s := s.setDie d { x with mem := { x.mem with waiting := ws } }
          (s.memAccess d off w.op w.req).serveMem d fuel
        else s
      | _ => (s.setDie d { x with mem := { x.mem with waiting := ws } }).serveMem d fuel

/-- Serves all that waits and fits. -/
def State.serve (s : State) (d : Nat) : State :=
  s.serveMem d ((s.die d).mem.waiting.length)

/-- Entries that are sent again come back from the spill region of a port, the first of them first (R362, R410). -/
def State.spillBack (s : State) (d p : Nat) : Nat → State
  | 0 => s
  | fuel + 1 =>
    let x := s.die d
    let l := x.link p
    match l.late.find? (·.spilled) with
    | none => s
    | some w =>
      let u := spillUnit d p w.entry.seq
      if x.spillRoom d p = 0 || x.inBlackout (memGroup d u) then s
      else
        let (s, f) := s.readUnit d u
        let back := { w with entry := { w.entry with payload := f }, spilled := false }
        let s := s.modDie d fun x => (x.spillUse p 1).modLink p fun l =>
          { l with late := l.late.map fun a => if a == w then back else a }
        s.spillBack d p fuel

/-! ## The meter of a management core (R568) -/

/-- INTERVAL of fabric port `q` of an E-die. -/
def Die.meterInterval (x : Die) (d q : Nat) : Nat := x.field d (rCpRate + 4 * q) 15 0

/-- The meter of port `q` admits a packet: of its 64 places one is free. -/
def Die.meterOpen (x : Die) (d q : Nat) : Bool :=
  decide (tgetD x.meters q 0 ≤ x.timeNs + 63 * x.meterInterval d q)

def Die.meterTake (x : Die) (d q : Nat) : Die :=
  { x with meters := tput x.meters q (max (tgetD x.meters q 0) x.timeNs + x.meterInterval d q) }

def Die.waitingAt (x : Die) (q : Nat) : List ControlPacket := tgetD x.metered q []

/-- The management core of an E-die sends a packet: one that leaves through a fabric port of that die is
metered, and a packet that was not admitted waits. -/
def State.coreSend (s : State) (d : Nat) (p : ControlPacket) : State :=
  match s.cpRoute d p with
  | .out e _ _ =>
    let x := s.die d
    let q := e % 2
    if !isFabricPort e then s.cpSend d p
    else if (x.waitingAt q).isEmpty && x.meterOpen d q then (s.setDie d (x.meterTake d q)).cpSend d p
    else
      s.setDie d ({ x with metered := tput x.metered q (x.waitingAt q ++ [p]) }.bump
        (rCpRateWaits + 8 * q))
  | _ => s.cpSend d p

/-- Packets that wait for the meter of port `q` leave while it admits them. -/
def State.meterRun (s : State) (d q : Nat) : Nat → State
  | 0 => s
  | fuel + 1 =>
    let x := s.die d
    match x.waitingAt q with
    | [] => s
    | p :: ps =>
      if x.meterOpen d q then
        let x := { x.meterTake d q with metered := tput x.metered q ps }
        ((s.setDie d x).cpSend d p).meterRun d q fuel
      else s

/-- What the control plane and a memory do at the start of a slot: metered packets leave, spilled entries that are sent
again come back, accesses to memory that wait are performed as they fit, and the digest engine reads on; a re-digest, which is
background work, only in maintenance beats (R262, R263, R419). -/
def State.slotWork (s : State) (d : Nat) : State :=
  let s := (s.meterRun d 0 ((s.die d).waitingAt 0).length)
  let s := (s.meterRun d 1 ((s.die d).waitingAt 1).length)
  let s := if isEDie d then ((portsOf d).filter isFabricPort).foldl (fun s p => s.spillBack d p 8) s else s
  let s := s.serve d
  let x := s.die d
  if x.mem.redigest && !x.isMaint d then s else s.digestRead d (x.cpLeft d)

end Sys2Proof.Machine
end

