-- ==== Sys2Proof/Machine/Matrix.lean ====
section
/-! DEFINITION. The matrix instructions (R164 to R179). -/

namespace Sys2Proof.Machine

/-- A and V operands of an instruction as registers that it reads. -/
def useA (i : Nat) : RegUse := (.a, i, 0xFFFFFFFF)
def useS (i : Nat) : RegUse := (.s, i, 0xFFFFFFFF)
def useV (i : Nat) : RegUse := (.v, i, allLanes)
def useP (i : Nat) : RegUse := (.p, i, if i = 0 then 0 else 0xFFFFFFFF)
def useWb (i : Nat) : RegUse := (.wb, i, 1)
def useRow (acc row : Nat) : RegUse := (.acc, acc, (1 : BitVec 1024) <<< row)

/-- The address of MXLD and of the products (R166). -/
def mxAddr (y : Tile) (f : Operands) : Nat :=
  alignDown (addrSum (y.readA (fld f 41 38)) 20 (fld f 19 0)) 128

/-- Two inclusive windows of cycles overlap (R171). -/
def overlaps (a b : Option (Nat × Nat)) : Bool :=
  match a, b with
  | some (i, j), some (k, l) => decide (i ≤ l) && decide (k ≤ j)
  | _, _ => false

/-- MXLD (R170). -/
def planMxld (f : Operands) (_ : State) (y : Tile) : Plan :=
  let wb := fld f 51 51
  let fmt := fld f 50 47
  let vs := fld f 37 33
  let sparse := fld f 24 24 = 1
  if fld f 53 52 ≠ 0 ∨ fld f 46 42 ≠ 0 ∨ fld f 32 25 ≠ 0 ∨ fld f 23 20 ≠ 0 ∨ 0xA < fmt
      ∨ (sparse ∧ fmt ∉ [0, 1, 4, 6, 7]) ∨ (¬fmtIsMx fmt ∧ vs ≠ 0) then .invalid
  else
    let n := weightLines fmt sparse
    let a := mxAddr y f
    let v := (y.readV vs).toNat
    let t := y.now
    .run { path := pathLoad, occ := n
           reads := useA (fld f 41 38) :: (if fmtIsMx fmt then [useV vs] else [])
           banks := (List.range n).map fun q => (q, a + 128 * q)
           window := (List.range n).map fun q => (a + 128 * q, 128)
           marks := [(useWb wb, n + 1)]
           flight := (List.range n).map fun q => (q, .weightLine wb q (a + 128 * q) fmt sparse)
           undef := if overlaps (some (t + 1, t + n)) (y.wb wb).readBy then some 171 else none
           change := fun y =>
             let w := y.wb wb
             let w := { w with kind := some (BitVec.ofNat 4 fmt, sparse)
                               written := some (t + 1, t + n) }
             y.setWb wb (if fmtIsMx fmt then
               { w with scales := (List.range (if fmt = 4 then 64 else 32)).map fun b =>
                   (b, byteOf v b) } else w) }

def execMxld (t : TileRef) (f : Operands) (s : State) : Out :=
  issueTile t 0 0x01 f (planMxld f) id s

/-- The action of a product whose word is valid (R172 to R174). -/
def planProduct (sparse : Bool) (f : Operands) (y : Tile) : Plan :=
  let acc := fld f 53 52
  let wb := fld f 51 51
  let fmt := fld f 50 47
  let rows := fld f 46 42 + 1
  let vs := fld f 37 33
  let first := fld f 29 25
  let a := mxAddr y f
  let rpl := rowsPerLine sparse fmt
  let lines := (rows + rpl - 1) / rpl
  let v := y.readV vs
  let t := y.now
  .run { path := pathProduct, occ := rows
         reads := useA (fld f 41 38) :: useWb wb :: (if fmtIsMx fmt then [useV vs] else [])
         banks := (List.range lines).map fun m => (rpl * m, a + 128 * m)
         window := (List.range lines).map fun m => (a + 128 * m, 128)
         marks := (List.range rows).map fun r => (useRow acc (first + r), r + 7)
         flight := (List.range lines).map fun m =>
           (rpl * m, .product sparse acc wb fmt first (rpl * m) (min rpl (rows - rpl * m))
             (a + 128 * m) v)
         undef :=
           if overlaps (some (t + 2, t + rows + 1)) (y.wb wb).written then some 171
           else if sparse ∧ ¬((List.range 32).all fun j => metaGood (y.weightMeta wb j)) then
             some 144
           else none
         change := fun y => y.setWb wb { y.wb wb with readBy := some (t + 2, t + rows + 1) } }

/-- Fields that no product uses are zero, and its rows lie in the accumulator (R165, R172,
R174). -/
def productFieldsGood (f : Operands) : Bool :=
  fld f 32 30 == 0 && fld f 24 20 == 0 && decide (fld f 29 25 + fld f 46 42 + 1 ≤ 32)
    && (fmtIsMx (fld f 50 47) || fld f 37 33 == 0)

/-- MXMUL (R172); the buffer's format and kind are recorded in the cycle of its MXLD (R169). -/
def planMxmul (f : Operands) (_ : State) (y : Tile) : Plan :=
  let fmt := fld f 50 47
  let (wf, sparse) := y.weightKind (fld f 51 51)
  if productFieldsGood f ∧ fmt ≤ 0xA ∧ ¬sparse ∧ fmtK fmt = fmtK wf then planProduct false f y else .invalid

def execMxmul (t : TileRef) (f : Operands) (s : State) : Out :=
  issueTile t 0 0x02 f (planMxmul f) id s

/-- MXSPARSE (R141, R174). -/
def planMxsparse (f : Operands) (_ : State) (y : Tile) : Plan :=
  let fmt := fld f 50 47
  let (wf, sparse) := y.weightKind (fld f 51 51)
  if productFieldsGood f ∧ fmt ∈ [0, 1, 4, 5, 6, 7, 8] ∧ sparse
      ∧ ((wf = 4 ∧ fmt = 4) ∨ (wf ∈ [0, 1, 6, 7] ∧ fmt ≠ 4)) then planProduct true f y
  else .invalid

def execMxsparse (t : TileRef) (f : Operands) (s : State) : Out :=
  issueTile t 0 0x03 f (planMxsparse f) id s

/-- An FP32 value as a block result (R175). -/
def blockOf (x : Num) : Block :=
  match x with
  | .nan => .nan
  | .inf neg => .inf neg
  | .fin neg m e => .fin (if neg then -(m : Int) else m) e

/-- A source element of the accumulator form as a block result (R175). -/
def accBlock (wbase : Int) (e : AccElem) : Block :=
  match e.tag with
  | .finite => .fin e.n.toInt wbase
  | .posInf => .inf false
  | .negInf => .inf true
  | .nan => .nan

/-- MXACC (R175). -/
def planMxacc (f : Operands) (_ : State) (y : Tile) : Plan :=
  let acc := fld f 53 52
  let row := fld f 46 42
  let vs := fld f 37 33
  let src := fld f 21 20
  let t := y.clk
  let v := y.readV vs
  if fld f 51 47 ≠ 0 ∨ fld f 41 38 ≠ 0 ∨ fld f 32 25 ≠ 0 ∨ fld f 19 0 ≠ 0 then .invalid
  else if fld f 24 24 = 0 then
    if fld f 23 20 ≠ 0 then .invalid
    else
      .run { path := pathProduct, reads := [useV vs], marks := [(useRow acc row, 7)]
             change := fun y => y.addRow acc row (t + 6) y.pc
               ((List.range 32).map fun j => (j, blockOf (ofFP32 (lane v j)))) }
  else if row ≠ 0 ∨ vs ≠ 0 ∨ fld f 23 22 ≠ 0 ∨ src = acc then .invalid
  else
    .run { path := pathProduct, occ := 32
           marks := (List.range 32).map fun r => (useRow acc r, r + 7)
           change := fun y => (List.range 32).foldl (fun y r => y.addRow acc r (t + r + 6) y.pc
             ((List.range 32).map fun j => (j, accBlock (y.accBase src) (y.accElem src r j)))) y }

def execMxacc (t : TileRef) (f : Operands) (s : State) : Out :=
  issueTile t 0 0x04 f (planMxacc f) id s

/-- An accumulator is zeroed: every element 0 and FINITE, WBASE written (R133). -/
def Tile.zeroAcc (y : Tile) (acc : Nat) (wbase : BitVec 10) : Tile :=
  { y with acc := y.acc.filter fun e => e.1 / 1024 != acc, wbase := tput y.wbase acc wbase }

/-- MXZERO (R176). -/
def planMxzero (f : Operands) (_ : State) (y : Tile) : Plan :=
  let acc := fld f 53 52
  let t := y.clk
  if fld f 51 10 ≠ 0 then .invalid
  else
    .run { path := pathProduct, marks := (List.range 32).map fun r => (useRow acc r, 7)
           change := fun y =>
             let y := y.zeroAcc acc (BitVec.ofNat 10 (fld f 9 0))
             { y with ovfPend := insertOvf { due := t + 6 + y.idle, acc := acc, set := false, pc := y.pc }
                        y.ovfPend } }

def execMxzero (t : TileRef) (f : Operands) (s : State) : Out :=
  issueTile t 0 0x05 f (planMxzero f) id s

/-- The rounding mode of element `e` (R134, R139, R140). `fz` numbers the die's fresh random
words (log 10). -/
def roundOf (rm : Nat) (seed : W32) (bc : BitVec 48) (fz e : Nat) : Round :=
  match rm with
  | 0 => .rne
  | 1 => .rtz
  | 2 => .rup
  | 3 => .rdn
  | 4 => .rna
  | 5 => .stoch (srsWord seed bc e)
  | _ => .stoch (Config.entropy (32 * fz + e))

/-- The exact value that a readout rounds (R135). -/
def accValue (wbase : Int) (e : AccElem) : Num :=
  match e.tag with
  | .finite => intNum e.n.toInt wbase false
  | .posInf => .inf false
  | .negInf => .inf true
  | .nan => .nan

/-- Packs 32 elements of a width from a bit offset on (R124). -/
def packAt (bits off : Nat) (f : Nat → Nat) : BitVec 1024 :=
  BitVec.ofNat 1024
    (((List.range 32).foldr (fun i n => f i % 2 ^ bits + 2 ^ bits * n) 0) * 2 ^ off)

/-- The bits that 32 elements of a width take from a bit offset on, those that `p` selects. -/
def packMask (bits off : Nat) (p : W32) : BitVec 1024 :=
  packAt bits off fun i => if p.getLsbD i then 2 ^ bits - 1 else 0

/-- Uses up a free value when the mode is SRU (R140). -/
def usedBySru (rm : Nat) (s : State) : State := if rm = 6 then s.used else s

/-- MXRD (R177 to R179). -/
def planMxrd (f : Operands) (s : State) (y : Tile) : Plan :=
  let acc := fld f 53 52
  let fmt := fld f 50 47
  let row := fld f 46 42
  let rm := fld f 32 30
  let ss := fld f 29 27
  let place := fld f 26 25
  let flag := fld f 24 24 = 1
  let sd := fld f 22 20
  let places := match fmt with
    | 0xB => 1
    | 0x9 => 2
    | 0x6 | 0x7 => 4
    | _ => 0
  if fld f 51 51 ≠ 0 ∨ fld f 41 38 ≠ 0 ∨ fld f 23 23 ≠ 0 ∨ fld f 19 0 ≠ 0 ∨ places ≤ place
      ∨ rm = 7 ∨ (rm ≠ 5 ∧ ss ≠ 0) ∨ (¬flag ∧ sd ≠ 0) then .invalid
  else
    let bits := fmtBits fmt
    let off := 32 * bits * place
    let out := fun j => match fmtOf fmt with
      | some g => g.convert (roundOf rm (y.readS ss) y.bc s.fz j)
          (accValue (y.accBase acc) (y.accElem acc row j))
      | none => 0
    .run { path := pathReadout
           reads := useRow acc row :: (if rm = 5 then [useS ss] else [])
           results :=
             { kind := .v, idx := fld f 37 33, mask := packMask bits off 0xFFFFFFFF, lat := 4
               val := packAt bits off out }
             :: (if flag then [{ kind := .s, idx := sd, mask := 0xFFFFFFFF, lat := 4
                                 val := y.ovf.setWidth 1024 }] else []) }

def execMxrd (t : TileRef) (f : Operands) (s : State) : Out :=
  issueTile t 0 0x06 f (planMxrd f) (usedBySru (fld f 32 30)) s

end Sys2Proof.Machine
end

