-- ==== Sys2Proof/Machine/Movement.lean ====
section
/-! DEFINITION. The movement instructions (R198 to R218). -/

namespace Sys2Proof.Machine

/-! ## Fields (R204) -/

def mPM (f : Operands) : Nat := fld f 53 51
def mVR (f : Operands) : Nat := fld f 50 46
def mAR (f : Operands) : Nat := fld f 45 42
def mXR (f : Operands) : Nat := fld f 41 38
def mLEN (f : Operands) : Nat := fld f 37 32
def mCNT (f : Operands) : Nat := fld f 31 28
def mNC (f : Operands) : Nat := fld f 27 24
def mDOFF (f : Operands) : Nat := fld f 23 16
def mOFF (f : Operands) : Nat := fld f 15 0

/-- A[AR] + OFF (R205). -/
def mvAddr (y : Tile) (f : Operands) : Nat := addrSum (y.readA (mAR f)) 16 (mOFF f)

/-- The line address of an operand (R205). -/
def mvLine (y : Tile) (f : Operands) : Nat := alignDown (mvAddr y f) 128

/-- The address of the descriptor of copy `c` (R205). -/
def mvDesc (y : Tile) (f : Operands) (c : Nat) : Nat :=
  alignDown (y.readA (mXR f) + BitVec.ofNat 32 (8 * (mDOFF f + c))).toNat 8

/-! ## LOADV and STOREV (R211) -/

def planLoadv (f : Operands) (_ : State) (y : Tile) : Plan :=
  let a := mvLine y f
  if fld f 41 16 ≠ 0 then .invalid
  else
    .run { path := pathLs, reads := [useA (mAR f), useP (mPM f)], banks := [(0, a)]
           window := [(a, 128)], touch := some (a, 128)
           results := [{ kind := .v, idx := mVR f, mask := laneMask (y.readP (mPM f)), lat := 3
                         val := BitVec.ofNat 1024 (y.line a) }] }

def execLoadv (t : TileRef) (f : Operands) (s : State) : Out :=
  issueTile t 2 0x01 f (planLoadv f) id s

def planStorev (f : Operands) (_ : State) (y : Tile) : Plan :=
  let a := mvLine y f
  let p := y.readP (mPM f)
  let v := y.readV (mVR f)
  if fld f 41 16 ≠ 0 then .invalid
  else
    .run { path := pathLs, reads := [useA (mAR f), useP (mPM f), useV (mVR f)], banks := [(1, a)]
           window := [(a, 128)]
           change := fun y => { y with store := some (a, p, v) } }

def execStorev (t : TileRef) (f : Operands) (s : State) : Out :=
  issueTile t 2 0x02 f (planStorev f) id s

/-! ## Sends (R206, R207, R212, R213) -/

/-- The null control is not reserved (R206). -/
def ncGood (f : Operands) : Bool := mNC f == 0 || 8 ≤ mNC f

/-- The null decision (R206). -/
def isNull (y : Tile) (f : Operands) : Bool :=
  decide (8 ≤ mNC f) && y.readS (mNC f - 8) == 0

/-- The S register that the null control reads. -/
def ncUse (f : Operands) : List RegUse := if 8 ≤ mNC f then [useS (mNC f - 8)] else []

/-- One packet of a send, its cycles counted from `u`: the descriptor, then its flits
(R201, R317). -/
def sendSteps (u daddr : Nat) (null : Bool) (len : Nat) (bc : BitVec 48) (src : Nat → FlitSrc) :
    List (Nat × Micro) :=
  (u, .descriptor daddr true) :: (List.range (len + 1)).map fun i =>
    (u + 1 + i, .flit (.descriptor null len bc) i (if null then .chaff else src i))

/-- Where flit `i` of data in lines comes from (R201). -/
def lineSrc (a i : Nat) : FlitSrc := if i % 2 = 0 then .line (a + 64 * i) else .half

/-- The lines of a packet of `len + 1` flits: the cycle of each, from the packet's first cycle, and
its address. -/
def dataLines (a len : Nat) : List (Nat × Nat) :=
  (List.range (len / 2 + 1)).map fun m => (1 + 2 * m, a + 128 * m)

/-- SEND, and SENDM with `copies` packets. -/
def planSends (f : Operands) (y : Tile) (copies : Nat) : Plan :=
  let len := mLEN f
  let a := mvLine y f
  let null := isNull y f
  let cs := List.range copies
  let lines := if null then [] else dataLines a len
  .run { path := pathSend, occ := copies * (len + 2)
         reads := useA (mAR f) :: useA (mXR f) :: ncUse f
         banks := cs.flatMap fun c => (c * (len + 2), mvDesc y f c)
           :: lines.map fun l => (c * (len + 2) + l.1, l.2)
         window := cs.map (fun c => (mvDesc y f c, 8)) ++ lines.map fun l => (l.2, 128)
         flight := cs.flatMap fun c =>
           sendSteps (c * (len + 2)) (mvDesc y f c) null len y.bc (lineSrc a) }

def planSend (f : Operands) (_ : State) (y : Tile) : Plan :=
  if fld f 53 46 ≠ 0 ∨ mCNT f ≠ 0 ∨ ¬ncGood f then .invalid else planSends f y 1

def execSend (t : TileRef) (f : Operands) (s : State) : Out :=
  issueTile t 2 0x10 f (planSend f) id s

def planSendm (f : Operands) (_ : State) (y : Tile) : Plan :=
  if fld f 53 46 ≠ 0 ∨ ¬ncGood f then .invalid else planSends f y (mCNT f + 1)

def execSendm (t : TileRef) (f : Operands) (s : State) : Out :=
  issueTile t 2 0x11 f (planSendm f) id s

/-- The address of a gather flit, `none` for a flit of zeros (R213). -/
def gatherAddr (y : Tile) (f : Operands) (i : Nat) : Option Nat :=
  let x := lane (y.readV (mVR f)) i
  if x = 0xFFFFFFFF then none
  else some (alignDown (y.readA (mAR f) + BitVec.ofInt 32 (sextInt 16 (mOFF f)) + 64 * x).toNat 64)

def planGather (f : Operands) (_ : State) (y : Tile) : Plan :=
  let len := mLEN f
  let null := isNull y f
  if mPM f ≠ 0 ∨ mCNT f ≠ 0 ∨ ¬ncGood f ∨ 31 < len then .invalid
  else
    let flits := if null then [] else
      (List.range (len + 1)).filterMap fun i => (gatherAddr y f i).map fun a => (1 + i, a)
    .run { path := pathSend, occ := len + 2
           reads := useA (mAR f) :: useA (mXR f) :: useV (mVR f) :: ncUse f
           banks := (0, mvDesc y f 0) :: flits
           window := (mvDesc y f 0, 8) :: flits.map fun l => (l.2, 64)
           flight := sendSteps 0 (mvDesc y f 0) null len y.bc fun i =>
             match gatherAddr y f i with
             | some a => .bytes a
             | none => .zero }

def execGather (t : TileRef) (f : Operands) (s : State) : Out :=
  issueTile t 2 0x12 f (planGather f) id s

/-! ## LAND (R214, R215) -/

def planLand (f : Operands) (_ : State) (y : Tile) : Plan :=
  let mode := fld f 53 52
  let rep := fld f 51 51 = 1
  let sd := fld f 50 48
  let idx := fld f 47 39
  let delta := fld f 15 0
  let e := y.landing idx
  if mode = 3 ∨ (rep ∧ mode = 1) ∨ (¬rep ∧ sd ≠ 0) ∨ fld f 38 16 ≠ 0 ∨ (mode = 0 ∧ delta ≠ 0)
      ∨ ¬leEnable e then .invalid
  else if mode ≠ 1 ∧ leState e ≠ 2 then .fault 0x06 idx
  else
    let e := if mode = 1 then e else leEmpty e
    let e := if mode = 0 then e
             else setBits (setBits e 60 60 1) 47 32 ((y.bc.toNat + delta) % 2 ^ 16)
    .run { path := pathLand
           undef := if mode ≠ 0 ∧ delta = 0 then some 115 else none
           results := if rep then
             [{ kind := .s, idx := sd, mask := 0xFFFFFFFF, lat := 1
                val := if leNull (y.landing idx) then 1 else 0 }] else []
           change := (·.setLanding idx e) }

def execLand (t : TileRef) (f : Operands) (s : State) : Out :=
  issueTile t 2 0x20 f (planLand f) id s

/-! ## HBMRD and HBMWR (R216, R217) -/

/-- Units of the populated stack (R217). -/
abbrev hbmUnits : Nat := 0x24000000

def planHbmrd (d : Nat) (f : Operands) (s : State) (y : Tile) : Plan :=
  let u := mvAddr y f
  if fld f 53 46 ≠ 0 ∨ fld f 31 24 ≠ 0 then .invalid
  else y.early [useA (mAR f)] <|
    if hbmUnits ≤ u + mLEN f then .invalid else
    let h := mkHeader (s.dieNumber d) destMem 2 y.bank 0 0 0 0 0 0 y.bc.toNat
    .run { path := pathSend, occ := 2, reads := [useA (mAR f), useA (mXR f)]
           banks := [(0, mvDesc y f 0)], window := [(mvDesc y f 0, 8)]
           flight := [(0, .descriptor (mvDesc y f 0) false),
                      (1, .flit (.built h) 0 (.request u (mLEN f)))] }

def execHbmrd (t : TileRef) (f : Operands) (s : State) : Out :=
  issueTile t 2 0x30 f (planHbmrd t.die.val f) id s

def planHbmwr (d : Nat) (f : Operands) (s : State) (y : Tile) : Plan :=
  let u := (y.readA (mXR f)).toNat
  let a := mvLine y f
  let len := mLEN f
  if fld f 53 46 ≠ 0 ∨ fld f 31 16 ≠ 0 then .invalid
  else y.early [useA (mXR f)] <|
    if hbmUnits ≤ u + len then .invalid else
    let h := mkHeader (s.dieNumber d) destMem 1 y.bank 0 0 len 0 0 u y.bc.toNat
    let lines := dataLines a len
    .run { path := pathSend, occ := len + 2, reads := [useA (mAR f), useA (mXR f)]
           banks := lines, window := lines.map fun l => (l.2, 128)
           flight := (List.range (len + 1)).map fun i =>
             (1 + i, .flit (.built h) i (lineSrc a i)) }

def execHbmwr (t : TileRef) (f : Operands) (s : State) : Out :=
  issueTile t 2 0x31 f (planHbmwr t.die.val f) id s

end Sys2Proof.Machine
end

