-- ==== Sys2Proof/Machine/Sequencing.lean ====
section
/-! DEFINITION. The start of a tile's beat (R91, R223), the sequencing instructions (R219 to R227)
and the overrun of a region (R237 to R240). -/

namespace Sys2Proof.Machine

/-! ## The start of a beat (R91, R223) -/

/-- Cycles of region `r` in the beat that has just ended in which a tile that issued `words` words
waited (R163, R238). -/
def Die.waited (x : Die) (d r words : Nat) : Nat :=
  let g := x.region r
  (16000 + g.startLag - g.lastStart) / x.period d r - g.lastStretches - words

/-- Adds a missed entry of the active table to the tile's watch set (R255). -/
def Tile.addWatch (y : Tile) (n : Nat) : Tile :=
  let k := landKey y.bank n
  if y.watch.contains k then y else { y with watch := k :: y.watch }

/-- The deadline check over the entries that match: the tile, and the index of the first entry
without a hold that missed, in table order: DESIGN CHOICE where several miss at once (R91, R96,
log 71). -/
def Tile.deadlines (y : Tile) : Tile × Option Nat :=
  y.land.foldl (fun (acc : Tile × Option Nat) (e : Nat × W64) =>
    let (y, bad) := acc
    let (k, v) := e
    if k / 512 = y.bank ∧ leArmed v ∧ leDeadline v = y.bc.toNat % 2 ^ 16 then
      let n := k % 512
      if leState v = 2 then (y.setLanding n (setBits v 60 60 0), bad)
      else if leNoHold v then (y, match bad with | some b => some b | none => some n)
      else (((y.setLanding n (setBits v 60 60 0)).count tMissed).addWatch n, bad)
    else acc) (y, none)

/-- The cycles in which a tile waited for the beat that begins have passed. -/
def State.passWait (s : State) (d t : Nat) : State :=
  (s.modDie d fun x => x.modTile t fun y =>
    { y with idle := y.idle + x.waited d (t / 72) y.words }).settleTile d t

/-- A tile at WAITBEAT is HELD: its wait of the beat is over, and what its instructions still did is done, for a hold
lasts longer than any latency (R79, R163, R251). -/
def State.holdTile (s : State) (d t : Nat) : State :=
  let s := s.modDie d fun x => x.modTile t fun y =>
    { y with state := .held, idle := y.idle + x.waited d (t / 72) y.words, words := 0 }
  s.settleUpTo d t ((s.die d).tile t).settledBy

/-- A tile begins a job beat (in a maintenance beat it waits, R80): what its instructions did in the
cycles that it waited, then BC, the word count of the beat and the deadline check. Misses raise one hold, and
the miss of a no-hold entry is a fault (R91, R223). -/
def State.enterBeat (s : State) (d t : Nat) (bc : BitVec 48) : State :=
  let s := s.passWait d t
  if ((s.die d).tile t).state != .running then s
  else
  let y := (s.die d).tile t
  let y := { y with bc := bc, waiting := bc.toNat % 64 == 63, words := 0, heldRaised := false }
  let missed := y.counter tMissed
  let (y, bad) := y.deadlines
  let raised := y.counter tMissed != missed
  let s := s.modDie d (·.setTile t { y with heldRaised := raised })
  let s := if raised then s.modDie d (·.raiseHold d 1) else s
  match bad with
  | some n => s.tileFault d t 0x05 y.pc.toNat 0 n
  | none => s

/-! ## Regions (R237 to R240) -/

/-- The WAITBEAT of a tile of region `r` issued as word `words - 1` of beat `bc`: an overrun is
counted and raises a hold once a beat; a lag of 2 ns stops the slice (R239, R240). -/
def State.regionWait (s : State) (d r : Nat) (bc : BitVec 48) (words : Nat) : State :=
  let x := s.die d
  let g := x.region r
  let current := x.hold.slot.isNone && BitVec.ofNat 48 x.job.beat == bc
  let lag := if current then lagOf g.startLag g.stretches (x.period d r) words
             else lagOf g.lastStart g.lastStretches (x.period d r) words
  if lag = 0 then s
  else
    let off := rRegion + 0x40 * r
    let max' := max (x.field d off 15 0) (min lag 65535)
    let first := if current then !g.overran else !g.lastOverran
    let g := if current then { g with lag := max g.lag lag, overran := true }
             else { g with lastOverran := true
                           startLag := if x.hold.slot.isSome then 0 else max g.startLag lag }
    let s := s.setDie d ((x.setField d off 15 0 max').setRegion r g)
    let s := if first then (s.modDie d (·.bump (off + 0x10))).raiseFor d bc 3 else s
    if 2000 ≤ lag then s.dieFault d 0x30 else s

/-- Some tile of the region is still in the beat before the die's slot (R238). -/
def Die.regionLate (x : Die) (r : Nat) : Bool :=
  x.tiles.any fun e => e.1 / 72 == r && e.2.state == .running && !e.2.waiting
    && (x.hold.slot.isSome || BitVec.ofNat 48 x.job.beat != e.2.bc)

/-- A cycle of the region is stretched (R237). -/
def execDroopStretch (c : CDieId) (r : Fin 4) (s : State) : Out :=
  let x := s.die c.val
  if x.inReset then .next s
  else
    let g := x.region r.val
    let g := if x.regionLate r.val then { g with lastStretches := g.lastStretches + 1 }
             else { g with stretches := g.stretches + 1 }
    .next (s.setDie c.val ((x.bump (rRegion + 0x40 * r.val + 0x8)).setRegion r.val g))

/-! ## SQ instructions -/

def execNop (t : TileRef) (f : Operands) (s : State) : Out :=
  issueTile t 3 0x00 f (fun _ _ => if f = 0 then .run { path := pathSq } else .invalid) id s

def qSR (f : Operands) : Nat := fld f 50 48
def qCond (f : Operands) : Nat := fld f 53 51
def qWidx (f : Operands) : Nat := fld f 47 35

/-- LOOP (R219, R220). -/
def planLoop (f : Operands) (_ : State) (y : Tile) : Plan :=
  let src := fld f 53 52
  let reg := fld f 51 48
  let fin := qWidx f
  let count := fld f 19 0
  let pc := y.pc.toNat
  let nested : Bool := match y.loops with
    | [] => true
    | l :: _ => decide (fin ≤ l.fin) && pc != l.fin
  if src = 3 ∨ fld f 34 20 ≠ 0 ∨ (src = 0 ∧ reg ≠ 0) ∨ (src ≠ 0 ∧ count ≠ 0) ∨ (src = 2 ∧ 8 ≤ reg)
      ∨ fin < pc + 1 ∨ 4 ≤ y.loops.length ∨ ¬nested then .invalid
  else
    let n := match src with
      | 0 => count
      | 1 => (y.readA reg).toNat
      | _ => (y.readS reg).toNat
    .run { path := pathSq
           reads := if src = 0 then [] else if src = 1 then [useA reg] else [useS reg]
           ctl := if n = 0 then .skip fin else .enter { start := pc + 1, fin := fin, left := n } }

def execLoop (t : TileRef) (f : Operands) (s : State) : Out :=
  issueTile t 3 0x01 f (planLoop f) id s

/-- The condition codes of BR and FAULT (R221). -/
def condHolds (c : Nat) (v : W32) : Bool :=
  match c with
  | 0 => true
  | 1 => v == 0
  | 2 => v != 0
  | 3 => v.slt 0
  | _ => !v.slt 0

/-- COND is assigned, and SR is zero with COND 0 (R221). -/
def condGood (f : Operands) : Bool := decide (qCond f ≤ 4) && (qCond f != 0 || qSR f == 0)

def condUse (f : Operands) : List RegUse := if qCond f = 0 then [] else [useS (qSR f)]

/-- Leaves the levels whose body does not contain the target (R222). -/
def leaveLoops (target : Nat) : List LoopLevel → List LoopLevel
  | [] => []
  | l :: ls => if l.start ≤ target ∧ target ≤ l.fin then l :: ls else leaveLoops target ls

/-- BR (R221, R222). -/
def planBr (f : Operands) (_ : State) (y : Tile) : Plan :=
  let target := qWidx f
  let atEnd : Bool := match y.loops with
    | [] => false
    | l :: _ => y.pc.toNat == l.fin
  if ¬condGood f ∨ fld f 34 0 ≠ 0 ∨ atEnd then .invalid
  else
    .run { path := pathSq, reads := condUse f
           ctl := if condHolds (qCond f) (y.readS (qSR f)) then
                    .taken (BitVec.ofNat 13 target) (leaveLoops target y.loops)
                  else .seq }

def execBr (t : TileRef) (f : Operands) (s : State) : Out :=
  issueTile t 3 0x02 f (planBr f) id s

/-- After a WAITBEAT: the region's lag, and, where the die's next slot has begun already, the tile
enters its job beat at once or is HELD (R238, R239, R251). -/
def State.afterWait (s : State) (d t : Nat) : State :=
  let y := (s.die d).tile t
  let s := s.regionWait d (t / 72) y.bc y.words
  let x := s.die d
  if !x.jobOn d then s
  else if x.hold.slot.isSome then s.holdTile d t
  else if BitVec.ofNat 48 x.job.beat ≠ y.bc then s.enterBeat d t (BitVec.ofNat 48 x.job.beat)
  else s

def execWaitbeat (t : TileRef) (f : Operands) (s : State) : Out :=
  issueTile t 3 0x03 f
    (fun _ _ => if f = 0 then .run { path := pathSq, wait := true } else .invalid)
    (·.afterWait t.die.val t.tile.val) s

/-- HOLDCHK (R225). -/
def planHoldchk (f : Operands) (_ : State) (y : Tile) : Plan :=
  let idx := fld f 47 39
  let nh := fld f 38 38 = 1
  let e := y.landing idx
  if fld f 53 48 ≠ 0 ∨ fld f 37 0 ≠ 0 ∨ ¬leEnable e then .invalid
  else if leState e = 2 then .run { path := pathSq }
  else if nh ∨ leNoHold e then .fault 0x05 idx
  else
    .run { path := pathSq, hold := if y.heldRaised then none else some 2
           change := fun y => { y.addWatch idx with heldRaised := true } }

def execHoldchk (t : TileRef) (f : Operands) (s : State) : Out :=
  issueTile t 3 0x04 f (planHoldchk f) id s

/-- FAULT (R226). -/
def planFault (f : Operands) (_ : State) (y : Tile) : Plan :=
  if ¬condGood f ∨ fld f 47 0 ≠ 0 then .invalid
  else if (condUse f).any (y.pendingOn y.clk) then .run { path := pathSq, undef := some 108 }
  else if condHolds (qCond f) (y.readS (qSR f)) then .fault 0x08 0
  else .run { path := pathSq }

def execFault (t : TileRef) (f : Operands) (s : State) : Out :=
  issueTile t 3 0x05 f (planFault f) id s

/-- The telemetry value that SNAP writes (R227). -/
def telemetry (x : Die) (d region sel : Nat) : W32 :=
  match sel with
  | 0 => BitVec.ofInt 32 (sextInt 16 (x.field d rDieTempMax 15 0))
  | 1 => BitVec.ofInt 32 (sextInt 16 (x.field d (rRegionTemp + 4 * region) 15 0))
  | _ => BitVec.ofNat 32 (x.field d rDiePower 15 0)

/-- SNAP (R227). -/
def planSnap (d region : Nat) (f : Operands) (s : State) (_ : Tile) : Plan :=
  let sel := fld f 34 31
  if fld f 53 51 ≠ 0 ∨ fld f 47 35 ≠ 0 ∨ fld f 30 0 ≠ 0 ∨ 2 < sel then .invalid
  else
    .run { path := pathSq
           results := [{ kind := .s, idx := qSR f, mask := 0xFFFFFFFF, lat := 2
                         val := (telemetry (s.die d) d region sel).setWidth 1024 }] }

def execSnap (t : TileRef) (f : Operands) (s : State) : Out :=
  issueTile t 3 0x06 f (planSnap t.die.val (t.tile.val / 72) f) id s

/-- The budget of the beat is used up without a WAITBEAT: the next word does not issue (R224). -/
def execFillBudgetExhausted (r : TileRef) (s : State) : Out :=
  let d := r.die.val
  let t := r.tile.val
  let y := (s.die d).tile t
  if s.mayIssue d t ∧ (s.die d).fill d ≤ y.words then
    s.throughPast d t fun s => .next (s.cycleFault d t y.clk 0x02 y.pc.toNat 3)
  else .next s

end Sys2Proof.Machine
end

