-- ==== Sys2Proof/Machine/Refresh.lean ====
section
/-! DEFINITION. What a die knows of its hold: the resume slot and the causes that have cleared (R254, R255); and the
refresh of its memory, which rests on it (R411 to R413). -/

namespace Sys2Proof.Machine

/-! ## The hold -/

/-- The slot R in which the job resumes, once the roll call is closed and every holder has sent its
release (R254). -/
def Hold.resumeSlot (h : Hold) (horizon : Nat) : Option Nat :=
  if h.closed && h.holders.all (fun a => h.releases.any (·.1 == a.die)) then
    some (h.releases.foldl (fun m r => max m r.2) 0 + horizon + 1)
  else none

/-- A cause that the die raised in this hold has cleared (R255). -/
def Die.clearOf (x : Die) (d cause : Nat) : Bool :=
  match cause with
  | 1 | 2 => x.tiles.all fun e => e.2.watch.all fun k => leState (tgetD e.2.land k 0) == 2
  | 4 => x.links.all fun l => !l.2.causeOpen || l.2.toRaise
  | 5 => !x.mem.lateOpen || x.mem.lateToRaise
  | 6 => x.ctx.slots.all fun sl => !sl.2.owed
  | 7 => !x.bit d rBeatCtrl 31
  | _ => true

/-! ## Refresh (R411 to R413) -/

/-- A refresh of one group: it is in blackout for 16 slots, this one included. -/
def Die.refresh (x : Die) (g : Nat) : Die :=
  { x with mem := { x.mem with
      blackout := (g, 16) :: x.mem.blackout.filter (·.1 != g)
      lastRefresh := tput x.mem.lastRefresh g x.timeNs } }

/-- In hold slot `j` the die knows that the next job beat begins no earlier than slot `j + 16`
(R413). -/
def Die.resumeFar (x : Die) (d j : Nat) : Bool :=
  let h := x.horizon d
  decide (j + 16 ≤ 2 * h) ||
    match x.hold.resumeSlot h with
    | some r => decide (j + 16 ≤ r)
    | none => decide (15 ≤ h) && !x.hold.mine.isEmpty && !x.hold.released
                && !x.hold.mine.all (x.clearOf d)

/-- The groups that are refreshed in a maintenance beat: the one whose turn it is, or in a hold slot all whose
blackout ends in time or that have waited for more than 8 us (R411, R413). -/
def Die.refreshGroups (x : Die) (d : Nat) : List Nat :=
  let n := memGroups d
  if !x.jobOn d then [x.slotIndex / 64 % n]
  else
    match x.hold.slot with
    | none => [x.mem.m % n]
    | some j =>
      let far := x.resumeFar d j
      (List.range n).filter fun g => far || decide (tgetD x.mem.lastRefresh g 0 + 8000 < x.timeNs)

/-- A maintenance beat begins: its refreshes, whose groups are in blackout from its start on (R411). -/
def Die.startRefresh (x : Die) (d : Nat) : Die :=
  if !x.isMaint d then x
  else
    let gs := x.refreshGroups d
    let x := gs.foldl (fun x g => x.refresh g) x
    let x := { x with mem := { x.mem with refreshed := gs.length } }
    if x.inJobBeat d then
      let x := x.setField d rMemStatus 3 2 (x.mem.m % memGroups d)
      { x with mem := { x.mem with m := x.mem.m + 1 } }
    else x

/-- Refresh rounds that one refresh takes (R412). -/
def rounds (hot : Bool) : Nat := if hot then 2 else 1

/-- What a maintenance beat finds out about its refreshes: whether the memory asks for doubled ones, and their number
(R412, R413). -/
def Die.noteRefresh (x : Die) (d : Nat) (hot : Bool) : Die :=
  let x := x.setBit d rMemStatus 31 hot
  if !x.jobOn d || x.mem.refreshed = 0 then x
  else x.bump (if x.hold.slot.isNone then rRefreshes else rRefreshesHold) (x.mem.refreshed * rounds hot)

end Sys2Proof.Machine
end

