-- ==== Sys2Proof/Machine/Frames.lean ====
section
/-! DEFINITION. Frames that arrive, acknowledgement and replay, and spill (R344 to R363, R376 to
R378, R388). -/

namespace Sys2Proof.Machine

/-! ## Scheduled flits that are accepted (R318, R323, R324, R376) -/

/-- Index of a flit without a header, when it comes at a flit time that an on-time packet
reserves. -/
def onTimeFlit (times beat time : Nat) : List (Header × Nat × Nat) → Option (Header × Nat)
  | [] => none
  | (h, b, t) :: rs =>
    match (List.range (hLen h + 1)).find? fun i =>
        decide (1 ≤ i) && slotOf schedulable times b t i slotFuel == (beat, time) with
    | some i => some (h, i)
    | none => onTimeFlit times beat time rs

/-- The latest number, not after `own`, whose low 48 bits are those of `low`. -/
def rebuild48 (own low : Nat) : Nat :=
  let c := own / 2 ^ 48 * 2 ^ 48 + low % 2 ^ 48
  if c ≤ own then c else c - 2 ^ 48

/-- The beat count of the job beat in which the far end sent a frame; it may be one of the job before a switch
(R234, R298). -/
def Die.sentBeat (x : Die) (b : BitVec 48) : Nat :=
  match x.job.prevLast with
  | some last =>
    if x.job.beat < b.toNat then x.job.base - (last + 1) + rebuild48 last b.toNat
    else x.job.base + rebuild48 x.job.beat b.toNat
  | none => x.job.base + rebuild48 x.job.beat b.toNat

/-- An accepted flit of a packet enters the equaliser, or, when it is late, the late path of the next slot on. One that is
decoded after its release time is late: in an earlier beat than the release none is, in a later one all are, and in
the release beat the frame says so (R322, R323, R376). A header that fails its check stops the slice (R319). -/
def State.flitIn (s : State) (d p : Nat) (f : RxFrame) (h : Header) (i time : Nat)
    (payload : Flit) (late : Bool) : State :=
  let x := s.die d
  let release := x.sentBeat f.beat + delayBeats (x.lfield d p lCtrl 18 16) p
  let after := !late && (decide (release < x.beatNow)
    || (release == x.beatNow && (f.late || x.hold.slot.isSome)))
  let q : QFlit := { hdr := h, fidx := i, payload := payload, beat := release, ready := 0
                     late := late || after, src := 288, egress := egNone, due := 0, time := 0, serial := 0 }
  if !s.headerGood d h && !s.strayBank d h then
    if i = 0 then s.dieFault d 0x21 (stopDetailAt p time h) else s
  else if late || after then
    s.modDie d fun x =>
      let x := if after then x.lbump p lEqLate else x
      { x with incoming := x.incoming ++ [q] }
  else s.setDie d { x with eq := x.eq ++ [{ flit := q, port := p, release := release, time := time }] }

/-- The late run after a scheduled entry: its header, and the index of its next flit. A late header begins one, and an
entry at a flit time of no on-time packet goes on with it; an entry that is discarded as a duplicate counts as well
(R324, R357). -/
def Die.runAfter (x : Die) (p : Nat) (f : RxFrame) (run : Option (Header × Nat)) (a : Placed) :
    Option (Header × Nat) :=
  match a.hdr with
  | some h => if hLate h then some (h, hFidx h + 1) else run
  | none =>
    if f.inJob && (onTimeFlit (flitTimes p) f.beat.toNat a.entry.time (x.link p).rxRun).isSome then run
    else run.map fun r => (r.1, r.2 + 1)

/-- A scheduled entry is accepted: on a stopped die it is discarded and counted, with no job, or from outside the
slice, it is discarded (R44, R300); else its packet and its index are found, by the late run of the frame where it is
late. -/
def State.acceptData (s : State) (d p : Nat) (f : RxFrame) (run : Option (Header × Nat))
    (a : Placed) : State :=
  let x := s.die d
  let times := flitTimes p
  if x.stopped then s.modDie d (·.bump rStopFlits)
  else if !x.jobOn d || x.outside d p then s
  else
    match a.hdr with
    | some h =>
      if hLate h then
        s.flitIn d p f h (hFidx h) a.entry.time a.entry.payload true
      else
        let l := x.link p
        let old := l.rxRun.filter fun r =>
          decide (f.beat.toNat ≤ (slotOf schedulable times r.2.1 r.2.2 (hLen r.1) slotFuel).1)
        let s := s.setDie d (x.setLink p { l with
          rxRun := old ++ [(h, f.beat.toNat, a.entry.time)] })
        s.flitIn d p f h 0 a.entry.time a.entry.payload false
    | none =>
      match (if f.inJob then onTimeFlit times f.beat.toNat a.entry.time (x.link p).rxRun
             else none) with
      | some (h, i) => s.flitIn d p f h i a.entry.time a.entry.payload false
      | none =>
        match run with
        | some (h, i) => s.flitIn d p f h i a.entry.time a.entry.payload true
        | none => s

/-! ## Control entries (R377, R387, R389) -/

/-- A data flit follows the packet from ingress `src` of which the egress has still not got all flits. -/
def Link.appendControl (l : Link) (src : Nat) (f : Flit) : Link :=
  if l.txSrc = src ∧ l.txControl.length < l.txLeft then { l with txControl := l.txControl ++ [f] }
  else
    { l with ctl := l.ctl.map fun c =>
        if c.src = src ∧ c.pkt.data.length < cDlen c.pkt then
          { c with pkt := { c.pkt with data := c.pkt.data ++ [f] } }
        else c }

/-- A CONTROL entry is accepted: the packet is whole once its header flit and DLEN data flits are there, and then
stands in the ingress buffer of its channel and class; a flit of a packet that passes on already follows it. -/
def Die.acceptControl (x : Die) (p : Nat) (f : Flit) : Die :=
  let l := x.link p
  let fs := l.rxControl ++ [f]
  match fs with
  | [] => x
  | h :: data =>
    let pkt : ControlPacket := { header := h, data := data }
    let whole := decide (cDlen pkt ≤ data.length)
    match l.cut with
    | some e =>
      let l := l.free pkt 0 1
      let x := x.setLink p { l with rxControl := if whole then [] else fs, cut := if whole then none else l.cut }
      -- 32 stands for a packet that was answered
      if e < 32 then x.modLink e (·.appendControl p f) else x
    | none =>
      if whole then
        x.setLink p { l with rxControl := []
                             arrived := tput l.arrived (cpBuffer pkt) (tgetD l.arrived (cpBuffer pkt) [] ++ [pkt]) }
      else x.setLink p { l with rxControl := fs }

/-! ## The receiver (R357) -/

/-- Takes the sequenced entries of a frame in order; `bad` says that one failed its check
already. -/
def State.takeEntries (s : State) (d p : Nat) (f : RxFrame) (badGroups : List Nat)
    (run : Option (Header × Nat)) (bad : Bool) : List Placed → State
  | [] => s
  | a :: as =>
    if !a.entry.code.sequenced then s.takeEntries d p f badGroups run bad as
    else
      let x := s.die d
      let l := x.link p
      let nak := fun (s : State) (off : Nat) =>
        s.modDie d fun x => (x.modLink p fun l => { l with nak := true }).lbump p off
      let after := if a.entry.code = .control then run else x.runAfter p f run a
      if bad then (nak s lRxOutOfOrder).takeEntries d p f badGroups run true as
      else if !a.good (isFabricPort p) badGroups then
        (nak s lRxCheckFailed).takeEntries d p f badGroups run true as
      else if a.seq = l.rxSeq then
        let s := s.modDie d fun x => (x.setLink p { l with
          rxSeq := l.rxSeq + 1, acked := true, nak := false }).lbump p lRxAccepted
        if a.entry.code = .control then
          (s.modDie d (·.acceptControl p a.entry.payload)).takeEntries d p f badGroups after false as
        else (s.acceptData d p f run a).takeEntries d p f badGroups after false as
      else if 2 ^ 23 ≤ (a.seq - l.rxSeq).toNat then
        (s.modDie d (·.lbump p lRxDuplicate)).takeEntries d p f badGroups after false as
      else (nak s lRxOutOfOrder).takeEntries d p f badGroups run false as

/-! ## Acknowledgement and replay (R358 to R361) -/

/-- The cause 0x4 of the link is over: the egress has caught up and its last delayed flit is
acknowledged. -/
def Link.settle (l : Link) : Link :=
  let waits := match l.lastDelayed with
    | some q => (l.buffer ++ l.spill).any fun e => e.seq == q
    | none => false
  if l.causeOpen && !l.replaying && !waits then
    { l with causeOpen := false, toRaise := false, lastDelayed := none }
  else l

/-- Entries that an ACK covers leave the buffer and the spill region. DESIGN CHOICE: those that a replay has
begun to send again stay on the late path and leave (R359, log 76). -/
def Link.ack (l : Link) (a : BitVec 24) : Link :=
  let open' := fun (e : TxEntry) => decide (2 ^ 23 ≤ (a - e.seq).toNat)
  ({ l with buffer := l.buffer.filter open', spill := l.spill.filter open' }).settle

/-- Starts a replay of every unacknowledged entry, before the flits that wait for the late path; in one slot only
one starts (R359, log 76). Entries in the spill region are read back before they leave (R362). -/
def State.startReplay (s : State) (d p : Nat) (first : BitVec 24) : State :=
  let x := s.die d
  let l := x.link p
  let again := fun (spilled : Bool) (es : List TxEntry) => es.map fun e : TxEntry =>
    ({ entry := e, again := true, catchUp := true, src := 4, spilled := spilled } : Waiting)
  let rest := (l.late.filter (!·.again)).map fun w => { w with catchUp := true }
  if (l.spill ++ l.buffer).isEmpty || l.replayAt == some x.timeNs then s
  else
    s.modDie d fun x =>
      ((x.setLink p { l with late := again true l.spill ++ again false l.buffer ++ rest
                             replayFrom := some first, replayAt := some x.timeNs }).lbump p
        lReplays).linkHold d p

/-- A NAK with ACK `a` (R359). -/
def State.nakIn (s : State) (d p : Nat) (a : BitVec 24) : State :=
  let x := s.die d
  let l := x.link p
  let same := l.replayFrom == some (a + 1)
  if same && (l.late.any (·.again) || decide (x.timeNs < l.nakQuietUntil)) then s
  else s.startReplay d p (a + 1)

/-- A credit update (R388). DESIGN CHOICE: indices 12 to 14, which name no counter and are not the unused 0xF, are
counted as ignored updates (log 82). -/
def Die.creditIn (x : Die) (p : Nat) (v : Nat) : Die :=
  let i := v / 2 ^ 12
  let n := BitVec.ofNat 12 v
  if i = 15 then x
  else
    let l := x.link p
    let c := l.credit i
    if i < 12 ∧ (n - c.ret).toNat ≤ (c.used - c.ret).toNat then
      x.setLink p { l with credits := tput l.credits i { c with ret := n } }
    else x.lbump p lCreditIgnored

/-- ACK, NAK and the credit updates of a good control field act. -/
def State.fieldIn (s : State) (d p : Nat) (v : BitVec 116) : State :=
  let a := BitVec.ofNat 24 (bitsOf v 47 24)
  let s := if bitOf v 48 then s.modDie d (·.modLink p (·.ack a)) else s
  let s := if bitOf v 49 then s.nakIn d p a else s
  s.modDie d fun x => (x.creditIn p (bitsOf v 65 50)).creditIn p (bitsOf v 81 66)

/-- The number of a frame's first sequenced entry: BASE, or the expected number where the control field fails its
CHECK (R356). -/
def Frame.first (g : Frame) (fabric : Bool) (expected : BitVec 24) : BitVec 24 :=
  if fieldGood fabric g.control then BitVec.ofNat 24 (bitsOf g.control 23 0) else expected

/-- What a frame that arrived does, once FEC has passed it on: its control field, then its entries. -/
def State.frameIn (s : State) (d p : Nat) (f : RxFrame) (g : Frame) : State :=
  let fabric := isFabricPort p
  let s := if fieldGood fabric g.control then s.fieldIn d p g.control
    else s.modDie d (·.lbump p lControlFailed)
  let first := g.first fabric ((s.die d).link p).rxSeq
  s.takeEntries d p f (badGroups fabric g first) none false (placeEntries first g.headers g.entries)

/-- A frame arrives on an active link (R344 to R363). Symbols that it carries are commands of their
own. -/
def execFrameReceived (d : DieId) (port : Fin 32) (f : RxFrame) (s : State) : Out :=
  let d := d.val
  let p := port.val
  let x := s.die d
  if x.inReset || !hasPort d p || !x.linkActive d p then .next s
  else
    let (g, corrected, bad) := readFrame (isFabricPort p) f.bits
    let s := if isFabricPort p then
        s.modDie d fun x => (x.lbump p lFecCorrected corrected).lbump p lFecUncorrectable bad
      else s
    .next (s.frameIn d p f g)

/-- The oldest unacknowledged entry has waited too long (R359). -/
def execReplayTimeout (d : DieId) (port : Fin 32) (s : State) : Out :=
  let d := d.val
  let p := port.val
  let x := s.die d
  let l := x.link p
  match l.spill ++ l.buffer with
  | [] => .next s
  | e :: _ =>
    if x.inReset || !x.linkActive d p then .next s
    else .next ((s.modDie d (·.lbump p lReplayTimeouts)).startReplay d p e.seq)

/-- Entries that the spill region of a fabric port holds (R362). -/
abbrev spillSize : Nat := 4194304

/-- The oldest entries of a full replay buffer move to the spill region, as far as its port and the memory can take
them in the slot (R362, R410, R419). -/
def execSpillMove (d : DieId) (port : Fin 32) (n : Nat) (s : State) : Out :=
  let d := d.val
  let p := port.val
  let x := s.die d
  let l := x.link p
  if x.inReset || !isFabricPort p || !hasPort d p || l.buffer.length < bufferSize p then .next s
  else
    let most := min (min n (spillSize - l.spill.length)) (x.spillRoom d p)
    let es := (l.buffer.take most).takeWhile fun e => !x.inBlackout (memGroup d (spillUnit d p e.seq))
    let k := es.length
    if k = 0 then .next s
    else
      let x := es.foldl (fun x e => x.writeUnit (spillUnit d p e.seq) e.payload) (x.spillUse p k)
      .next (s.setDie d ((x.modLink p fun l => { l with
        buffer := l.buffer.drop k, spill := l.spill ++ es }).lbump p lSpilled k))

end Sys2Proof.Machine
end

