-- ==== Sys2Proof/Machine/Training.lean ====
section
/-! DEFINITION. The state of a link: symbol lock, training phases, full link resets (R366 to
R373, R395 to R397). -/

namespace Sys2Proof

/-- A stamp in sixteenths of a nanosecond. -/
def Stamp.total (t : Stamp) : Nat := t.sec.toNat * Machine.second * 16 + t.sixteenths

/-- The delay that a measurement gives, in quarter nanoseconds: half the round trip less the far end's turnaround
(R374, R397). DESIGN CHOICE: rounded down (log 82). -/
def Measure.delay (m : Measure) : Nat :=
  ((m.decoded.total + m.farDecoded.total - m.start.total - m.farStart.total) / 2 / 4) % 2 ^ 24

/-- The stamps that this end takes and sends to the far end (R374). -/
def Measure.own (m : Measure) : Stamp × Stamp := (m.start, m.decoded)

end Sys2Proof

namespace Sys2Proof.Machine

/-! ## STATE and PHASE (R396) -/

abbrev stDown : Nat := 0
abbrev stTraining : Nat := 1
abbrev stFull : Nat := 2
abbrev stReduced : Nat := 3
abbrev stDisabled : Nat := 4

def Die.linkState (x : Die) (d p : Nat) : Nat := x.lfield d p lStatus 31 29

def Die.linkPhase (x : Die) (d p : Nat) : Nat := x.lfield d p lStatus 28 26

def Die.setLinkState (x : Die) (d p st phase : Nat) : Die :=
  (x.setLField d p lStatus 31 29 st).setLField d p lStatus 28 26 phase

/-! ## Entering phase 0 (R371, R372) -/

/-- Control packets of which flits have still to be sent, or acknowledged. -/
def heldControl (l : Link) : List ControlPacket :=
  let held := ((l.spill ++ l.buffer).filter (·.code == .control)).map (·.head)
  let heads := if l.txLeft = 0 then held else held ++ [l.txHead]
  heads.eraseDups.map fun h => { header := h, data := [] }

/-- What comes after the flits of a packet of which an ingress will receive no more: zeros, with which its CHECK
fails (R379). DESIGN CHOICE: the spec leaves open what becomes of a packet that is cut off (log 78). -/
def Link.padControl (l : Link) (src : Nat) : Link :=
  let pad := fun (n : Nat) (fs : List Flit) => fs ++ List.replicate (n - fs.length) 0
  { l with
    txControl := if l.txSrc = src then pad l.txLeft l.txControl else l.txControl
    ctl := l.ctl.map fun c =>
      if c.src = src then { c with pkt := { c.pkt with data := pad (cDlen c.pkt) c.pkt.data } } else c }

/-- What a link discards: entries of its buffer and spill region, and flits that wait for its
egress (R371). -/
def Link.discarded (l : Link) : Nat :=
  l.buffer.length + l.spill.length
    + (l.late.filter fun w => !w.again && w.entry.code != .control).length

/-- A link enters phase 0 and goes on to state `st`: what it holds is discarded, its requests are
answered, and a running slice stops (R371, R372). -/
def State.enterPhase0 (s : State) (d p st : Nat) : State :=
  let x := s.die d
  let l := x.link p
  let requests := (heldControl l).filter fun q => cpRequest (cpHeader q)
  let queued := l.ctl.map (·.pkt)
  let slice := bitOf (x.lreg d p lCtrl) 0 && x.jobOn d
  let kind := if bitOf (x.lreg d p lStatus) 25 then 0x34 else 0x35
  let x := match l.cut with
    | some e => if e < 32 then x.modLink e (·.padControl p) else x
    | none => x
  let x := (x.setLink p Link.reset).lbump p lDiscarded l.discarded
  let x := (x.setLinkState d p st 0).setLField d p lStatus 7 0 0
  let x := x.setReg (rLink + 0x200 * p + lDelay) 0
  let s := s.setDie d x
  let s := (requests ++ queued).foldl (fun s q => s.cpError d q 6) s
  if slice then s.dieFault d kind (stopDetailAt p 0 0) else s

/-- A full link reset: one of the events of R368. -/
def State.resetLink (s : State) (d p : Nat) : State :=
  (s.enterPhase0 d p stTraining).modDie d (·.lbump p lRetrains)

/-! ## Symbol lock (R369) -/

def execSymbolLockLost (d : DieId) (port : Fin 32) (s : State) : Out :=
  let d := d.val
  let p := port.val
  let x := s.die d
  if x.inReset || !hasPort d p || !x.linkActive d p || (x.link p).lockLostAt.isSome then .next s
  else .next (s.modDie d fun x => x.modLink p fun l => { l with lockLostAt := some x.timeNs })

def execSymbolLockReturned (d : DieId) (port : Fin 32) (s : State) : Out :=
  let d := d.val
  let p := port.val
  let x := s.die d
  if x.inReset || !x.linkActive d p then .next s
  else .next (s.modDie d (·.modLink p fun l => { l with lockLostAt := none }))

/-- Lock stayed lost for LNK_DOWN_TIME (R369). -/
def execLinkDown (d : DieId) (port : Fin 32) (s : State) : Out :=
  let d := d.val
  let p := port.val
  let x := s.die d
  if x.inReset || !x.linkActive d p || !(x.link p).lockLostAt.isSome then .next s
  else
    let s := s.modDie d (·.lbump p lLinkDowns)
    let s := s.logEvent d 0x50 (BitVec.ofNat 64 p)
    .next (s.resetLink d p)

/-! ## Training (R366, R367, R370, R374) -/

/-- Beats that a frame spans: 1 at 8 lanes and 400 Gbit/s (R370). -/
def Die.trainedSpan (x : Die) (d p : Nat) (far : FarEnd) : Nat :=
  let ctrl := x.lreg d p lCtrl
  let lanes8 := far.lanes8 && !bitOf ctrl 27 && x.lfield d p lStatus 7 0 == 0xFF
  let speed := far.speed400 && !bitOf ctrl 26
  if !isFabricPort p then 1
  else if lanes8 && speed then 1
  else if lanes8 || speed then 2
  else 4

/-- The credit advertisements of the far end (R367, R388, R394). -/
def Die.advertise (x : Die) (p : Nat) (adv : List (BitVec 12)) : Die :=
  let x := x.modLink p fun l => { l with
    credits := (List.range 12).map fun i => (i, { Credit.reset with adv := adv.getD i 0 }) }
  (List.range 6).foldl (fun x i =>
    x.setReg (rLink + 0x200 * p + lCreditAdv + 4 * i)
      (BitVec.ofNat 64 ((adv.getD (2 * i) 0).toNat + (adv.getD (2 * i + 1) 0).toNat * 2 ^ 16))) x

/-- The counts of credits that an ingress advertises: headers and data flits of each class, on VC0 and on VC1 (R387). -/
def ownCredits (p : Nat) : List (BitVec 12) :=
  let vc := fun (h n : BitVec 12) => [h, n, h, n, h, n]
  if isFabricPort p then vc 256 1024 ++ vc 8 32 else vc 16 64 ++ vc 4 16

/-- What a die sends in phase 4 (R367). -/
def Die.ownEnd (x : Die) (d p : Nat) : FarEnd :=
  let ctrl := x.lreg d p lCtrl
  { moduleNum := BitVec.ofNat 10 (x.moduleNum d), localDie := BitVec.ofNat 6 d, portCode := BitVec.ofNat 6 p
    isEDie := isEDie d, lanes8 := !bitOf ctrl 27, speed400 := !bitOf ctrl 26, credits := ownCredits p }

/-- Phase 4 ends: what the far end sent (R367). -/
def Die.exchanged (x : Die) (d p : Nat) (far : FarEnd) : Die :=
  let x := x.advertise p far.credits
  let x := x.modLink p fun l => { l with span := x.trainedSpan d p far
                                         farLocal := some far.localDie }
  if isFabricPort p then
    x.setReg (rEgress + 0x80 * p + 0x38) (BitVec.ofNat 64 (2 ^ 31 + far.moduleNum.toNat))
  else x

/-- LNK_DELAY reports the mean of the last 64 measurements (R374). DESIGN CHOICE: a measurement and the mean are rounded
down to 0.25 ns (log 82). -/
def Die.measured (x : Die) (p : Nat) (ds : List Nat) : Die :=
  let last := ds.take 64
  let mean := if last.isEmpty then 0 else last.foldl (· + ·) 0 / last.length
  (x.modLink p fun l => { l with delays := last }).setReg (rLink + 0x200 * p + lDelay)
    (BitVec.ofNat 64 (2 ^ 31 + mean % 2 ^ 24))

/-- Phase 5 ends: the link is active, and a fabric port's replay timeout is the measured round trip
plus 64 ns (R394). -/
def Die.activate (x : Die) (d p : Nat) (ms : List Measure) : Die :=
  let x := x.measured p (ms.map (·.delay)).reverse
  let delay := (x.lreg d p lDelay).toNat % 2 ^ 24
  let x := if isFabricPort p then
      x.setReg (rLink + 0x200 * p + lReplayTimeout)
        (BitVec.ofNat 64 (min ((2 * delay + 3) / 4 + 64) (2 ^ 24 - 1)))
    else x
  x.setLinkState d p (if (x.link p).span = 1 then stFull else stReduced) 0

/-- Fabric-port transmitters may run: the latch TX_ACCEPT (R567). -/
def State.txOn (s : State) : Bool := bitOf (s.cfg cBootStatus) 21

/-- A port's transmitter is held off (R567). -/
def State.heldOff (s : State) (p : Nat) : Bool := isFabricPort p && !s.txOn

/-- A phase completes (R366). -/
def execTrainingPhaseComplete (d : DieId) (port : Fin 32) (r : PhaseResult) (s : State) : Out :=
  let d := d.val
  let p := port.val
  let x := s.die d
  if x.inReset || !hasPort d p || x.linkState d p != stTraining || s.heldOff p then .next s
  else
    let goPhase := fun (x : Die) (n : Nat) => x.setLinkState d p stTraining n
    let heard := fun (x : Die) => x.setLField d p lStatus 25 25 0
    match x.linkPhase d p, r with
    | 0, .plain => .next (s.setDie d (goPhase x 1))
    | 1, .lanes lock =>
      if isFabricPort p then
        .next (s.setDie d (goPhase ((heard x).setLField d p lStatus 7 0 lock.toNat) 2))
      else .next s
    | 1, .plain => if isFabricPort p then .next s else .next (s.setDie d (goPhase (heard x) 3))
    | 2, .plain => .next (s.setDie d (goPhase x 3))
    | 3, .plain => .next ((s.setDie d (goPhase x 4)).emit (.exchange d p (x.ownEnd d p)))
    | 4, .exchange far => .next (s.setDie d (goPhase (x.exchanged d p far) 5))
    | 5, .measure ms =>
      .next (if ms.length = 64 then (s.setDie d (x.activate d p ms)).emit (.stamps d p (ms.map (·.own))) else s)
    | _, _ => .next s

/-- A phase exceeds its limit: phase 0, and the link is down until training restarts (R366). A fabric port that hears
nothing from its far end stays in phase 1 (R373). -/
def execTrainingPhaseTimeout (d : DieId) (port : Fin 32) (s : State) : Out :=
  let d := d.val
  let p := port.val
  let x := s.die d
  if x.inReset || !hasPort d p || x.linkState d p != stTraining then .next s
  else
    let phase := x.linkPhase d p
    if isFabricPort p && phase == 1 && !(x.link p).heard then .next s else
    let s := s.modDie d fun x => (((x.modLink p fun l => { l with heard := false }).setLinkState d p stDown 0).setLField d p lStatus 7 0 0).lbump p
      lTrainFailures
    .next (s.logEvent d 0x51 (BitVec.ofNat 64 (p + phase * 2 ^ 8)))

/-- Training restarts (R366). -/
def execTrainingRestart (d : DieId) (port : Fin 32) (s : State) : Out :=
  let d := d.val
  let p := port.val
  let x := s.die d
  if x.inReset || !hasPort d p || x.linkState d p != stDown || s.heldOff p then
    .next s
  else .next (s.setDie d (x.setLinkState d p stTraining 0))

/-- The far end's training pattern: a full reset of an active link; in phases 0 to 5 it does nothing but show that
there is a far end (R368, R373). -/
def execTrainingPatternReceived (d : DieId) (port : Fin 32) (s : State) : Out :=
  let d := d.val
  let p := port.val
  let x := s.die d
  if x.inReset || !hasPort d p then .next s
  else if x.linkActive d p then .next (s.resetLink d p)
  else if x.linkState d p = stTraining then .next (s.modDie d (·.modLink p fun l => { l with heard := true }))
  else .next s

/-! ## LNK_CTRL (R368, R395, R399) -/

/-- A write of RETRAIN (R368). -/
def State.retrain (s : State) (d p : Nat) : State :=
  if (s.die d).linkActive d p then s.resetLink d p else s

/-- A write of DISABLE: the link is held in phase 0 with its transmitters idle, or it trains
(R395); a fabric port whose transmitters are off stays down (R563, R567). -/
def State.disable (s : State) (d p : Nat) (on : Bool) : State :=
  let s := s.modDie d (·.setLField d p lCtrl 30 30 on.toNat)
  let st := (s.die d).linkState d p
  if on then (if st = stDisabled then s else s.enterPhase0 d p stDisabled)
  else if st = stDisabled then s.modDie d (·.setLinkState d p (if s.heldOff p then stDown else stTraining) 0)
  else s

/-- A write of LNK_CTRL: fields, then DISABLE, then RETRAIN; CLASS and SLICE keep their values while
a job runs (R399). -/
def State.writeLinkCtrl (s : State) (d p : Nat) (v : W64) : State :=
  let x := s.die d
  let x := x.setLField d p lCtrl 27 26 (bitsOf v 27 26)
  let x := if x.jobOn d then x
    else (x.setLField d p lCtrl 18 16 (bitsOf v 18 16)).setLField d p lCtrl 0 0 (bitsOf v 0 0)
  let s := (s.setDie d x).disable d p (bitOf v 30)
  if bitOf v 31 then s.retrain d p else s

def execRetrain (d : DieId) (port : Fin 32) (s : State) : Out :=
  if (s.die d.val).inReset || !hasPort d.val port.val then .next s
  else .next (s.retrain d.val port.val)

def execDisable (d : DieId) (port : Fin 32) (on : Bool) (s : State) : Out :=
  if (s.die d.val).inReset || !hasPort d.val port.val then .next s
  else .next (s.disable d.val port.val on)

/-- The sideband reports that the far die is in reset (R373). -/
def execFarDieReset (d : DieId) (port : Fin 32) (s : State) : Out :=
  let d := d.val
  let p := port.val
  if (s.die d).inReset || !hasPort d p || isFabricPort p then .next s
  else .next (s.modDie d (·.setLField d p lStatus 25 25 1))

end Sys2Proof.Machine
end

