-- ==== Sys2Proof/Machine/Servo.lean ====
section
/-! DEFINITION. Fabric time: SET and steps (R493, R495), time exchanges (R496, R497), the comparison of
beats and holds (R498), the servo (R499 to R502) and its outside sources (R494, R503, R504). -/

namespace Sys2Proof.Machine

/-! ## The module's fabric time (R493, R495) -/

/-- A die's counter is loaded with a time in ns; its slot is the one that holds this time (R235). -/
def Die.setTime (x : Die) (total : Nat) : Die :=
  { x with sec := BitVec.ofNat 64 (total / second), ns := total % second / 16 * 16 }

/-- A die's counter is loaded with a time in ns, which may fall inside a slot (R495). -/
def State.setClock (s : State) (d total : Nat) : State :=
  { s.modDie d (·.setTime total) with ticks := tput s.ticks d (total / 16, total % 16) }

/-- Every die's counter moves by the same amount at one tick (R501). DEDUCED: an action whose time the step passes is
performed at the first slot boundary after the step, since every action begins with a slot (R259, R506, log 2). -/
def State.stepTime (s : State) (delta : Int) : State :=
  let low := allDies.foldl (fun n d => max n (s.tickLow d)) 0
  let tick := low + Config.freeTick s.fz % (16 - low)
  s.used.onDies allDies fun s d => s.setClock d (((s.die d).timeNs + tick : Nat) + delta).toNat

/-- A job runs on some die of the module. -/
def State.anyJob (s : State) : Bool := allDies.any fun d => (s.die d).jobOn d

/-! ## The servo's registers on E-die 32 (R517, R518) -/

abbrev d32 : Nat := 32

abbrev svFreeRun : Nat := 0
abbrev svAcquiring : Nat := 1
abbrev svLocked : Nat := 2
abbrev svHoldover : Nat := 3

def State.servoState (s : State) : Nat := (s.die d32).field d32 rServoStatus 31 30

def State.source (s : State) : Nat := (s.die d32).field d32 rServoCtrl 29 28

def State.setServoState (s : State) (v : Nat) : State :=
  s.modDie d32 (·.setField d32 rServoStatus 31 30 v)

def State.modServo (s : State) (f : Servo → Servo) : State := { s with servo := f s.servo }

/-- Adds to a counter of E-die 32. -/
def State.bump32 (s : State) (off : Nat) : State := s.modDie d32 (·.bump off)

/-- STEPS, GM_SOURCE and GM_MODULE that the module sends (R499). -/
def State.grandmaster (s : State) : Nat × Nat × Nat :=
  let x := s.die d32
  if s.source = 0 then
    (x.field d32 rServoStatus 24 21, x.field d32 rServoStatus 20 19, x.field d32 rServoStatus 18 9)
  else (0, s.source, s.moduleNum d32)

/-- TIME_SERVO_STATUS, which shows what the module sends (R518). -/
def State.servoStatus (s : State) : W64 :=
  let (steps, src, m) := s.grandmaster
  setBits (setBits (setBits (setBits ((s.die d32).reg d32 rServoStatus) 28 28 s.servo.ref10m.toNat) 24 21 steps)
    20 19 src) 18 9 m

/-! ## Holdover (R502) -/

/-- ppb on the servo's grid of 1/4096 ppb. -/
abbrev ppb : Int := 4096

/-- adj as TIME_SERVO_FREQ shows it in ppb: the spec does not say how it is rounded, so it is one of
the two nearest whole numbers (log 1). -/
def shownFreq (adj : Int) (free : W64) : Int :=
  if adj % ppb = 0 then adj / ppb else adj / ppb + (free.toNat % 2 : Nat)

/-- TIME_SERVO_FREQ shows adj (R516). -/
def State.showFreq (s : State) : State :=
  (s.modDie d32 (·.setReg rServoFreq
    (BitVec.ofNat 64 (BitVec.ofInt 32 (shownFreq s.servo.adj (Config.freeWord s.fz))).toNat))).used

/-- The servo enters HOLDOVER, with its cause. -/
def State.enterHoldover (s : State) (cause : Nat) : State :=
  let s := ((s.setServoState svHoldover).modServo fun v => { v with adj := v.acc, good := 0 }).showFreq
  let s := (s.modDie d32 (·.setField d32 rServoStatus 27 25 cause)).bump32 rHoldovers
  s.logEvent d32 0x61 (BitVec.ofNat 64 cause)

/-- A holdover event: in HOLDOVER already, the servo stays there (log 62). -/
def State.holdoverEvent (s : State) (cause : Nat) : State :=
  if s.servoState = svHoldover then s.modServo fun v => { v with good := 0 }
  else s.enterHoldover cause

/-! ## One sample (R501) -/

def clampInt (lo hi v : Int) : Int := max lo (min hi v)

/-- acc and adj follow a sample, which TIME_SERVO_OFFSET and TIME_SERVO_FREQ show. θ is in 1/16 ns,
so θ × KI / 256 is θ × KI on the grid. -/
def State.servoUpdate (s : State) (theta : Int) : State :=
  let x := s.die d32
  let kp : Int := x.field d32 rServoGain 31 16
  let ki : Int := x.field d32 rServoGain 15 0
  -- the PLL is trimmed by at most 50,000 ppb (R493)
  let slew : Int := (min (x.field d32 rServoCtrl 15 0) 50000 : Nat) * ppb
  let acc := clampInt (-50000 * ppb) (50000 * ppb) (s.servo.acc + theta * ki)
  let adj := clampInt (-slew) slew (acc + theta * kp)
  let x := (x.setReg rServoOffset (BitVec.ofNat 64 (BitVec.ofInt 32 theta).toNat)).bump rServoUpdates
  ((s.setDie d32 x).modServo fun v => { v with acc := acc, adj := adj }).showFreq

/-- A step of whole ns for a sample: the spec does not say how sixteenths are rounded (log 1). -/
def stepNs (theta : Int) (free : W64) : Int :=
  if theta % 16 = 0 then -(theta / 16) else -(theta / 16 + (free.toNat % 2 : Nat))

/-- The wait for a valid sample begins anew (R502). -/
def State.sampleSeen (s : State) : State := s.modServo fun v => { v with lastSample := (s.die d32).timeNs }

/-- The servo takes a valid sample of its source (R501, R502). -/
def State.servoSample (s : State) (theta : Int) : State :=
  let s := s.sampleSeen
  let jump : Int := (s.die d32).field d32 rJump 15 0 * 16
  let mag : Int := theta.natAbs
  if jump < mag then
    if s.servo.stepAllow && !s.anyJob then
      let locked := s.servoState = svLocked
      let s := (s.used.stepTime (stepNs theta (Config.freeWord s.fz))).sampleSeen.modServo fun v =>
        { v with stepAllow := false, good := 0 }
      if locked then s.setServoState svAcquiring else s
    else
      let s := (s.modDie d32 (·.setBit d32 rServoStatus 29 true)).bump32 rStepsRefused
      let s := s.logEvent d32 0x60 (BitVec.ofInt 64 theta)
      s.holdoverEvent 1
  else if s.servoState = svHoldover then
    let good := s.servo.good + 1
    if good < 64 then s.modServo fun v => { v with good := good }
    else (s.setServoState svAcquiring).modServo fun v => { v with good := 0 }
  else
    let s := s.servoUpdate theta
    if s.servoState = svAcquiring then
      let good := if mag ≤ 32 then s.servo.good + 1 else 0
      if good < 1024 then s.modServo fun v => { v with good := good }
      else
        let s := (s.setServoState svLocked).modServo fun v => { v with good := 0 }
        s.logEvent d32 0x62 (BitVec.ofNat 64 s.grandmaster.1)
    else if s.servoState = svLocked && decide (64 < mag) then
      (s.setServoState svAcquiring).modServo fun v => { v with good := 0 }
    else s

/-! ## Sending exchanges (R496) -/

/-- Fields of an exchange's data flit. -/
def xXseq (f : Flit) : Nat := bitsOf f 15 0
def xResent (f : Flit) : Bool := bitOf f 16
def xJob (f : Flit) : Bool := bitOf f 17
def xHeld (f : Flit) : Bool := bitOf f 18
def xHseq (f : Flit) : Nat := bitsOf f 31 24
def xJobNum (f : Flit) : Nat := bitsOf f 39 32
def xSteps (f : Flit) : Nat := bitsOf f 43 40
def xSource (f : Flit) : Nat := bitsOf f 45 44
def xModule (f : Flit) : Nat := bitsOf f 57 48
def xBeat (f : Flit) : Nat := bitsOf f 111 64
def xPrevTx (f : Flit) : Nat :=
  bitsOf f 191 128 * second * 16 + bitsOf f 221 192 * 16 + bitsOf f 227 224

/-- The data flit of the next exchange of a link. -/
def State.exchangeFlit (s : State) (d p : Nat) : Flit :=
  let x := s.die d
  let l := x.link p
  let job := x.jobOn d
  let (steps, src, m) := s.grandmaster
  BitVec.ofNat 512 (l.xseq.toNat + l.prevResent.toNat * 2 ^ 16 + job.toNat * 2 ^ 17
    + x.hold.slot.isSome.toNat * 2 ^ 18 + (decide (s.servoState = svLocked)).toNat * 2 ^ 19
    + x.hold.seq.toNat * 2 ^ 24 + (if job then x.job.num.toNat else 0) * 2 ^ 32
    + steps * 2 ^ 40 + src * 2 ^ 44 + m * 2 ^ 48
    + (if job then x.job.beat % 2 ^ 48 else 0) * 2 ^ 64
    + l.prevTx.sec.toNat * 2 ^ 128 + (l.prevTx.sixteenths / 16) * 2 ^ 192
    + (l.prevTx.sixteenths % 16) * 2 ^ 224)

/-- Die number at the far end of a link, as far as the die knows it. -/
def State.farNumber (s : State) (d p : Nat) : Nat :=
  match farOf d p with
  | some (e, _) => s.moduleNum d * 64 + e
  | none =>
    (s.die d).field d (rEgress + 0x80 * p + 0x38) 9 0 * 64
      + (((s.die d).link p).farLocal.elim 0 BitVec.toNat)

/-- The die queues an exchange on one link. -/
def State.sendExchange (s : State) (d p : Nat) : State :=
  let f := s.exchangeFlit d p
  let x := s.die d
  let c := cpPacket { dst := s.farNumber d p, src := s.dieNumber d, tc := 3,
                      epoch := x.field d rCpCtrl 0 0, dlen := 1, opcode := 0x40, tag := 0,
                      length := 64 } [f]
  s.setDie d (((x.modLink p fun l => { l with xseq := l.xseq + 1 }).cpJoin p cpSelf c false).bump
    rExchSent)

/-- The exchanges of a maintenance beat, one on each active link. -/
def State.sendExchanges (s : State) (d : Nat) : State :=
  (portsOf d).foldl (fun s p =>
    if (s.die d).linkActive d p then s.sendExchange d p else s) s

/-! ## The comparison (R498) -/

/-- ceil (D / 64) of a link. -/
def Die.compareSpan (x : Die) (d p : Nat) : Nat := (delayBeats (x.lfield d p lCtrl 18 16) p + 63) / 64

/-- What the comparison of one link finds: 0 passes, 1 is skipped, 2 diverges. -/
def Die.compareLink (x : Die) (d p : Nat) : Nat :=
  let c := x.compareSpan d p
  let ks : Int := (x.job.beat : Int) - 64 * c
  let inW := decide (x.job.ran < 64 * (c + 1))
  let found := (x.link p).exchanges.find? fun e =>
    !e.held && (!e.job || decide ((e.jobBeat : Int) ≤ ks))
  match found with
  | none => 1
  | some e =>
    let own := x.job.hist.find? fun h => (h.1 : Int) == ks
    if e.job && (e.jobBeat : Int) == ks
        && own.any (fun h => h.2.1 == e.hseq && h.2.2 == e.jobnum) then 0
    else if e.job && decide ((e.jobBeat : Int) < ks) then 1
    else if inW && (!e.job || own.any fun h => h.2.2 != e.jobnum) then 1
    else 2

/-- The die notes its own values of a job maintenance beat. -/
def Die.noteSelf (x : Die) : Die :=
  { x with job := { x.job with
      hist := ((x.job.beat, x.hold.seq, x.job.num) :: x.job.hist).take 64 } }

/-- The comparison of a job maintenance beat on every slice link. -/
def State.compareBeats (s : State) (d : Nat) : State :=
  let s := s.modDie d Die.noteSelf
  ((s.die d).sliceLinks d).foldl (fun s p =>
    match (s.die d).compareLink d p with
    | 0 => s.modDie d (·.bump rBeatChecks)
    | 1 => s.modDie d (·.bump rBeatSkipped)
    | _ => if (s.die d).stopped then s else s.dieFault d 0x33 (stopDetailAt p 0 0)) s

/-! ## Receiving exchanges (R497, R500) -/

/-- The role of fabric port `p` in the table that a version names (R500). -/
def State.role (s : State) (epoch : Bool) (p : Nat) : Nat :=
  bitsOf ((s.die d32).reg d32 (if epoch then rNbr1 else rNbr0)) (2 * p + 1) (2 * p)

/-- The lowest port marked master. -/
def State.masterPort (s : State) (epoch : Bool) : Option Nat :=
  (List.range 16).find? fun p => s.role epoch p == 2

/-- A monitored sample of fabric port `p` (its E-die is `d`): TIME_PORT_OFFSET and the alarm. -/
def State.monitored (s : State) (d p : Nat) (theta : Int) : State :=
  let off := rPortOffset + 4 * p
  let v := 2 ^ 31 + (BitVec.ofInt 24 theta).toNat
  let s := s.modDie d32 (·.setReg off (BitVec.ofNat 64 v))
  let x := s.die d
  if bitOf (x.lreg d (16 + p) lCtrl) 0 && decide (96 < theta.natAbs) then
    let s := s.bump32 rAlignAlarms
    let l := x.link (16 + p)
    let again := match l.alarmAt with
      | some m => decide (m + 2048 ≤ x.maintCount)
      | none => true
    if again then
      let s := s.modDie d (·.modLink (16 + p) fun l => { l with alarmAt := some x.maintCount })
      s.logEvent d32 0x64 (BitVec.ofNat 64 (16 + p + (BitVec.ofInt 32 theta).toNat * 2 ^ 32))
    else s
  else s

/-- An exchange of the master port while the source is the fabric tells who the master is and how far from its
grandmaster, whether or not its sample is discarded: in a loop STEPS rises to 15 (R499, R500, R502). -/
def State.noteMaster (s : State) (p steps src m : Nat) : State :=
  let changed := match s.servo.master with
    | some old => old != (p, m, src)
    | none => false
  let s := s.modServo fun v => { v with master := some (p, m, src) }
  let s := s.modDie d32 fun x =>
    ((x.setField d32 rServoStatus 24 21 (min (steps + 1) 15)).setField d32 rServoStatus 20 19
      src).setField d32 rServoStatus 18 9 m
  if changed then s.holdoverEvent 3 else s

/-- The number nearest to `own` whose low 48 bits are those of `low` (R234). -/
def nearest48 (own low : Nat) : Nat :=
  let c := own / 2 ^ 48 * 2 ^ 48 + low % 2 ^ 48
  if c + 2 ^ 47 < own then c + 2 ^ 48 else if own + 2 ^ 47 < c ∧ 2 ^ 48 ≤ c then c - 2 ^ 48 else c

/-- The exchanges that a comparison can still take, the newest first: those sent in a hold slot are not considered, and
one that stands before a later one of an earlier or the same job beat, or without a job, is never the last (R498). -/
def noteExchange (e : Exchange) (es : List Exchange) : List Exchange :=
  if e.held then es
  else e :: if e.job then es.filter fun a => !a.job || decide (a.jobBeat < e.jobBeat) else []

/-- A link hands a time exchange to its die; one whose CHECK fails is dropped (R379, R497, R498, R500). DEDUCED (log 42): TIME_PORT_OFFSET takes the samples of
monitored ports, not those of the master. -/
def execTimeExchangeReceived (d : DieId) (port : Fin 32) (epoch : Bool) (x : Flit) (arrival : Stamp)
    (s : State) : Out :=
  let d := d.val
  let p := port.val
  if (s.die d).inReset || !hasPort d p || !(s.die d).linkActive d p then .next s
  else
    let y := s.die d
    let l := y.link p
    let mine := fun (c : ControlPacket) => cField c 389 382 == 0x40 && c.data == [x]
    let packet := l.arrived.findSome? fun b => b.2.find? mine
    let l := match packet with
      | some c => l.takeArrived c
      | none => l
    if packet.any (!cpGood ·) then .next (s.setDie d ((y.setLink p l).bump rCpDropped)) else
    let e : Exchange := { jobBeat := nearest48 y.job.beat (xBeat x), hseq := BitVec.ofNat 8 (xHseq x)
                          jobnum := BitVec.ofNat 8 (xJobNum x), job := xJob x, held := xHeld x }
    let follows := match l.rxXseq with
      | some n => BitVec.ofNat 16 (xXseq x) == n + 1
      | none => false
    let delay := y.lreg d p lDelay
    let good := follows && !xResent x && bitOf delay 31 && xSteps x != 15
    let asym : Int := if isFabricPort p then
        sextInt 16 ((s.die d32).field d32 (rPortAsym + 4 * (p - 16)) 15 0)
      else 0
    let rx := l.rxStamp.sec.toNat * second * 16 + l.rxStamp.sixteenths
    let theta : Int := (rx : Int) - xPrevTx x - 4 * bitsOf delay 23 0 - asym
    let l := { l with
      rxXseq := some (BitVec.ofNat 16 (xXseq x)), rxStamp := arrival
      exchanges := noteExchange e l.exchanges }
    let s := s.setDie d (((y.setLink p l).bump rExchRecv).bump rCpDelivered)
    let master := isFabricPort p && !(s.die d32).inReset && s.role epoch (p - 16) == 2
      && s.masterPort epoch == some (p - 16) && s.source == 0
    let s := if master then s.noteMaster (p - 16) (xSteps x) (xSource x) (xModule x) else s
    if !good then .next (s.modDie d (·.bump rSamplesDisc))
    else if master then .next (s.servoSample theta)
    else if isFabricPort p && !(s.die d32).inReset && s.role epoch (p - 16) == 1 then
      .next (s.monitored d (p - 16) theta)
    else .next s

/-! ## IEEE 1588 (R503) -/

/-- Value of a setting in a table, or the default in the record as delivered (R553, R594). -/
def settingOf (t : Table W64) (n : Nat) : W64 :=
  match tget t n with
  | some v => v
  | none => if n = 6 then 0 else Config.settingDefault n

/-- The domain number in force (R503, R553, R594). -/
def State.ptpDomain (s : State) : Nat := (settingOf s.mgmt.inForce 2).toNat % 256

/-- The module's clock takes the message: E-die 32 runs, and the domain is its own (R503). -/
def State.ptpTakes (s : State) (domain : Byte) : Bool := !(s.die d32).inReset && s.ptpDomain == domain.toNat

/-- Mean path delay, in 1/16 ns: half of what a Sync and a Delay_Req took together. PRESUMED: the default calculation of
IEEE 1588; rounded down, DESIGN CHOICE (R503, log 14). -/
def ptpMean (origin arrival reqTx reqRx : Stamp) : Int :=
  (((arrival.total : Int) - reqTx.total) + ((reqRx.total : Int) - origin.total)) / 2

/-- The offset of a Sync, in 1/16 ns: what it took less the mean path delay (R503, log 14). -/
def ptpTheta (origin arrival : Stamp) (delay : Int) : Int := (arrival.total : Int) - origin.total - delay

/-- Passes the offset of the Sync that waits to the servo, once its origin and a path delay are known. -/
def State.ptpOffer (s : State) : State :=
  match s.servo.ptpSync, s.servo.ptpDelay with
  | some (_, arrival, some origin), some delay =>
    let s := s.modServo fun v => { v with ptpSync := none }
    if s.source = 1 then s.servoSample (ptpTheta origin arrival delay) else s
  | _, _ => s

/-- A Sync whose origin is known waits for its offset. -/
def State.ptpKnown (s : State) (q : BitVec 16) (origin arrival : Stamp) : State :=
  s.modServo fun v => { v with ptpSync := some (q, arrival, some origin), ptpLast := some (origin, arrival) }

/-- A Sync on the management port; a one-step Sync carries its origin. -/
def execPtpSyncReceived (oneStep : Bool) (id : PtpId) (origin arrival : Stamp) (s : State) : Out :=
  if !s.ptpTakes id.domain then .next s
  else if oneStep then .next (s.ptpKnown id.seq origin arrival).ptpOffer
  else .next (s.modServo fun v => { v with ptpSync := some (id.seq, arrival, none) })

def execPtpFollowUpReceived (id : PtpId) (origin : Stamp) (s : State) : Out :=
  match s.servo.ptpSync with
  | some (n, arrival, none) =>
    if n = id.seq && s.ptpTakes id.domain then .next (s.ptpKnown id.seq origin arrival).ptpOffer else .next s
  | _ => .next s

/-- A Delay_Resp ends a delay exchange. -/
def execPtpDelayRespReceived (domain : Byte) (x : DelayStamps) (s : State) : Out :=
  match s.servo.ptpLast with
  | some (origin, arrival) =>
    if s.ptpTakes domain then
      .next ((s.modServo fun v => { v with ptpDelay := some (ptpMean origin arrival x.reqTx x.reqRx) }).ptpOffer)
    else .next s
  | none => .next s

/-! ## 1PPS and 10 MHz (R494, R504) -/

def execPpsInEdge (arrival : Stamp) (s : State) : Out :=
  if s.source ≠ 2 ∨ (s.die d32).inReset then .next s
  else
    let n : Int := arrival.sixteenths
    let n := if 500000000 * 16 ≤ n then n - second * 16 else n
    .next (s.servoSample (n - (s.die d32).field d32 rPpsCtrl 15 0 * 16))

/-- E-die 32 is off in P3, where the germ keeps fabric time, registers and 1PPS output (R495, R540). -/
def State.germOnly (s : State) : Bool :=
  s.germ.rails == .on && (s.die d32).inReset && (s.die d32).field d32 rPwrStatus 31 29 == 3

/-- Fabric time crosses a whole second: the slot of E-die 32 begins with one; in P3 the germ's time goes on to the next
one (R504, R540). The 1PPS output rises if it is enabled. -/
def execPpsOutSecond (s : State) : Out :=
  let x := s.die d32
  let rise := fun (s : State) =>
    (s.modServo fun v => { v with ppsHigh := true, ppsAt := (s.die d32).timeNs }).emit (.pps true)
  if !bitOf (x.reg d32 rPpsCtrl) 31 then .next s
  else if s.germOnly then .next (rise (s.setClock d32 ((x.timeNs / second + 1) * second)))
  else if x.inReset || x.ns != 0 || s.servo.ppsHigh then .next s
  else .next (rise s)

/-- The 1PPS output falls WIDTH_MS milliseconds after it rose (R504). -/
def execPpsOutPulseEnd (s : State) : Out :=
  let x := s.die d32
  let fall := s.servo.ppsAt + x.field d32 rPpsCtrl 23 16 * 1000000
  if s.servo.ppsHigh && (s.germOnly || decide (fall ≤ x.timeNs) || decide (x.timeNs < s.servo.ppsAt)) then
    .next ((s.modServo fun v => { v with ppsHigh := false }).emit (.pps false))
  else .next s

/-- The 10 MHz reference is gained or lost (R494). -/
def execReference10mChange (present : Bool) (s : State) : Out :=
  if s.servo.ref10m = present then .next s
  else
    let s := s.modServo fun v => { v with ref10m := present }
    let s := s.modDie d32 (·.setBit d32 rServoStatus 28 present)
    .next (s.logEvent d32 0x63 (BitVec.ofNat 64 present.toNat))

/-! ## Commands to the servo -/

/-- Time in ns without a valid sample after which the source is lost (R502). -/
def sourceWait (source : Nat) : Nat := if source = 0 then 2000000 else 2 * second

/-- No valid sample of the source in time (R502). -/
def execServoSourceLost (s : State) : Out :=
  if s.source = 3 ∨ s.servoState = svFreeRun ∨ (s.die d32).inReset
      ∨ (s.die d32).timeNs < s.servo.lastSample + sourceWait s.source then .next s
  else .next (s.holdoverEvent 2)

/-- A write of SET (R495). -/
def State.setTimeNow (s : State) : State :=
  if s.anyJob then s.bump32 rStepsRefused
  else
    let x := s.die d32
    let total := (x.reg d32 rSetSec).toNat * second + x.field d32 rSetNs 29 0
    let s := (s.onDies allDies fun s d => s.setClock d total).sampleSeen
    if s.source = 3 then s.setServoState svFreeRun
    else (s.setServoState svAcquiring).modServo fun v => { v with good := 0 }

/-- A write of SOURCE (R502); a write of the value that stands changes no state. -/
def State.writeSource (s : State) (v : Nat) : State :=
  if v = s.source then s
  else
    let st := s.servoState
    let s := s.modDie d32 (·.setField d32 rServoCtrl 29 28 v)
    let s := s.sampleSeen.modServo fun w => { w with master := none, good := 0 }
    if v = 3 then s.setServoState svFreeRun
    else if st = svFreeRun ∨ st = svAcquiring then s.setServoState svAcquiring
    else s.enterHoldover 4

/-- A write of STEP_ALLOW (R501). -/
def State.allowStep (s : State) : State := s.modServo fun v => { v with stepAllow := true }

/-- A write of TIME_SERVO_CTRL: SLEW_MAX and SOURCE, then SET and STEP_ALLOW (R517). -/
def State.writeServoCtrl (s : State) (v : W64) : State :=
  let s := s.modDie d32 (·.setField d32 rServoCtrl 15 0 (bitsOf v 15 0))
  let s := s.writeSource (bitsOf v 29 28)
  let s := if bitOf v 30 then s.setTimeNow else s
  if bitOf v 31 then s.allowStep else s

def execSet (s : State) : Out :=
  if (s.die d32).inReset then .next s else .next s.setTimeNow

def execStepAllow (s : State) : Out :=
  if (s.die d32).inReset then .next s else .next s.allowStep

def execSourceWrite (source : BitVec 2) (s : State) : Out :=
  if (s.die d32).inReset then .next s else .next (s.writeSource source.toNat)

end Sys2Proof.Machine
end

