-- ==== Sys2Proof/Machine/Snapshot.lean ====
section
/-! DEFINITION. Snapshots (R508 to R511, R519, R520). -/

namespace Sys2Proof.Machine

/-! ## The latch on one die (R509, R510) -/

/-- The cumulative and per-batch counters among stored registers. -/
def countersOf (info : Nat → Option RegInfo) (batch : Nat → Bool) (regs : Table W64) : Table W64 :=
  regs.filter fun e => (info e.1).any (·.counter) || batch e.1

/-- The readable per-batch registers of an E-die (R485). -/
def isBatchReg (d off : Nat) : Bool := isEDie d && decide (rBatchFilled ≤ off) && decide (off ≤ rBatchOvf)

/-- The interval registers of an egress and its link are latched and their live copies cleared (R337,
R338, R398). -/
def Die.latchPort (x : Die) (p : Nat) : Die :=
  let i := tgetD x.interval p Interval.reset
  let e := rEgress + 0x80 * p
  let x := x.setReg (e + 0x3C) (BitVec.ofNat 64 (i.peakHeaders * 2 ^ 16 + i.peakTimes))
  let x := (List.range 4).foldl (fun x w =>
    x.setReg (e + 0x40 + 8 * w) (BitVec.ofNat 64 (i.occ.toNat >>> (64 * w)))) x
  x.setReg (rLink + 0x200 * p + lStarveMap) (BitVec.ofNat 64 i.starved.toNat)

/-- The snapshot on one die. -/
def Die.snapshot (x : Die) (d : Nat) : Die :=
  let x := { x with
    shadows := countersOf (dieReg d) (isBatchReg d) x.regs
    tiles := tmap (fun _ y => { y with shadows := y.counters }) x.tiles }
  let x := { (portsOf d).foldl Die.latchPort x with interval := [] }
  let x := x.setReg rSnapBeat (BitVec.ofNat 64 (x.job.beat % 2 ^ 48))
  let seq := (x.field d rSnapCtrl 15 0 + 1) % 2 ^ 16
  x.setReg rSnapCtrl (BitVec.ofNat 64 (2 ^ 30 + (if isEDie d then 0 else 2 ^ 29)
    + x.hold.slot.isSome.toNat * 2 ^ 28 + seq))

/-- The counters of a port's BAR0 block, those of the module's CFG_ block among them, go into their shadows (R509,
R569). -/
def HostPort.snapshot (h : HostPort) (cfg : Table W64) : HostPort :=
  { h with shadows := countersOf bar0Reg (fun _ => false) (h.regs ++ cfg.filter (isCfg ·.1)) }

/-- Byte offset in the LPDDR5X window of the context counters' copy (R511, log 63). -/
def ctxShadowOff (e : Nat) : Nat := regionOff e 0

/-- The context counters as they are now go to the copy in memory (R511, log 64). -/
def Die.copyCounters (x : Die) (e : Nat) : Die :=
  let base := ctxShadowOff e
  let clear := x.mem.cells.filter fun c => decide (c.1 < base) || decide (base + 48 * 32768 ≤ c.1)
  let cells := x.ctx.records.foldl (fun m r =>
    Mem.writeBytes m (base + 48 * r.1) r.2.counterBytes) clear
  { x with mem := { x.mem with cells := cells } }

/-! ## The command SNAPSHOT (R508) -/

/-- Snapshot time of a SNAPSHOT descriptor in ns (R468). -/
def snapTime (c : Desc) : Nat := bitsOf c.args 63 0 * second + bitsOf c.args 93 64

/-- Arms a snapshot on a die (R519). -/
def Die.armSnapshot (x : Die) (d sec ns : Nat) : Die :=
  let x := (x.setReg rSnapSec (BitVec.ofNat 64 sec)).setReg rSnapNs (BitVec.ofNat 64 (ns % 2 ^ 30))
  x.setReg rSnapCtrl (setBits (setBits (x.reg d rSnapCtrl) 31 31 1) 30 29 0)

/-- A SNAPSHOT command that a die has still to take its part in: to take the snapshot, and an E-die to copy its
counters (R508, R511). -/
def SnapJob.awaits (j : SnapJob) (d : Nat) : Bool :=
  j.armed && !j.out.contains d && (!j.taken.contains d || (isEDie d && !j.copied.contains d))

/-- The snapshot of the command is armed and not yet taken by every die that can (R508). -/
def SnapJob.pending (j : SnapJob) : Bool :=
  j.armed && !allDies.all fun d => j.out.contains d || j.taken.contains d

/-- Arms the first SNAPSHOT command that waits, once the one before it has been taken, or ends it with status 0x01 when
its time is too near, and goes on with the next (R508). -/
def State.armSnaps (s : State) : Nat → State
  | 0 => s
  | fuel + 1 =>
    match (if s.snaps.any (·.pending) then none else s.snaps.find? (!·.armed)) with
    | none => s
    | some j =>
      let t := bitsOf j.desc.args 63 0
      let ns := bitsOf j.desc.args 93 64
      if snapTime j.desc < s.nowNs d32 + 100000 then
        ((({ s with snaps := removeFirst (· == j) s.snaps }).timed d32).complete j.cmd 1).armSnaps fuel
      else
        let out := allDies.filter fun d => (s.die d).inReset
        let s := s.timed d32
        let s := s.onDies allDies fun s d => if (s.die d).inReset then s else s.modDie d (·.armSnapshot d t ns)
        { s with snaps := s.snaps.map fun a => if a == j then { j with armed := true, out := out } else a }

/-- SNAPSHOT commands complete of which every die has taken the snapshot and every E-die has copied its counters, but for
the dies that miss it; then the next is armed (R508, R511). -/
def State.checkSnaps (s : State) : State :=
  let ready := fun (j : SnapJob) => j.armed && allDies.all fun d => !j.awaits d
  let s := (s.snaps.filter ready).foldl (fun s j =>
    ({ s with snaps := removeFirst (· == j) s.snaps }).complete j.cmd (if j.out.isEmpty then 0 else 0x0C)) s
  s.armSnaps (s.snaps.length + 1)

/-- The first command that awaits something of the die changes by it. -/
def State.snapStep (s : State) (awaits : SnapJob → Bool) (f : SnapJob → SnapJob) : State :=
  match s.snaps.find? awaits with
  | some j => { s with snaps := s.snaps.map fun a => if a == j then f j else a }
  | none => s

/-- Performs a SNAPSHOT command: it is armed, or waits while an earlier one is armed and not yet taken (R508). -/
def State.snapshotCommand (s : State) (cmd : CmdRef) (c : Desc) : State :=
  let j : SnapJob := ⟨cmd, c, false, [], [], []⟩
  { s with snaps := s.snaps ++ [j] }.armSnaps (s.snaps.length + 1)

/-! ## Batch boundaries (R474, R475) -/

/-- The batch that begins in a job beat. -/
def BatchSched.batchAt (b : BatchSched) (k : Nat) : Option Nat :=
  if b.bfirst ≤ k ∧ (k - b.bfirst) % b.bperiod = 0 then some ((k - b.bfirst) / b.bperiod) else none

/-- The schedule of the batch that an E-die runs. -/
def Die.batchSched (x : Die) : Option BatchSched := x.ctx.sched x.bank

/-- The batch whose boundary falls in the job beat that runs and has still to act. -/
def Die.batchDue (x : Die) (d : Nat) : Option Nat :=
  match x.batchSched with
  | none => none
  | some b =>
    if !x.inJobBeat d then none
    else (b.batchAt x.job.beat).filter fun j => !(x.ctx.started && (tgetD x.regs rBatchIndex 0).toNat == j)

/-! ## Commands -/

/-- A write of ARM (R519); while ARMED it is undefined (R520). -/
def execSnapshotArm (d : DieId) (s : State) : Out :=
  let d := d.val
  let x := s.die d
  if x.inReset then .next s
  else if x.bit d rSnapCtrl 31 then undef 520
  else .next (s.setDie d (x.armSnapshot d (x.reg d rSnapSec).toNat (x.field d rSnapNs 29 0)))

/-- Snapshot time of a die in ns. -/
def Die.snapAt (x : Die) (d : Nat) : Nat := (x.reg d rSnapSec).toNat * second + x.field d rSnapNs 29 0

/-- An armed snapshot falls in the die's slot, or its time has passed (R509). -/
def Die.snapDue (x : Die) (d : Nat) : Bool :=
  !x.inReset && x.bit d rSnapCtrl 31 && decide (x.snapAt d < x.timeNs + 16)

/-- A die takes its snapshot (R509). -/
def State.takeSnapshot (s : State) (d : Nat) : State :=
  let s := s.modDie d (·.snapshot d)
  let s := if isEDie d then s.modDie d (·.copyCounters d) else s
  let s := if d = 32 then (s.modPort 0 (·.snapshot s.boot.cfg)) else if d = 33 then (s.modPort 1 (·.snapshot s.boot.cfg)) else s
  (s.snapStep (fun j => j.armed && !j.out.contains d && !j.taken.contains d) fun j =>
    { j with taken := d :: j.taken }).checkSnaps

/-- The first tick at or after the snapshot time (R509): the command says that it has come, and it comes by the end of
the slot in which the time falls (log 40), and not before the batch boundary of the slot. -/
def execSnapshotTaken (d : DieId) (s : State) : Out :=
  if (s.die d.val).snapDue d.val && ((s.die d.val).batchDue d.val).isNone then .next (s.takeSnapshot d.val) else .next s

/-- A snapshot whose time the slot that ends has passed is taken with it. -/
def State.snapshotDue (s : State) (d : Nat) : State := if (s.die d).snapDue d then s.takeSnapshot d else s

/-- An E-die has copied all context counters of the oldest snapshot that waits for it (R511). -/
def execCtxShadowDone (e : EDieId) (s : State) : Out :=
  let d := 32 + e.val
  let x := s.die d
  let awaits := fun (j : SnapJob) => j.armed && j.taken.contains d && !j.copied.contains d
  if x.inReset || !(x.bit d rSnapCtrl 30 || s.snaps.any awaits) then .next s
  else
    let s := s.snapStep awaits fun j => { j with copied := d :: j.copied }
    let s := if x.bit d rSnapCtrl 30 && !s.snaps.any awaits then s.modDie d (·.setBit d rSnapCtrl 29 true) else s
    .next s.checkSnaps

end Sys2Proof.Machine
end

