-- ==== Sys2Proof/Machine/Rings.lean ====
section
/-! DEFINITION. Host ports: submission and completion rings, their doorbells, and port resets
(R453 to R463, R481 to R484). -/

namespace Sys2Proof.Machine

/-! ## Ring configuration (R482) -/

/-- Fields of a ring configuration that a write stores. -/
def ringFields (cq : Bool) : W64 :=
  if cq then maskOf 31 31 ||| maskOf 29 29 ||| maskOf 27 16 else maskOf 31 31 ||| maskOf 20 16

/-- A write of CTX_SQ_CFG or CTX_CQ_CFG: SIZE is kept while ENABLE is 1, and clearing ENABLE resets
the index (R482). DESIGN CHOICE: and with it the doorbell's last value, the phase and the record of a sent message
(log 84). -/
def HostPort.writeRingCfg (h : HostPort) (n : Nat) (cq : Bool) (v : W64) : HostPort :=
  let off := (if cq then bCqCfg else bSqCfg) + 0x20 * n
  let old := h.reg off
  let new := (old &&& ~~~(ringFields cq)) ||| (v &&& ringFields cq)
  let new := if bitOf old 31 then setBits new 20 16 (bitsOf old 20 16) else new
  if bitOf new 31 then h.setReg off new
  else
    let h := h.setReg off (setBits new 15 0 0)
    let h := h.setReg ((if cq then 0x40000 else 0) + 0x1000 * n) 0
    if cq then { h with phase0 := tdel h.phase0 n, msiSent := h.msiSent.filter (· != n) }
    else { h with untaken := tdel h.untaken n }

/-! ## Descriptors (R468) -/

/-- Field of a submission descriptor's ARGS: `n` bytes from descriptor byte `off`. -/
def cArg (c : Desc) (off n : Nat) : Nat := bitsOf c.args (8 * (off - 0x18) + 8 * n - 1) (8 * (off - 0x18))

/-- Bits of ARGS outside the named fields, given by first bit and width, are zero. -/
def argsClean (c : Desc) (named : List (Nat × Nat)) : Bool :=
  let m := named.foldl (fun (m : BitVec 320) f =>
    m ||| BitVec.ofNat 320 ((2 ^ f.2 - 1) * 2 ^ f.1)) 0
  c.args &&& ~~~m == 0

/-- Named bits of ARGS: a whole field at a descriptor byte. -/
def wholeArg (off n : Nat) : Nat × Nat := (8 * (off - 0x18), 8 * n)

/-- The common fields hold no reserved bit; a module command has CONTEXT 0 (R468, R471). -/
def cmdClean (c : Desc) (module : Bool) : Bool :=
  decide (c.flags.toNat < 4) && c.reserved == 0 && decide (c.launchNs.toNat < if bitOf c.flags 0 then second else 2 ^ 30)
    && (if module then c.context == 0 else decide (c.context.toNat < 2 ^ 18))

/-- OPCODE, and the descriptor of 64 bytes (R468). -/
def descOpcode (w : Flit) : Nat := bitsOf w 7 0

def descOf (w : Flit) : Desc :=
  { flags := BitVec.ofNat 8 (bitsOf w 15 8), cmdId := BitVec.ofNat 16 (bitsOf w 31 16)
    context := BitVec.ofNat 32 (bitsOf w 63 32), launchSec := BitVec.ofNat 64 (bitsOf w 127 64)
    launchNs := BitVec.ofNat 32 (bitsOf w 159 128), reserved := BitVec.ofNat 32 (bitsOf w 191 160)
    args := BitVec.ofNat 320 (bitsOf w 511 192) }

def cmdLaunch (c : Desc) : Bool := bitOf c.flags 0

/-- Opcodes of R468. -/
def knownOpcode (op : Nat) : Bool :=
  [0x01, 0x02, 0x03, 0x04, 0x10, 0x11, 0x20, 0x21, 0x30, 0x31, 0x32].contains op

/-- Launch time in ns. -/
def launchTime (c : Desc) : Nat := c.launchSec.toNat * second + c.launchNs.toNat

/-! ## Boot and the rings (R560 to R563) -/

/-- STATE of CFG_BOOT_STATUS (R570). -/
def State.bootState (s : State) : Nat := bitsOf (s.cfg cBootStatus) 31 29

/-- The sprout is in recovery. -/
def State.inRecovery (s : State) : Bool := s.bootState == 3 || s.bootState == 4

/-- Firmware serves the rings (R560, R562, R563); before any reset command boot is taken as done
(log 4). -/
def State.served (s : State) : Bool := s.germ.rails == .on && (s.bootState == 2 || s.bootState == 0)

/-! ## Taking commands (R468, R472) -/

/-- Home E-die and index within its share of a context (R464). -/
def ctxHome (c : Nat) : Nat × Nat := (32 + c / 32768, c % 32768)

/-- The E-die that performs a descriptor: the home engine of its context, or E-die 32 (R472). -/
def performer (w : Flit) : Nat :=
  if 1 ≤ descOpcode w ∧ descOpcode w ≤ 4 then (ctxHome ((descOf w).context.toNat % 2 ^ 18)).1 else 32

/-- Commands of a ring that have started and not completed. -/
def State.ringRuns (s : State) (r : RingRef) : Bool :=
  let on := fun (c : CmdRef) => c.ring == r
  s.load.any (on ·.cmd) || s.weights.loading.any (on ·.cmd) || s.weights.rolling.any (on ·.cmd)
    || s.snaps.any (on ·.cmd)
    || s.germ.asked.any (fun a => match a.source with | .ring c => on c | _ => false)
    || eDies.any fun e => (s.die e).ctx.records.any fun x => x.2.closing.any on

/-- The descriptor that a command was fetched as. -/
def Taken.isCmd (t : Taken) (r : RingRef) (c : Desc) : Bool :=
  t.ring == r && BitVec.ofNat 16 (bitsOf t.words 31 16) == c.cmdId

/-- The launch time of a command has come on the E-die that performs it: while a job runs it is performed in a job
beat, unless its time had passed when it was fetched (R259, R472, R506). -/
def State.launchDue (s : State) (r : RingRef) (c : Desc) (e : Nat) : Bool :=
  let x := s.die e
  (s.taken.find? (·.isCmd r c)).any (·.passed)
    || (decide (launchTime c ≤ x.timeNs) && (!x.jobOn e || x.hold.slot.isNone))

/-- A command may be performed by E-die `e`: rings are served, its launch time has come, no earlier descriptor of its
ring waits for a launch time, and with FENCE no earlier command of its ring is open (R468, R472). A
command that was not fetched counts as the first of its ring. -/
def State.ready (s : State) (r : RingRef) (c : Desc) (e : Nat := 32) : Bool :=
  let before := if s.taken.any (·.isCmd r c) then
      (s.taken.takeWhile (!·.isCmd r c)).filter (·.ring == r)
    else []
  s.served && (!cmdLaunch c || s.launchDue r c e)
    && !(before.any fun t => bitOf t.words 8)
    && (!bitOf c.flags 1 || (before.isEmpty && !s.ringRuns r))

/-- Takes a command off the list of descriptors that wait, if it is there. -/
def State.takeCmd (s : State) (r : RingRef) (c : Desc) : State × CmdRef :=
  let mine := fun (t : Taken) => t.isCmd r c
  let epoch := match s.taken.find? mine with
    | some t => t.epoch
    | none => (s.port r.port).epoch
  ({ s with taken := removeFirst mine s.taken }, { ring := r, cmdId := c.cmdId, epoch := epoch })

/-- Descriptors with a reserved opcode complete with status 0x01 once nothing holds them back (R471, R472). -/
def State.reservedDue (s : State) : Nat → State
  | 0 => s
  | fuel + 1 =>
    match s.taken.find? fun t => !knownOpcode (descOpcode t.words) && s.ready t.ring (descOf t.words) with
    | none => s
    | some t =>
      let c := descOf t.words
      let (s, cmd) := s.takeCmd t.ring c
      (s.complete cmd 0x01 (context := c.context)).reservedDue fuel

/-- A write of a ring register; in recovery BAR0 maps no rings (R563). -/
def execRingCfgWrite (r : RingRef) (cq : Bool) (v : W32) (s : State) : Out :=
  if s.inRecovery then .next s
  else if v.setWidth 64 &&& ~~~(ringFields cq ||| maskOf 15 0 ||| (if cq then maskOf 30 30 else 0)) ≠ 0 then undef 17
  else .next (s.modPort r.port (·.writeRingCfg r.ring.val cq (v.setWidth 64)))

/-! ## Doorbells (R460 to R463) -/

/-- A doorbell write with this value is accepted (R460): its page offset is 0. -/
def doorbellGood (cfg : W64) (v : W32) : Bool := ringOn cfg && decide (v.toNat < ringSize cfg)

/-- The ring takes descriptors: its submission ring is on, and its completion ring is not full
(R462). -/
def HostPort.mayTake (h : HostPort) (n : Nat) : Bool := ringOn (h.sqCfg n) && !h.cqFull n

/-- Takes descriptors that were fetched, from the head toward the tail, while the rings are served, the ring may take
them and DMA is allowed; those that a full completion ring keeps it from taking stay until there is room
(R458, R461, R462, R562). -/
def State.fetchList (s : State) (r : RingRef) : List Flit → State
  | [] => s
  | w :: ws =>
    let n := r.ring.val
    let h := s.port r.port
    let cfg := h.sqCfg n
    let head := bitsOf cfg 15 0
    if head == h.sqTail n then s
    else if !s.served || !h.mayTake n then s.modPort r.port fun h => { h with untaken := tput h.untaken n (w :: ws) }
    else
      let addr := h.reg (bSqBase + 0x20 * n) + BitVec.ofNat 64 (64 * head)
      let (s, ok) := s.dmaTry r.port addr.toNat 64
      if !ok then s
      else
        let s := s.emit (.dmaRead r.port h.ecrcGenerate addr 64)
        let s := s.modPort r.port fun h =>
          (h.setReg (bSqCfg + 0x20 * n) (setBits cfg 15 0 ((head + 1) % ringSize cfg))).bump bCommands
        let t : Taken :=
          { ring := r, epoch := (s.port r.port).epoch, words := w
            passed := decide (launchTime (descOf w) ≤ (s.die (performer w)).timeNs) }
        ({ s with taken := s.taken ++ [t] }).fetchList r ws

/-- The same, and then those of them with a reserved opcode that nothing holds back complete (R471). -/
def State.fetch (s : State) (r : RingRef) (ws : List Flit) : State :=
  let s := s.fetchList r ws
  s.reservedDue s.taken.length

/-- Descriptors that a ring holds for want of room, or because the rings were not served, are taken. -/
def State.fetchHeld (s : State) (p : Fin 2) (n : Nat) : State :=
  let ws := tgetD (s.port p).untaken n []
  if ws.isEmpty then s
  else (s.modPort p fun h => { h with untaken := tdel h.untaken n }).fetch ⟨p, Fin.ofNat 64 n⟩ ws

/-- What E-die 32 does for the rings at the start of a slot: descriptors that waited are taken, and those with a
reserved opcode complete (R461, R471). -/
def State.ringWork (s : State) : State :=
  if !s.served then s
  else
    let s := [(0 : Fin 2), 1].foldl (fun s p =>
      ((s.port p).untaken.map (·.1)).foldl (fun s n => s.fetchHeld p n) s) s
    s.reservedDue s.taken.length

/-- The host writes a submission tail; `descs` are the descriptors from the head up to the tail, which
the module fetches up to 64 at a time and takes in order (R461). -/
def execSqTailDoorbell (r : RingRef) (v : W32) (descs : List Flit) (s : State) : Out :=
  let h := s.port r.port
  if s.inRecovery then .next s
  else if doorbellGood (h.sqCfg r.ring.val) v then
    let s := s.modPort r.port fun h =>
      { h.setReg (0x1000 * r.ring.val) (v.setWidth 64) with untaken := tdel h.untaken r.ring.val }
    .next (s.fetch r descs)
  else .next (s.modPort r.port (·.bump bDoorbellsIgnored))

/-- The host writes a completion head: entries are free, completions that were kept are tried again, the
ring may send its next message, and descriptors that waited for room are taken (R458, R461 to R463). -/
def State.cqHead (s : State) (p : Fin 2) (n : Nat) (v : W32) : State :=
  if doorbellGood ((s.port p).cqCfg n) v then
    let s := s.modPort p fun h =>
      { h.setReg (0x40000 + 0x1000 * n) (v.setWidth 64) with msiSent := h.msiSent.filter (· != n) }
    (s.cqDrain p n (tgetD (s.port p).owed n []).length).fetchHeld p n
  else s.modPort p (·.bump bDoorbellsIgnored)

def execCqHeadDoorbell (r : RingRef) (v : W32) (s : State) : Out :=
  if s.inRecovery then .next s else .next (s.cqHead r.port r.ring.val v)

/-! ## Port resets (R457) -/

/-- Entries of a port leave a context record. -/
def Ctx.dropPort (y : Ctx) (p : Fin 2) : Ctx :=
  { y with inputs := y.inputs.filter (·.port != p), outputs := y.outputs.filter (·.port != p) }

/-- A token slot loses the entries of a port that its context was admitted with (R457). -/
def CtxEngine.dropSlotEntries (k : CtxEngine) (p : Fin 2) (c : Nat) (y : Ctx) : CtxEngine :=
  let on := fun (es : List CtxEntry) => (es.head?).any (·.port == p)
  { k with slots := k.slots.map fun sl =>
      if sl.2.ctx = some c ∧ !sl.2.done then
        (sl.1, { sl.2 with inGone := sl.2.inGone || on y.inputs, outGone := sl.2.outGone || on y.outputs })
      else sl }

/-- Removes the entries of a port from every context. -/
def State.dropEntries (s : State) (p : Fin 2) : State :=
  s.onDies eDies fun s e =>
    let s := s.modDie e fun x =>
      { x with ctx := x.ctx.records.foldl (fun k r => k.dropSlotEntries p r.1 r.2) x.ctx }
    (s.die e).ctx.records.foldl (fun s r =>
      if r.2.dropPort p == r.2 then s else s.modCtx e r.1 (·.dropPort p)) s

/-- BAR0 of a port at its reset values: completions still owed are discarded and counted, DMA ends and
the link is down. `keepLink` is set for a Function Level Reset. -/
def State.closePort (s : State) (p : Fin 2) (keepLink : Bool) : State :=
  let h := s.port p
  let owed := h.owed.foldl (fun n o => n + o.2.length) 0
  let width := if keepLink then h.reg bPortStatus &&& maskOf 3 0 else 0
  let h' : HostPort := { HostPort.reset with
    epoch := h.epoch + 1, linkUp := keepLink && h.linkUp, recovery := h.recovery
    regs := if width = 0 then [] else [(bPortStatus, width)] }
  let s := s.setPort p (if owed = 0 then h' else h'.bump bDiscarded owed)
  s.modDie (32 + p.val) fun x => { x with
    outstanding := x.outstanding.map fun o => { o with host := none } }

/-- The reset of a port: its entries are removed as well. -/
def State.portReset (s : State) (p : Fin 2) (keepLink : Bool) : State :=
  (s.closePort p keepLink).dropEntries p

def execPerstAssert (p : Fin 2) (s : State) : Out := .next (s.portReset p false)

def execHotReset (p : Fin 2) (s : State) : Out := .next (s.portReset p false)

def execPcieLinkLoss (p : Fin 2) (s : State) : Out := .next (s.portReset p false)

def execFunctionLevelReset (p : Fin 2) (s : State) : Out := .next (s.portReset p true)

/-! ## The fabric window's answers (R456) -/

/-- The answer to a host's access through the fabric window: a failed read reads as all ones. -/
def State.hostAnswer (s : State) (p : Fin 2) (read : Bool) (size status : Nat) (data : List Byte) :
    State :=
  if status = 0 then (if read then s.emit (.bar2 p (BitVec.ofNat 64 (leNat (data.take size)))) else s)
  else
    let s := s.modPort p fun h => (h.setReg bFabLastErr (BitVec.ofNat 64 status)).bump bFabErrors
    if read then s.emit (.bar2 p (BitVec.ofNat 64 (2 ^ (8 * min size 8) - 1))) else s

end Sys2Proof.Machine
end

