-- ==== Sys2Proof/Machine/Beats.lean ====
section
/-! DEFINITION. Slot boundaries of a die and holds: the start of a beat, holds that take effect,
roll call, releases, the resume and the symbols (R232 to R256, R268). -/

namespace Sys2Proof.Machine

/-! ## What begins at the next boundary -/

/-- What begins at the next slot boundary of a die. -/
inductive Boundary where
  | beat | hold | resume | start | switch | finish
  deriving DecidableEq, Repr

/-- The armed action whose time has come at the next boundary; 0 for none (R259). -/
def Die.actionDue (x : Die) : Nat :=
  match x.armed with
  | some a => if a.time ≤ x.nextSlot.timeNs then a.action else 0
  | none => 0

/-- What begins at the die's next slot boundary (R250, R254, R259, R297). -/
def Die.boundary (x : Die) (d : Nat) : Boundary :=
  let act := x.actionDue
  let job := fun (b : Boundary) => if act = 2 then .switch else if act = 3 then .finish else b
  if !x.jobOn d then (if act = 1 then .start else .beat)
  else
    match x.hold.slot with
    | some j =>
      match x.hold.resumeSlot (x.horizon d) with
      | some r => if r ≤ j + 1 then job .resume else .beat
      | none => .beat
    | none => if x.hold.left = some 0 then .hold else job .beat

/-- A job begins only in P0, the state for running, and not during a transition (R529, R530). DEDUCED: a START whose
time comes before waits, armed (log 46). -/
def State.startBarred (s : State) : Bool := s.pst != 0 || s.germ.move != .none

/-- What begins at a die's next slot boundary, a START that is barred apart. -/
def State.boundary (s : State) (d : Nat) : Boundary :=
  match (s.die d).boundary d with
  | .start => if s.startBarred then .beat else .start
  | b => b

/-- A tile has still to reach the WAITBEAT of the beat before the die's slot (R238): the die's next
boundary cannot come yet (R240). -/
def Die.behind (x : Die) : Bool := (List.range 4).any x.regionLate

/-- A tile has still to reach the WAITBEAT of its beat: an action that ends the job's last beat cannot come yet
(R239, R297). -/
def Die.unfinished (x : Die) : Bool := x.tiles.any fun e => e.2.state == .running && !e.2.waiting

/-! ## The end of a slot -/

/-- The job beat number that a beat count stands for; it may be of the job before a switch (R270, R298). -/
def Die.beatNumber (x : Die) (b : Nat) : Nat :=
  if x.job.base ≤ b then b - x.job.base else b + x.job.prevLast.elim 0 (· + 1) - x.job.base

/-- No unit of the die can raise a hold in the job beat with count `b` any more: it is over, and no tile is still in
it (R239, R246). -/
def Die.raisesOver (x : Die) (b : Nat) : Bool :=
  decide (b < x.beatNow) || x.tiles.all fun e =>
    e.2.state != .running || e.2.waiting || e.2.bc != BitVec.ofNat 48 x.job.beat

/-- The hold symbol of job beat `b`: one for all the units that raised in it, with their lowest cause
(R246, R248). -/
def Die.flushBeat (x : Die) (d b : Nat) : Die :=
  let causes := (x.hold.raised.filter (·.1 == b)).map (·.2)
  match causes with
  | [] => x
  | c :: cs =>
    let cause := cs.foldl min c
    let sym := mkSymbol 1 cause (x.number d) (x.beatNumber b) x.hold.seq.toNat
    let h := { x.hold with
      raised := x.hold.raised.filter (·.1 != b)
      holders := addHolder ⟨BitVec.ofNat 16 (x.number d), b, cause⟩ x.hold.holders }
    ({ x with hold := h }.bump rSymbolsSent).spread d none sym

/-- The hold symbols that the die sends as its slot ends: of the beat before, in which a unit of a region that lags
may have raised last, and of this one, unless such a unit may still raise (R246). -/
def Die.flushRaised (x : Die) (d : Nat) : Die :=
  let x := if x.beatNow = 0 then x else x.flushBeat d (x.beatNow - 1)
  if x.raisesOver x.beatNow then x.flushBeat d x.beatNow else x

/-- The die passes to its next slot: what leaves in the slot that ends leaves now. -/
def State.passSlot (s : State) (d : Nat) : State :=
  (((s.modDie d (·.flushRaised d)).closeSlot d).snapshotDue d).modDie d fun x =>
    { x.nextSlot with maintDone := false, mem := x.mem.passBlackout }

/-- What happens in every slot that begins, job beat or not: the fabric, refresh, then the control plane. -/
def State.openSlot (s : State) (d : Nat) : State :=
  let s := ((s.openFabric d).modDie d (·.startRefresh d)).slotWork d
  if d = d32 then s.ringWork else s

/-! ## The start of a job beat -/

/-- A region at the start of a job beat: the lag of the beat before decides when cycle 0 begins
(R238, R239). -/
def Region.roll (g : Region) (start : Nat) : Region :=
  { startLag := start, stretches := 0, overran := false, lag := 0, lastStart := g.startLag,
    lastStretches := g.stretches, lastOverran := g.overran }

/-- The fence masks as they are written now (R332). -/
def Die.readFences (x : Die) : Table W32 :=
  (List.range 64).filterMap fun i =>
    let v := (tgetD x.regs (rFence0 + 4 * i) 0).setWidth 32
    if v = 0 then none else some (i, v)

/-- Raises at the start of a job beat: a requested hold whose REQ_HOLD stands (R268), and the links
whose condition arose in a hold slot and still stands (R246). -/
def State.raiseStanding (s : State) (d : Nat) : State :=
  let x := s.die d
  let x := if x.bit d rBeatCtrl 31 && !x.hold.mine.contains 7 then x.raiseHold d 7 else x
  s.setDie d ((portsOf d).foldl (fun x p =>
    let l := x.link p
    if l.toRaise then
      let x := x.setLink p { l with toRaise := false }
      if l.causeOpen then x.raiseHold d 4 else x
    else x) x)

/-- The tiles of a running job that wait for the beat enter it (R91, R223). -/
def State.enterTiles (s : State) (d : Nat) : State :=
  let k := BitVec.ofNat 48 (s.die d).job.beat
  (s.die d).tiles.foldl (fun s e =>
    let y := (s.die d).tile e.1
    if y.state == .running && y.waiting then s.enterBeat d e.1 k else s) s

/-- What happens in the job beat that has just begun: holds that stand to be raised, the memory
schedule, the tiles, the link switch. -/
def State.openBeat (s : State) (d : Nat) : State :=
  (((s.raiseStanding d).memBeat d).enterTiles d).openSlot d

/-- The die begins its next job beat (R233, R234). -/
def State.beginBeat (s : State) (d : Nat) : State :=
  (s.modDie d fun x => { x with
    job := { x.job with beat := x.job.beat + 1, ran := x.job.ran + 1 }
    hold := { x.hold with left := x.hold.left.map (· - 1) }
    regions := tmap (fun _ g => g.roll g.lag) x.regions
    fence := x.readFences }).openBeat d

/-! ## BEAT_START -/

/-- The end of hold slot `j`: from slot H - 2 on the roll call is closed (R252). -/
def Hold.nextSlot (h : Hold) (j horizon : Nat) : Hold :=
  { h with slot := some (j + 1), closed := h.closed || decide (horizon ≤ j + 2) }

/-- A slot boundary at which a beat begins: job beat, hold slot or a slot with no job (R232 to R235,
R251). -/
def execBeatStart (d : DieId) (s : State) : Out :=
  let d := d.val
  let x := s.die d
  if x.inReset || s.boundary d != .beat || (x.jobOn d && x.behind) then .next s
  else if s.strayWaits d then undef 116
  else
    let s := s.passSlot d
    let x := s.die d
    if !x.jobOn d then .next (s.openSlot d)
    else
      match x.hold.slot with
      | none => .next (s.beginBeat d)
      | some j =>
        let s := s.modDie d fun x =>
          { x.bump rHoldBeats with hold := x.hold.nextSlot j (x.horizon d) }
        .next (s.openSlot d)

/-! ## Holds -/

/-- The tiles that wait for the next beat are HELD (R251). -/
def State.holdTiles (s : State) (d : Nat) : State :=
  (s.die d).tiles.foldl (fun s e =>
    let y := (s.die d).tile e.1
    if y.state == .running && y.waiting then s.holdTile d e.1 else s) s

/-- A pending hold takes effect: hold slot 0 begins (R250 to R252). -/
def execHoldTakesEffect (d : DieId) (s : State) : Out :=
  let d := d.val
  let x := s.die d
  if x.inReset || s.boundary d != .hold || x.behind then .next s
  else if s.strayWaits d then undef 116
  else
    let s := s.passSlot d
    if !(s.die d).jobOn d then .next (s.openSlot d)
    else
      let s := s.modDie d fun x => { x.bump rHoldsTaken with
        hold := { x.hold with slot := some 0, left := none }
        regions := tmap (fun _ g => g.roll 0) x.regions }
      .next ((s.holdTiles d).openSlot d)

/-- The roll call closes at the end of hold slot H - 2 (R252). -/
def execRollCallClose (d : DieId) (s : State) : Out :=
  let x := s.die d.val
  match x.hold.slot with
  | some j =>
    if x.jobOn d.val ∧ x.horizon d.val ≤ j + 2 then
      .next (s.setDie d.val { x with hold := { x.hold with closed := true } })
    else .next s
  | none => .next s

/-- A holder sends its release in the first hold slot from H - 1 on in which all its causes have
cleared (R253). -/
def execHolderRelease (d : DieId) (s : State) : Out :=
  let d := d.val
  let x := s.die d
  match x.hold.slot with
  | some j =>
    if x.jobOn d && !x.hold.released && !x.hold.mine.isEmpty && decide (x.horizon d ≤ j + 1)
        && x.hold.mine.all (x.clearOf d) then
      let num := s.dieNumber d
      let sym := mkSymbol 2 0 num j x.hold.seq.toNat
      let h := { x.hold with
        released := true, releases := x.hold.releases ++ [(BitVec.ofNat 16 num, j)] }
      .next (s.setDie d (({ x with hold := h }.bump rSymbolsSent).spread d none sym))
    else .next s
  | none => .next s

/-- The holder with the earliest raise beat, on a tie the lowest die number (R270). -/
def firstHolder : List Holder → Option Holder
  | [] => none
  | h :: hs =>
    match firstHolder hs with
    | none => some h
    | some g => if g.beat < h.beat ∨ (g.beat = h.beat ∧ g.die.toNat < h.die.toNat) then some g
                else some h

/-- An entry that was pushed late before a hold is there by its end (R242). -/
def Die.settleReady (x : Die) : Die :=
  { x with
    queues := tmap (fun _ fs => fs.map fun f => { f with ready := 0 }) x.queues
    relay := x.relay.map fun f => { f with ready := 0 } }

/-- The hold that stands ends after `r` hold slots (R254, R265). -/
def Die.endHold (x : Die) (r : Nat) : Die :=
  let info := match firstHolder x.hold.holders with
    | some h => h.die.toNat * 2 ^ 16 + h.cause * 2 ^ 12
    | none => 0
  let x := (x.bump rHoldBeats).setReg rHoldLastInfo (BitVec.ofNat 64 info)
  let x := x.setReg rHoldLastLen (BitVec.ofNat 64 (min r (2 ^ 32 - 1)))
  let x := x.setReg rHoldLastBeat (BitVec.ofNat 64 ((x.job.beat + 1) % 2 ^ 48))
  { x.settleReady with
    job := { x.job with q := x.job.q + BitVec.ofNat 64 r }
    hold := { Hold.reset with
      seq := x.hold.seq + 1, seen := x.hold.seen.filter fun v => bitsOf v 63 60 == 3 }
    tiles := tmap (fun _ y => if y.state == .held then
                                { y with state := .running, waiting := true, watch := [] }
                              else y) x.tiles }

/-- Number of hold slots of a standing hold when it ends at the next boundary. -/
def Hold.slots (h : Hold) : Nat := match h.slot with | some j => j + 1 | none => 0

/-- The hold ends and job beat E begins (R254). -/
def execHoldResume (d : DieId) (s : State) : Out :=
  let d := d.val
  let x := s.die d
  if x.inReset || s.boundary d != .resume then .next s
  else if s.strayWaits d then undef 116
  else
    let s := s.passSlot d
    if !(s.die d).jobOn d then .next (s.openSlot d)
    else .next ((s.modDie d (·.endHold x.hold.slots)).beginBeat d)

/-- A cause other than "requested" has not cleared in time: the slice stops (R256). -/
def execHoldTimeout (d : DieId) (s : State) : Out :=
  let d := d.val
  let x := s.die d
  let limit := x.field d rHoldTimeout 31 0
  match x.hold.slot with
  | some j =>
    let late := x.hold.mine.filter fun c => c != 7 && !x.clearOf d c
    match late with
    | [] => .next s
    | c :: cs =>
      if x.jobOn d ∧ limit ≠ 0 ∧ limit ≤ j then
        .next (s.dieFault d 0x32 (BitVec.ofNat 64 (cs.foldl min c * 2 ^ 9)))
      else .next s
  | none => .next s

/-- A write of TIME_BEAT_CTRL.REQ_HOLD (R268). -/
def State.reqHold (s : State) (d : Nat) (on : Bool) : State :=
  let x := (s.die d).setBit d rBeatCtrl 31 on
  s.setDie d (if on && x.inJobBeat d && !x.hold.mine.contains 7 then x.raiseHold d 7 else x)

def execReqHoldWrite (d : DieId) (on : Bool) (s : State) : Out :=
  if (s.die d.val).inReset then .next s else .next (s.reqHold d.val on)

/-! ## Symbols that arrive (R248) -/

/-- Takes in a copy of a symbol: `none` where it is discarded; else the symbol is relayed and acts.
`anySeq` is set for stop symbols (R299). -/
def State.symbolIn (s : State) (d port type : Nat) (sym : W64) : Option State × State :=
  let x := s.die d
  if x.inReset || !hasPort d port then (none, s)
  else if !symbolGood sym then (none, s.modDie d (·.bump rSymbolsLost))
  else if bitsOf sym 63 60 != type || x.hold.seen.contains (symbolKey sym)
      || (type != 3 && (x.outside d port || bitsOf sym 15 8 != x.hold.seq.toNat)) then (none, s)
  else (some (s.modDie d (·.spread d (some port) sym)), s)

/-- The beat count of the job beat, not after the current one, whose low 24 bits are `low`; it may be one of the job
before a switch (R250, R298). -/
def Die.raiseBeat (x : Die) (d low : Nat) : Nat :=
  match x.job.prevLast with
  | some last =>
    if x.job.beat < x.horizon d ∧ x.job.beat < low then x.job.base - (last + 1) + rebuild24 last low
    else x.job.base + rebuild24 x.job.beat low
  | none => x.job.base + rebuild24 x.job.beat low

/-- A good copy of a symbol uses a value that R245, R247 or R299 marks as reserved, by the rule that leaves that
undefined, 0 for none: a TYPE, a CAUSE of a hold or of a stop (R17), or a CAUSE of a release, which is zero (R402). -/
def symbolRule (sym : W64) : Nat :=
  let cause := bitsOf sym 59 56
  match bitsOf sym 63 60 with
  | 1 => if 1 ≤ cause ∧ cause ≤ 7 then 0 else 17
  | 2 => if cause = 0 then 0 else 402
  | 3 => if 1 ≤ cause ∧ cause ≤ 4 then 0 else 17
  | _ => 17

/-- A symbol arrives with a command for its kind: `act` is what an accepted one does. -/
def State.symbolCommand (s : State) (d port type : Nat) (sym : W64) (act : State → State) : Out :=
  match s.symbolIn d port type sym with
  | (none, t) =>
    if !(s.die d).inReset && hasPort d port && symbolGood sym && !([1, 2, 3].contains (bitsOf sym 63 60)) then undef 17
    else .next t
  | (some t, _) => if symbolRule sym ≠ 0 then undef (symbolRule sym) else .next (act t)

/-- A hold symbol joins the pending or standing hold (R250, R252). -/
def State.joinHold (s : State) (d : Nat) (sym : W64) : State :=
  let x := s.die d
  if !x.jobOn d || x.hold.closed then s
  else
    let b := x.raiseBeat d (bitsOf sym 39 16)
    let n := x.horizon d - (x.beatNow - b)
    let h := { x.hold with
      holders := addHolder ⟨BitVec.ofNat 16 (bitsOf sym 55 40), b, bitsOf sym 59 56⟩
        x.hold.holders }
    s.setDie d { x with hold := if h.slot.isNone then h.join n else h }

/-- A hold symbol arrives: it is relayed, and its hold joins (R248). -/
def execHoldSymbolReceived (d : DieId) (port : Fin 32) (sym : W64) (s : State) : Out :=
  s.symbolCommand d.val port.val 1 sym (·.joinHold d.val sym)

/-- A release symbol counts as received while a hold stands (R253, R254). -/
def State.takeRelease (s : State) (d : Nat) (sym : W64) : State :=
  let x := s.die d
  match x.hold.slot with
  | none => s
  | some j =>
    let r := (BitVec.ofNat 16 (bitsOf sym 55 40), rebuild24 j (bitsOf sym 39 16))
    s.setDie d { x with hold := { x.hold with releases := x.hold.releases ++ [r] } }

/-- A release symbol arrives: it is relayed, and counts (R248). -/
def execReleaseSymbolReceived (d : DieId) (port : Fin 32) (sym : W64) (s : State) : Out :=
  s.symbolCommand d.val port.val 2 sym (·.takeRelease d.val sym)

end Sys2Proof.Machine
end

