-- ==== Sys2Proof/Machine/Epochs.lean ====
section
/-! DEFINITION. Epoch actions and stops (R293 to R302, R601, R602). -/

namespace Sys2Proof.Machine

/-! ## The tiles of a die -/

/-- Substitution value of a region in a spare map (R33, R53). -/
def subOf (map : W64) (r : Nat) : Nat := bitsOf map (4 * r + 3) (4 * r)

/-- The physical tile belongs to the gated-off cluster of its region (R33, R45). -/
def gatedTile (map : W64) (t : Nat) : Bool :=
  let s := subOf map (t / 72)
  (t % 72) / 8 == (if s < 8 then s else 8)

/-- Physical tile of a usable tile (R45). -/
def physTile (map : W64) (u : Nat) : Nat :=
  let c := (u % 64) / 8
  u / 64 * 72 + (if c = subOf map (u / 64) then 8 else c) * 8 + u % 8

/-- The physical tiles that serve the usable tiles of a die; none on an E-die. -/
def Die.tilesInUse (x : Die) (d : Nat) : List Nat :=
  if isEDie d then [] else (List.range 256).map (physTile (x.reg d rSpareMap))

def Tile.validBank (y : Tile) (b : Bool) : Bool := if b then y.valid1 else y.valid0

/-! ## ARM (R294, R295) -/

/-- A write of ARM with a non-zero ACTION is refused (R295); `now` is the die's fabric time. -/
def Die.armRefused (x : Die) (d action : Nat) (target : Bool) (now : Nat) : Bool :=
  let tiles := (x.tilesInUse d).map x.tile
  x.armed.isSome
    || decide ((x.reg d rEpochSec).toNat * second + x.field d rEpochNs 29 0 < now + 1000000)
    || (action == 1 && (x.jobOn d || x.stopped
        || tiles.any fun y => y.state == .stopped || y.state == .faulted))
    || (action != 1 && !x.jobOn d)
    || (action != 3 && !tiles.all fun y => y.validBank target)
    || (action == 2 && target == x.bank)

/-- The write of ARM, with the ACTION and TARGET that the register holds (R294, R295). -/
def State.arm (s : State) (d : Nat) : State :=
  let x := s.die d
  let action := x.field d rEpochCtrl 11 10
  let target := x.bit d rEpochCtrl 9
  if action = 0 then s.setDie d { x with armed := none }
  else if x.armRefused d action target (s.nowNs d) then
    (s.setDie d (x.setBit d rEpochCtrl 29 true)).timed d
  else
    let t := (x.reg d rEpochSec).toNat * second + x.field d rEpochNs 29 0
    (s.setDie d { x with armed := some ⟨action, target, t⟩ }).timed d

/-! ## CLEAR (R302) -/

/-- A tile leaves STOPPED or FAULTED. -/
def Tile.cleared (y : Tile) : Tile :=
  if y.state = .stopped ∨ y.state = .faulted then
    { y with faultInfo := 0, faultBeat := 0,
             state := if y.valid0 || y.valid1 then .loaded else .idle }
  else y

/-- The die's stop is cleared. -/
def Die.clearStop (x : Die) : Die :=
  let x := ((x.setReg rStopInfo 0).setReg rStopBeat 0).setReg rStopDetail 0
  { x with stopped := false, tiles := tmap (fun _ y => y.cleared) x.tiles }

/-! ## TIME_EPOCH_CTRL -/

/-- A write of the register: the fields that can be written, then CLEAR, STOP and ARM in this order,
CLEAR judged against JOB as it stood before (R294, R601). -/
def State.writeEpochCtrl (s : State) (d : Nat) (v : W64) : State :=
  let job := (s.die d).jobOn d
  let x := s.die d
  let old := x.reg d rEpochCtrl
  let kept := old &&& ~~~(v &&& maskOf 30 28)
  let s := s.setDie d (x.setReg rEpochCtrl (setBits kept 11 9 (bitsOf v 11 9)))
  let s := if bitOf v 2 && !job then s.modDie d Die.clearStop else s
  let s := if bitOf v 1 then s.raiseStop d 0x3F 0 0 else s
  if bitOf v 0 then s.arm d else s

/-- The word of a write that keeps ACTION and TARGET and writes the given low bits. -/
def Die.epochWord (x : Die) (d bits : Nat) : W64 :=
  setBits (BitVec.ofNat 64 bits) 11 9 (x.field d rEpochCtrl 11 9)

def execEpochArm (d : DieId) (action : BitVec 2) (target : Bool) (s : State) : Out :=
  if (s.die d.val).inReset then .next s
  else
    .next (s.writeEpochCtrl d.val (BitVec.ofNat 64 (1 + target.toNat * 2 ^ 9
      + action.toNat * 2 ^ 10)))

/-- ARM with ACTION 0 disarms (R294). -/
def execEpochCancel (d : DieId) (s : State) : Out :=
  if (s.die d.val).inReset then .next s
  else .next (s.writeEpochCtrl d.val (setBits ((s.die d.val).epochWord d.val 1) 11 10 0))

/-- A requested stop (R299). -/
def execStop (d : DieId) (s : State) : Out :=
  if (s.die d.val).inReset then .next s
  else .next (s.writeEpochCtrl d.val ((s.die d.val).epochWord d.val 2))

def execClear (d : DieId) (s : State) : Out :=
  if (s.die d.val).inReset then .next s
  else .next (s.writeEpochCtrl d.val ((s.die d.val).epochWord d.val 4))

/-! ## The actions (R297, R298) -/

/-- A tile at the start of a job from a bank; `gen` is the serial number of the job (R74, R86,
R297). -/
def Tile.start (y : Tile) (bank : Bool) (gen : Nat) : Tile :=
  { y with
    state := .running, active := bank, pc := if bank && !y.span then 4096 else 0
    bc := 0, loops := [], words := 0, waiting := true, heldRaised := false, clk := 0, idle := 0, busy := []
    flight := [], sendDesc := 0, sendHalf := 0, paths := [], banks := [], gen := gen
    v := [], a := [], s := [], p := [], acc := [], wbase := []
    wb0 := WeightBuf.reset, wb1 := WeightBuf.reset, ovfPend := [], store := none
    known := if bank then y.init1 else y.init0
    land := tmap (fun k v => if k / 512 = bank.toNat then leEmpty v else v) y.land }

/-- The tiles in use start a job. -/
def Die.startTiles (x : Die) (d : Nat) (bank : Bool) (gen : Nat) : Die :=
  (x.tilesInUse d).foldl (fun x t => x.modTile t (·.start bank gen)) x

/-- HORIZON and FILL were written on every die since its reset and are the same on all (R602). -/
def State.evenHorizon (s : State) : Bool :=
  let f := (s.die 0).reg 0 rBeatCtrl &&& (maskOf 25 16 ||| maskOf 12 8)
  allDies.all fun d =>
    let x := s.die d
    x.horizonSet && (x.reg d rBeatCtrl &&& (maskOf 25 16 ||| maskOf 12 8)) == f

/-- Job beats that count from a new start on: writes that wait keep the beats they have waited (R474,
R486). -/
def CtxEngine.restart (c : CtxEngine) (ran : Nat) : CtxEngine :=
  { c with
    ctrlQueue := c.ctrlQueue.map fun e => (e.1 - ran, e.2)
    rotQueue := c.rotQueue.map fun e => (e.1 - ran, e.2) }

/-- A job starts on the die: bank, job record, tiles, JOB; the armed action is done (R297). -/
def State.startJob (s : State) (d : Nat) (bank : Bool) (job : Job) (hold : Hold) : State :=
  let gen := s.jobs + 1
  let s := s.modDie d fun x =>
    let x := (x.setBit d rBeatCtrl 0 true).setBit d rEpochCtrl 30 true
    { x.startTiles d bank gen with
      bank := bank, job := job, hold := hold, armed := none
      regions := tmap (fun _ g => g.roll g.lag) x.regions
      mem := { x.mem with matched := [], m := 0 }
      ctx := x.ctx.restart x.job.ran
      fence := x.readFences }
  { s with jobs := gen }

def execEpochStart (d : DieId) (s : State) : Out :=
  let d := d.val
  let x := s.die d
  if x.inReset || s.boundary d != .start then .next s
  else if !s.evenHorizon then undef 602
  else
    match x.armed with
    | none => .next s
    | some a =>
      let s := (s.passSlot d).modDie d fun x =>
        { x with queues := [], eq := [], relay := [], incoming := [], reserves := []
                 regions := [], mem := x.mem.drop }
      .next ((s.startJob d a.target Job.reset Hold.reset).openBeat d)

/-- A hold that stands ends at the boundary at which an action acts (R259). -/
def State.endHoldFirst (s : State) (d : Nat) : State :=
  let n := (s.die d).hold.slots
  if n = 0 then s else s.modDie d (·.endHold n)

/-- The switch keeps a pending hold and the hold sequence (R297, R298). -/
def execEpochSwitch (d : DieId) (s : State) : Out :=
  let d := d.val
  let x := s.die d
  if x.inReset || s.boundary d != .switch || x.unfinished then .next s
  else if s.strayWaits d then undef 116
  else
    match x.armed with
    | none => .next s
    | some a =>
      let s := ((s.passSlot d).endHoldFirst d).settleAll d
      -- a tile, or a flit that the link switch takes, may stop the slice (R131, R319)
      if !(s.die d).jobOn d then .next (s.openSlot d)
      else
        let s := if isEDie d then s.endBatch d else s
        let x := s.die d
        let last := x.job.beat
        let s := s.setDie d { x with ctx := { x.ctx with started := false } }
        let job := { Job.reset with
          num := x.job.num + 1, base := x.job.base + last + 1, prevLast := some last }
        let hold := { x.hold with left := x.hold.left.map (· - 1) }
        .next ((s.startJob d a.target job hold).openBeat d)

/-- The job ends; tables and image stay (R297). -/
def Die.endJob (x : Die) (d : Nat) : Die :=
  let x := (x.setBit d rBeatCtrl 0 false).setBit d rEpochCtrl 30 true
  { x with
    armed := none, hold := x.hold.abandon, queues := [], eq := [], relay := []
    incoming := [], reserves := []
    tiles := tmap (fun _ y => if y.state == .running || y.state == .held then
                                { y with state := .loaded, watch := [] } else y) x.tiles
    mem := x.mem.drop
    ctx := { x.ctx with started := false } }

def execEpochEnd (d : DieId) (s : State) : Out :=
  let d := d.val
  let x := s.die d
  if x.inReset || s.boundary d != .finish || x.unfinished then .next s
  else if s.strayWaits d then undef 116
  else
    let s := ((s.passSlot d).endHoldFirst d).settleAll d
    if !(s.die d).jobOn d then .next (s.openSlot d) else
    let s := if isEDie d then s.endBatch d else s
    .next ((s.modDie d (·.endJob d)).openSlot d)

/-! ## Stop symbols (R299 to R301) -/

/-- The first stop that a die learns of acts (R300, R301). -/
def State.takeStop (s : State) (d : Nat) (sym : W64) : State :=
  let x := s.die d
  if x.stopped then s
  else
    let origin := bitsOf sym 55 40
    let cls := bitsOf sym 59 56
    let s := s.logEvent d 0x44 (BitVec.ofNat 64 (origin + cls * 2 ^ 16))
    let s := s.modDie d fun x =>
      let x := x.setReg rStopInfo (BitVec.ofNat 64 (2 ^ 31 + cls * 2 ^ 20 + origin))
      x.setReg rStopBeat (BitVec.ofNat 64 (rebuild24 x.job.beat (bitsOf sym 39 16) % 2 ^ 48))
    s.haltDie d origin

/-- A stop symbol arrives: it is relayed, and the first stop that the die learns of acts. -/
def execStopSymbolReceived (d : DieId) (port : Fin 32) (sym : W64) (s : State) : Out :=
  s.symbolCommand d.val port.val 3 sym (·.takeStop d.val sym)

end Sys2Proof.Machine
end

