-- ==== Sys2Proof/Machine/Contexts.lean ====
section
/-! DEFINITION. The context commands (R464 to R468, R471). -/

namespace Sys2Proof.Machine

/-! ## The adapter area (R410, R468) -/

/-- Units of the adapter area. -/
abbrev adapterUnits : Nat := 0x8000000

/-- First unit of an adapter region within the area of its E-die. -/
def adapterUnit (e : Nat) (base : W64) : Nat := lpddrUnit base - regionOff e 5 / 64

/-- Adapter regions in use on an E-die: first unit and length, both within the area. -/
def Die.adapters (x : Die) (e : Nat) : List (Nat × Nat) :=
  (x.ctx.records.filter fun r => r.2.adapterLen != 0).map fun r =>
    (adapterUnit e r.2.adapterBase, r.2.adapterLen.toNat)

/-- A run of units is free in the area. -/
def adapterFree (used : List (Nat × Nat)) (u n : Nat) : Bool :=
  decide (u + n ≤ adapterUnits) && used.all fun a => decide (u + n ≤ a.1) || decide (a.1 + a.2 ≤ u)

/-- Where a new adapter region goes: the spec leaves the place open, so it is a free place when that
is free, else one of the places behind another region; `none` when there is no room (log 1). -/
def adapterPlace (used : List (Nat × Nat)) (n : Nat) (free : W64) : Option Nat :=
  let u := free.toNat % adapterUnits
  if adapterFree used u n then some u
  else ((0 :: used.map fun a => a.1 + a.2).filter fun v => adapterFree used v n).head?

/-- Fabric address of a unit of the adapter area. -/
def State.adapterAddr (s : State) (e u : Nat) : W64 :=
  BitVec.ofNat 64 (s.dieNumber e * 2 ^ 48 + 0x2000000000 + regionOff e 5 + 64 * u)

/-! ## What the commands share -/

/-- Completes a context command. -/
def State.ctxDone (s : State) (cmd : CmdRef) (c : Desc) (status : Nat) : State :=
  s.complete cmd status (context := c.context)

/-- Runs a context command on the record of its context, unless a field is reserved or out of range
(status 0x01). The home engine performs nothing while its die is in reset. -/
def ctxCommand (r : RingRef) (c : Desc) (good : Bool) (s : State)
    (act : Nat → Nat → CmdRef → Ctx → State → State) : Out :=
  let (e, i) := ctxHome (c.context.toNat % 2 ^ 18)
  if (s.die e).inReset || !s.ready r c e then .next s
  else
    let (s, cmd) := s.takeCmd r c
    if !cmdClean c false || !good then .next (s.ctxDone cmd c 0x01)
    else .next (act e i cmd ((s.die e).ctx.ctx i) s)

/-! ## OPEN_CONTEXT -/

def openClass (c : Desc) : Nat := cArg c 0x19 1
def openCring (c : Desc) : Nat := cArg c 0x1A 1
def openModify (c : Desc) : Bool := bitOf c.args 0

/-- The arguments of OPEN_CONTEXT are in range and hold no reserved bit. -/
def openGood (c : Desc) : Bool :=
  argsClean c [(0, 1), wholeArg 0x19 1, wholeArg 0x1A 1, wholeArg 0x1C 2, wholeArg 0x20 8,
      wholeArg 0x28 8, wholeArg 0x30 8, wholeArg 0x38 1, wholeArg 0x3C 4]
    && cArg c 0x1C 2 != 0xFFFF && decide (openClass c ≤ 3) && decide (openCring c ≤ 63) && decide (cArg c 0x38 1 ≤ 1)

/-- Opens an idle context (R468). -/
def State.openCtx (s : State) (r : RingRef) (c : Desc) (e i : Nat) (cmd : CmdRef) (y : Ctx) :
    State :=
  let n := cArg c 0x3C 4
  if y.state ≠ .idle then s.ctxDone cmd c 0x02
  else
    let place := if n = 0 then some 0
      else adapterPlace ((s.die e).adapters e) n (Config.freeWord s.fz)
    match place with
    | none => s.used.ctxDone cmd c 0x08
    | some u =>
      let base := if n = 0 then 0 else s.adapterAddr e u
      let s := s.used.modCtx e i fun _ =>
        { Ctx.reset with
          state := .queued, cls := openClass c, eff := openClass c
          wsid := BitVec.ofNat 16 (cArg c 0x1C 2), active := BitVec.ofNat 16 (cArg c 0x1C 2)
          submitPort := r.port, cring := openCring c
          userTag := BitVec.ofNat 64 (cArg c 0x20 8), kvBase := BitVec.ofNat 64 (cArg c 0x28 8)
          kvLen := BitVec.ofNat 64 (cArg c 0x30 8), kvTier := BitVec.ofNat 8 (cArg c 0x38 1)
          adapterBase := base, adapterLen := BitVec.ofNat 32 n }
      s.ctxDone cmd c 0

def execOpenContext (r : RingRef) (c : Desc) (s : State) : Out :=
  if openModify c then .next s
  else ctxCommand r c (openGood c) s fun e i cmd y s => s.openCtx r c e i cmd y

/-- Rewrites CLASS, CRING, WSID and USER_TAG of an open context; the new WSID comes into force at the next
batch boundary (R437, R468). -/
def execOpenContextModify (r : RingRef) (c : Desc) (s : State) : Out :=
  if !openModify c then .next s
  else ctxCommand r c (openGood c) s fun e i cmd y s =>
    if y.state = .idle then s.ctxDone cmd c 0x02
    else if y.state = .faulted then s.ctxDone cmd c 0x03
    else
      (s.modCtx e i fun y => { y with
        cls := openClass c, cring := openCring c, wsid := BitVec.ofNat 16 (cArg c 0x1C 2)
        userTag := BitVec.ofNat 64 (cArg c 0x20 8) }).ctxDone cmd c 0

/-! ## CLOSE_CONTEXT -/

/-- Closes a context at once, or at the end of its batch (R468). DEDUCED: a FAULTED context that is closed while an
earlier close of it still waits for the end of its batch is closed now, and both commands complete (log 45). -/
def execCloseContext (r : RingRef) (c : Desc) (s : State) : Out :=
  ctxCommand r c (argsClean c []) s fun e i cmd y s =>
    match y.state with
    | .idle => s.ctxDone cmd c 0x02
    | .queued | .faulted =>
      (if y.closing.isSome then s.finishClose e i else s.closeCtx e i).ctxDone cmd c 0
    | _ =>
      if y.closing.isSome then s.ctxDone cmd c 0x03
      else s.modCtx e i fun y => { y with closing := some cmd }

/-! ## APPEND_INPUT and FETCH_RESULT -/

/-- The entry that a command adds. -/
def entryOf (c : Desc) (p : Fin 2) : CtxEntry :=
  { addr := BitVec.ofNat 64 (cArg c 0x18 8), length := cArg c 0x20 4, offset := 0, port := p }

/-- The host address is aligned, LENGTH is a multiple of 64 and not 0 (R464). -/
def entryGood (c : Desc) : Bool :=
  argsClean c [wholeArg 0x18 8, wholeArg 0x20 4] && cArg c 0x18 8 % 64 == 0
    && cArg c 0x20 4 % 64 == 0 && cArg c 0x20 4 != 0

/-- Adds an entry to a context that is open and not FAULTED and has room for it. -/
def State.addEntry (s : State) (c : Desc) (e i : Nat) (cmd : CmdRef) (y : Ctx) (n : Nat)
    (f : Ctx → Ctx) : State :=
  if y.state = .idle then s.ctxDone cmd c 0x02
  else if y.state = .faulted then s.ctxDone cmd c 0x03
  else if 4 ≤ n then s.ctxDone cmd c 0x06
  else (s.modCtx e i f).ctxDone cmd c 0

def execAppendInput (r : RingRef) (c : Desc) (s : State) : Out :=
  ctxCommand r c (entryGood c) s fun e i cmd y s =>
    s.addEntry c e i cmd y y.inputs.length fun y =>
      { y with inputs := y.inputs ++ [entryOf c r.port], submitPort := r.port }

def execFetchResult (r : RingRef) (c : Desc) (s : State) : Out :=
  ctxCommand r c (entryGood c) s fun e i cmd y s =>
    s.addEntry c e i cmd y y.outputs.length fun y =>
      { y with outputs := y.outputs ++ [entryOf c r.port], submitPort := r.port }

end Sys2Proof.Machine
end

