-- ==== Sys2Proof/Machine/Images.lean ====
section
/-! DEFINITION. Aclith images: their bytes, their sections and the checks of the loader's first step
(R276 to R281, R421, R422, R473). -/

namespace Sys2Proof.Machine

/-! ## What an image holds -/

/-- A section of an image (R278). -/
structure Section where
  kind : Nat
  vdie : Nat
  vtile : Nat
  data : List Byte
  deriving DecidableEq, Repr

/-- An image after its first checks; a dimension is MDIM, CLASS and DOUBLED (R276, R277). -/
structure Image where
  horizon : Nat
  fill : Nat
  fwMin : Nat
  dims : List (Nat × Nat × Bool)
  span : Bool
  sections : List Section
  deriving DecidableEq, Repr

/-- The first `n` 64-bit words of a byte string. -/
def wordList : List Byte → Nat → List W64
  | _, 0 => []
  | bs, n + 1 => BitVec.ofNat 64 (leNat (bs.take 8)) :: wordList (bs.drop 8) n

/-- All 64-bit words of a byte string. -/
def words8 (bs : List Byte) : List W64 := wordList bs (bs.length / 8)

/-- All 32-byte entries of a byte string that follow `skip` bytes. -/
def entries32 (bs : List Byte) (skip : Nat) : List (List Byte) :=
  (List.range ((bs.length - skip) / 32)).map fun i => (bs.drop (skip + 32 * i)).take 32

/-- Every byte of a range is zero. -/
def zeroBytes (bs : List Byte) (off n : Nat) : Bool := ((bs.drop off).take n).all (· == 0)

/-! ## The header (R276, R277) -/

def dimOf (e : Nat) : Nat × Nat × Bool := (e % 16, e / 16 % 8, e.testBit 7)

/-- The virtual module bits of the grid (R281). -/
def gridMask (dims : List (Nat × Nat × Bool)) : Nat := dims.foldl (fun m d => m ||| 2 ^ d.1) 0

/-- A DIM_TABLE entry in use keeps R277. -/
def dimGood (e : Nat) : Bool :=
  let (m, cls, dbl) := dimOf e
  decide (e < 256) && cls != 0 && decide (m ≤ 9) && (!dbl || decide (m ≤ 3))

/-- Digest of an image: its DIGEST field counts as zero (R276). -/
def imageDigest (raw : List Byte) : BitVec 256 :=
  shake256 (raw.take 0x10 ++ List.replicate 32 0 ++ raw.drop 0x30)

/-- The image header keeps R276 and R277. -/
def imageHeaderGood (raw : List Byte) : Bool :=
  let n := fieldLE raw 0x33 1
  let es := (List.range 10).map fun i => fieldLE raw (0x38 + 2 * i) 2
  decide (0x60 ≤ raw.length) && fieldLE raw 0 4 == 0x314C4341 && fieldLE raw 4 2 == 1
    && fieldLE raw 6 2 != 0 && fieldLE raw 8 8 == raw.length
    && decide (8 ≤ fieldLE raw 0x30 2) && decide (fieldLE raw 0x30 2 ≤ 1024)
    && decide (28 ≤ fieldLE raw 0x32 1) && decide (fieldLE raw 0x32 1 ≤ 31) && decide (n ≤ 10)
    && (es.take n).all dimGood && (es.drop n).all (· == 0)
    && decide (((es.take n).map (· % 16)).Nodup)
    && decide (fieldLE raw 0x4C 4 ≤ 1) && zeroBytes raw 0x50 16
    && decide (0x60 + 24 * fieldLE raw 6 2 ≤ raw.length)
    && imageDigest raw == BitVec.ofNat 256 (fieldLE raw 0x10 32)

/-! ## Contents of the sections -/

/-- Bits of a port table entry that an image may set (R320). -/
def portMask : W64 := maskOf 63 63 ||| maskOf 57 52 ||| maskOf 43 40 ||| maskOf 31 24

/-- A header template: BEAT, CHECK and the bits between them are zero (R422). -/
def templateClean (h : Header) : Bool := bitsOf h 41 0 == 0

def headerAt (e : List Byte) : Header := BitVec.ofNat 128 (fieldLE e 16 16)

/-- An entry of a memory schedule keeps R422: fields that its TYPE does not use are zero. -/
def schedGood (e : List Byte) : Bool :=
  let ty := fieldLE e 4 1
  let intake := ty == 2 || ty == 3
  let zero := fun (off n : Nat) => fieldLE e off n == 0
  decide (1 ≤ ty) && decide (ty ≤ 4) && decide (fieldLE e 5 1 ≤ 63) && zero 14 2
    && (if intake then decide (fieldLE e 7 1 ≤ 3) && zero 8 4 && zero 16 16
        else zero 6 2 && templateClean (headerAt e))
    && (if ty == 4 then decide (fieldLE e 12 2 ≤ 4095) else zero 12 2)

def schedType (n : Nat) : SchedType :=
  match n with
  | 1 => .send
  | 2 => .intakeRead
  | 3 => .intakeWrite
  | _ => .slotSend

def schedEntry (e : List Byte) : SchedEntry :=
  { pos := fieldLE e 0 4, type := schedType (fieldLE e 4 1), len := fieldLE e 5 1
    ft0 := fieldLE e 6 1, region := fieldLE e 7 1, addr := fieldLE e 8 4, slot := fieldLE e 12 2
    hdr := headerAt e }

/-- A memory schedule section keeps R421 and R422; its entries stand in order of position. -/
def memSectionGood (bs : List Byte) : Bool :=
  decide (32 ≤ bs.length) && bs.length == 32 + 32 * fieldLE bs 4 4 && fieldLE bs 0 4 % 384 == 0
    && zeroBytes bs 16 16 && (entries32 bs 32).all schedGood
    && decide (((entries32 bs 32).map (fieldLE · 0 4)).Pairwise (· ≤ ·))

/-- An entry of a batch schedule keeps R473. DESIGN CHOICE: the fields of its header template that a die fills in are
zero (log 84). -/
def batchEntryGood (bperiod resSel : Nat) (e : List Byte) : Bool :=
  decide (fieldLE e 0 2 ≤ 4095) && decide (fieldLE e 2 1 ≤ 1) && fieldLE e 3 1 == 0
    && decide (fieldLE e 4 4 < bperiod) && zeroBytes e 8 8
    && (fieldLE e 2 1 == 0 || decide (resSel < fieldLE e 4 4)) && templateClean (headerAt e)

/-- A record size of a batch schedule (R473). -/
def recordSizeGood (n : Nat) : Bool := decide (n ≤ 4032) && n % 64 == 0

/-- A batch schedule section keeps R473. -/
def batchSectionGood (bs : List Byte) : Bool :=
  let p := fieldLE bs 0 4
  decide (32 ≤ bs.length) && bs.length == 32 + 32 * fieldLE bs 8 2 && decide (fieldLE bs 8 2 ≤ 512)
    && p % 64 == 0 && decide (256 ≤ p) && decide (p ≤ 1048576) && decide (fieldLE bs 4 4 < p)
    && recordSizeGood (fieldLE bs 10 2) && recordSizeGood (fieldLE bs 12 2)
    && decide (fieldLE bs 14 2 < p) && zeroBytes bs 16 16
    && (entries32 bs 32).all (batchEntryGood p (fieldLE bs 14 2))

def batchEntry (e : List Byte) : BatchEntry :=
  { slot := fieldLE e 0 2, reserved := fieldLE e 2 1 == 1, emit := fieldLE e 4 4, hdr := headerAt e }

/-- The contents of a section of a kind are valid (R279, R289). -/
def contentsGood (kind : Nat) (bs : List Byte) : Bool :=
  match kind with
  | 1 | 9 => bs.length % 8 == 0
  | 2 => decide (8 ≤ bs.length)
  | 3 => bs.length == 4096 && (words8 bs).all fun w => w &&& ~~~landInfo.rw == 0
  | 4 => bs.length == 8 && fieldLE bs 0 4 &&& 0xE000E000 == 0 && decide (fieldLE bs 4 1 < 16)
      && zeroBytes bs 5 3
  | 5 => bs.length % 4 == 0
      && (List.range (bs.length / 4)).all fun i => fieldLE bs (4 * i) 4 % 8 == 0
  | 6 => bs.length % 8 == 0 && decide (bs.length ≤ 32768)
      && (words8 bs).all fun w => w &&& ~~~portMask == 0
  | 7 => memSectionGood bs
  | 8 => batchSectionGood bs
  | _ => false

/-! ## The section table (R278 to R280) -/

def tileKind (k : Nat) : Bool := (decide (1 ≤ k) && decide (k ≤ 5)) || k == 9

/-- Bytes of section-table entry `i`. -/
def tableEntry (raw : List Byte) (i : Nat) : List Byte := (raw.drop (0x60 + 24 * i)).take 24

def sectionOf (raw : List Byte) (i : Nat) : Section :=
  let e := tableEntry raw i
  { kind := fieldLE e 0 2, vdie := fieldLE e 2 2, vtile := fieldLE e 4 2
    data := (raw.drop (fieldLE e 8 8)).take (fieldLE e 16 8) }

/-- A virtual die of the grid (R281). -/
def vdieGood (grid v : Nat) : Bool := (v / 64) &&& (1023 - grid) == 0 && decide (v % 64 ≤ 39)

/-- A section-table entry keeps R278 and R279, and its section's contents are valid. -/
def sectionGood (raw : List Byte) (grid i : Nat) : Bool :=
  let e := tableEntry raw i
  let s := sectionOf raw i
  fieldLE e 6 2 == 0 && fieldLE e 8 8 % 8 == 0
    && decide (fieldLE e 8 8 + fieldLE e 16 8 ≤ raw.length) && vdieGood grid s.vdie
    && (if tileKind s.kind then decide (s.vdie % 64 < 32) && decide (s.vtile ≤ 255)
        else s.vtile == 0xFFFF && (s.kind != 8 || decide (32 ≤ s.vdie % 64)))
    && contentsGood s.kind s.data

/-- Sections of a kind for a tile, or with tile 0xFFFF for a die. -/
def sectionsOf (ss : List Section) (kind vdie vtile : Nat) : List Section :=
  ss.filter fun s => s.kind == kind && s.vdie == vdie && s.vtile == vtile

/-- The sections of one tile or die make up what R280 asks for. DEDUCED: R280 gives no limit for relocation
lists, SRAM contents and source maps of one tile; all of them count (log 43). -/
def groupGood (ss : List Section) (vdie vtile : Nat) : Bool :=
  let n := fun k => (sectionsOf ss k vdie vtile).length
  if vtile == 0xFFFF then decide (n 6 ≤ 1) && decide (n 7 ≤ 1) && decide (n 8 ≤ 1)
  else if n 1 = 0 then n 3 == 0 && n 4 == 0 && n 5 == 0
  else n 1 == 1 && n 3 == 1 && n 4 == 1

/-- Token slots that the batch schedules of a virtual module name (R473). -/
def tokenSlots (ss : List Section) (vmod : Nat) : List Nat :=
  (ss.filter fun s => s.kind == 8 && s.vdie / 64 == vmod).flatMap fun s =>
    (entries32 s.data 32).map fun e => fieldLE e 0 2

/-- FW_MIN of an image (R276). -/
def imageFwMin (raw : List Byte) : Nat := fieldLE raw 0x34 4

/-- An image that passes the first step of a load; `none` ends it with status 0x01 (R288, R289). -/
def parseImage (raw : List Byte) : Option Image :=
  if !imageHeaderGood raw then none
  else
    let dims := (List.range (fieldLE raw 0x33 1)).map fun i => dimOf (fieldLE raw (0x38 + 2 * i) 2)
    let n := fieldLE raw 6 2
    let ss := (List.range n).map (sectionOf raw)
    if (List.range n).all (sectionGood raw (gridMask dims))
        && ss.all (fun s => groupGood ss s.vdie s.vtile)
        && ss.all (fun s => decide (tokenSlots ss (s.vdie / 64)).Nodup) then
      some { horizon := fieldLE raw 0x30 2, fill := fieldLE raw 0x32 1, fwMin := fieldLE raw 0x34 4
             dims := dims, span := fieldLE raw 0x4C 4 == 1, sections := ss }
    else none

end Sys2Proof.Machine
end

