-- ==== Sys2Proof/Machine/Records.lean ====
section
/-! DEFINITION. The configuration flash: records and which of them is live, appending and compaction,
and the disabled-unit map (R549 to R558). -/

namespace Sys2Proof.Machine

/-! ## Records (R552 to R554) -/

abbrev recSecret : Nat := 0x0001
abbrev recCertificate : Nat := 0x0002
abbrev recTrims : Nat := 0x0010
abbrev recMap : Nat := 0x0020
abbrev recIndex : Nat := 0x0030
abbrev recFloor : Nat := 0x0040
abbrev recSettings : Nat := 0x0050

/-- SUBJECT of a record that is not of one die. -/
abbrev noSubject : Nat := 0xFFFF

/-- Bytes of a number, most significant first. -/
def beBytes (v n : Nat) : List Byte := (leBytes v n).reverse

/-- Header and payload: what the signature covers. -/
def Record.message (r : Record) : List Byte :=
  leBytes r.magic.toNat 4 ++ leBytes r.type.toNat 2 ++ [r.signer, r.reserved.setWidth 8] ++ leBytes r.seq.toNat 8
    ++ leBytes r.payload.length 4 ++ leBytes r.subject.toNat 2 ++ leBytes (r.reserved.toNat / 2 ^ 8) 10 ++ r.payload

def Record.bytes (r : Record) : List Byte := r.message ++ r.sig

/-- Flash bytes of a record, which begins on a 64-byte boundary. -/
def Record.room (r : Record) : Nat := (32 + r.payload.length + r.sig.length + 63) / 64 * 64

/-- MAGIC, the reserved bytes and LENGTH are valid, and TYPE and SIGNER go together (R552 to R554). -/
def Record.kindGood (r : Record) : Bool :=
  let t := r.type.toNat
  if r.magic != 0x44434652 || r.reserved != 0 || decide (65536 < r.payload.length) then false
  else if t == recSecret || t == recCertificate || t == recTrims then r.signer == 0
  else if t == recMap then r.signer == 0 || r.signer == 1
  else (t == recIndex || t == recFloor || t == recSettings) && r.signer == 1

/-- The signature of the identity key with an index: the index, then what XMSS^MT derives from the seeds and the
message (R572). -/
def identitySign (seeds : List Byte) (index : Nat) (msg : List Byte) : List Byte :=
  beBytes index 5 ++ (List.range 9888).map (Config.signatureByte seeds index msg)

/-- The signature of a SIGNER 0 record verifies under the factory key. -/
def Record.factoryGood (r : Record) : Bool :=
  r.kindGood && r.signer == 0 && r.sig.length == 2820 && Config.signatureGood 1 r.message r.sig

/-- The signature of a SIGNER 1 record verifies under a public key: it was made with the seeds that the key belongs
to, or it verifies as another signature of it. -/
def Record.identityGood (r : Record) (publicKey seeds : List Byte) : Bool :=
  r.kindGood && r.signer == 1 && r.sig.length == 9893
    && ((publicKey == Config.publicKey seeds
          && r.sig == identitySign seeds (leNat (r.sig.take 5).reverse) r.message)
        || Config.identityVerifies publicKey r.message r.sig)

/-- All records, in the order of the areas. -/
def Flash.records (f : Flash) : List Record := f.factory ++ f.banks

/-- Key of a TYPE and a SUBJECT in the table of live records. -/
def recKey (type subject : Nat) : Nat := type * 2 ^ 16 + subject

/-- Takes a record into the table of live records: the highest SEQ wins. -/
def takeLive (m : Table Record) (r : Record) : Table Record :=
  let k := recKey r.type.toNat r.subject.toNat
  match tget m k with
  | some b => if b.seq.toNat < r.seq.toNat then tput m k r else m
  | none => tput m k r

/-- The live record of a TYPE that only the factory key signs. -/
def Flash.factoryLive (f : Flash) (type : Nat) : Option Record :=
  tget ((f.records.filter Record.factoryGood).foldl takeLive []) (recKey type noSubject)

/-- The public key of the good identity certificate (R553, R554). -/
def Flash.identityKey (f : Flash) : Option (List Byte) :=
  (f.factoryLive recCertificate).map fun r => (r.payload.drop 16).take 68

/-- SK_SEED and SK_PRF of the live identity secret record (R553). -/
def Flash.seeds (f : Flash) : List Byte :=
  match f.factoryLive recSecret with
  | some r => r.payload.take 64
  | none => []

/-- A record is good (R554). -/
def Flash.good (f : Flash) (r : Record) : Bool :=
  r.factoryGood || match f.identityKey with
    | some k => r.identityGood k f.seeds
    | none => false

/-- The live records, in order of TYPE and then SUBJECT. -/
def Flash.liveAll (f : Flash) : Table Record := (f.records.filter f.good).foldl takeLive []

/-- The live record of a TYPE and SUBJECT. -/
def Flash.live (f : Flash) (type : Nat) (subject : Nat := noSubject) : Option Record :=
  tget f.liveAll (recKey type subject)

/-- SEQ of the next record of a TYPE and SUBJECT: one above the live one. -/
def Flash.nextSeq (f : Flash) (type : Nat) : Nat :=
  match f.live type with
  | some r => r.seq.toNat + 1
  | none => 1

/-- Bytes of a record bank. -/
abbrev bankSize : Nat := 0x400000

/-- Flash offset of each record of a list that begins at an offset. -/
def recOffsets : Nat → List Record → List (Nat × Record)
  | _, [] => []
  | o, r :: rs => (o, r) :: recOffsets (o + r.room) rs

/-- Flash offset of the active record bank. -/
def Flash.bankBase (f : Flash) : Nat := if f.bankB then 0xD00000 else 0x900000

/-- Every record with its flash offset. -/
def Flash.placed (f : Flash) : List (Nat × Record) :=
  recOffsets 0 f.factory ++ recOffsets f.bankBase f.banks

/-- Changes the flash. -/
def State.modFlash (s : State) (f : Flash → Flash) : State :=
  { s with boot := { s.boot with flash := f s.boot.flash } }

def State.flash (s : State) : Flash := s.boot.flash

/-- Adds to a counter of the CFG_ block. -/
def State.bumpCfg (s : State) (off : Nat) (n : Nat := 1) : State :=
  s.setCfg off (s.cfg off + BitVec.ofNat 64 n)

/-- A field of a CFG_ register. -/
def State.setCfgField (s : State) (off hi lo v : Nat) : State :=
  s.setCfg off (setBits (s.cfg off) hi lo v)

/-- Flash bytes that the flash interface erases and programs: the image slot and the record banks (R550, R551). -/
def flashWritable (off n : Nat) : Bool := decide (0x100000 ≤ off) && decide (off + n ≤ 0x1100000)

/-- A request to erase or program goes through the flash interface, which refuses and counts one for another area
(R551). -/
def State.flashOp (s : State) (off n : Nat) (act : State → State) : State :=
  if flashWritable off n then act s else s.bumpCfg cFlashRefused

/-- What was programmed or erased does not read back as it should (R579). -/
def State.flashError (s : State) (off : Nat) : State := s.logEvent 32 0xA8 (BitVec.ofNat 64 off)

/-- Bytes that the records of the active bank take. -/
def Flash.used (f : Flash) : Nat := f.banks.foldl (fun n b => n + b.room) 0

/-- Compaction: every live record is copied into the other bank and read back, and then the full bank is erased (R556).
DESIGN CHOICE: after a bad readback the full bank stays, and what was to be written is not (log 49). -/
def State.compact (s : State) : State × Bool :=
  let f := s.flash
  let off := if f.bankB then 0x900000 else 0xD00000
  if Config.readbackGood s.fz then
    ((s.used.flashOp f.bankBase bankSize (·.bumpCfg cFlashErases)).modFlash fun f =>
      { f with banks := f.liveAll.map (·.2), bankB := !f.bankB }, true)
  else (s.used.flashError off, false)

/-- Firmware appends a record and reads it back; when the active bank is full it compacts first (R556). Whether the
record is there as it was written; else its signature in the flash is open (log 49). -/
def State.appendRecord (s : State) (r : Record) : State × Bool :=
  let (s, fits) := if s.flash.used + r.room ≤ bankSize then (s, true) else s.compact
  if !fits then (s, false)
  else
    let off := s.flash.bankBase + s.flash.used
    if !flashWritable off r.room then (s.bumpCfg cFlashRefused, false)
    else if Config.readbackGood s.fz then (s.used.modFlash fun f => { f with banks := f.banks ++ [r] }, true)
    else
      let bad := { r with sig := (List.range r.sig.length).map (Config.misreadByte s.fz) }
      ((s.used.modFlash fun f => { f with banks := f.banks ++ [bad] }).flashError off, false)

/-! ## The disabled-unit map (R557) -/

/-- Entry of region `r` of C-die `c` in the live map; without a record no cluster is disabled and
the trims are 0 (log 4). -/
def Flash.mapEntry (f : Flash) (c r : Nat) : Nat :=
  match f.live recMap with
  | some m => fieldLE m.payload (8 * c + 2 * r) 2
  | none => 0xF

def meSub (e : Nat) : Nat := e % 16
def meFailed (e : Nat) : Bool := e.testBit 7
def meFtrim (e : Nat) : Nat := e / 16 % 8
def meDtrim (e : Nat) : Nat := e / 256 % 16

/-- The entry makes its die disabled. -/
def meBad (e : Nat) : Bool := meFailed e || (decide (9 ≤ meSub e) && decide (meSub e ≤ 14))

/-- The live map disables a C-die (R36, R557). -/
def Flash.dieDisabled (f : Flash) (c : Nat) : Bool :=
  (List.range 4).any fun r => meBad (f.mapEntry c r)

/-- A die whose trims are on record, or that reset has left released before any boot (R555, log 4). -/
def State.trimmed (s : State) (d : Nat) : Bool :=
  (s.flash.live recTrims d).isSome || bitsOf (s.cfg cBootStatus) 31 29 == 0

/-- A C-die is disabled by the live map, or for want of its trims (R36, R555). -/
def State.dieDisabled (s : State) (c : Nat) : Bool := s.flash.dieDisabled c || !s.trimmed c

/-- CDIE_SPARE_MAP of the live map, without MAP_PENDING (R53, R555, R600). -/
def State.mapWord (s : State) (c : Nat) : W64 :=
  let f := s.flash
  BitVec.ofNat 64 ((s.dieDisabled c).toNat * 2 ^ 31 + meSub (f.mapEntry c 0)
    + meSub (f.mapEntry c 1) * 2 ^ 4 + meSub (f.mapEntry c 2) * 2 ^ 8
    + meSub (f.mapEntry c 3) * 2 ^ 12)

/-- CDIE_REGION_TRIM of the live map (R272). -/
def Flash.trimWord (f : Flash) (c r : Nat) : W64 :=
  BitVec.ofNat 64 (meFtrim (f.mapEntry c r) * 2 ^ 8 + meDtrim (f.mapEntry c r))

end Sys2Proof.Machine
end

