-- ==== Sys2Proof/Machine/Load.lean ====
section
/-! DEFINITION. LOAD_SCHEDULE: placement, the loader's checks in their order, relocation and what a
completed load writes (R260, R261, R282 to R292, R424). -/

namespace Sys2Proof.Machine

/-! ## Placement (R282 to R284, R470) -/

def plBase (p : W32) : Nat := bitsOf p 9 0
def plMask (p : W32) : Nat := bitsOf p 19 10

/-- A module dimension after the pair swaps. -/
def swapDim (p : W32) (d : Nat) : Nat := if bitOf p (20 + d / 2) then d ^^^ 1 else d

/-- The virtual module bits after the pair swaps. -/
def permModule (p : W32) (v : Nat) : Nat :=
  (List.range 10).foldl (fun n d => if v.testBit d then n ||| 2 ^ swapDim p d else n) 0

/-- The exchange of bits 0 and 1 of a C-die or service link number (R283). -/
def sigma (p : W32) (c : Nat) : Nat :=
  if bitOf p 27 then c / 4 * 4 + c % 2 * 2 + c / 2 % 2 else c

/-- Physical cube link of a virtual one: link `d` leads along bit `d` of the die number, so links 0 and 1
are exchanged (R284). -/
def cubeLink (p : W32) (d : Nat) : Nat := if bitOf p 27 && decide (d < 2) then 1 - d else d

/-- Physical local die of a virtual local die (R283). -/
def physLocal (p : W32) (c : Nat) : Nat := if c < 32 then sigma p c ^^^ bitsOf p 26 25 else c

/-- Physical die number of a virtual die number (R282, R283). -/
def physDie (p : W32) (v : Nat) : Nat :=
  (plBase p ^^^ plMask p ^^^ permModule p (v / 64)) * 64 + physLocal p (v % 64)

/-- Physical slice dimensions. -/
def sliceMask (p : W32) (dims : List (Nat × Nat × Bool)) : Nat := permModule p (gridMask dims)

/-- The placement is permitted, and the module lies in the placed slice (R282, R288). -/
def placementGood (p : W32) (dims : List (Nat × Nat × Bool)) (module : Nat) : Bool :=
  let m := sliceMask p dims
  plBase p &&& m == 0 && plMask p &&& (1023 - m) == 0
    && (module ^^^ plBase p) &&& (1023 - m) == 0

/-! ## The slice's ports (R260, R261, R284, R291) -/

/-- Hold-path bound of a class in ns (R261). -/
def classBound (cls : Nat) : Nat :=
  match cls with
  | 1 => 80
  | 2 => 96
  | 3 => 128
  | 4 => 656
  | 5 => 1664
  | 6 => 5152
  | _ => 10160

/-- The least horizon (R260). -/
def leastHorizon (classes : List Nat) : Nat :=
  let edge := 60
  let n := classes.length
  let p := if n = 0 then edge
    else 2 * edge + classes.foldl (fun t c => t + classBound c + 4) 0 + (n - 1) * edge
  max 8 (1 + (8 + 8 + p + 15) / 16)

/-- E-die and port code of a fabric port of the module (R320). -/
def portPlace (fp : Nat) : Nat × Nat := (32 + fp / 2, 16 + fp)

/-- The fabric ports that carry the slice's dimensions: E-die, port code, module dimension and
class. -/
def slicePorts (p : W32) (dims : List (Nat × Nat × Bool)) : List (Nat × Nat × Nat × Nat) :=
  dims.flatMap fun (m, cls, dbl) =>
    let d := swapDim p m
    (if dbl then [d, 10 + d] else [d]).map fun fp =>
      ((portPlace fp).1, (portPlace fp).2, d, cls)

/-- Mean measured delay of a port in units of 0.25 ns (R397). -/
def Die.meanDelay (x : Die) (d p : Nat) : Nat := x.lfield d p lDelay 23 0

/-! ## Relocation (R286, R287, R424) -/

/-- What relocation depends on: the placement, the grid, the target bank, the module's own number, the
maps that its C-dies will use, and the serial of those of the other modules (R286). -/
structure Reloc where
  place : W32
  grid : Nat
  bank : Bool
  module : Nat
  maps : List W64
  remote : Nat
  deriving DecidableEq, Repr

/-- Physical tile of a virtual tile on a physical die (R286). -/
def Reloc.tile (r : Reloc) (die u : Nat) : Nat :=
  physTile (if die / 64 = r.module then r.maps.getD (die % 64) 0 else Config.remoteMap die r.remote) u

/-- Physical number of a TILE or DEST field on a virtual die: a virtual tile, or an endpoint code, which
is kept; `none` refuses the load. -/
def Reloc.dest (r : Reloc) (vdie t : Nat) : Option Nat :=
  if t < 256 ∧ vdie % 64 < 32 then some (r.tile (physDie r.place vdie) t)
  else if t = destMem ∨ t = destCtx then some t
  else none

/-- A send descriptor after relocation. -/
def Reloc.desc (r : Reloc) (v : W64) : Option W64 :=
  let vdie := bitsOf v 63 48
  if !vdieGood r.grid vdie then none
  else (r.dest vdie (bitsOf v 47 39)).map fun t =>
    setBits (setBits (setBits v 63 48 (physDie r.place vdie)) 47 39 t) 29 29 r.bank.toNat

/-- A header template after relocation. -/
def Reloc.header (r : Reloc) (h : Header) : Option Header :=
  let vdie := hDie h
  if !vdieGood r.grid vdie then none
  else
    let dest := if hKind h = 0 then r.dest vdie (hDest h) else some (hDest h)
    dest.map fun t =>
      let upper := physDie r.place vdie * 2 ^ 9 + t
      BitVec.ofNat 128 (upper * 2 ^ 103 + hKind h * 2 ^ 101 + r.bank.toNat * 2 ^ 100 + bitsOf h 99 0)

/-- Applies a relocation to every entry of a list. -/
def allSome {α β : Type} (f : α → Option β) : List α → Option (List β)
  | [] => some []
  | a :: as =>
    match f a, allSome f as with
    | some b, some bs => some (b :: bs)
    | _, _ => none

/-! ## One tile (R84, R279, R280, R287, R290) -/

/-- Two byte runs, start and length, overlap. -/
def runsOverlap (a b : Nat × Nat) : Bool :=
  decide (a.1 < b.1 + b.2) && decide (b.1 < a.1 + a.2) && a.2 != 0 && b.2 != 0

/-- No two runs of a list overlap. -/
def runsApart (l : List (Nat × Nat)) : Bool := decide (l.Pairwise fun a b => runsOverlap a b = false)

/-- The landing places of a table as byte runs. -/
def landingRuns (es : List W64) : List (Nat × Nat) :=
  (es.filter leEnable).map fun e => (64 * leBase e, 64 * (leLength e + 1))

/-- The byte of SRAM contents at an offset. -/
def contentAt (sram : List (Nat × List Byte)) (o : Nat) : Option Byte :=
  sram.findSome? fun a => if a.1 ≤ o then a.2[o - a.1]? else none

/-- The SRAM contents with another byte at an offset. -/
def putContent (sram : List (Nat × List Byte)) (o : Nat) (b : Byte) : List (Nat × List Byte) :=
  sram.map fun a => if a.1 ≤ o then (a.1, listSet a.2 (o - a.1) b) else a

/-- Rewrites the descriptor at an SRAM offset, which may lie across sections; `none` refuses the load.
DEDUCED: a descriptor that runs past the end of the contents lies outside them (R287, log 43). -/
def Reloc.rewrite (r : Reloc) (o : Nat) (sram : List (Nat × List Byte)) :
    Option (List (Nat × List Byte)) :=
  let os := (List.range 8).map (o + ·)
  match allSome (contentAt sram) os with
  | none => none
  | some bs =>
    (r.desc (BitVec.ofNat 64 (leNat bs))).map fun v =>
      (os.zip (leBytes v.toNat 8)).foldl (fun m e => putContent m e.1 e.2) sram

/-- Rewrites all the descriptors that a relocation list names. -/
def Reloc.rewriteAll (r : Reloc) (os : List Nat) (sram : List (Nat × List Byte)) :
    Option (List (Nat × List Byte)) :=
  os.foldl (fun acc o => acc.bind (r.rewrite o)) (some sram)

/-- The words of the idle stream: WAITBEAT, then BR with COND 0 to the first word of the bank
(R219, R280). -/
def idleWords (first : Nat) : List W64 :=
  [BitVec.ofNat 64 (3 * 2 ^ 62 + 3 * 2 ^ 54),
   BitVec.ofNat 64 (3 * 2 ^ 62 + 2 * 2 ^ 54 + first * 2 ^ 35)]

/-- First word of a bank's stream. -/
def firstWord (bank span : Bool) : Nat := if bank && !span then 4096 else 0

/-- A tile whose banks, window or OVF_FAULT_EN conflict with a live load (R290). -/
def Tile.liveConflict (y : Tile) (armedSwitch bank : Bool) (sram : List (Nat × Nat))
    (ovf : Option (BitVec 4)) : Bool :=
  y.span || (y.validBank bank && armedSwitch)
    || sram.any (fun r => runsOverlap r (y.window.1, y.window.2 - y.window.1))
    || (match ovf with | some v => v != y.ovfEn | none => false)

/-- The landing places keep R84 within the window of an allocation word. -/
def landingsGood (alloc : Nat) (land : List W64) : Bool :=
  let base := alloc % 2 ^ 13
  let limit := alloc / 2 ^ 16 % 2 ^ 13
  let runs := landingRuns land
  decide (base ≤ 6143) && decide (limit ≤ 6144) && runsApart runs
    && runs.all fun a => decide (128 * base ≤ a.1) && decide (a.1 + a.2 ≤ 128 * limit)

/-- What a load writes to a tile of virtual number `u`, or the R289 code that ends it. -/
def tilePlan (r : Reloc) (img : Image) (live armedSwitch : Bool) (vdie u : Nat) (y : Tile) :
    Except Nat TilePlan :=
  let part := fun k => (sectionsOf img.sections k vdie u).map (·.data)
  let sram := (part 2).map fun bs => (fieldLE bs 0 8, bs.drop 8)
  let runs := sram.map fun a => (a.1, a.2.length)
  let ctl := (part 4).head?
  let ovf := ctl.map fun bs => BitVec.ofNat 4 (fieldLE bs 4 1)
  if live && y.liveConflict armedSwitch r.bank runs ovf then .error 0x0A
  else if img.span && y.valid1 then .error 0x09
  else if runs.any (fun a => decide (0xC0000 < a.1 + a.2)) || !runsApart runs then .error 0x08
  else
    match part 1, ctl with
    | stream :: _, some c =>
      let land := words8 ((part 3).headD [])
      let alloc := fieldLE c 0 4
      let relocs := (part 5).flatMap fun bs =>
        (List.range (bs.length / 4)).map fun i => fieldLE bs (4 * i) 4
      if (if img.span then 8192 else 4096) < stream.length / 8 then .error 0x09
      else if !landingsGood alloc land then .error 0x08
      else
        match r.rewriteAll relocs sram with
        | none => .error 0x08
        | some sram => .ok { words := words8 stream, sram := sram, land := land
                             alloc := BitVec.ofNat 32 alloc, ovf := ovf }
    | _, _ => .ok { words := idleWords (firstWord r.bank img.span), sram := sram, land := []
                    alloc := 0, ovf := none }

/-- Writes a word of the instruction store. -/
def Tile.writeIstore (y : Tile) (w : Nat) (v : W64) : Tile :=
  { y with istore := tput y.istore w v, istoreBad := y.istoreBad.filter (· != w)
           istoreWeak := y.istoreWeak.filter (· != w) }

/-- Writes consecutive words of the instruction store. -/
def Tile.writeWords (y : Tile) (w : Nat) : List W64 → Tile
  | [] => y
  | v :: vs => (y.writeIstore w v).writeWords (w + 1) vs

/-- The landing table of a bank becomes the image's, every entry EMPTY (R86, R279). -/
def Tile.loadLanding (y : Tile) (bank : Bool) (es : List W64) : Tile :=
  let kept := y.land.filter fun e => e.1 / 512 != bank.toNat
  { y with land := ((List.range es.length).zip es).foldl (fun m e =>
      if e.2 = 0 then m else tput m (landKey bank.toNat e.1) e.2) kept }

/-- The SRAM contents of a load; their bytes are what the image of the bank has initialised (R113). -/
def Tile.loadSram (y : Tile) (bank : Bool) (sram : List (Nat × List Byte)) : Tile :=
  let y := sram.foldl (fun y a => y.storeSram a.1 a.2) y
  let runs := sram.foldl (fun m a => addRange a.1 (a.1 + a.2.length) m) []
  if bank then { y with init1 := runs } else { y with init0 := runs }

/-- VALID of a bank is set or cleared; a tile without a job is LOADED while a bank is VALID (R94). -/
def Tile.mark (y : Tile) (bank valid : Bool) : Tile :=
  let y := if bank then { y with valid1 := valid } else { y with valid0 := valid }
  if y.state = .idle ∨ y.state = .loaded then
    { y with state := if y.valid0 || y.valid1 then .loaded else .idle }
  else y

/-- A load writes a tile: its bank is not VALID while it does, and a spanning image that it overwrites in
part is no longer VALID either (R61, R288). -/
def Tile.load (y : Tile) (bank span live : Bool) (p : TilePlan) : Tile :=
  let y := (y.writeWords (firstWord bank span) p.words).loadSram bank p.sram
  let y := y.loadLanding bank p.land
  let y := if bank then { y with alloc1 := p.alloc } else { y with alloc0 := p.alloc }
  let y := match p.ovf with | some v => if live then y else { y with ovfEn := v } | none => y
  let y := if y.span && !span then { (y.mark false false).mark true false with span := false }
           else { y with span := span }
  y.mark bank false

/-! ## Port tables (R284, R285) -/

/-- Physical egress of a virtual port code on a die; `none` refuses the load. -/
def loadEgress (p : W32) (dims : List (Nat × Nat × Bool)) (d code : Nat) : Option Nat :=
  if code = egDeliver then some code
  else if !isEDie d then
    if code ≤ 4 then some (cubeLink p code) else if code = 5 then some 5 else none
  else if 8 ≤ code ∧ code ≤ 11 then some (8 + (sigma p (code - 8) ^^^ bitsOf p 26 25))
  else
    let fp := match dims[code % 16]? with
      | some (m, _, dbl) =>
        if 0x10 ≤ code ∧ code ≤ 0x19 then some (swapDim p m)
        else if 0x20 ≤ code ∧ code ≤ 0x23 ∧ dbl then some (10 + swapDim p m)
        else none
      | none => none
    fp.bind fun f => if (portPlace f).1 = d then some (portPlace f).2 else none

/-- A port table entry in physical codes. DESIGN CHOICE: an entry that is not VALID is neither translated nor checked
(log 83). -/
def loadRoute (p : W32) (dims : List (Nat × Nat × Bool)) (d : Nat) (v : W64) : Option W64 :=
  if !bitOf v 63 then some v
  else (loadEgress p dims d (bitsOf v 57 52)).map fun e => setBits v 57 52 e

/-! ## One die -/

/-- What a load writes to a die beside its tiles. -/
structure DiePlan where
  routes : List W64
  mem : MemSched
  aperture : W64
  batch : Option BatchSched
  deriving DecidableEq, Repr

/-- The memory schedule of a section after relocation (R424). -/
def loadMemSched (r : Reloc) (bs : List Byte) : Option (MemSched × W64) :=
  (allSome (fun e =>
    let a := schedEntry e
    match a.type with
    | .send | .slotSend => (r.header a.hdr).map fun h => { a with hdr := h }
    | _ => some a) (entries32 bs 32)).map fun es =>
      (⟨fieldLE bs 0 4, es⟩, BitVec.ofNat 64 (fieldLE bs 8 4 + fieldLE bs 12 4 * 2 ^ 32))

/-- The batch schedule of a section after relocation (R424, R473). -/
def loadBatchSched (r : Reloc) (bs : List Byte) : Option BatchSched :=
  (allSome (fun e =>
    let a := batchEntry e
    (r.header a.hdr).map fun h => { a with hdr := h }) (entries32 bs 32)).map fun es =>
      { bperiod := fieldLE bs 0 4, bfirst := fieldLE bs 4 4, inBytes := fieldLE bs 10 2
        outBytes := fieldLE bs 12 2, resSel := fieldLE bs 14 2, entries := es }

/-- What a load writes to a die, or the R289 code that ends it. DESIGN CHOICE: with no memory schedule section the
aperture of the bank is empty (log 83). -/
def diePlan (r : Reloc) (img : Image) (d vdie : Nat) : Except Nat DiePlan :=
  let part := fun k => ((sectionsOf img.sections k vdie 0xFFFF).head?).map (·.data)
  match allSome (loadRoute r.place img.dims d) (words8 ((part 6).getD [])) with
  | none => .error 0x0B
  | some routes =>
    let mem := match part 7 with | some bs => loadMemSched r bs | none => some (⟨0, []⟩, 0)
    let batch := match part 8 with | some bs => (loadBatchSched r bs).map some | none => some none
    match mem, batch with
    | some (m, ap), some b => .ok { routes := routes, mem := m, aperture := ap, batch := b }
    | _, _ => .error 0x08

/-- The port table of a bank becomes the image's. -/
def Die.loadRoutes (x : Die) (bank : Bool) (vs : List W64) : Die :=
  let base := rRoute0 + 0x8000 * bank.toNat
  let kept := x.regs.filter fun e => decide (e.1 < base) || decide (base + 0x8000 ≤ e.1)
  { x with regs := ((List.range vs.length).zip vs).foldl (fun m e =>
      if e.2 = 0 then m else tput m (base + 8 * e.1) e.2) kept }

/-- A load writes a die's tables and schedules (R288, R424, R444). -/
def Die.loadTables (x : Die) (bank : Bool) (p : DiePlan) : Die :=
  let x := (x.loadRoutes bank p.routes).setReg (if bank then rAperture1 else rAperture0) p.aperture
  if bank then
    { x with mem := { x.mem with sched1 := p.mem }, ctx := { x.ctx with sched1 := p.batch } }
  else { x with mem := { x.mem with sched0 := p.mem }, ctx := { x.ctx with sched0 := p.batch } }

/-- The latest disabled-unit map comes into force (R34, R600). -/
def Die.applyMap (x : Die) (d : Nat) : Die :=
  if isEDie d then x else x.setReg rSpareMap (x.reg d rSpareMapNext)

/-- HORIZON and FILL of the image (R260, R290, R602). -/
def Die.loadHorizon (x : Die) (d h f : Nat) : Die :=
  { (x.setField d rBeatCtrl 25 16 (h - 1)).setField d rBeatCtrl 12 8 f with horizonSet := true }

/-- CLASS and SLICE of the die's links: its die links, and the ports of the slice, belong to the
slice (R291, R395). -/
def Die.loadLinks (x : Die) (d : Nat) (ports : List (Nat × Nat × Nat × Nat)) : Die :=
  (portsOf d).foldl (fun x p =>
    if !isFabricPort p then x.setLField d p lCtrl 0 0 1
    else
      match ports.find? fun q => q.1 == d && q.2.1 == p with
      | some q => (x.setLField d p lCtrl 18 16 q.2.2.2).setLField d p lCtrl 0 0 1
      | none => x.setLField d p lCtrl 0 0 0) x

/-! ## The checks of steps 1 to 4 (R288) -/

/-- How a check of a load ends: it passes, it fails with an R289 code, or it waits. -/
inductive Check where
  | pass
  | fail (code : Nat)
  | wait
  deriving DecidableEq, Repr

/-- A die link is in phases 1 to 5 of its training (R370). -/
def Die.inTraining (x : Die) (d p : Nat) : Bool := x.linkState d p == stTraining && x.linkPhase d p != 0

/-- Step 3: die links of the module; the load waits only for those in phases 1 to 5 (R370). -/
def State.checkLinks (s : State) (mayWait : Bool) : Check :=
  let links := allDies.flatMap fun d => ((portsOf d).filter (!isFabricPort ·)).map fun p => (d, p)
  let bad := links.filter fun l => !(s.die l.1).linkActive l.1 l.2
  if bad.isEmpty then .pass
  else if mayWait && bad.any fun l => (s.die l.1).inTraining l.1 l.2 then .wait
  else .fail 0x04

/-- A slice port is cabled to the module's neighbour in its dimension, as far as it is known (R29,
R367). -/
def State.cabled (s : State) (module : Nat) (q : Nat × Nat × Nat × Nat) : Bool :=
  let far := (s.die q.1).reg q.1 (rEgress + 0x80 * q.2.1 + 0x38)
  bitOf far 31 && bitsOf far 9 0 == module ^^^ 2 ^ q.2.2.1

/-- Step 4: cabling and delays of the slice ports, and the horizon (R260, R291). -/
def State.checkPorts (s : State) (img : Image) (place : W32) (module : Nat) (mayWait : Bool) : Check :=
  let ports := slicePorts place img.dims
  let training := fun (q : Nat × Nat × Nat × Nat) => (s.die q.1).linkState q.1 q.2.1 == stTraining
  let good := fun (q : Nat × Nat × Nat × Nat) =>
    (s.die q.1).fullRate q.1 q.2.1 && bitOf ((s.die q.1).lreg q.1 q.2.1 lDelay) 31
      && s.cabled module q
  let bad := ports.filter (!good ·)
  if !bad.isEmpty then
    if mayWait && bad.all training then .wait else .fail 0x07
  else if ports.any fun q => decide (4 * classBound q.2.2.2 < (s.die q.1).meanDelay q.1 q.2.1) then
    .fail 0x06
  else if img.horizon < leastHorizon (img.dims.map (·.2.1)) then .fail 0x05
  else .pass

/-! ## The load -/

/-- A job runs on some die of the module: the load is live (R290). -/
def State.liveLoad (s : State) : Bool := allDies.any fun d => (s.die d).jobOn d

/-- An action that names a bank is armed on a die (R101). -/
def Die.armedFor (x : Die) (bank : Bool) : Bool :=
  x.armed.any fun a => a.action != 3 && a.target == bank

/-- The map that a C-die's load uses (R286). -/
def State.loadMap (s : State) (live : Bool) (d : Nat) : W64 :=
  (s.die d).reg d (if live then rSpareMap else rSpareMapNext)

/-- Virtual die of the module's local die `d`: the one section-table die that the placement maps to
it. -/
def virtualDie (place : W32) (module d : Nat) (img : Image) : Option Nat :=
  (img.sections.find? fun s => physDie place s.vdie == module * 64 + d).map (·.vdie)

/-- A running job has another HORIZON, FILL or placement, or the image spans (R290). -/
def State.liveRefused (s : State) (img : Image) (place : W32) : Bool :=
  let x := s.die d32
  let now := if x.bank then s.placed1 else s.placed0
  img.span || x.horizon d32 != img.horizon || x.fill d32 != img.fill || now != some place

/-- The plans of all the tiles of a die, by physical tile. -/
def tilePlans (r : Reloc) (img : Image) (live : Bool) (x : Die) (d vdie : Nat) :
    Except Nat (List (Nat × TilePlan)) :=
  let switch := x.armed.any fun a => a.action == 2
  (List.range 256).foldr (fun u acc =>
    let t := physTile (r.maps.getD d 0) u
    match tilePlan r img live switch vdie u (x.tile t), acc with
    | .ok p, .ok ps => .ok ((t, p) :: ps)
    | .error e, _ => .error e
    | _, .error e => .error e) (.ok [])

/-- A virtual die number that no section names. -/
abbrev noVdie : Nat := 0x10000

/-- The plans of all dies of the module. -/
def State.loadPlans (s : State) (img : Image) (place : W32) (module : Nat) (live : Bool) :
    Except Nat (List (Nat × List (Nat × TilePlan) × DiePlan)) :=
  let maps := cDies.map (s.loadMap live)
  allDies.foldr (fun d acc =>
    let x := s.die d
    let r : Reloc := { place := place, grid := gridMask img.dims, bank := !img.span && !x.bank
                       module := module, maps := maps
                       remote := if live then s.remoteGen else s.fz }
    let vdie := (virtualDie place module d img).getD noVdie
    let tiles := if isEDie d then .ok [] else tilePlans r img live x d vdie
    match tiles, diePlan r img d vdie, acc with
    | .ok ts, .ok p, .ok ps => .ok ((d, ts, p) :: ps)
    | .error e, _, _ => .error e
    | _, .error e, _ => .error e
    | _, _, .error e => .error e) (.ok [])

/-- Steps 5 and 6 of a load on one die with no job; it also clears the die's stop (R288, R302). -/
def Die.load (x : Die) (d : Nat) (img : Image) (ports : List (Nat × Nat × Nat × Nat))
    (ts : List (Nat × TilePlan)) (p : DiePlan) : Die :=
  let bank := !img.span && !x.bank
  let x := ((x.applyMap d).loadHorizon d img.horizon img.fill).loadLinks d ports
  let x := ts.foldl (fun x t => x.modTile t.1 fun y =>
    (y.load bank img.span false t.2).mark bank true) x
  (x.loadTables bank p).clearStop

/-- VALID of a bank on every tile of a die, unless an armed action names the bank (R101). -/
def Die.markBank (x : Die) (bank valid : Bool) : Die :=
  if x.armedFor bank then x
  else { x with tiles := tmap (fun _ y => y.mark bank valid) x.tiles }

/-- The bank that a load without a job has failed to fill is left not VALID (R288). -/
def State.dropTarget (s : State) (span : Bool) : State :=
  s.onDies cDies fun s d => s.modDie d fun x => x.markBank (!span && !x.bank) false

/-- The placement of the image in a bank. -/
def State.placeIn (s : State) (bank : Bool) (place : W32) : State :=
  if bank then { s with placed1 := some place } else { s with placed0 := some place }

/-- An action is armed that names the bank which a load targets, or a bank of a spanning image that the load
would overwrite in part (R61, R101). -/
def Die.armedAgainst (x : Die) : Bool :=
  x.armedFor (!x.bank)
    || ((x.armedFor true || x.armedFor false) && x.tiles.any fun e => e.2.span)

/-- Step 3: a C-die is disabled under the substitution that the load puts into force (R36, R286, R555). -/
def State.someDisabled (s : State) (live : Bool) : Bool :=
  cDies.any fun d =>
    if (s.die d).inReset then s.dieDisabled d else bitOf (s.loadMap live d) 31

/-- The checks of steps 1 to 5 before anything is written: the image and what it writes on each die, or the
R289 code that ends the load, or a wait that leaves the state as it was (R288). Step 1 tests header and
digest, then FW_MIN, then the section table. -/
def State.checkLoad (s : State) (raw : List Byte) (place : W32) (waitLinks waitPorts : Bool) :
    Check × Option (Image × List (Nat × List (Nat × TilePlan) × DiePlan)) :=
  let live := s.liveLoad
  let module := s.moduleNum d32
  let armed := fun (b : Bool) => allDies.any fun d => (s.die d).armedFor b
  if !imageHeaderGood raw then (.fail 0x01, none)
  else if fieldLE raw 0x4C 4 == 1 && (armed true || armed false) then (.fail 0x0A, none)
  else if (s.cfg cFwVersion).toNat < imageFwMin raw then (.fail 0x02, none)
  else
    match parseImage raw with
    | none => (.fail 0x01, none)
    | some img =>
      if !placementGood place img.dims module then (.fail 0x03, none)
      else if s.someDisabled live then (.fail 0x04, none)
      else
        match s.checkLinks waitLinks with
        | .fail e => (.fail e, none)
        | .wait => (.wait, none)
        | .pass =>
          match s.checkPorts img place module waitPorts with
          | .fail e => (.fail e, none)
          | .wait => (.wait, some (img, []))
          | .pass =>
            if live && s.liveRefused img place then (.fail 0x0A, none)
            else
              match s.loadPlans img place module live with
              | .error e => (.fail e, none)
              | .ok plans => (.pass, some (img, plans))

/-- Steps 5 and 6 with no job. -/
def State.writeLoad (s : State) (img : Image) (place : W32)
    (plans : List (Nat × List (Nat × TilePlan) × DiePlan)) : State :=
  let ports := slicePorts place img.dims
  let bank := !img.span && !(s.die d32).bank
  let s := plans.foldl (fun s p => s.modDie p.1 (·.load p.1 img ports p.2.1 p.2.2)) s
  { s.placeIn bank place with remoteGen := s.fz, fz := s.fz + 1 }

/-- The load ends with a code (R289). -/
def State.endLoad (s : State) (cmd : CmdRef) (code : Nat) : State :=
  if code = 0 then { s with load := none }.complete cmd 0
  else { s with load := none }.complete cmd 0x09 (detail := code)

/-- A check has failed: the target bank is left not VALID, in a live load in maintenance beats; one that an
armed action names stays as it is (R101, R288, R290). -/
def State.failLoad (s : State) (j : LoadJob) (code : Nat) : State :=
  if allDies.any fun d => (s.die d).armedAgainst then s.endLoad j.cmd code
  else if s.liveLoad then
    { s with load := some { j with stage := .marking (!(s.die d32).bank) cDies code } }
  else (s.dropTarget (fieldLE j.image 0x4C 4 == 1)).endLoad j.cmd code

/-- Runs the load that the module holds on, and completes its command when it ends. A load into a bank that an
armed action names ends at its start (R101). -/
def State.goLoad (s : State) (j : LoadJob) (waitLinks waitPorts : Bool) : State :=
  if allDies.any fun d => (s.die d).armedAgainst then s.endLoad j.cmd 0x0A
  else
    match s.checkLoad j.image j.placement waitLinks waitPorts with
    | (.wait, none) => { s with load := some { j with linksDone := false } }
    | (.wait, some _) => { s with load := some { j with linksDone := true } }
    | (.pass, some (img, plans)) =>
      if s.liveLoad then
        let bank := !(s.die d32).bank
        let s := plans.foldl (fun s p => s.modDie p.1 (·.loadTables (!(s.die p.1).bank) p.2.2)) s
        let tiles := (plans.filter fun p => !isEDie p.1).map fun p => (p.1, p.2.1)
        { s with load := some { j with stage := .writing bank tiles } }
      else (s.writeLoad img j.placement plans).endLoad j.cmd 0
    | (.pass, none) => s.endLoad j.cmd 0
    | (.fail e, _) => s.failLoad j e

/-! ## A live load in maintenance beats (R51, R62, R290) -/

/-- A live load writes the tiles of a die; where an action that has been armed since names the bank, the bank stays
VALID (R101). -/
def Die.loadTiles (x : Die) (bank : Bool) (ts : List (Nat × TilePlan)) : Die :=
  let keep := x.armedFor bank
  ts.foldl (fun x t => x.modTile t.1 fun y =>
    let z := y.load bank false true t.2
    if keep then { z with valid0 := y.valid0, valid1 := y.valid1, span := y.span, state := y.state } else z) x

/-- A live load that a stop overtook clears the stop as it completes (R302). -/
def State.loadClears (s : State) : State :=
  s.onDies allDies fun s d => if (s.die d).stopped then s.modDie d Die.clearStop else s

/-- What a live load does in a maintenance beat of a die: it writes the die's tiles, and once all are written
it sets their VALID bit die by die; the last one ends the load. -/
def State.loadBeat (s : State) (d : Nat) : State :=
  match s.load with
  | none => s
  | some j =>
    match j.stage with
    | .checking => s
    | .writing bank tiles =>
      match tiles.find? (·.1 == d) with
      | none => s
      | some t =>
        let rest := tiles.filter (·.1 != d)
        let stage := if rest.isEmpty then .marking bank cDies 0 else .writing bank rest
        { s.modDie d (·.loadTiles bank t.2) with load := some { j with stage := stage } }
    | .marking bank dies code =>
      if !dies.contains d then s
      else
        let s := s.modDie d (·.markBank bank (code == 0))
        let rest := dies.filter (· != d)
        if !rest.isEmpty then { s with load := some { j with stage := .marking bank rest code } }
        else
          let s := if code = 0 then (s.placeIn bank j.placement).loadClears else s
          s.endLoad j.cmd code

/-! ## The rows -/

def loadAddr (c : Desc) : Nat := cArg c 0x18 8
def loadLength (c : Desc) : Nat := cArg c 0x20 4
def loadPlace (c : Desc) : W32 := BitVec.ofNat 32 (cArg c 0x24 4)

/-- The fields of LOAD_SCHEDULE hold no reserved bit (R468, R470). -/
def loadClean (c : Desc) : Bool :=
  cmdClean c true && argsClean c [wholeArg 0x18 8, wholeArg 0x20 4, wholeArg 0x24 4]
    && bitsOf (loadPlace c) 31 28 == 0

/-- Step 1: the image is read into the staging region of E-die 32 (R288, R410). -/
def State.stageImage (s : State) (bs : List Byte) : State :=
  s.modDie d32 (·.memWriteBytes (regionOff 32 3) (bs.take (regionSize 32 3)))

/-- LOAD_SCHEDULE is performed (R288, R471); `image` is what DMA brings. -/
def execLoadSchedule (r : RingRef) (c : Desc) (image : DmaData) (s : State) : Out :=
  if !s.ready r c || s.entering then .next s
  else
    let (s, cmd) := s.takeCmd r c
    if !loadClean c then .next (s.complete cmd 0x01)
    else if s.load.isSome then .next (s.complete cmd 0x07)
    else
      let (s, ok) := s.dmaTry r.port (loadAddr c) (loadLength c)
      if !ok then .next (s.complete cmd 0x04)
      else
        let s := s.emitReads r.port (loadAddr c) (loadLength c)
        match image with
        | .failed => .next ((s.dmaError r.port).complete cmd 0x05)
        | .bytes bs =>
          let bs := bs.take (loadLength c)
          .next ((s.stageImage bs).goLoad { cmd := cmd, image := bs, placement := loadPlace c
                                            linksDone := false, stage := .checking } true true)

/-- The wait for die links ends: the load goes on, or fails (R370). -/
def execLoadLinkWaitEnd (s : State) : Out :=
  match s.load with
  | some j => if j.linksDone || j.stage != .checking then .next s else .next (s.goLoad j false true)
  | none => .next s

/-- The wait for slice ports ends: the load goes on, or fails (R291). -/
def execLoadPortWaitEnd (s : State) : Out :=
  match s.load with
  | some j =>
    if j.linksDone && j.stage == .checking then .next (s.goLoad j false false) else .next s
  | none => .next s

/-- A die reset or module reset ends a load that runs; a target bank of the die is not VALID
(R292). -/
def State.abortLoad (s : State) : State :=
  match s.load with
  | some j => { s with load := none }.complete j.cmd 0x09 (detail := 0x0C)
  | none => s

end Sys2Proof.Machine
end

