-- ==== Sys2Proof/Machine/Shards.lean ====
section
/-! DEFINITION. Weight sets: shards, manifests, the resident sets and the journal (R425 to R429, R439). -/

namespace Sys2Proof.Machine

/-! ## Shards (R427) -/

def shWsid (h : List Byte) : Nat := fieldLE h 4 2
def shLayer (h : List Byte) : Nat := fieldLE h 6 2
def shVersion (h : List Byte) : Nat := fieldLE h 8 4
def shIndex (h : List Byte) : Nat := fieldLE h 12 4
def shLength (h : List Byte) : Nat := fieldLE h 16 4
def shVdie (h : List Byte) : Nat := fieldLE h 20 2
def shTier (h : List Byte) : Nat := fieldLE h 22 1
def shUnit (h : List Byte) : Nat := fieldLE h 24 4
def shContext (h : List Byte) : Nat := fieldLE h 28 4

/-- DETAIL of a completion that names a shard (R469). -/
def shDetail (h : List Byte) : Nat := shLayer h + shIndex h % 2 ^ 16 * 2 ^ 16

/-- First unit of the roll journal's page in HBM (R439). -/
abbrev journalUnit : Nat := 0x23FFFFC0

/-! ## Manifests (R428, R429) -/

/-- A manifest: its fields, base entries (virtual die, tier, first page) and shard headers. -/
structure Manifest where
  wsid : Nat
  slot : Nat
  version : Nat
  layers : Nat
  pages : Nat
  bases : List (Nat × Nat × Nat)
  shards : List (List Byte)
  deriving DecidableEq, Repr

/-- A shard header belongs to the manifest and keeps R427. -/
def shardGood (wsid version layers : Nat) (h : List Byte) : Bool :=
  let len := shLength h
  fieldLE h 0 4 == 0x53444853 && shWsid h == wsid && shVersion h == version
    && decide (shLayer h < layers) && len % 64 == 0 && decide (64 ≤ len) && decide (len ≤ 0x4000000)
    && decide (shTier h ≤ 1) && fieldLE h 23 1 == 0
    && (if wsid = adapterWsid then decide (shContext h < 2 ^ 18) else shContext h == 0)

/-- Shard headers stand in layer order, and within a layer in INDEX order. -/
def shardsOrdered (hs : List (List Byte)) : Bool :=
  decide (hs.Pairwise fun a b => shLayer a < shLayer b ∨ (shLayer a = shLayer b ∧ shIndex a < shIndex b))

/-- The manifest that a byte string holds (R428). -/
def parseManifest (bs : List Byte) : Option Manifest :=
  let nb := fieldLE bs 20 4
  let ns := fieldLE bs 16 4
  let m : Manifest :=
    { wsid := fieldLE bs 4 2, slot := fieldLE bs 6 1, version := fieldLE bs 8 4
      layers := fieldLE bs 12 2, pages := fieldLE bs 24 4
      bases := (List.range nb).map fun i =>
        let e := (bs.drop (32 + 8 * i)).take 8
        (fieldLE e 0 2, fieldLE e 2 1, fieldLE e 4 4)
      shards := (List.range ns).map fun i => (bs.drop (32 + 8 * nb + 64 * i)).take 64 }
  if bs.length = 32 + 8 * nb + 64 * ns && decide (32 ≤ bs.length) && fieldLE bs 0 4 == 0x464E4D57
      && decide (m.slot ≤ 63) && zeroBytes bs 7 1 && zeroBytes bs 14 2 && zeroBytes bs 28 4
      && decide (1 ≤ m.pages)
      && (List.range nb).all (fun i => zeroBytes bs (32 + 8 * i + 3) 1)
      && m.shards.all (shardGood m.wsid m.version m.layers) && shardsOrdered m.shards then
    some m
  else none

/-- Units of a shard. -/
def shRun (h : List Byte) : Nat × Nat := (shUnit h, shLength h / 64)

/-- The slot's range on the die and tier of a shard, in units. -/
def Manifest.range (m : Manifest) (h : List Byte) : Option (Nat × Nat) :=
  (m.bases.find? fun b => b.1 == shVdie h && b.2.1 == shTier h).map fun b =>
    (64 * b.2.2, 64 * m.pages)

/-- One run of units lies inside another. -/
def runInside (a b : Nat × Nat) : Bool := decide (b.1 ≤ a.1) && decide (a.1 + a.2 ≤ b.1 + b.2)

/-- An adapter shard lies on an E-die; one of this module inside its context's adapter region, those of other
modules are checked there (R429, R435). -/
def State.adapterShardGood (s : State) (place : W32) (h : List Byte) : Bool :=
  let num := physDie place (shVdie h)
  let (e, i) := ctxHome (shContext h)
  let y := (s.die e).ctx.ctx i
  if num / 64 ≠ s.moduleNum d32 then decide (32 ≤ num % 64)
  else num % 64 == e && runInside (shRun h) (lpddrUnit y.adapterBase, y.adapterLen.toNat)

/-- The first shard for which firmware refuses the manifest (R429). -/
def State.badShard (s : State) (m : Manifest) (place : W32) : Option (List Byte) :=
  m.shards.find? fun h =>
    let vdie := shVdie h % 64
    let size := if shTier h = 0 then memUnits 0 else memUnits 32
    let local' := physLocal place vdie
    !(if shTier h = 0 then decide (vdie < 32) else decide (32 ≤ vdie) && decide (vdie < 40))
      || decide (size < shUnit h + shLength h / 64)
      || (if m.wsid = adapterWsid then !s.adapterShardGood place h
          else match m.range h with | some r => !runInside (shRun h) r | none => true)
      || (shTier h == 0 && (local' == 0 || local' == 31) && runsOverlap (shRun h) (journalUnit, 64))
      || m.shards.any fun g => g != h && shVdie g == shVdie h && shTier g == shTier h
            && runsOverlap (shRun g) (shRun h)

/-- Another weight set uses the manifest's slot (R429). -/
def State.slotTaken (s : State) (m : Manifest) : Bool :=
  m.wsid != adapterWsid && s.weights.sets.any fun w =>
    w.wsid.toNat != adapterWsid && w.slot == m.slot && w.wsid.toNat != m.wsid

/-- The set that a manifest makes of this module's shards, none of them verified (R430). -/
def Manifest.set (m : Manifest) (place : W32) (module : Nat) : WeightSet :=
  let mine := fun (v : Nat) => physDie place v / 64 == module
  { wsid := BitVec.ofNat 16 m.wsid, slot := m.slot, version := BitVec.ofNat 32 m.version
    layers := m.layers
    context := if m.wsid = adapterWsid then shContext (m.shards.headD []) else 0
    mixed := false, rolling := false
    shards := (m.shards.filter fun h => mine (shVdie h)).map fun h =>
      { header := h, die := physDie place (shVdie h) % 64, verified := false, resends := 0 }
    bases := (m.bases.filter fun b => mine b.1).map fun b =>
      (physDie place b.1 % 64, b.2.2, m.pages) }

/-- What the reader sends: every shard of the manifest whose layer a test picks, to its die; a shard that DMA brings
from a host is still to be brought (R430). -/
def Manifest.sends (m : Manifest) (place : W32) (sources : List (Option (W64 × DmaData))) (pick : Nat → Bool) :
    List ShardSend :=
  (m.shards.zipIdx.filter fun h => pick (shLayer h.1)).map fun h =>
    let from' := (sources[h.2]?).join
    { header := h.1, dest := physDie place (shVdie h.1), stage := .staging, resends := 0
      source := from', stale := from'.isSome }

/-! ## Sets (R425, R432) -/

/-- Two records are of one set: the WSID, and for adapters the context. -/
def sameSet (a b : WeightSet) : Bool := a.wsid == b.wsid && a.context == b.context

def State.modWeights (s : State) (f : Weights → Weights) : State := { s with weights := f s.weights }

/-- The resident record of a set. -/
def Weights.find (w : Weights) (a : WeightSet) : Option WeightSet := w.sets.find? (sameSet a)

/-- Puts a record in place of the one of the same set. -/
def Weights.put (w : Weights) (a : WeightSet) : Weights :=
  { w with sets := w.sets.filter (!sameSet a ·) ++ [a] }

/-- Changes the record of a set. -/
def Weights.modSet (w : Weights) (a : WeightSet) (f : WeightSet → WeightSet) : Weights :=
  { w with sets := w.sets.map fun b => if sameSet a b then f b else b }

/-- A write of a SET_BASE entry; that of the slot in force is ignored (R445). -/
def Die.writeSetBase (x : Die) (d slot : Nat) (v : W64) : Die :=
  let w := x.reg d rWsel
  if bitOf w 31 && bitsOf w 5 0 == slot then x else x.setReg (rSetBase + 8 * slot) v

/-- Firmware writes the slot's bases (R429). -/
def State.writeBases (s : State) (a : WeightSet) : State :=
  if a.wsid.toNat = adapterWsid then s
  else a.bases.foldl (fun s b =>
    s.modDie b.1 (·.writeSetBase b.1 a.slot
      (BitVec.ofNat 64 (2 ^ 63 + b.2.2 % 2 ^ 31 * 2 ^ 32 + b.2.1 % 2 ^ 32)))) s

/-- A slot holds no set any more. -/
def State.clearBases (s : State) (a : WeightSet) : State :=
  if a.wsid.toNat = adapterWsid then s
  else s.onDies allDies fun s d => s.modDie d (·.writeSetBase d a.slot 0)

/-- The weight set of a WSID is admissible: resident, verified, not rolled (R432). -/
def State.wsidGood (s : State) (wsid : BitVec 16) : Bool :=
  s.weights.sets.any fun w => w.wsid == wsid && wsid.toNat != adapterWsid && w.admissible

/-- Slot of a WSID. -/
def State.slotOf (s : State) (wsid : BitVec 16) : Option Nat :=
  (s.weights.sets.find? (·.wsid == wsid)).map (·.slot)

/-- Reports an event whose detail the spec leaves open (R469, log 1). -/
def State.eventFree (s : State) (code : Nat) : State :=
  (s.event code ((Config.freeWord s.fz).toNat % 2 ^ 56)).used

/-! ## The journal (R439) -/

/-- The 64 bytes of a journal. -/
def Journal.bytes (j : Journal) : List Byte :=
  let body := leBytes 0x4C4E524A 4 ++ leBytes j.seq.toNat 4 ++ leBytes j.wsid.toNat 2
    ++ leBytes j.state 1 ++ leBytes j.slot 1 ++ leBytes j.fromV.toNat 4 ++ leBytes j.toV.toNat 4
    ++ leBytes j.layers 2 ++ leBytes j.layer 2 ++ List.replicate 36 0
  body ++ leBytes (crc32 (byteBits body)) 4

/-- The journal that 64 bytes hold, when its CHECK is good. -/
def journalOf (bs : List Byte) : Option Journal :=
  if fieldLE bs 0 4 = 0x4C4E524A ∧ fieldLE bs 60 4 = crc32 (byteBits (bs.take 60)) then
    some { seq := BitVec.ofNat 32 (fieldLE bs 4 4), wsid := BitVec.ofNat 16 (fieldLE bs 8 2)
           state := fieldLE bs 10 1, slot := fieldLE bs 11 1
           fromV := BitVec.ofNat 32 (fieldLE bs 12 4), toV := BitVec.ofNat 32 (fieldLE bs 16 4)
           layers := fieldLE bs 20 2, layer := fieldLE bs 22 2 }
  else none

/-- Writes the journal: SEQ counts up, copy 0 goes to C-die 0 and copy 1 to C-die 31. -/
def State.writeJournal (s : State) (j : Journal) : State :=
  let j := { j with seq := s.weights.journal.seq + 1 }
  let put := fun (x : Die) => x.memWriteBytes (64 * journalUnit) j.bytes
  ((s.modDie 0 put).modDie 31 put).modWeights fun w => { w with journal := j }

/-- The copy of the journal on a die. -/
def State.journalCopy (s : State) (d : Nat) : Option Journal :=
  journalOf (Mem.readBytes (s.die d).mem.cells (64 * journalUnit) 64)

/-- The journal that firmware uses after a reset: the good copy with the higher SEQ. -/
def State.readJournal (s : State) : Option Journal :=
  match s.journalCopy 0, s.journalCopy 31 with
  | some a, some b => some (if a.seq.toNat < b.seq.toNat then b else a)
  | some a, none => some a
  | none, b => b

def Journal.none : Journal := ⟨0, 0, 0, 0, 0, 0, 0, 0⟩

end Sys2Proof.Machine
end

