-- ==== Sys2Proof/Machine/Reader.lean ====
section
/-! DEFINITION. The distribution of weight sets: the progress of loads and rolls, the reader that sends shards
to their dies, and what firmware does with the end of a check (R430 to R433, R436, R438). -/

namespace Sys2Proof.Machine

/-! ## Progress of the commands (R430, R436) -/

/-- The resident shard with a header is verified. -/
def WeightSet.isVerified (a : WeightSet) (h : List Byte) : Bool :=
  a.shards.any fun g => g.header == h && g.verified

/-- Of a command, the shards that a test picks are verified on this module and, by the reader, on every die that
it sent them to. -/
def State.jobVerified (s : State) (j : WeightJob) (pick : List Byte → Bool) : Bool :=
  match s.weights.find j.set with
  | some a =>
    (j.set.shards.all fun h => !pick h.header || a.isVerified h.header)
      && j.sends.all fun g => !pick g.header || g.stage == .verified
  | none => false

/-- The resident shards that a reset unverified during a roll, outside its layers, are verified again (R438). -/
def State.lostVerified (s : State) (j : WeightJob) : Bool :=
  (s.weights.find j.set).any fun a => j.lost.all (a.isVerified ·)

/-- The layers that a roll replaces become the manifest's, unverified. -/
def replaceLayers (a : WeightSet) (new : List Shard) : List Shard :=
  a.shards.filter (fun h => !new.any fun g => shLayer g.header == shLayer h.header) ++ new

/-- The roll comes to a layer: from here on the module holds the shards of the manifest there (R436). -/
def State.beginLayer (s : State) (j : WeightJob) (layer : Nat) : State :=
  s.modWeights (·.modSet j.set fun b =>
    { b with shards := replaceLayers b (j.set.shards.filter fun h => shLayer h.header == layer) })

/-- Layers whose shards are verified pass into the journal, one after the other (R436). -/
def State.passLayers (s : State) (j : WeightJob) : Nat → State
  | 0 => s
  | n + 1 =>
    let r := s.weights.journal
    if r.layer < r.layers && s.jobVerified j (shLayer · == r.layer) then
      ((s.writeJournal { r with layer := r.layer + 1 }).beginLayer j (r.layer + 1)).passLayers j n
    else s

/-- The roll goes on; after its last layer, with every shard verified, it ends with the new version (R436). -/
def State.rollOn (s : State) : State :=
  match s.weights.rolling with
  | none => s
  | some j =>
    if j.waiting then s
    else
      let s := s.passLayers j s.weights.journal.layers
      if s.weights.journal.layer < s.weights.journal.layers || !s.jobVerified j (fun _ => true)
          || !s.lostVerified j then s
      else
        let s := s.writeJournal { s.weights.journal with state := 0 }
        let s := s.modWeights fun w => { w.modSet j.set fun b =>
          { b with version := j.set.version, rolling := false, mixed := false } with rolling := none }
        (s.eventFree 4).complete j.cmd 0

/-- The load goes on: it ends once every shard is verified (R430). -/
def State.loadOn (s : State) : State :=
  match s.weights.loading with
  | some j =>
    if s.jobVerified j (fun _ => true) then
      (s.modWeights fun w => { w with loading := none }).complete j.cmd 0
    else s
  | none => s

/-- A weight command fails: a roll leaves its set mixed behind the journal (R432, R438, R458, R471). -/
def State.failWeights (s : State) (roll : Bool) (j : WeightJob) (detail : Nat) (status : Nat := 0x0B) : State :=
  let s := s.modWeights fun w =>
    if roll then
      { w.modSet j.set fun b => { b with rolling := false, mixed := true } with rolling := none }
    else { w with loading := none }
  s.readerForget.complete j.cmd status (detail := detail)

/-- The running command whose set holds a shard: whether it is the roll, and its job. -/
def Weights.jobOf (w : Weights) (a : WeightSet) : Option (Bool × WeightJob) :=
  match w.rolling with
  | some j =>
    if sameSet j.set a && !j.waiting then some (true, j)
    else (w.loading.filter fun j => sameSet j.set a).map fun j => (false, j)
  | none => (w.loading.filter fun j => sameSet j.set a).map fun j => (false, j)

/-! ## The reader (R430, R432) -/

/-- The load or the roll that runs. -/
def Weights.job (w : Weights) (roll : Bool) : Option WeightJob := if roll then w.rolling else w.loading

def Weights.setJob (w : Weights) (roll : Bool) (j : WeightJob) : Weights :=
  if roll then { w with rolling := some j } else { w with loading := some j }

/-- Index and shard of a command that the reader deals with: the first one that is not verified. -/
def WeightJob.current (j : WeightJob) : Option (Nat × ShardSend) :=
  if j.waiting then none
  else ((List.range j.sends.length).zip j.sends).find? fun g => g.2.stage != .verified

/-- Puts a shard of a command back on record. -/
def State.setSend (s : State) (roll : Bool) (i : Nat) (g : ShardSend) : State :=
  match s.weights.job roll with
  | some j => s.modWeights (·.setJob roll { j with sends := j.sends.set i g })
  | none => s

/-- First unit of the weight staging of E-die 32, where the shard that is sent stands (R410, R430, log 44). -/
def stagingUnit : Nat := regionOff 32 4 / 64

/-- Bytes of the staging. -/
def State.staged (s : State) (off n : Nat) : List Byte :=
  Mem.readBytes (s.die d32).mem.cells (64 * stagingUnit + off) n

/-- The staging holds the payload that a header's digest names: the reader checks it itself (R430). -/
def State.stagedGood (s : State) (h : List Byte) : Bool :=
  shake256 (h.take 32 ++ s.staged 0 (shLength h)) == BitVec.ofNat 256 (leNat ((h.drop 32).take 32))

/-- Payload requests of a shard: 256 bytes each. -/
def shRequests (h : List Byte) : Nat := (shLength h + 255) / 256

/-- Offset of a shard's place in the space of its die (R47). -/
def shAddr (h : List Byte) : Nat :=
  (if shTier h = 0 then 0x1000000000 else 0x2000000000) + 64 * shUnit h

/-- A request that the reader sends from E-die 32, whose response it awaits. -/
def State.readerSend (s : State) (dest off size : Nat) (data : Option (List Byte)) (fence : Nat) : State :=
  let x := s.die d32
  let n := data.elim 0 fun bs => (bs.length + 63) / 64
  let q := cpPacket { dst := dest, src := s.dieNumber d32, tc := 1, epoch := x.field d32 rCpCtrl 0 0
                      fence := fence, dlen := n, opcode := if data.isSome then 0x02 else 0x01
                      tag := x.nextTag.toNat, length := size, addr := dest * 2 ^ 48 + off }
             (bytesFlits (data.getD []) n)
  (s.setDie d32 { x with outstanding := x.outstanding ++ [⟨x.nextTag, none, true⟩]
                         nextTag := x.nextTag + 1 }).coreSend d32 q

/-- Sends the request of a shard's stage: 256 bytes of payload, a word of the header with FENCE and the word at
byte 56 last, or the read of the status (R430). -/
def State.sendStage (s : State) (g : ShardSend) : State :=
  match g.stage with
  | .payload n =>
    let bs := s.staged (256 * n) (min 256 (shLength g.header - 256 * n))
    s.readerSend g.dest (shAddr g.header + 256 * n) bs.length (some bs) 0
  | .header n => s.readerSend g.dest (0xF000000000 + rShardHdr + 8 * n) 8
      (some ((g.header.drop (8 * n)).take 8)) 1
  | .status => s.readerSend g.dest (0xF000000000 + rShardStatus) 4 none 0
  | _ => s

/-- The command that the reader works for: the one whose shard is on its way, else one whose next shard stands in
the staging. -/
def State.readerWork (s : State) : Option (Bool × Nat × ShardSend) :=
  let all := [false, true].filterMap fun roll =>
    ((s.weights.job roll).bind WeightJob.current).map fun g => (roll, g)
  match all.find? fun g => g.2.2.stage != .staging with
  | some g => some g
  | none => (all.find? fun g => !g.2.2.stale && s.stagedGood g.2.2.header).map fun g =>
      (g.1, g.2.1, { g.2.2 with stage := .payload 0 })

/-- The reader sends a shard again, brought afresh from its source when it is not verified in time, or the command fails at
the retry limit and reports the shard (R432). -/
def State.resend (s : State) (roll : Bool) (i : Nat) (g : ShardSend) (afresh : Bool := false) : State :=
  match s.weights.job roll with
  | none => s
  | some j =>
    if (s.die d32).field d32 rWtCtrl 31 24 ≤ g.resends then s.failWeights roll j (shDetail g.header)
    else
      let s := s.modDie d32 (·.bump rWtRefetched)
      let s := s.setSend roll i { g with stage := .staging, resends := g.resends + 1, stale := afresh }
      s.modWeights (·.modSet j.set fun b =>
        { b with shards := b.shards.map fun h =>
          if h.header == g.header then { h with resends := g.resends + 1 } else h })

/-- The first command whose next shard is to be brought from a host. -/
def State.toBring (s : State) : Option (Bool × WeightJob × Nat × ShardSend × W64 × DmaData) :=
  [false, true].findSome? fun roll =>
    match s.weights.job roll with
    | some j =>
      match j.current with
      | some (i, g) =>
        if g.stage == .staging then g.source.map fun a => (roll, j, i, g, a.1, a.2) else none
      | none => none
    | none => none

/-- The reader brings a shard from a host into the staging by DMA through the windows of the command's port, and checks
its digest; a payload with another digest is brought again as a mismatch is sent again (R430, R458, R471, log 44). -/
def State.bring (s : State) : State :=
  match s.toBring with
  | none => s
  | some (roll, j, i, g, addr, data) =>
    let n := shLength g.header
    let (s, ok) := s.dmaTry j.cmd.ring.port addr.toNat n
    if !ok then s.failWeights roll j (shDetail g.header) (status := 0x04)
    else
      let s := s.emitReads j.cmd.ring.port addr.toNat n
      match data with
      | .failed => (s.dmaError j.cmd.ring.port).failWeights roll j (shDetail g.header) (status := 0x05)
      | .bytes bs =>
        let s := s.modDie d32 (·.memWriteBytes (64 * stagingUnit) (bs.take n))
        if s.stagedGood g.header then s.setSend roll i { g with stale := false } else s.resend roll i g

/-- The reader goes on when it awaits no response: with no shard in the staging, one is brought. -/
def State.readerNext (s : State) : State :=
  if (s.die d32).inReset || (s.die d32).outstanding.any (·.shard) then s
  else
    let s := if s.readerWork.isSome then s else s.bring
    match s.readerWork with
    | some (roll, i, g) => (s.setSend roll i g).sendStage g
    | none => s

/-- What the reader makes of a response: the next request; with the status read, the next shard, the same one
again, or another read later (R430, R432). -/
def State.readerDone (s : State) (status : Nat) (data : List Byte) : State :=
  match s.readerWork with
  | none => s
  | some (roll, i, g) =>
    if status ≠ 0 then s.resend roll i g
    else
      match g.stage with
      | .payload n =>
        s.setSend roll i { g with stage := if n + 1 < shRequests g.header then .payload (n + 1) else .header 0 }
      | .header n => s.setSend roll i { g with stage := if n < 7 then .header (n + 1) else .status }
      | .status =>
        match bitsOf (BitVec.ofNat 32 (leNat (data.take 4))) 31 29 with
        | 2 =>
          let s := s.setSend roll i { g with stage := .verified }
          if roll then s.rollOn else s.loadOn
        | 3 | 4 => s.resend roll i g
        | _ => s
      | _ => s

/-- A response that the reader waited for. While the check runs, the status is read again in the next maintenance
beat (log 44). -/
def State.readerResponse (s : State) (status : Nat) (data : List Byte) : State :=
  let polls := status == 0 && s.readerWork.any (fun g => g.2.2.stage == .status)
    && bitsOf (BitVec.ofNat 32 (leNat (data.take 4))) 31 29 ≤ 1
  if polls then s else (s.readerDone status data).readerNext

/-! ## The digest engine's end (R431, R433) -/

/-- Marks a shard of a set. -/
def State.markShard (s : State) (a : WeightSet) (h : Shard) (good : Bool) : State :=
  s.modWeights (·.modSet a fun b =>
    { b with shards := b.shards.map fun g => if g == h then { g with verified := good } else g })

/-- The resident shard that a checked header names. -/
def Weights.shardOf (w : Weights) (d : Nat) (header : List Byte) : Option (WeightSet × Shard) :=
  w.sets.findSome? fun a =>
    (a.shards.find? fun h => h.die == d && h.header == header).map fun h => (a, h)

/-- Writes a stored header into the die's _SHARD_HDR, which starts a check (R433). -/
def Die.checkShard (x : Die) (d : Nat) (header : List Byte) : Die :=
  let ws := words8 header
  let x := (List.range 7).foldl (fun x i => x.setReg (rShardHdr + 8 * i) (ws.getD i 0)) x
  x.startCheck d (ws.getD 7 0)

/-- All resident shards of the module with their sets, in the order of the sets. -/
def Weights.allShards (w : Weights) : List (WeightSet × Shard) :=
  w.sets.flatMap fun a => a.shards.map fun h => (a, h)

/-- Unverified resident shards of a die that no running command distributes, in order; after one that was
checked those behind it. -/
def State.unchecked (s : State) (d : Nat) (after : Option (List Byte)) : List (List Byte) :=
  let all : List (WeightSet × Shard) := s.weights.allShards.filter fun e => e.2.die == d && (s.weights.jobOf e.1).isNone
  let rest : List (WeightSet × Shard) := match after with
    | some h => (all.dropWhile fun e => e.2.header != h).drop 1
    | none => all
  (rest.filter fun e => !e.2.verified).map fun e => e.2.header

/-- Firmware re-checks the shards of a die, one after the other (R539). -/
def State.recheck (s : State) (d : Nat) (after : Option (List Byte)) : State :=
  match s.unchecked d after with
  | h :: _ => if (s.die d).field d rShardStatus 31 29 = 1 then s else s.modDie d (·.checkShard d h)
  | [] => s

/-- The send of a shard that the reader of a running command has done with. -/
def WeightJob.doneSend (j : WeightJob) (dest : Nat) (h : List Byte) : Option (Nat × ShardSend) :=
  ((List.range j.sends.length).zip j.sends).find? fun g =>
    g.2.stage == .verified && g.2.dest == dest && g.2.header == h

/-- What firmware does with a check that has ended: a verified shard is recorded; a mismatch in a shard that a
running command has distributed has the reader send it again, and one of a re-digest is counted and reported; a
re-check after a reset goes on to the next shard (R430, R432, R433, R438, R539). -/
def State.shardResult (s : State) (d : Nat) (header : List Byte) (good : Bool) : State :=
  match s.weights.shardOf d header with
  | none => s
  | some (a, h) =>
    let was := a.admissible
    let s := s.markShard a h good
    match s.weights.jobOf a with
    | some (roll, j) =>
      if good then (if roll then s.rollOn else s.loadOn)
      else
        match j.doneSend (s.dieNumber d) header with
        | some (i, g) => (s.resend roll i g).readerNext
        | none => s
    | none =>
      if good || !(s.die d).mem.redigest then s.recheck d (some header)
      else
        let s := (s.modDie d32 (·.bump rWtRedigest)).eventFree 3
        if was then s.eventFree 5 else s

/-- The digest engine ends its check of a shard that it has read (R431). -/
def execShardCheckDone (d : DieId) (s : State) : Out :=
  let d := d.val
  let x := s.die d
  if x.inReset || x.field d rShardStatus 31 29 != 1 || !x.checkRead then .next s
  else
    let h := shardBytes x.mem.check
    let good := x.shardMatches
    let x := x.setField d rShardStatus 31 29 (if good then 2 else 3)
    let s := s.setDie d (x.bump (if good then rShardsVerified else rShardsMismatched))
    let s := if good then s
      else s.logEvent d 0x43 (BitVec.ofNat 64 (shWsid h + shLayer h * 2 ^ 16 + shIndex h * 2 ^ 32))
    .next (s.shardResult d h good)

/-- What the readers of the running commands send: whether it is the roll's, its index there, and the shard. -/
def Weights.allSends (w : Weights) : List (Bool × Nat × ShardSend) :=
  [false, true].flatMap fun roll =>
    match w.job roll with
    | some j => ((List.range j.sends.length).zip j.sends).map fun g => (roll, g)
    | none => []

/-- Shard `idx` of what the reader sends was not verified within SHARD_TIMEOUT of its header's write: it is brought
and sent again (R432). -/
def execShardTimeout (idx : Nat) (s : State) : Out :=
  match s.weights.allSends[idx]? with
  | some (roll, i, g) =>
    if g.stage ≠ .status then .next s
    else
      .next (s.readerForget.resend roll i g (afresh := true)).readerNext
  | none => .next s

/-- REDIGEST_HOURS have passed: firmware re-checks resident shard `idx` (R433). -/
def execRedigest (idx : Nat) (s : State) : Out :=
  match s.weights.allShards[idx]? with
  | some (a, h) =>
    if (s.die d32).field d32 rWtCtrl 23 16 = 0 || a.rolling || (s.weights.jobOf a).isSome
        || (s.die h.die).inReset || (s.die h.die).field h.die rShardStatus 31 29 = 1 then .next s
    else
      .next (s.modDie h.die fun x =>
        let x := x.checkShard h.die h.header
        { x with mem := { x.mem with redigest := x.field h.die rShardStatus 31 29 == 1 } })
  | none => .next s

end Sys2Proof.Machine
end

