-- ==== Sys2Proof/Machine/Weights.lean ====
section
/-! DEFINITION. The weight commands and what resets do to weight sets (R430, R436 to R441). -/

namespace Sys2Proof.Machine

/-! ## The commands (R430, R436 to R441) -/

def weightPlace (c : Desc) : W32 := BitVec.ofNat 32 (cArg c 0x24 4)
def weightReader (c : Desc) : Bool := bitOf c.args 129
def weightUnload (c : Desc) : Bool := bitOf c.args 128
def rollMode (c : Desc) : Nat := cArg c 0x29 1

/-- The fields of a weight command hold no reserved bit and no value out of range. -/
def weightClean (c : Desc) (roll : Bool) : Bool :=
  cmdClean c true
    && argsClean c [wholeArg 0x18 8, wholeArg 0x20 4, wholeArg 0x24 4,
        if roll then (129, 1) else (128, 2), if roll then wholeArg 0x29 1 else (0, 0)]
    && bitsOf (weightPlace c) 31 28 == 0 && (!roll || decide (rollMode c ≤ 2))

/-- A roll runs and refuses another command. A "complete" or an "abandon" is taken while a roll runs whose reader is
another module: software sends it when that reader is lost (R438, R441, log 44). -/
def State.rollBusy (s : State) (c : Desc) : Bool :=
  s.weights.rolling.any fun j => rollMode c == 0 || j.reader || j.waiting

/-- The roll of a set whose reader is lost stops: its set is mixed (R438). -/
def State.stopRoll (s : State) (a : WeightSet) : State :=
  match s.weights.rolling with
  | some j => if sameSet j.set a then s.failWeights true j 0 else s
  | none => s

/-- What the weight commands share: status 0x01 for a reserved field, 0x07 while a command of the same
opcode runs, the DMA, and the manifest with this module's set (R429, R471). -/
def weightCommand (w : WeightCmd) (roll : Bool) (s : State)
    (act : CmdRef → Manifest → WeightSet → State → State) : Out :=
  if !s.ready w.ring w.desc || s.entering then .next s
  else
    let c := w.desc
    let (s, cmd) := s.takeCmd w.ring c
    let busy := if roll then s.rollBusy c else s.weights.loading.isSome
    if !weightClean c roll then .next (s.complete cmd 0x01)
    else if busy then .next (s.complete cmd 0x07)
    else
      let len := cArg c 0x20 4
      let addr := cArg c 0x18 8
      let (s, ok) := s.dmaTry w.ring.port addr len
      if !ok then .next (s.complete cmd 0x04)
      else
        let s := s.emitReads w.ring.port addr len
        match w.manifest with
        | .failed => .next ((s.dmaError w.ring.port).complete cmd 0x05)
        | .bytes bs =>
          match parseManifest (bs.take len) with
          | none => .next (s.complete cmd 0x0B)
          | some m => .next (act cmd m (m.set (weightPlace c) (s.moduleNum d32)) s)

/-- The job of a weight command: its reader sends the layers that a test picks. -/
def Manifest.job (m : Manifest) (w : WeightCmd) (cmd : CmdRef) (waiting : Bool) (pick : Nat → Bool) (a : WeightSet) :
    WeightJob :=
  let sends := fun (p : Nat → Bool) =>
    if weightReader w.desc then m.sends (weightPlace w.desc) w.shards p else []
  { cmd := cmd, waiting := waiting, reader := weightReader w.desc, set := a
    sends := sends pick, rest := sends fun l => !pick l }

/-- The set is being rolled (R438). -/
def Weights.isRolled (w : Weights) (a : WeightSet) : Bool := w.rolling.any fun j => sameSet j.set a

/-- LOAD_WEIGHT_SET: the manifest is checked, the slot's bases are written and the shards wait for
their checks (R429, R430). -/
def execLoadWeightSet (w : WeightCmd) (s : State) : Out :=
  if weightUnload w.desc then .next s
  else weightCommand w false s fun cmd m a s =>
    if s.weights.isRolled a then s.complete cmd 0x07
    else if s.slotTaken m then s.complete cmd 0x0B
    else
      match s.badShard m (weightPlace w.desc) with
      | some h => s.complete cmd 0x0B (detail := shDetail h)
      | none =>
        let s := match s.weights.find a with
          | some b => if b.slot = a.slot then s else s.clearBases b
          | none => s
        let job := m.job w cmd false (fun _ => true) a
        ((s.writeBases a).modWeights fun w => { w.put a with loading := some job }).loadOn.readerNext

/-- An unload discards the set; a roll of it ends and the journal is cleared (R438). -/
def execUnloadWeightSet (w : WeightCmd) (s : State) : Out :=
  if !weightUnload w.desc then .next s
  else weightCommand w false s fun cmd _ a s =>
    let s := match s.weights.find a with
      | some b => s.clearBases b
      | none => s
    let s := match s.weights.rolling with
      | some j =>
        if sameSet j.set a then
          (s.modWeights fun w => { w with rolling := none }).readerForget.complete j.cmd 0x0B
        else s
      | none => s
    let s := if s.weights.journal.state ≠ 0 ∧ s.weights.journal.wsid = a.wsid then
        s.writeJournal { s.weights.journal with state := 0 }
      else s
    (s.modWeights fun w => { w with sets := w.sets.filter (!sameSet a ·) }).complete cmd 0

/-- Starts the distribution of a roll's shards, from the first layer that the journal says is still to be
replaced (R436). -/
def State.beginLayers (s : State) (j : WeightJob) : State :=
  let j := { j with waiting := false }
  let s := s.modWeights fun w => { w.modSet j.set fun b =>
    { b with rolling := true, mixed := false, layers := j.set.layers } with rolling := some j }
  (s.beginLayer j s.weights.journal.layer).rollOn.readerNext

/-- What every mode of ROLL checks: the set is resident in the manifest's slot and the manifest is not
refused. -/
def State.rollChecked (s : State) (w : WeightCmd) (cmd : CmdRef) (m : Manifest) (a : WeightSet)
    (k : State → WeightSet → State) : State :=
  if s.weights.loading.any fun j => sameSet j.set a then s.complete cmd 0x07
  else
    match s.weights.find a with
    | none => s.complete cmd 0x0B
    | some b =>
      if s.slotTaken m || b.slot != m.slot then s.complete cmd 0x0B
      else
        match s.badShard m (weightPlace w.desc) with
        | some h => s.complete cmd 0x0B (detail := shDetail h)
        | none => k s b

/-- ROLL raises the barrier and waits for the batches in flight (R436). DESIGN CHOICE: it runs although a stopped roll of
another set still stands in the journal (R438, log 85). -/
def execRoll (w : WeightCmd) (s : State) : Out :=
  if rollMode w.desc = 1 ∨ rollMode w.desc = 2 then .next s
  else weightCommand w true s fun cmd m a s => s.rollChecked w cmd m a fun s b =>
    if b.mixed then s.complete cmd 0x07
    else
      let job := m.job w cmd true (fun _ => true) a
      s.modWeights fun w => { w.modSet b fun b => { b with rolling := true } with rolling := some job }

/-- A batch of a weight set is in flight: one that began before the barrier (R436, R479). -/
def State.inFlight (s : State) (wsid : BitVec 16) : Bool :=
  eDies.any fun e => (s.die e).ctx.started && (s.die e).ctx.batchWsid == wsid && !(s.die e).ctx.barred

/-- The batches of the set have completed: the journal is written and the layers begin (R436). DESIGN CHOICE: the journal
of a stopped roll of another set is written over, and that roll can no longer be completed or abandoned (R438,
log 85). -/
def execRollBatchesDrained (s : State) : Out :=
  match s.weights.rolling with
  | some j =>
    if !j.waiting || s.inFlight j.set.wsid then .next s
    else
      match s.weights.find j.set with
      | none => .next s
      | some b =>
        let s := s.writeJournal { s.weights.journal with
          wsid := b.wsid, state := 1, slot := b.slot, fromV := b.version, toV := j.set.version
          layers := j.set.layers, layer := 0 }
        .next (s.beginLayers j)
  | none => .next s

/-- A stopped or mixed roll of the set is on record (R441). -/
def State.stoppedRoll (s : State) (b : WeightSet) : Bool :=
  s.weights.journal.state != 0 && s.weights.journal.wsid == b.wsid

/-- Keeps the shards of a range of layers. -/
def WeightSet.layersFrom (a : WeightSet) (lo hi : Nat) : WeightSet :=
  { a with shards := a.shards.filter fun h =>
      decide (lo ≤ shLayer h.header) && decide (shLayer h.header < hi) }

/-- What MODE 1 and 2 share: no other set is rolled, and the roll of this set, whose reader is lost, stops first (R438,
R441, log 44). -/
def State.takeRoll (s : State) (w : WeightCmd) (cmd : CmdRef) (m : Manifest) (a : WeightSet)
    (k : State → WeightSet → State) : State :=
  if s.weights.rolling.any fun j => !sameSet j.set a then s.complete cmd 0x07
  else (s.stopRoll a).rollChecked w cmd m a k

/-- MODE 1: the roll resumes from layer LAYER with the TO version (R441). -/
def execRollComplete (w : WeightCmd) (s : State) : Out :=
  if rollMode w.desc ≠ 1 then .next s
  else weightCommand w true s fun cmd m a s =>
    s.takeRoll w cmd m a fun s b =>
    let j := s.weights.journal
    if !s.stoppedRoll b || a.version != j.toV then s.complete cmd 0x0B
    else s.beginLayers (m.job w cmd false (fun l => decide (j.layer ≤ l) && decide (l < j.layers))
      (a.layersFrom j.layer j.layers))

/-- MODE 2: layers 0 to LAYER go back to the FROM version (R441). -/
def execRollAbandon (w : WeightCmd) (s : State) : Out :=
  if rollMode w.desc ≠ 2 then .next s
  else weightCommand w true s fun cmd m a s => s.takeRoll w cmd m a fun s b =>
    let j := s.weights.journal
    if !s.stoppedRoll b || a.version != j.fromV then s.complete cmd 0x0B
    else
      let n := j.layer + 1
      let s := s.writeJournal { j with
        state := 2, fromV := j.toV, toV := j.fromV, layers := n, layer := 0 }
      s.beginLayers (m.job w cmd false (fun l => decide (l < n)) (a.layersFrom 0 n))

/-! ## Resets (R438 to R440, R526, R539) -/

/-- The resident shards that a reset takes from a roll outside its layers: they are to be verified again before it ends,
and the reader sends them, as its manifest has them or else from a storage appliance (R438, log 85). -/
def WeightJob.lose (j : WeightJob) (hit : List Shard) (num : Nat) : WeightJob :=
  let out := hit.filter fun h => !j.set.shards.any (fun g => shLayer g.header == shLayer h.header)
    && !j.lost.contains h.header
  let again := fun (h : Shard) =>
    (j.rest.find? fun g => g.header == h.header && g.dest == 64 * num + h.die).getD
      { header := h.header, dest := 64 * num + h.die, stage := .staging, resends := 0 }
  { j with
    lost := j.lost ++ out.map (·.header)
    sends := if j.reader then j.sends ++ out.map again else j.sends }

/-- The shards of these dies are unverified, and the reader of a command that runs sends them again; sets that were
admissible and are no longer are reported (R438, R469). -/
def State.unverify (s : State) (f : Shard → Bool) : State :=
  let lost := s.weights.sets.any fun a => a.admissible && a.shards.any f
  let num := s.moduleNum d32
  let again := fun (g : ShardSend) => g.dest / 64 == num && f ⟨g.header, g.dest % 64, false, 0⟩
  let hit := fun (a : WeightSet) => (s.weights.find a).elim [] fun a => a.shards.filter f
  let redo := fun (j : Option WeightJob) => j.map fun j => { j with sends := j.sends.map fun (g : ShardSend) =>
    (if again g then { g with stage := .staging } else g) }
  let s := s.readerForget.modWeights fun w => { w with
    loading := redo w.loading
    rolling := (redo w.rolling).map fun j => if j.waiting then j else j.lose (hit j.set) num
    sets := w.sets.map fun a => { a with
      shards := a.shards.map fun h => if f h then { h with verified := false } else h } }
  if lost then s.eventFree 5 else s

/-- After a warm reset, a journal with STATE 1 or 2 marks its set as mixed; without a good copy, sets
with shards on C-die 0 or 31 are unverified. Commands that ran are over (R439, R440). -/
def State.restoreJournal (s : State) : State :=
  let s := s.modWeights fun w => { w with
    loading := none, rolling := none, sets := w.sets.map fun a => { a with rolling := false } }
  match s.readJournal with
  | none =>
    let on := fun (h : Shard) => h.die == 0 || h.die == 31
    let hit := fun (a : WeightSet) => a.shards.any on
    s.modWeights fun w => { w with
      journal := Journal.none
      sets := w.sets.map fun a => if hit a then
          { a with shards := a.shards.map fun h => { h with verified := false } } else a }
  | some j =>
    let s := s.modWeights fun w => { w with journal := j }
    if j.state = 0 then s
    else
      let s := s.modWeights fun w => { w with
        sets := w.sets.map fun a => if a.wsid == j.wsid then { a with mixed := true } else a }
      s.eventFree 4

end Sys2Proof.Machine
end

