-- ==== Sys2Proof/Machine/Batches.lean ====
section
/-! DEFINITION. The batcher of an E-die: boundaries, selection, slot packets and results (R473 to
R480, R512). -/

namespace Sys2Proof.Machine

/-! ## Control and rotation (R474, R486) -/

/-- The value in force at a count of job beats: the last one whose time has come. -/
def inForceAt {α : Type} (now : α) (queue : List (Nat × α)) (ran : Nat) : α :=
  queue.foldl (fun v e => if e.1 ≤ ran then e.2 else v) now

/-- A write of CTX_BATCH_CTRL waits for the next boundary at least 64 job beats later. -/
def Die.noteCtrl (x : Die) (v : W32) : Die :=
  { x with ctx := { x.ctx with ctrlQueue := x.ctx.ctrlQueue ++ [(x.job.ran + 64, v)] } }

/-- The rotation that the registers hold: ROT_LEN entries. -/
def Die.rotation (x : Die) (d : Nat) : List (BitVec 16) :=
  (List.range (min (x.field d rRotationLen 4 0) 16)).map fun i =>
    let w := x.reg d (rRotation + 4 * (i / 2))
    BitVec.ofNat 16 (bitsOf w (16 * (i % 2) + 15) (16 * (i % 2)))

/-- A write of the rotation waits in the same way. -/
def Die.noteRotation (x : Die) (d : Nat) : Die :=
  { x with ctx := { x.ctx with rotQueue := x.ctx.rotQueue ++ [(x.job.ran + 64, x.rotation d)] } }

/-- The set that batch `j` runs; 0xFFFF for none (R474). -/
def State.batchSet (s : State) (j ran : Nat) : BitVec 16 :=
  let c := (s.die d32).ctx
  let rot := inForceAt c.rotInForce c.rotQueue ran
  if rot.isEmpty then 0xFFFF else rot.getD (j % rot.length) 0xFFFF

/-! ## Readiness and order (R475, R476) -/

/-- Bytes left in the head entry of a list. -/
def headLeft (es : List CtxEntry) : Nat :=
  match es with
  | e :: _ => e.length - e.offset
  | [] => 0

/-- The head entry serves a record of a size. -/
def recordFits (es : List CtxEntry) (n : Nat) : Bool := n == 0 || (!es.isEmpty && decide (n ≤ headLeft es))

/-- The context waits with its records, whatever its weight set. -/
def Ctx.loaded (y : Ctx) (b : BatchSched) : Bool :=
  y.state == .queued && recordFits y.inputs b.inBytes && recordFits y.outputs b.outBytes

/-- The context is ready. -/
def State.ctxReady (s : State) (b : BatchSched) (y : Ctx) : Bool := y.loaded b && s.wsidGood y.active

/-- The effective class of a context (R476). -/
def effClass (ripen cls age : Nat) : Nat := if ripen = 0 then cls else cls - age / ripen

/-- One context comes before another in the selection (R475). -/
def ctxBefore (a b : Nat × Ctx) : Bool :=
  decide (a.2.eff < b.2.eff)
    || (a.2.eff == b.2.eff && (decide (b.2.waitAge < a.2.waitAge)
        || (a.2.waitAge == b.2.waitAge && decide (a.1 < b.1))))

/-- Inserts into a list in selection order. -/
def insertCtx (a : Nat × Ctx) : List (Nat × Ctx) → List (Nat × Ctx)
  | [] => [a]
  | b :: bs => if ctxBefore a b then a :: b :: bs else b :: insertCtx a bs

/-- The contexts of a set on an E-die that wait with their records, in selection order. -/
def Die.candidates (x : Die) (b : BatchSched) (wsid : BitVec 16) : List (Nat × Ctx) :=
  (x.ctx.records.filter fun r => r.2.active == wsid && r.2.loaded b).foldl (fun l r => insertCtx r l) []

/-! ## Counters of the batch (R485, R512) -/

/-- A live count as its register takes it, and whether it ran over. -/
def stick (n : Nat) : W64 × Bool := (BitVec.ofNat 64 (min n 0xFFFFFFFF), decide (0xFFFFFFFF < n))

/-- The per-batch registers take the live counts, which restart. -/
def Die.latchBatch (x : Die) : Die :=
  let c := x.ctx
  let (a, oa) := stick c.liveFilled
  let (b, ob) := stick c.liveNull
  let (w, ow) := stick c.liveWaiting
  let (r, orr) := stick c.liveRipen
  let x := (((x.setReg rBatchFilled a).setReg rBatchNull b).setReg rBatchWaiting w).setReg rBatchRipen r
  let x := x.setReg rBatchOvf
    (BitVec.ofNat 64 (oa.toNat + 2 * ob.toNat + 4 * ow.toNat + 8 * orr.toNat))
  { x with ctx := { x.ctx with liveFilled := 0, liveNull := 0, liveWaiting := 0, liveRipen := 0 } }

def Die.modCtxEngine (x : Die) (f : CtxEngine → CtxEngine) : Die := { x with ctx := f x.ctx }

def CtxEngine.slot (c : CtxEngine) (n : Nat) : Option SlotState := tget c.slots n

def CtxEngine.setSlot (c : CtxEngine) (n : Nat) (sl : SlotState) : CtxEngine :=
  { c with slots := tput c.slots n sl }

/-! ## Admission (R475) -/

/-- The input record of a slot cannot be fetched: the context is FAULTED (R458, R477). -/
def State.failInput (s : State) (e n : Nat) (sl : SlotState) : State :=
  let s := match sl.ctx with
    | some c => s.modCtx e c (·.fault 0x02)
    | none => s
  s.modDie e (·.modCtxEngine (·.setSlot n { sl with failed := true }))

/-- Admits a context to a slot: it enters ADMITTED and the DMA of its input record begins. -/
def State.admitCtx (s : State) (e n c : Nat) (b : BatchSched) : State :=
  let y := (s.die e).ctx.ctx c
  let s := s.modCtx e c fun y => { y with
    state := .admitted, waitAge := 0, eff := y.cls, batchesAdmitted := y.batchesAdmitted + 1 }
  let sl : SlotState :=
    { ctx := some c, record := if b.inBytes = 0 then some [] else none, failed := false
      emitted := false, owed := false, done := false, inGone := false, outGone := false
      adapterBase := y.adapterBase, adapterLen := y.adapterLen }
  let s := s.modDie e fun x => (x.bump rCtxAdmitted).modCtxEngine fun k =>
    { k.setSlot n sl with liveFilled := k.liveFilled + 1, prevAdmitted := c :: k.prevAdmitted }
  match y.inputs with
  | a :: _ =>
    if b.inBytes = 0 then s
    else
      let addr := a.addr.toNat + a.offset
      let (s, ok) := s.dmaTry a.port addr b.inBytes
      if ok then s.emitReads a.port addr b.inBytes else s.failInput e n sl
  | [] => s

/-- Fills slots of a batch, in entry order, from candidates in their order. -/
def State.fillSlots (s : State) (e : Nat) (b : BatchSched) : List Nat → List (Nat × Ctx) → State
  | n :: ns, c :: cs => (s.admitCtx e n c.1 b).fillSlots e b ns cs
  | _, _ => s

/-- Entries of a batch that are, or are not, reserved. -/
def BatchSched.indices (b : BatchSched) (reserved : Bool) : List Nat :=
  (List.range b.entries.length).filter fun i => (b.entries[i]?).any (·.reserved == reserved)

/-! ## The boundary (R474 to R476, R512) -/

/-- Job beat of the boundary of the current batch. -/
def Die.boundaryBeat (x : Die) (b : BatchSched) : Nat :=
  b.bfirst + (tgetD x.regs rBatchIndex 0).toNat * b.bperiod

/-- Offset of the die's job beat in its current batch. -/
def Die.batchOffset (x : Die) (b : BatchSched) : Nat := x.job.beat - x.boundaryBeat b

/-- A ready context that the last batch passed over waits one batch more (R475, R476). -/
def Ctx.age (y : Ctx) (ripen : Nat) : Ctx :=
  let age := min (y.waitAge + 1) 0xFFFFFFFF
  let eff := effClass ripen y.cls age
  { y with
    waitAge := age, eff := eff, waitBatches := y.waitBatches + 1
    ripenings := if eff < effClass ripen y.cls y.waitAge then y.ripenings + 1 else y.ripenings }

/-- Ages the contexts that batch j - 1 passed over, and brings every effective class up to date. -/
def State.ageContexts (s : State) (e : Nat) (b : BatchSched) (ripen : Nat) (prev : BitVec 16) : State :=
  (s.die e).ctx.records.foldl (fun s r =>
    let y := r.2
    let passed := y.active == prev && s.ctxReady b y && !(s.die e).ctx.prevAdmitted.contains r.1
    let z := if passed then y.age ripen else { y with eff := effClass ripen y.cls y.waitAge }
    if z == y then s
    else
      let s := s.modCtx e r.1 fun _ => z
      if z.ripenings == y.ripenings then s
      else s.modDie e (·.modCtxEngine fun k => { k with liveRipen := k.liveRipen + 1 })) s

/-- WSEL of a die's memory controller takes a value, and that of the job beats before is kept (R426). -/
def Die.selectSlot (x : Die) (d : Nat) (v : W64) : Die :=
  let past := if x.jobOn d ∧ x.beatNow ≠ 0 then (x.beatNow - 1, x.reg d rWsel) :: x.mem.wselPast else x.mem.wselPast
  { x with mem := { x.mem with wselPast := past } }.setReg rWsel v

/-- WSEL of every memory controller of the module takes the slot of the batch's set; transfers whose performance
beat is over keep the slot of that beat (R426, R474). -/
def State.selectSlot (s : State) (wsid : BitVec 16) : State :=
  let v := match if wsid = 0xFFFF then none else s.slotOf wsid with
    | some n => BitVec.ofNat 64 (2 ^ 31 + n)
    | none => 0
  s.onDies allDies fun s d => (s.fixPassed d).modDie d (·.selectSlot d v)

/-- The weight-set pointers of an E-die's contexts come into force (R437). -/
def State.takePointers (s : State) (e : Nat) : State :=
  (s.die e).ctx.records.foldl (fun s r =>
    if r.2.active == r.2.wsid then s else s.modCtx e r.1 fun y => { y with active := y.wsid }) s

/-- QUEUED contexts of a batch's set whose head input entry is shorter than the input record of the batch become
FAULTED. DEDUCED: the spec gives FAULT_CODE 0x03 and no time; the model takes the boundary at which the batcher meets
the entry (R464, log 37). -/
def State.faultShort (s : State) (e : Nat) (b : BatchSched) (wsid : BitVec 16) : State :=
  (s.die e).ctx.records.foldl (fun s r =>
    if r.2.state == .queued && r.2.active == wsid
        && r.2.inputs.head?.any fun a => decide (a.length - a.offset < b.inBytes) then
      s.modCtx e r.1 (·.fault 0x03)
    else s) s

/-- Batch `j` begins on an E-die. -/
def State.beginBatch (s : State) (e : Nat) (b : BatchSched) (j : Nat) : State :=
  let x := s.die e
  let was := if x.ctx.started then x.ctx.batchWsid else 0xFFFF
  let wsid := s.batchSet j x.job.ran
  let s := (s.endBatch e).modDie e Die.latchBatch
  let s := s.modDie e (·.modCtxEngine fun k =>
    let ran := x.job.ran
    { k with
      ctrlInForce := inForceAt k.ctrlInForce k.ctrlQueue ran
      ctrlQueue := k.ctrlQueue.filter fun q => decide (ran < q.1)
      rotInForce := inForceAt k.rotInForce k.rotQueue ran
      rotQueue := k.rotQueue.filter fun q => decide (ran < q.1) })
  let ctrl := (s.die e).ctx.ctrlInForce
  let s := (s.ageContexts e b (bitsOf ctrl 31 24) was).takePointers e
  let good := s.wsidGood wsid
  let s := s.modDie e fun x => (x.setReg rBatchIndex (BitVec.ofNat 64 j)).modCtxEngine fun k =>
    { k with started := true, batchWsid := wsid, barred := !good, resDone := false, prevAdmitted := []
             slots := (List.range b.entries.length).map fun i =>
               (i, { ctx := none, record := none, failed := false, emitted := false, owed := false
                     done := false, inGone := false, outGone := false, adapterBase := 0, adapterLen := 0 }) }
  let s := if e = d32 then s.selectSlot wsid else s
  if wsid = 0xFFFF || !good then s.modDie e (·.flushCtx e)
  else
    let s := s.faultShort e b wsid
    let cs := (s.die e).candidates b wsid
    let open' := if bitOf ctrl 0 then b.indices false else []
    let s := s.fillSlots e b open' cs
    s.modDie e fun x =>
      (x.modCtxEngine fun k => { k with liveWaiting := cs.length - open'.length }).flushCtx e

/-- A boundary of the batches of an E-die (R475). -/
def execBatchBoundary (e : EDieId) (s : State) : Out :=
  let d := 32 + e.val
  let x := s.die d
  match x.batchSched with
  | none => .next s
  | some b =>
    match x.batchDue d with
    | some j => if x.inReset then .next s else .next (s.beginBatch d b j)
    | none => .next s

/-- The batch of an E-die admits at its reserved selection: its set was admissible at the boundary, and still is but
for a roll, whose barrier waits for the next boundary (R432, R475, R479). -/
def State.stillAdmits (s : State) (x : CtxEngine) : Bool :=
  x.batchWsid != 0xFFFF && !x.barred && s.weights.sets.any fun a =>
    a.wsid == x.batchWsid && !a.mixed && a.shards.all (·.verified)

/-- At offset RES_SEL, reserved slots are filled from ready contexts of effective class 0 that the batch has not
admitted (R475). -/
def execReservedSelection (e : EDieId) (s : State) : Out :=
  let d := 32 + e.val
  let x := s.die d
  match x.batchSched with
  | none => .next s
  | some b =>
    if x.inReset || !x.inJobBeat d || !x.ctx.started || x.ctx.resDone
        || x.batchOffset b != b.resSel then .next s
    else
      let s := s.modDie d (·.modCtxEngine fun k => { k with resDone := true })
      if !bitOf x.ctx.ctrlInForce 0 || !s.stillAdmits x.ctx then .next s
      else
        let all := (x.candidates b x.ctx.batchWsid).filter fun c => !x.ctx.prevAdmitted.contains c.1
        let cs := all.filter fun c => c.2.eff == 0
        let ns := b.indices true
        let s := s.fillSlots d b ns cs
        .next (s.modDie d (·.modCtxEngine fun k =>
          { k with liveWaiting := all.length - min ns.length cs.length }))

/-! ## Slot packets (R477) -/

/-- The slot header: flit 0 of a slot's input packet. -/
def slotFlit (num : Nat) (y : Ctx) (sl : SlotState) (j : Nat) : Flit :=
  BitVec.ofNat 512 (leNat (leBytes num 4 ++ leBytes y.active.toNat 2 ++ [0, 0]
    ++ leBytes y.position.toNat 4 ++ leBytes j 4 ++ leBytes y.kvBase.toNat 8
    ++ leBytes y.kvLen.toNat 8 ++ [y.kvTier, 0, 0, 0, 0, 0, 0, 0] ++ leBytes sl.adapterBase.toNat 8
    ++ leBytes sl.adapterLen.toNat 4))

/-- Header of a slot's packet: KIND 0, LEN = IN_BYTES / 64 (R477). -/
def slotHeader (h : Header) (len : Nat) (null : Bool) (beat : Nat) : Header :=
  mkHeader (hDie h) (hDest h) 0 (hEpoch h) null.toNat 0 len 0 (hRoute h) (hArg h) beat

/-- A slot's packet enters the die's switch. -/
def State.sendSlot (s : State) (d : Nat) (h : Header) (flits : List Flit) (late : Bool) : State :=
  let beat := (s.die d).beatNow
  ((List.range flits.length).zip flits).foldl (fun s f =>
    s.takeFlit d { hdr := h, fidx := f.1, payload := f.2, beat := beat, ready := 0, late := late, src := 288
                   egress := egNone, due := 0, time := 0, serial := 0 }) s

/-- The packet of a slot with its record, or a null packet. -/
def State.emitSlot (s : State) (d n : Nat) (b : BatchSched) (ent : BatchEntry) (sl : SlotState)
    (late : Bool) : State :=
  let x := s.die d
  let len := b.inBytes / 64
  let j := (tgetD x.regs rBatchIndex 0).toNat
  let mark := fun (s : State) =>
    s.modDie d (·.modCtxEngine (·.setSlot n { sl with emitted := true, owed := false }))
  let null := slotHeader ent.hdr len true x.job.beat
  match sl.ctx, sl.record, sl.failed with
  | some c, some staged, false =>
    let y := x.ctx.ctx c
    let s := (mark s).modCtx d c fun y => { y with state := .running }
    s.sendSlot d (slotHeader ent.hdr len false x.job.beat)
      (slotFlit ((d - 32) * 2 ^ 15 + c) y sl j :: staged) late
  | _, _, _ =>
    let s := (mark s).modDie d (·.modCtxEngine fun k => { k with liveNull := k.liveNull + 1 })
    s.sendSlot d null (List.replicate (len + 1) 0) late

/-- At offset EMIT a slot's packet leaves, or its context is held (R477). -/
def execSlotEmit (e : EDieId) (entry : Nat) (s : State) : Out :=
  let d := 32 + e.val
  let x := s.die d
  match x.batchSched with
  | none => .next s
  | some b =>
    match b.entries[entry]?, x.ctx.slot entry with
    | some ent, some sl =>
      if x.inReset || !x.inJobBeat d || !x.ctx.started || sl.emitted || sl.owed
          || x.batchOffset b != ent.emit then .next s
      else
        match sl.ctx, sl.record, sl.failed with
        | some c, none, false =>
          let s := s.modCtx d c fun y =>
            { y with state := .held, inputHolds := y.inputHolds + 1 }
          .next (s.modDie d fun x =>
            ((x.bump rCtxInputHolds).modCtxEngine (·.setSlot entry { sl with owed := true })).raiseHold
              d 6)
        | _, _, _ => .next (s.emitSlot d entry b ent sl false)
    | _, _ => .next s

/-- The engine still waits for the input record of a slot. -/
def SlotState.fetching (sl : SlotState) : Bool := sl.ctx.isSome && sl.record.isNone && !sl.failed

/-- An input record is in staging: an input hold clears, and the packet that it held leaves by the late
path (R477). -/
def execInputRecordDmaDone (e : EDieId) (entry : Nat) (record : List Flit) (s : State) : Out :=
  let d := 32 + e.val
  let x := s.die d
  match x.batchSched with
  | none => .next s
  | some b =>
    match b.entries[entry]?, x.ctx.slot entry with
    | some ent, some sl =>
      if x.inReset || !sl.fetching then .next s
      else
        let staged := (record ++ List.replicate (b.inBytes / 64) 0).take (b.inBytes / 64)
        let sl := { sl with record := some staged }
        let s := match sl.ctx with
          | some c => s.modCtx d c fun y =>
              { y with inputBytes := y.inputBytes + BitVec.ofNat 64 b.inBytes }
          | none => s
        if sl.owed then .next (s.emitSlot d entry b ent sl true)
        else .next (s.modDie d (·.modCtxEngine (·.setSlot entry sl)))
    | _, _ => .next s

/-- The DMA of an input record fails: the context is FAULTED, and a packet that it held leaves as a null
packet (R477). -/
def execInputRecordDmaFailed (e : EDieId) (entry : Nat) (s : State) : Out :=
  let d := 32 + e.val
  let x := s.die d
  match x.batchSched with
  | none => .next s
  | some b =>
    match b.entries[entry]?, x.ctx.slot entry with
    | some ent, some sl =>
      if x.inReset || !sl.fetching then .next s
      else
        let s := match (x.ctx.ctx (sl.ctx.getD 0)).inputs with
          | a :: _ => s.dmaError a.port
          | [] => s
        let s := s.failInput d entry sl
        if sl.owed then .next (s.emitSlot d entry b ent { sl with failed := true } true) else .next s
    | _, _ => .next s

/-! ## Results (R478) -/

/-- Fields of a result header. -/
def resCtx (f : Flit) : Nat := bitsOf f 31 0
def resAdvance (f : Flit) : Nat := bitsOf f 63 32
def resBytes (f : Flit) : Nat := bitsOf f 95 64
def resEnd (f : Flit) : Bool := bitOf f 96

/-- What the engine makes of a result packet: it faults, it is discarded, or it is the result of a
slot's context. -/
inductive ResultFate where
  | bad
  | discard
  | accept (b : BatchSched) (n c : Nat) (sl : SlotState) (f : Flit)

/-- The fate of a result packet on an E-die; one whose output entry a port reset removed is discarded (R457, R478). -/
def Die.resultFate (x : Die) (d : Nat) (h : Header) (flits : List Flit) : ResultFate :=
  match x.batchSched with
  | none => .bad
  | some b =>
    if b.entries.length ≤ hLand h ∨ hLen h ≠ b.outBytes / 64 then .bad
    else
      let early := rebuild24 x.job.beat (hBeat h) < x.boundaryBeat b
      match x.ctx.slot (hLand h), flits with
      | some sl, f :: _ =>
        match sl.ctx with
        | some c =>
          if hNull h || !x.ctx.started || early || sl.done || sl.outGone || resCtx f != (d - 32) * 2 ^ 15 + c
              || (x.ctx.ctx c).state == .faulted then .discard
          else .accept b (hLand h) c sl f
        | none => .discard
      | _, _ => .discard

/-- An entry after a record of `n` bytes; entries with less than a record left retire. -/
def advanceEntry (es : List CtxEntry) (n : Nat) : List CtxEntry × Option CtxEntry :=
  match es with
  | e :: rest =>
    if n = 0 then (es, none)
    else
      let e := { e with offset := e.offset + n }
      if e.length - e.offset < n then (rest, some e) else (e :: rest, none)
  | [] => ([], none)

/-- The result of a context is accepted: counters, entries, completions, and the context returns to
QUEUED or closes. -/
def State.acceptResult (s : State) (d n c : Nat) (b : BatchSched) (sl : SlotState) (f : Flit) : State :=
  let y := (s.die d).ctx.ctx c
  let num := BitVec.ofNat 32 ((d - 32) * 2 ^ 15 + c)
  let rbytes := min (resBytes f) b.outBytes
  let (outs, _) := advanceEntry y.outputs b.outBytes
  let (ins, retired) := if sl.inGone then (y.inputs, none) else advanceEntry y.inputs b.inBytes
  let pos := y.position + BitVec.ofNat 32 (resAdvance f)
  let s := s.modCtx d c fun y => { y with
    inputs := ins, outputs := outs, position := pos, state := .queued
    resultBytes := y.resultBytes + BitVec.ofNat 64 rbytes }
  let s := s.modDie d fun x =>
    (x.bump rResultsDelivered).modCtxEngine (·.setSlot n { sl with done := true })
  let off := match y.outputs with | o :: _ => o.offset + b.outBytes | [] => 0
  let base := { Completion.base with context := num, value := y.userTag }
  let s := s.cqPost y.submitPort y.cring { base with
    type := 1, bytes := BitVec.ofNat 32 rbytes, offset := BitVec.ofNat 32 off, position := pos
    detail := BitVec.ofNat 32 (resEnd f).toNat }
  let s := match retired with
    | some e => s.cqPost y.submitPort y.cring { base with
        type := 2, bytes := BitVec.ofNat 32 e.offset }
    | none => s
  s.finishClose d c

/-- A result whose DMA fails: the context is FAULTED and no RESULT entry is written. -/
def State.failResult (s : State) (d n c : Nat) (sl : SlotState) : State :=
  (s.modCtx d c (·.fault 0x02)).modDie d (·.modCtxEngine (·.setSlot n { sl with done := true }))

/-- What both rows of a result packet share: its flits stand in the link switch and leave it, and it is checked. -/
def resultPacket (e : EDieId) (h : Header) (flits : List Flit) (s : State)
    (act : Nat → Nat → Nat → BatchSched → SlotState → Flit → State → State) : Out :=
  let d := 32 + e.val
  let x := s.die d
  if x.inReset || !x.jobOn d then .next s
  else
    match x.arrival h flits 4 with
    | none => .next s
    | some a =>
      let s := s.setDie d (x.takePacket h a)
      match x.resultFate d h flits with
      | .bad => .next (s.dieFault d 0x21 (stopDetailAt 0 0 h))
      | .discard => .next (s.modDie d (·.bump rResultsDiscarded))
      | .accept b n c sl f => .next (act d n c b sl f s)

/-- A result packet arrives: RBYTES go to the host by DMA and the context advances (R478). -/
def execResultArrival (e : EDieId) (h : Header) (flits : List Flit) (s : State) : Out :=
  resultPacket e h flits s fun d n c b sl f s =>
    match ((s.die d).ctx.ctx c).outputs with
    | o :: _ =>
      if b.outBytes = 0 then s.acceptResult d n c b sl f
      else
        let len := min (resBytes f) b.outBytes
        let addr := o.addr.toNat + o.offset
        let (s, ok) := if len = 0 then (s, true) else s.dmaTry o.port addr len
        if len = 0 then s.acceptResult d n c b sl f
        else if ok then
          (s.emitWrites o.port addr ((flitBytes (flits.drop 1)).take len)).acceptResult d n c b sl f
        else s.failResult d n c sl
    | [] => if b.outBytes = 0 then s.acceptResult d n c b sl f else s.failResult d n c sl

/-- A result packet arrives and its DMA fails (R478). -/
def execResultDmaFailed (e : EDieId) (h : Header) (flits : List Flit) (s : State) : Out :=
  resultPacket e h flits s fun d n c _ sl _ s =>
    match ((s.die d).ctx.ctx c).outputs with
    | o :: _ => (s.dmaError o.port).failResult d n c sl
    | [] => s.failResult d n c sl

end Sys2Proof.Machine
end

