-- ==== Sys2Proof/Machine/Flash.lean ====
section
/-! DEFINITION. The test of a firmware image, the identity signer and its index (R559, R572 to
R576). -/

namespace Sys2Proof.Machine

/-! ## Firmware images (R559) -/

def fwVersion (bs : List Byte) : Nat := fieldLE bs 4 4
def fwLength (bs : List Byte) : Nat := fieldLE bs 8 4
def fwBody (bs : List Byte) : Nat := fieldLE bs 12 4
def fwDigest (bs : List Byte) : BitVec 256 := BitVec.ofNat 256 (fieldLE bs 16 32)

/-- The live firmware floor. -/
def Flash.floor (f : Flash) : Nat :=
  match f.live recFloor with
  | some r => fieldLE r.payload 0 4
  | none => 0

/-- The test of an image: 0 when it is accepted, else the REASON of R570 of the first part of the
test that fails. -/
def fwTest (bs : List Byte) (floor : Nat) : Nat :=
  let n := fwBody bs
  let body := (bs.drop 0x40).take n
  let sig := (bs.drop (0x40 + n)).take 2820
  if fieldLE bs 0 4 ≠ 0x4D574654 ∨ fieldLE bs 0x30 16 ≠ 0 then 0x01
  else if fwLength bs ≠ 0x40 + n + 2820 ∨ 8388608 < fwLength bs ∨ n % 64 ≠ 0
      ∨ bs.length < fwLength bs then 0x06
  else if shake256 body ≠ fwDigest bs then 0x02
  else if !Config.signatureGood 0 (bs.take 0x40) sig then 0x03
  else if fwVersion bs < floor then 0x04
  else 0

/-- REASON of the image in the slot (R560): an erased slot has a code of its own, and after an
interrupted programming the spec leaves open which test fails first (log 1). -/
def State.slotTest (s : State) : Nat × State :=
  let f := s.flash
  if f.torn then
    ([0x01, 0x02, 0x03, 0x06, 0x07].getD ((Config.freeWord s.fz).toNat % 5) 0x01, s.used)
  else if f.slot.isEmpty then (0x07, s)
  else (fwTest f.slot f.floor, s)

/-! ## The identity index (R573 to R575) -/

/-- CFG_BOOT_STATUS.IDENTITY_OK. -/
def State.canSign (s : State) : Bool := bitOf (s.cfg cBootStatus) 22

def State.idxNext (s : State) : Nat := bitsOf (s.cfg cIdxNext) 39 0

def State.idxReserved (s : State) : Nat := bitsOf (s.cfg cIdxReserved) 39 0

abbrev d32cfg : Nat := 32

/-- The identity key becomes unusable: the index is exhausted, or a reservation did not read back (R575). -/
def State.stopSigning (s : State) (exhausted : Bool) : State :=
  (s.setCfgField cBootStatus 22 22 0).logEvent d32cfg 0xA7 (BitVec.ofNat 64 exhausted.toNat)

/-- An index was used; at the limit signing stops. -/
def State.useIndex (s : State) : State :=
  let s := (s.setCfg cIdxNext (BitVec.ofNat 64 (s.idxNext + 1))).bumpCfg cSignatures
  if 2 ^ 40 - 1024 ≤ s.idxNext then s.stopSigning true else s

/-- The record that extends the reservation from the next index, signed by the key of the seeds (R573, R574). -/
def reservation (seeds : List Byte) (n : Nat) : Record :=
  let r : Record :=
    { type := BitVec.ofNat 16 recIndex, signer := 1, seq := BitVec.ofNat 64 ((n + 1024) / 1024)
      subject := BitVec.ofNat 16 noSubject, payload := leBytes (n + 1024) 8 ++ leBytes n 8
      sig := [] }
  { r with sig := identitySign seeds n r.message }

/-- Extends the reservation, or stops signing when the record does not read back (R573, R575). -/
def State.reserve (s : State) : State :=
  let n := s.idxNext
  let (s, good) := s.appendRecord (reservation s.flash.seeds n)
  if good then
    ((s.setCfg cIdxReserved (BitVec.ofNat 64 (n + 1024))).logEvent d32cfg 0xA6 (BitVec.ofNat 64 (n + 1024))).useIndex
  else s.stopSigning false

/-- Limit L of the live reservation, 0 if there is none. -/
def Flash.limit (f : Flash) : Nat :=
  match f.live recIndex with
  | some r => fieldLE r.payload 0 8
  | none => 0

/-- The identity at the start of firmware (R555, R573, R575). -/
def State.startIdentity (s : State) : State :=
  let f := s.flash
  let n := f.limit
  let s := (s.setCfg cIdxNext (BitVec.ofNat 64 n)).setCfg cIdxReserved (BitVec.ofNat 64 n)
  if (f.live recSecret).isNone || (f.live recCertificate).isNone then s
  else if 2 ^ 40 - 1024 ≤ n then s.stopSigning true
  else (s.setCfgField cBootStatus 22 22 1).reserve

/-- Signs a message that may depend on the state at signing and on its index; `none` when the identity is unavailable. -/
def State.sign (s : State) (msg : State → Nat → List Byte) : State × Option (List Byte × List Byte) :=
  if !s.canSign then (s, none)
  else
    let s := if s.idxNext = s.idxReserved then s.reserve else s
    if !s.canSign then (s, none)
    else
      let n := s.idxNext
      (s.useIndex, some (msg s n, identitySign s.flash.seeds n (msg s n)))

/-- Writes a SIGNER 1 record; whether it was written (R575). DESIGN CHOICE: one that does not read back counts as not
written (log 49). -/
def State.writeRecord (s : State) (type : Nat) (payload : List Byte) : State × Bool :=
  let r : Record :=
    { type := BitVec.ofNat 16 type, signer := 1, seq := BitVec.ofNat 64 (s.flash.nextSeq type)
      subject := BitVec.ofNat 16 noSubject, payload := payload, sig := [] }
  match s.sign fun _ _ => r.message with
  | (s, some (_, sig)) => s.appendRecord { r with sig := sig }
  | (s, none) => (s, false)

/-! ## Attestation (R576) -/

/-- First 16 payload bytes of the live identity certificate. -/
def Flash.serial (f : Flash) : List Byte :=
  match f.live recCertificate with
  | some r => r.payload.take 16
  | none => List.replicate 16 0

/-- What the configuration space of either function reports: its identifiers, and the serial number of the Device
Serial Number capability (R453, R454). -/
structure PcieIdentity where
  vendor : BitVec 16
  device : BitVec 16
  classCode : BitVec 24
  revision : BitVec 8
  serial : List Byte
  deriving DecidableEq, Repr

/-- The identity of both functions: a processing accelerator of Oaval's (R454). -/
def State.pcieIdentity (s : State) : PcieIdentity :=
  { vendor := Config.vendorId, device := 0x7440, classCode := 0x120000, revision := Config.stepping
    serial := s.flash.serial }

/-- Every live record but the secret one, in order. -/
def Flash.measured (f : Flash) : List Byte :=
  (f.liveAll.filter fun e => e.1 / 2 ^ 16 != recSecret).flatMap fun e => e.2.bytes

/-- The 192 bytes of a report; `now` is the fabric time, `servo` TIME_SERVO_STATUS. -/
def State.reportBody (s : State) (nonce : List Byte) (now : W64 × Nat) (servo : W64) (n : Nat) :
    List Byte :=
  let f := s.flash
  let fieldMap := (f.live recMap).any (·.signer == 1)
  let flags := (bitOf (s.cfg cBootStatus) 23).toNat + 2 * fieldMap.toNat
  leBytes 0x54525441 4 ++ leBytes 1 2 ++ leBytes flags 2 ++ nonce ++ f.serial
    ++ leBytes (s.cfg cFwVersion).toNat 4 ++ leBytes f.floor 4 ++ leBytes s.boot.digest.toNat 32
    ++ leBytes (shake256 f.measured).toNat 32 ++ leBytes now.1.toNat 8 ++ leBytes now.2 4
    ++ leBytes servo.toNat 4 ++ leBytes n 8 ++ List.replicate 56 0

/-- Signs a fresh report and keeps it (R576, R596). -/
def State.attest (s : State) (nonce : List Byte) : State × Option (List Byte) :=
  match s.sign fun s n => s.reportBody nonce (s.now d32) s.servoStatus n with
  | (s, some (body, sig)) =>
    let r := body ++ sig
    ({ s with boot := { s.boot with report := r } }.used, some r)
  | (s, none) => (s, none)

end Sys2Proof.Machine
end

