-- ==== Sys2Proof/Machine/Reset.lean ====
section
/-! DEFINITION. Resets and boot: what each reset leaves, the sprout, the release of a die, and the
resets of a die and of the module (R523, R527, R537 to R539, R555, R560 to R562, R566). -/

namespace Sys2Proof.Machine

/-! ## PWR_STATUS (R542) -/

def State.pwrBit (s : State) (i : Nat) : Bool := (s.die d32).bit d32 rPwrStatus i

def State.setPwr (s : State) (hi lo v : Nat) : State :=
  s.modDie d32 (·.setField d32 rPwrStatus hi lo v)

def State.modGerm (s : State) (f : Germ → Germ) : State := { s with germ := f s.germ }

/-- Registers of the germ that differ from their reset value (R539, R541). -/
def germRegs (x : Die) : Table W64 :=
  x.regs.filter fun e => decide (rPwrStatus ≤ e.1) && decide (e.1 ≤ rDieResets)

/-- Those that only a loss of input power clears: the trip record and the germ counters (R541). -/
def tripRegs (x : Die) : Table W64 :=
  x.regs.filter fun e => decide (rTripInfo ≤ e.1) && decide (e.1 ≤ rDieResets)

/-- CFG_ counters, which only power-on clears (R569). -/
def cfgCounters (t : Table W64) : Table W64 :=
  t.filter fun e => e.1 == cSignatures || e.1 == cFlashErases || e.1 == cFlashRefused

/-! ## Programming that a reset interrupts (R566) -/

def State.interrupt (s : State) : State :=
  match s.boot.programming with
  | none => s
  | some _ =>
    let s := s.modFlash fun f => { f with torn := true }
    { s with boot := { s.boot with programming := none, delayedReset := none } }

/-! ## Every rail falls (R523, R527, R529) -/

def Germ.off (g : Germ) (r : Rails) : Germ :=
  { rails := r, move := .none, byTimer := false, asked := [], clampRun := 0, lowRun := 0
    powers := if r = .lost then [] else g.powers, underRun := none, overRun := none, latched := false, warm := g.warm }

/-- The management endpoint after a reset: the settings record in force (R589, R594, R597). -/
def Mgmt.restart (m : Mgmt) : Mgmt :=
  let mode := settingOf m.settings 5
  { straps := m.straps, eid := BitVec.ofNat 8 (settingOf m.settings 1).toNat
    tid := 0, i3cAddr := 0, queue := [], effecter := 0
    ip4 := if Config.dhcpMode mode then 0 else Config.staticIp4 mode, ip6 := 0
    settings := m.settings, inForce := m.settings }

/-- A die without power: everything at reset but the registers given. -/
def Die.dark (regs : Table W64) : Die := { Die.reset with inReset := true, regs := regs }

/-- Only the flash, the pins, and as long as input power stays the germ registers, are kept. -/
def State.allOff (s : State) (r : Rails) : State :=
  let s := s.interrupt
  let regs := if r = .lost then [] else germRegs (s.die d32)
  let s' : State := { State.reset with
    pending := s.pending, sent := s.sent
    dies := allDies.map fun d => (d, Die.dark (if d = d32 then regs else []))
    port0 := { HostPort.reset with epoch := s.port0.epoch + 1 }
    port1 := { HostPort.reset with epoch := s.port1.epoch + 1 }
    germ := s.germ.off r
    boot := { State.reset.boot with flash := s.boot.flash, recovered := s.boot.recovered }
    servo := { State.reset.servo with ref10m := s.servo.ref10m }
    mgmt := s.mgmt.restart, jobs := s.jobs, fz := s.fz }
  s'.setPwr 28 27 0

/-! ## A die resets (R39, R539) -/

/-- Memory contents stay, and the engines of the controller restart. -/
def MemCtl.restart (m : MemCtl) : MemCtl :=
  { MemCtl.reset with cells := m.cells, bad := m.bad, weak := m.weak }

/-- A die in reset. Its log, fabric time and context records are kept, and its memory when `mem`;
`keep` picks registers that survive. -/
def Die.resetBy (x : Die) (mem : Bool) (keep : Nat → Bool) : Die :=
  { Die.reset with
    inReset := true, log := x.log, sec := x.sec, ns := x.ns
    regs := x.regs.filter fun e => e.1 == rLogHead || keep e.1
    mem := if mem then x.mem.restart else MemCtl.reset
    ctx := { CtxEngine.reset with records := x.ctx.records } }

/-- The germ's registers are not the die's (R539). -/
def germOff (d off : Nat) : Bool := d == d32 && decide (rPwrStatus ≤ off) && decide (off ≤ rDieResets)

/-- Contexts of an E-die that were in a batch return to QUEUED (R478, R538, R539). -/
def State.requeue (s : State) (e : Nat) : State :=
  let s := s.endBatch e
  let s := (s.die e).ctx.records.foldl (fun s r =>
    match r.2.state with
    | .admitted | .running | .held => s.modCtx e r.1 fun y => { y with state := .queued }
    | _ => s) s
  s.modDie e (·.flushCtx e)

/-- BAR2 accesses that a die had outstanding fail with status 0x3: reads return all ones (R456). -/
def State.failReads (s : State) (d : Nat) : State :=
  (s.die d).outstanding.foldl (fun s o =>
    match o.host with
    | some (p, read, n) => s.hostAnswer p read n 3 []
    | none => s) s

/-- A die can no longer take its part in the SNAPSHOT commands that are armed (R508). -/
def State.missSnaps (s : State) (d : Nat) : State :=
  let miss := fun (j : SnapJob) => if j.awaits d then { j with out := d :: j.out } else j
  { s with snaps := s.snaps.map miss }.checkSnaps

/-- A die loses its state: a die reset, or the fall of its rail. -/
def State.dropDie (s : State) (d : Nat) (mem : Bool) (keep : Nat → Bool) : State :=
  let s := if isEDie d then s.requeue d else s
  (s.failReads d).modDie d fun x => x.resetBy mem fun off => keep off || germOff d off

/-- Resets dies by a mask: bit 32 is ignored; shards on them are unverified, and a load that runs ends
(R292, R539). -/
def State.resetDies (s : State) (mask : Nat) : State :=
  let ds := allDies.filter fun d => d != d32 && mask.testBit d
  if ds.isEmpty then s
  else
    let s := s.onDies ds fun s d => s.dropDie d true fun _ => false
    let s := s.unverify fun h => ds.contains h.die
    let s := s.onDies ds State.missSnaps
    let s := s.modDie d32 (·.bump rDieResets ds.length)
    let on := ds.foldl (fun n d => n + 2 ^ d) 0
    (s.logEvent d32 0x88 (BitVec.ofNat 64 on)).abortLoad

/-! ## Release (R368, R495, R555, R557) -/

/-- The module's fabric time, which E-die 32 keeps with the germ (R495). -/
def State.loadTime (s : State) (d : Nat) : State :=
  s.setClock d ((s.die d32).timeNs + s.tickLow d32)

/-- A die leaves its reset: the context engine of an E-die loads its descriptors (R466). -/
def Die.wakeUp (x : Die) (d : Nat) : Die :=
  let x := { x with inReset := false }
  if isEDie d then x.loadCtxs d else x

/-- The map and the trims of the flash come into force on a C-die (R53, R272, R600). -/
def State.applyFlash (s : State) (d : Nat) : State :=
  if isEDie d then s
  else
    let v := s.mapWord d
    s.modDie d fun x =>
      (List.range 4).foldl (fun x r => x.setReg (rRegion + 0x40 * r + 0x20) (s.flash.trimWord d r))
        ((x.setReg rSpareMap v).setReg rSpareMapNext v)

/-- The links of a released die enter training; while transmitters are off a fabric port stays down
(R368, R567). -/
def State.startLinks (s : State) (d : Nat) : State :=
  (portsOf d).foldl (fun s p =>
    if s.heldOff p then s
    else s.modDie d fun x => (x.setLinkState d p stTraining 0).lbump p lRetrains) s

/-- The far ends of a die's links no longer report it in reset (R373). -/
def State.clearFar (s : State) (d : Nat) : State :=
  (portsOf d).foldl (fun s p =>
    match farOf d p with
    | some (e, q) => s.modDie e (·.setLField e q lStatus 25 25 0)
    | none => s) s

/-- Releases a die from reset; firmware then re-checks its shards (R539). DESIGN CHOICE: it writes no SET_BASE that a
reset cleared (log 83). -/
def State.release (s : State) (d : Nat) : State :=
  let s := ((s.loadTime d).applyFlash d).modDie d (·.wakeUp d)
  ((s.startLinks d).clearFar d).recheck d none

/-- Defaults of the live settings record on E-die 32 (R553). -/
def State.applySettings (s : State) : State :=
  let put := fun (s : State) (n off : Nat) (m : W64) =>
    match tget s.mgmt.inForce n with
    | some v => s.modDie d32 (·.setReg off (v &&& m))
    | none => s
  put (put s 3 rJump (maskOf 15 0)) 4 rWakeEn 0xFFFF000F

/-! ## The sprout (R555, R560) -/

/-- Records that fail R554 are logged. -/
def State.logBadRecords (s : State) : State :=
  (s.flash.placed.filter fun e => !s.flash.good e.2).foldl (fun s e =>
    s.logEvent d32 0xA3 (BitVec.ofNat 64 (e.2.type.toNat + e.2.subject.toNat * 2 ^ 16
      + e.1 / 2 ^ 16 % 2 ^ 16 * 2 ^ 32))) s

/-- Firmware applies the map to the C-dies that have no trims, which it does not release: DIE_DISABLED is 1 (R555). -/
def State.markUntrimmed (s : State) : State :=
  s.onDies cDies fun s d => if s.trimmed d then s else s.applyFlash d

/-- Boot stops when E-die 32 has no trims, as for another E-die (R555, R562). -/
def State.testCore (s : State) : State :=
  if s.trimmed d32 then s else (s.setCfgField cBootStatus 31 29 5).setCfgField cBootStatus 28 24 8

/-- Steps 1 to 4: E-die 32 is released, records and image are tested, and firmware starts, with the
journal, or recovery is entered. -/
def State.sprout (s : State) : State :=
  let s := s.modDie d32 (·.wakeUp d32)
  let s := s.logBadRecords.setCfg cFwFloor (BitVec.ofNat 64 s.flash.floor)
  let (reason, s) := s.slotTest
  if reason = 0 then
    let img := s.flash.slot
    let rec' := s.boot.recovered.toNat
    let s := s.setCfg cBootStatus (BitVec.ofNat 64 (2 ^ 29 + rec' * 2 ^ 23 + 2 ^ 21))
    let s := s.setCfg cFwVersion (BitVec.ofNat 64 (fwVersion img))
    let s := { s with boot := { s.boot with digest := fwDigest img } }
    let s := s.logEvent d32 0xA0 (BitVec.ofNat 64 (fwVersion img + rec' * 2 ^ 32))
    ((s.startIdentity.applySettings.restoreJournal).startLinks d32).markUntrimmed.testCore
  else
    let s := s.setCfg cBootStatus (BitVec.ofNat 64 (3 * 2 ^ 29 + reason * 2 ^ 24))
    let s := s.setCfg cFwVersion 0
    (s.logEvent d32 0xA1 (BitVec.ofNat 64 reason)).logEvent d32 0xA2 1

/-- Boot is over when all E-dies, and all C-dies that have trims, are released (R560). -/
def State.checkBooted (s : State) : State :=
  let all := allDies.all fun d =>
    !(s.die d).inReset || (!isEDie d && (s.flash.live recTrims d).isNone)
  if bitsOf (s.cfg cBootStatus) 31 29 = 1 ∧ all then s.setCfgField cBootStatus 31 29 2 else s

/-- The die may be released now: rails are on, no state or recovery keeps it off, and it has trims
(R529, R555, R562, R563). -/
def State.mayRelease (s : State) (d : Nat) : Bool :=
  s.germ.rails == .on && [0, 1, 2].contains (bitsOf (s.cfg cBootStatus) 31 29) && s.trimmed d
    && decide (s.pst ≤ (if isEDie d then 2 else 1)) && !(s.die d32).inReset

def execReleaseOfDieReset (d : DieId) (s : State) : Out :=
  if !(s.die d.val).inReset || !s.mayRelease d.val then .next s
  else .next ((s.release d.val).checkBooted)

/-- A die reset while boot is in steps 1 to 5 restarts the sequence from step 1 (R561). -/
def State.restartBoot (s : State) : State :=
  if s.bootState ≠ 1 then s
  else (s.onDies allDies fun s d => s.dropDie d true fun _ => false).sprout

/-- Die resets by a mask (R539, R561). -/
def State.dieResets (s : State) (mask : Nat) : State :=
  if allDies.any fun d => d != d32 && mask.testBit d then (s.resetDies mask).restartBoot else s

def execDieReset (d : DieId) (s : State) : Out :=
  if s.germ.rails ≠ .on ∨ (s.die d32).inReset then .next s else .next (s.dieResets (2 ^ d.val))

/-- An E-die has not reported its firmware within 200 ms: boot stops (R562). -/
def execEDieStartTimeout (e : EDieId) (s : State) : Out :=
  let d := 32 + e.val
  if bitsOf (s.cfg cBootStatus) 31 29 ≠ 1 ∨ d = d32 ∨ !(s.die d).inReset then .next s
  else .next ((s.setCfgField cBootStatus 31 29 5).setCfgField cBootStatus 28 24 8)

/-- The germ reports that the firmware of E-die 32 does not answer (R562). -/
def execFirmwareWatchdogMiss (s : State) : Out :=
  if s.germ.rails ≠ .on ∨ [3, 4].contains (bitsOf (s.cfg cBootStatus) 31 29) then .next s
  else .next ((s.portStatus 0 30).portStatus 1 30)

/-! ## Power-on (R537, R539, R541) -/

/-- The whole module resets with its rails on, and boots. `last` is LAST_RESET; the trip record and the
germ counters stay while input power stays. -/
def State.powerOn (s : State) (last : Nat) (keep : Bool) : State :=
  let regs := if keep then tripRegs (s.die d32) else []
  let s := s.allOff .on
  let s := s.modDie d32 fun x => { x with regs := regs }
  let s := { s with boot := { s.boot with recovered := false } }
  let s := s.setPwr 22 20 last
  let trip := (s.die d32).reg d32 rTripInfo
  let s := s.sprout
  let s := if last = 3 then s.logEvent d32 0x82 trip else s
  s.logEvent d32 0x88 (BitVec.ofNat 64 last)

/-- The input reads 38 to 50 V, as the last sample has it (R523). -/
def State.inputGood (s : State) : Bool :=
  let v := (s.die d32).field d32 rPwrInput 31 16
  decide (38 * 256 ≤ v) && decide (v ≤ 50 * 256)

/-- The tripped state may be left: every sensor is below 90 degrees and the input is back (R527). -/
def State.tripOver (s : State) : Bool := s.germ.warm.isEmpty && s.inputGood

/-- MOD_RST_N gives a power-on reset in P4, and after a trip that is over (R527, R533). -/
def State.pinReset (s : State) : State :=
  match s.germ.rails with
  | .p4 => s.powerOn 0 true
  | .tripped => if s.tripOver then s.powerOn 3 true else s
  | _ => s

/-- The power-on reset, by MOD_RST_N or because the input has risen (R523, R537); a trip must be over (R527). -/
def execPowerOnReset (byPin : Bool) (s : State) : Out :=
  if byPin then .next s.pinReset
  else if s.germ.rails = .tripped ∧ !s.tripOver then .next s
  else .next ((s.modGerm fun g => { g with warm := [] }).powerOn 0 false)

/-! ## Module warm reset (R538, R539) -/

/-- The germ's fabric time goes on while E-die 32 does not run, by an open time (R495, log 47). -/
def State.germTime (s : State) : State :=
  (s.setClock d32 ((s.die d32).timeNs + (Config.freeWord s.fz).toNat % 2 ^ 40)).used

/-- The module resets, the germ and the memories apart, and boots. -/
def State.warmReset (s : State) (last : Nat) : State :=
  let s := ((s.portStatus 0 28).portStatus 1 28).interrupt
  let s := s.onDies allDies fun s d => s.dropDie d true fun _ => false
  let s := (s.closePort 0 false).closePort 1 false
  let s := s.modDie d32 (·.bump rWarmResets)
  let s := (s.setPwr 31 26 0).setPwr 22 20 last
  let s := { s.germTime with
    taken := [], load := none, snaps := [], placed0 := none, placed1 := none
    germ := { s.germ with move := .none, byTimer := false, asked := [], latched := false }
    servo := { State.reset.servo with ref10m := s.servo.ref10m }
    mgmt := s.mgmt.restart
    boot := { s.boot with cfg := cfgCounters s.boot.cfg, report := [], delayedReset := none } }
  let s := s.sampleSeen
  let s := s.modWeights fun w => { w with loading := none, rolling := none }
  s.sprout.logEvent d32 0x88 (BitVec.ofNat 64 last)

/-- A register write, or a message, asks for a warm reset: firmware delays it until programming of the
firmware slot ends (R566). -/
def State.askReset (s : State) : State :=
  if s.boot.programming.isSome then
    let s := (s.portStatus 0 28).portStatus 1 28
    { s with boot := { s.boot with delayedReset := some 2 } }
  else s.warmReset 2

/-- A write of PWR_RESET_CTRL with MOD_RESET set acts with the key alone (R541). -/
def State.modResetWrite (s : State) (key : Nat) : State :=
  if key = 0x5754 then s.askReset else s

def execModReset (key : BitVec 16) (s : State) : Out :=
  if s.germ.rails ≠ .on then .next s else .next (s.modResetWrite key.toNat)

/-- MOD_RST_N (R527, R533, R537, R538). -/
def execModRstN (lowNs : Nat) (s : State) : Out :=
  if s.germ.rails = .lost then .next s
  else if lowNs < 1000 then undef 538
  else if lowNs < 10000 then .next s
  else if s.germ.rails = .on then .next (s.warmReset 1)
  else .next s.pinReset

end Sys2Proof.Machine
end

