-- ==== Sys2Proof/Machine/Power.lean ====
section
/-! DEFINITION. Power: input samples, the alarm, the clamp and the trips, the power states, wakes and
restores (R523 to R536, R543 to R548). -/

namespace Sys2Proof.Machine

/-! ## Input samples (R523, R525) -/

/-- One more sample in a row out of range, with the extreme voltage of the run. -/
def runOn (r : Option (Nat × Nat)) (v : Nat) (ext : Nat → Nat → Nat) : Option (Nat × Nat) :=
  match r with
  | some (n, e) => some (n + 1, ext e v)
  | none => some (1, v)

/-- A run of samples that has ended within 10 ms was ridden through and is logged. -/
def State.endRun (s : State) (r : Option (Nat × Nat)) (code : Nat) : State :=
  match r with
  | some (n, e) =>
    if n ≤ 1000 ∧ s.germ.rails = .on then s.logEvent d32 code (BitVec.ofNat 64 e) else s
  | none => s

/-- Samples in a second, and in 10 ms. -/
abbrev secondSamples : Nat := 100000
abbrev centiSamples : Nat := 1000

/-- The sum of the newest `n` samples of power. DESIGN CHOICE: before there are `n`, those that are missing count as
zero (log 86). -/
def powerSum (ps : List Nat) (n : Nat) : Nat := (ps.take n).foldl (· + ·) 0

/-- Their mean in W. The spec does not say how it is rounded: it is one of the two nearest whole numbers, as the command
says (log 86). -/
def powerMean (ps : List Nat) (n : Nat) (up : Bool) : Nat :=
  (powerSum ps n + if up then 65536 * n - 1 else 0) / (65536 * n)

/-- The power alarm follows the mean of the last second (R525). -/
def State.powerAlarm (s : State) (up : Bool) : State :=
  let sum := powerSum s.germ.powers secondSamples
  let unit := 65536 * secondSamples
  if 4000 * unit < sum then
    if s.pwrBit 24 then s
    else
      let s := (s.setPwr 24 24 1).modDie d32 (·.bump rPowerAlarms)
      if s.germ.rails = .on then s.logEvent d32 0x81 (BitVec.ofNat 64 (powerMean s.germ.powers secondSamples up)) else s
  else if sum < 3900 * unit then s.setPwr 24 24 0
  else s

/-- PWR_INPUT and PWR_MODULE_POWER after a sample (R541). -/
def Die.showInput (x : Die) (v i : Nat) (ps : List Nat) (upSecond upCenti : Bool) : Die :=
  let x := x.setReg rPwrInput (BitVec.ofNat 64 (v * 2 ^ 16 + i))
  let peak := max (x.field d32 rModulePower 15 0) (powerMean ps centiSamples upCenti)
  x.setReg rModulePower (BitVec.ofNat 64 (powerMean ps secondSamples upSecond * 2 ^ 16 + peak))

/-- What the germ keeps of its samples, one more taken. -/
def Germ.sample (g : Germ) (v i : Nat) : Germ :=
  { g with
    powers := (v * i :: g.powers).take secondSamples
    clampRun := if 4200 * 65536 ≤ v * i then min (g.clampRun + 1) 1000 else 0
    lowRun := if v < 34 * 256 then g.lowRun + 1 else 0
    underRun := if v < 38 * 256 then runOn g.underRun v min else none
    overRun := if 50 * 256 < v then runOn g.overRun v max else none }

/-- The germ samples voltage and current, in 1/256 V and A; the command says whether each mean is rounded up to W (R523,
R525). -/
def execInputPowerSample (voltage current : BitVec 16) (upSecond upCenti : Bool) (s : State) : Out :=
  if s.germ.rails = .lost then .next s
  else
    let v := voltage.toNat
    let i := current.toNat
    let g := s.germ
    let s := if v < 38 * 256 then s else s.endRun g.underRun 0x85
    let s := if 50 * 256 < v then s else s.endRun g.overRun 0x86
    let s := (s.modGerm (·.sample v i)).modDie d32 (·.showInput v i (g.sample v i).powers upSecond upCenti)
    .next (s.powerAlarm upSecond)

/-! ## Trips (R526 to R528, R545) -/

/-- PWR_TRIP_INFO. -/
def State.tripRecord (s : State) (cause die value : Nat) : State :=
  let s := if s.germOnly then s.germTime else s
  let sec := (s.now d32).1.toNat
  (s.modDie d32 (·.setReg rTripInfo (BitVec.ofNat 64 (cause * 2 ^ 56 + die * 2 ^ 48
    + value % 2 ^ 16 * 2 ^ 32 + sec % 2 ^ 32)))).timed d32

/-- Voltage of the last sample. -/
def State.inputVolts (s : State) : Nat := (s.die d32).field d32 rPwrInput 31 16

/-- The input has stood above 50 V for more than 10 ms, or above 54 V for 10 us, which is one sample (R523). -/
def State.overvoltage (s : State) : Bool :=
  decide (54 * 256 < s.inputVolts) || s.germ.overRun.any fun r => decide (1000 < r.1)

/-- The germ trips at the voltage of its last sample, which the command names. The module is off after a trip; the germ
keeps its registers (R527). -/
def execOvervoltageTrip (voltage : BitVec 16) (s : State) : Out :=
  if s.germ.rails ≠ .on ∨ voltage.toNat ≠ s.inputVolts ∨ !s.overvoltage then .next s
  else .next ((s.tripRecord 3 0 voltage.toNat).allOff .tripped)

/-- The input has stood below 38 V for more than 10 ms, or below 34 V for 100 us, which is ten samples (R523). -/
def State.inputFailed (s : State) : Bool :=
  decide (10 ≤ s.germ.lowRun) || s.germ.underRun.any fun r => decide (1000 < r.1)

/-- The input is lost. DEDUCED: a tripped module of which a sensor still reads 90 degrees or more stays tripped, for
R527 names no other way out; its registers are lost (log 46). -/
def execInputLost (s : State) : Out :=
  if s.germ.rails = .lost ∨ !s.inputFailed then .next s
  else if s.germ.rails = .tripped ∧ !s.germ.warm.isEmpty then
    .next ((s.allOff .lost).modGerm fun g => { g with rails := .tripped })
  else .next (s.allOff .lost)

/-- A die has this temperature sensor (R515). -/
def hasSensor (d sensor : Nat) : Bool := !isEDie d || decide (sensor < 2)

def sensorKey (d sensor : Nat) : Nat := 8 * d + sensor

/-- A temperature in 1/16 degrees, which is signed; below zero it counts as zero, which no limit tells apart. -/
def sensorTemp (t : BitVec 16) : Nat := (sextInt 16 t.toNat).toNat

/-- The germ keeps the sensors that read 90 degrees or more. -/
def State.sense (s : State) (d sensor temp : Nat) : State :=
  s.modGerm fun g => { g with
    warm := if 1440 ≤ temp then tput g.warm (sensorKey d sensor) temp
            else tdel g.warm (sensorKey d sensor) }

/-- A comparator reports its sensor: the warning is set at 100 degrees and clears below 95 (R527). -/
def execThermalWarning (d : DieId) (sensor : Fin 5) (temp : BitVec 16) (s : State) : Out :=
  let d := d.val
  let k := sensor.val
  if s.germ.rails = .lost ∨ !hasSensor d k then .next s
  else
    let was := tgetD s.germ.warm (sensorKey d k) 0
    let t := sensorTemp temp
    let s := s.sense d k t
    let s := if s.germ.warm.all fun e => decide (e.2 < 1520) then s.setPwr 23 23 0 else s
    if t < 1600 then .next s
    else
      let s := s.setPwr 23 23 1
      if 1600 ≤ was ∨ s.germ.rails ≠ .on then .next s
      else .next (s.logEvent d32 0x83 (BitVec.ofNat 64 (d + t * 2 ^ 16)))

/-- A sensor has stood at its limit for 100 us (R527). -/
def execThermalTrip (d : DieId) (sensor : Fin 5) (temp : BitVec 16) (s : State) : Out :=
  let d := d.val
  let k := sensor.val
  if s.germ.rails ≠ .on ∨ !hasSensor d k ∨ sensorTemp temp < (if k = 4 then 1680 else 1760) then .next s
  else
    let s := (s.sense d k (sensorTemp temp)).tripRecord 2 d temp.toNat
    .next ((s.modDie d32 (·.bump rThermalTrips)).allOff .tripped)

/-! ## Parts that lose their rails (R526, R529) -/

/-- The links of an E-die to its C-dies go down, their far dies in reset. -/
def State.dropServiceLinks (s : State) (e : Nat) : State :=
  [8, 9, 10, 11].foldl (fun s p =>
    (s.modDie e (·.setLField e p lStatus 25 25 1)).enterPhase0 e p stDown) s

/-- The port tables and schedules of an E-die are lost (R529). -/
def Die.loseImages (x : Die) : Die :=
  let none' : DiePlan := { routes := [], mem := ⟨0, []⟩, aperture := 0, batch := none }
  (x.loadTables false none').loadTables true none'

/-- The C-dies are off, HBM kept or lost; the images and tables of all dies are lost. -/
def State.cDiesOff (s : State) (hbm : Bool) : State :=
  let s := s.onDies cDies fun s d => s.dropDie d hbm fun _ => false
  let s := s.onDies eDies fun s e => s.modDie e (·.loseImages)
  let s := if hbm then s else s.unverify fun h => decide (h.die < 32)
  { (s.onDies eDies State.dropServiceLinks).onDies cDies State.missSnaps with placed0 := none, placed1 := none }

/-- The module power state changed (R484). -/
def State.powerChanged (s : State) : State := (s.portStatus 0 29).portStatus 1 29

/-- The E-dies run again after P3: the germ's time has gone on, and the servo resumes (R495, R502). -/
def State.resumeServo (s : State) : State :=
  (s.sampleSeen.setServoState (if s.source = 3 then svFreeRun else svAcquiring)).modServo fun v =>
    { v with good := 0 }

/-- E-die 32 runs again after P3, where the germ's time has gone on (R495). -/
def State.wakeCore (s : State) : State :=
  (s.germTime.modDie d32 (·.wakeUp d32)).startLinks d32

/-- The dies of a list that the state had stopped are released (R536). -/
def State.releaseAll (s : State) (ds : List Nat) : State :=
  (ds.filter fun d => (s.die d).inReset && s.trimmed d).foldl State.release s

/-- The E-dies, which P2 has on, run again when a clamp trip ends P3 (R526, R529). -/
def State.leaveSleep (s : State) : State := (s.wakeCore.releaseAll (eDies.filter (· != d32))).resumeServo

/-- 1,000 samples in a row were at or above 4.2 kW: the C-die and HBM rails fall, and the module is in
P2, clamped. A transition that runs is abandoned (R525, R526, R528). -/
def execClampTrip (s : State) : Out :=
  if s.germ.rails ≠ .on ∨ s.germ.clampRun < 1000 then .next s
  else
    let x := s.die d32
    let watts := x.field d32 rPwrInput 31 16 * x.field d32 rPwrInput 15 0 / 65536
    let s := if s.pst = 3 then s.leaveSleep else s
    let s := (s.cDiesOff false).tripRecord 1 0 watts
    let s := (s.modDie d32 (·.bump rClampTrips)).setPwr 31 26 (2 * 8 + 1)
    let s := s.modGerm fun g => { g with move := .none, byTimer := false, clampRun := 0, latched := false }
    let s := s.logEvent d32 0x82 ((s.die d32).reg d32 rTripInfo)
    .next (s.powerChanged.abortLoad)

/-! ## Answers to requests (R531, R591, R592) -/

/-- How a request for a power state ends: it is accepted, R530 refuses it, or R530 refuses it because a
load, roll or weight command runs. -/
inductive AskEnd where
  | ok | refused | busy
  deriving DecidableEq, Repr

/-- The I3C address of the module: the dynamic one, once it has one; else that of the SMBus binding (R588). -/
def Mgmt.smbusAddr (m : Mgmt) : BitVec 7 := 0x4C + m.straps.setWidth 7

def Mgmt.i3cOwn (m : Mgmt) : BitVec 7 := if m.i3cAddr = 0 then m.smbusAddr else m.i3cAddr

/-- A response leaves on a path; over I3C an in-band interrupt announces it (R588). -/
def State.sendOn (s : State) (path : MgmtPath) (e : Emission) : State :=
  match path with
  | .i3c _ => (s.emit (.ibi s.mgmt.i3cOwn)).emit e
  | _ => s.emit e

/-- What comes before the body of an Oaval message on a path: over MCTP its type and the vendor ID (R592). -/
def bodyHead (path : MgmtPath) : List Byte :=
  if path.isMctp then 0x7E :: beBytes Config.vendorId.toNat 2 else []

/-- A management answer goes back on its path: over Ethernet to the address and port that the request came from
(R592, R595, R597). -/
def State.mgmtReply (s : State) (command : Byte) (m : MgmtMsg) (q : Option Request) (cc : Byte)
    (body : List Byte) : State :=
  match q with
  | some r => s.coreSend d32 (s.response d32 0x10 r 0 0 ([command, m.tag, cc, 0] ++ body))
  | none => s.sendOn m.path (.mgmt m.path m.srcAddr m.srcPort (bodyHead m.path) command m.tag cc body)

/-- The answer: ring statuses 0x03 and 0x07 (R530), code 0x84 (R595), or PLDM ERROR_NOT_READY (R591). -/
def State.answer (s : State) (a : Ask) (e : AskEnd) : State :=
  match a.source with
  | .ring c => s.complete c (match e with | .ok => 0 | .refused => 0x03 | .busy => 0x07)
  | .message k m q => s.mgmtReply k m q (match e with | .ok => 0 | _ => 0x84) []
  | .effecter path =>
    s.sendOn path (.mctp path "SetStateEffecterStates" (match e with | .ok => 0 | _ => 0x04) [])

/-! ## Entering a state (R530 to R532) -/

/-- Contexts and jobs allow a state below P0. -/
def State.mayLeaveRun (s : State) : Bool :=
  !s.anyJob && eDies.all fun e => (s.die e).ctx.records.all fun r =>
    r.2.state != .admitted && r.2.state != .running && r.2.state != .held

/-- A load, roll or weight command runs. -/
def State.commandRuns (s : State) : Bool :=
  s.load.isSome || s.weights.loading.isSome || s.weights.rolling.isSome

/-- An entry begins. On the way to P3 both PCIe links go to electrical idle, which resets their ports (R532). -/
def State.beginEntry (s : State) (target : Nat) (byTimer : Bool) : State :=
  let s := if target = 3 then (s.portReset 0 false).portReset 1 false else s
  (s.setPwr 28 28 1).modGerm fun g => { g with move := .entering target, byTimer := byTimer }

/-! ## Wakes (R533, R535) -/

/-- A restore begins. -/
def State.beginRestore (s : State) : State :=
  (s.setPwr 27 27 1).modGerm fun g => { g with move := .restoring }

/-- A source with PWR_WAKE_EN set wakes the module; during an entry the wake is latched, and during a
restore, or while a latched one is about to begin, it joins. `bit` is its bit of PWR_WAKE_CAUSE. -/
def State.wake (s : State) (bit : Nat) : State :=
  let cause := fun (s : State) => s.modDie d32 (·.setBit d32 rWakeCause bit true)
  if !(s.die d32).bit d32 rWakeEn bit then s
  else
    match s.germ.move with
    | .entering _ =>
      let s := ((cause s).modDie d32 fun x => (x.setBit d32 rWakeCause 15 true).bump rWakesLatched)
      let s := s.modGerm fun g => { g with latched := true }
      s.logEvent d32 0x87 ((s.die d32).reg d32 rWakeCause)
    | .restoring => cause s
    | .none =>
      if s.germ.latched then cause s else if s.pst = 0 then s else (cause s).beginRestore

/-- The fabric port at which a control packet to E-die 32 came into the module, as the E-dies have it. -/
def State.portOf (s : State) (q : Request) : Option Nat := eDies.findSome? fun e => tget (s.die e).cameBy (messageKey q.src q.tag)

/-- The bit of PWR_WAKE_CAUSE of a request: its host port, management, or for a control packet the
fabric port at which it arrived (R533). DESIGN CHOICE: a free one for a packet that came in at none (log 1). -/
def State.wakeBit (s : State) (a : Ask) : Nat :=
  match a.source with
  | .ring c => c.ring.port.val
  | .message _ _ (some q) => 16 + (s.portOf q).getD ((Config.freeWord s.fz).toNat % 16)
  | .message _ _ none => 2
  | .effecter _ => 2

/-! ## Requests (R530, R531, R535, R595) -/

/-- PWR_IDLE_CTRL.PERMIT as an accepted request has it (R531). -/
def State.permit (s : State) (a : Ask) : State :=
  s.modDie d32 (·.setBit d32 rIdleCtrl 31 a.permit)

/-- A request for P0 from a lower state or during a transition is a wake. -/
def State.askWake (s : State) (a : Ask) : State :=
  let bit := s.wakeBit a
  if (s.die d32).bit d32 rWakeEn bit then ((s.used.permit a).answer a .ok).wake bit
  else s.used.answer a .refused

/-- A request for a state with no transition running. -/
def State.askState (s : State) (a : Ask) (t : Nat) : State :=
  let cur := s.pst
  if t = cur then (s.permit a).answer a .ok
  else if t = 0 then s.askWake a
  else if t < cur then s.answer a .refused
  else if s.commandRuns then s.answer a .busy
  else if !s.mayLeaveRun then s.answer a .refused
  else ((s.permit a).answer a .ok).beginEntry t false

/-- A request is performed, or waits for the end of the transition that runs or of the latched restore that is about to
begin. A wake joins or is latched. -/
def State.ask (s : State) (a : Ask) : State :=
  let wait := s.modGerm fun g => { g with asked := g.asked ++ [a] }
  match a.target, s.germ.move with
  | none, .entering _ => wait
  | none, _ => (s.answer a .ok).askReset
  | some t, .none => if s.germ.latched then (if t = 0 then s.askWake a else wait) else s.askState a t
  | some t, _ => if t = 0 then s.askWake a else wait

/-- The requests that waited are performed in order. -/
def State.runAsked (s : State) : State :=
  s.germ.asked.foldl State.ask (s.modGerm fun g => { g with asked := [] })

/-! ## The end of an entry (R529, R532) -/

/-- E-die registers that the germ and the management core keep in P3: those of the servo (R495). -/
def keptInSleep (d off : Nat) : Bool := d == d32 && decide (0x20400 ≤ off) && decide (off < 0x20600)

/-- Sleep: HBM is lost, every die is off but the management core and the germ, and the germ keeps time in holdover
(R495, R529). -/
def State.sleep (s : State) : State :=
  let s := s.cDiesOff false
  let s := s.onDies eDies fun s e => (s.dropDie e true (keptInSleep e)).missSnaps e
  s.setServoState svHoldover

/-- The steps of the entry: what the module is in the lower state. -/
def State.enter (s : State) (target : Nat) : State :=
  match target with
  | 1 => s
  | 2 => s.cDiesOff true
  | 3 => s.sleep
  | _ => s.allOff .p4

/-- The entry that runs ends. In P4 the germ alone is left. No job and no load, roll or weight command has begun in it
(R530). -/
def execPowerStateEntry (s : State) : Out :=
  match s.germ.move with
  | .entering t =>
    if s.commandRuns || !s.mayLeaveRun then .next s else
    let old := s.pst
    let latched := s.germ.latched
    let s := s.enter t
    if 3 < t then .next s
    else
      let s := (s.setPwr 31 29 t).setPwr 28 28 0
      let s := s.modGerm fun g => { g with move := .none, byTimer := false }
      let s := (s.modDie d32 (·.bump rStateEntries)).logEvent d32 0x80
        (BitVec.ofNat 64 (t + old * 2 ^ 4))
      let s := s.powerChanged
      .next (if latched then s else s.runAsked)
  | _ => .next s

/-- The module has been idle for IDLE_S with PERMIT set (R531). -/
def execIdleTimer (s : State) : Out :=
  let t := (s.die d32).field d32 rIdleCtrl 30 28
  if s.germ.rails ≠ .on ∨ s.germ.move ≠ .none ∨ s.germ.latched ∨ !(s.die d32).bit d32 rIdleCtrl 31 ∨ t = 0 ∨ 3 < t
      ∨ t ≤ s.pst ∨ s.commandRuns ∨ !s.mayLeaveRun then .next s
  else .next (s.beginEntry t true)

/-! ## Wake sources on pins and lanes (R533, R534) -/

/-- WAKE_N falls and stays low for at least 1 us. -/
def execWakeN (lowNs : Nat) (s : State) : Out :=
  if s.germ.rails ≠ .on ∨ lowNs < 1000 then .next s else .next (s.wake 3)

/-- The module sleeps, or enters or leaves P3. -/
def State.asleep (s : State) : Bool :=
  s.germ.rails == .on && (s.pst == 3 || s.germ.move == .entering 3)

def execWakePatternDetected (port : Fin 16) (s : State) : Out :=
  if s.asleep then .next (s.wake (16 + port.val)) else .next s

def execElectricalIdleExit (p : Fin 2) (s : State) : Out :=
  if s.asleep then .next (s.wake p.val) else .next s

/-- A write of PWR_WAKE_SEND: each named port that is not active sends the wake pattern. -/
def State.sendWake (s : State) (d v : Nat) : State :=
  [0, 1].foldl (fun s q =>
    let p := 16 + 2 * (d - 32) + q
    if v.testBit q && !(s.die d).linkActive d p && s.txOn then s.emit (.wakePattern d p) else s) s

def execWakeSend (e : EDieId) (v : BitVec 2) (s : State) : Out :=
  if (s.die (32 + e.val)).inReset then .next s else .next (s.sendWake (32 + e.val) v.toNat)

/-! ## Restores (R535, R536) -/

/-- The latched wake starts its restore. -/
def execLatchedWakeRestore (s : State) : Out :=
  if s.germ.rails = .on ∧ s.germ.latched ∧ s.germ.move = .none then
    .next ((s.modGerm fun g => { g with latched := false }).beginRestore)
  else .next s

/-- All steps of a restore have passed: P0 is reached. -/
def execRestore (s : State) : Out :=
  if s.germ.move ≠ .restoring then .next s
  else
    let old := s.pst
    let s := if old = 3 then s.wakeCore else s
    let s := s.releaseAll (allDies.filter (· != d32))
    let s := (s.setPwr 31 29 0).setPwr 27 26 0
    let s := s.modGerm fun g => { g with move := .none }
    let s := if old = 3 then s.resumeServo else s
    let s := (s.logEvent d32 0x80 (BitVec.ofNat 64 (old * 2 ^ 4))).powerChanged
    .next s.runAsked

/-- A ready signal is late: the restore stops and the module stays in the state it was leaving. -/
def execRestoreStepLate (step : Fin 4) (s : State) : Out :=
  if s.germ.move ≠ .restoring then .next s
  else
    let s := (s.setPwr 27 27 0).setPwr 25 25 1
    let s := s.modGerm fun g => { g with move := .none }
    .next (s.logEvent d32 0x89 (BitVec.ofNat 64 step.val))

/-- A PCIe link is up, with its width (R484, R536). -/
def execPcieLinkUp (p : Fin 2) (width : Nat) (s : State) : Out :=
  if s.germ.rails ≠ .on ∨ s.asleep ∨ !([1, 2, 4, 8].contains width) then .next s
  else .next (s.modPort p fun h =>
    { h.setReg bPortStatus (setBits (h.reg bPortStatus) 3 0 width) with linkUp := true })

/-! ## Registers of the germ that a write acts on (R543, R547) -/

/-- A write of PWR_IDLE_CTRL while an entry that the idle timer started runs is undefined. -/
def State.idleWriteOpen (s : State) : Bool :=
  s.germ.byTimer && s.germ.move != .none

end Sys2Proof.Machine
end

