-- ==== Sys2Proof/Machine/Boot.lean ====
section
/-! DEFINITION. Updating and recovering the firmware (R563 to R566, R571, R575), and the
status pins (R585). -/

namespace Sys2Proof.Machine

/-- The firmware image slot of the flash (R550). -/
abbrev slotBase : Nat := 0x100000
abbrev slotSize : Nat := 0x800000

/-- STATUS of CFG_FW_CTRL (R571). -/
def State.fwStatus (s : State) : Nat := bitsOf (s.cfg cFwCtrl) 7 0

def State.setFwStatus (s : State) (status reason : Nat) : State :=
  (s.setCfgField cFwCtrl 7 0 status).setCfgField cFwCtrl 20 16 reason

/-- The bytes that an operation is given: of image staging on E-die 32, or of the recovery buffer of
the port; at most 8 MiB, the size of the slot (R563 to R565). -/
def State.fwBytes (s : State) (p : Fin 2) (recovery : Bool) : List Byte :=
  let n := min (s.cfg cFwLength).toNat 0x800000
  if recovery then Mem.readBytes (s.port p).recovery 0 n
  else Mem.readBytes (s.die d32).mem.cells (regionOff 32 3 + (s.cfg cFwOffset).toNat) n

/-- GO with OP 0 or 1: the image is tested and its programming begins, or the operation ends at once.
FLOOR needs the identity key (R575). -/
def State.fwGo (s : State) (p : Fin 2) (recovery floor : Bool) : State :=
  if s.boot.programming.isSome then s.setCfgField cFwCtrl 7 0 8
  else if recovery != s.inRecovery then s.setFwStatus 6 0
  else if floor && !recovery && !s.canSign then s.setFwStatus 6 0
  else
    let bs := s.fwBytes p recovery
    let reason := fwTest bs s.flash.floor
    if reason ≠ 0 then s.setFwStatus 6 reason
    else
      let s := (s.setFwStatus 3 0).flashOp slotBase slotSize (·.bumpCfg cFlashErases)
      let s := if recovery then s.setCfgField cBootStatus 31 29 4 else s
      let job : Programming :=
        { port := p, recovery := recovery, floor := floor && !recovery
          image := bs.take (fwLength bs) }
      { s with boot := { s.boot with programming := some job } }

/-- A write of CFG_FW_CTRL; an OP that is reserved is undefined (R17). -/
def State.fwWrite (s : State) (p : Fin 2) (v : W64) : Out :=
  if !bitOf v 31 then .next s
  else if 2 ≤ bitsOf v 29 28 then undef 17
  else .next (s.fwGo p (bitsOf v 29 28 == 1) (bitOf v 30))

def execFirmwareUpdate (p : Fin 2) (floor : Bool) (s : State) : Out :=
  if s.germ.rails ≠ .on then .next s else .next (s.fwGo p false floor)

def execFirmwareRecovery (p : Fin 2) (s : State) : Out :=
  if s.germ.rails ≠ .on then .next s else .next (s.fwGo p true false)

/-- The floor record of an update that raises it; whether it was written. -/
def State.raiseFloor (s : State) (version : Nat) : State × Bool :=
  let (s, ok) := s.writeRecord recFloor (leBytes version 4)
  (if ok then s.setCfg cFwFloor (BitVec.ofNat 64 version) else s, ok)

/-- The slot holds the image (R564, R565). -/
def State.programmed (s : State) (j : Programming) : State :=
  let v := fwVersion j.image
  let s := s.flashOp slotBase j.image.length (·.modFlash fun f => { f with slot := j.image, torn := false })
  let s := { s with boot := { s.boot with recovered := j.recovery } }
  let s := s.setFwStatus 5 0
  if j.recovery then s.logEvent d32 0xA2 0
  else
    let (s, raised) := if j.floor then s.raiseFloor v else (s, false)
    s.logEvent d32 0xA4 (BitVec.ofNat 64 (v + raised.toNat * 2 ^ 32))

/-- The readback differs: the slot is erased (R566). The offset in the log is where it differs, which
the command does not tell (log 1). -/
def State.notProgrammed (s : State) (j : Programming) : State :=
  let off := slotBase + (Config.freeWord s.fz).toNat % slotSize
  let s := s.used.flashOp slotBase slotSize fun s =>
    (s.modFlash fun f => { f with slot := [], torn := false }).bumpCfg cFlashErases
  let s := s.setFwStatus 7 0
  let s := if j.recovery then s.setCfgField cBootStatus 31 29 3 else s
  s.flashError off

/-- Erase, programming and readback end. After a recovery the sprout resets the module; a warm reset
that waited takes effect (R564, R566). -/
def execFirmwareProgrammingEnd (ok : Bool) (s : State) : Out :=
  match s.boot.programming with
  | none => .next s
  | some j =>
    let s := { s with boot := { s.boot with programming := none } }
    let s := if ok then s.programmed j else s.notProgrammed j
    match s.boot.delayedReset with
    | some last => .next (s.warmReset last)
    | none => .next (if ok && j.recovery then s.warmReset 2 else s)

/-! ## The status pins (R585), open drain: `true` is released -/

/-- An event entry waits on a port none of whose completion rings is enabled. -/
def HostPort.eventStuck (h : HostPort) : Bool :=
  h.owed.any (fun o => o.2.any fun c => c.type == 3)
    && (List.range 64).all fun n => !ringOn (h.cqCfg n)

/-- PWR_FAULT_N: low while CLAMPED or RESTORE_FAILED, released without power (R540, R585). -/
def State.pwrFaultN (s : State) : Bool :=
  s.germ.rails != .on || !(s.pwrBit 26 || s.pwrBit 25)

/-- ALERT_N: low for POWER_ALARM, THERM_WARN or CLAMPED, while the boot waits for recovery or has
halted, or while an event waits on a port with no ring enabled (R585); released without power (R540). -/
def State.alertN (s : State) : Bool :=
  s.germ.rails != .on
    || !(s.pwrBit 24 || s.pwrBit 23 || s.pwrBit 26 || s.bootState == 3 || s.bootState == 5
      || s.port0.eventStuck || s.port1.eventStuck)

end Sys2Proof.Machine
end

