-- ==== Sys2Proof/Machine/Logs.lean ====
section
/-! DEFINITION. What READ_LOG returns (R577, R596, R598). -/

namespace Sys2Proof.Machine

/-! ## Fault logs (R513, R596) -/

/-- The 256 entries of a die's log, the oldest first, unused entries as zeros behind them. -/
def Die.logBytes (x : Die) : List Byte :=
  x.log.reverse.flatMap LogEntry.bytes ++ List.replicate (32 * (256 - x.log.length)) 0

/-! ## The last snapshot (R596) -/

/-- A shadow as the log has it: the live offset of its counter, and its value. -/
def shadowBytes (off : Nat) (v : W64) : List Byte := leBytes off 4 ++ leBytes v.toNat 8

/-- Counters of a tile, in ascending order of their offset in its register window. -/
def tileCounters : List Nat := ((List.range 0x400).map (4 * ·)).filter fun o => (tileReg o).any (·.counter)

/-- Shadows of the counters of a C-die's tiles. DESIGN CHOICE: a tile's counter goes by its place in the local space of
the die (log 66). -/
def Die.tileShadows (x : Die) (d : Nat) : List Byte :=
  if isEDie d then []
  else (List.range 288).flatMap fun t => tileCounters.flatMap fun o =>
    shadowBytes (t * 0x100000 + 0xF0000 + o) (tgetD (x.tile t).shadows o 0)

/-- What the snapshot of one die holds: the shadows of its counters, of its tiles, and on E-dies 32 and 33 of the BAR0
block of its port. DESIGN CHOICE: a counter of the BAR0 block goes by its offset there (log 66). -/
def State.snapBytes (s : State) (d : Nat) : List Byte :=
  let x := s.die d
  let port := if d = 32 then s.port0.shadows else if d = 33 then s.port1.shadows else []
  let bar := fun (o : Nat) => decide (32 ≤ d) && decide (d < 34) && (bar0Reg o).any (·.counter)
  leBytes (s.dieNumber d) 2 ++ leBytes (x.field d rSnapCtrl 15 0) 2 ++ leBytes (x.reg d rSnapBeat).toNat 8
    ++ (((List.range 0x24000).map (4 * ·)).flatMap fun o =>
      if (dieReg d o).any (·.counter) then shadowBytes o (tgetD x.shadows o 0)
      else if bar o then shadowBytes o (tgetD port o 0)
      else [])
    ++ x.tileShadows d

/-! ## The service dump (R598) -/

/-- A faulted tile: its fault record and beat. -/
def Tile.dumpBytes (y : Tile) : List Byte :=
  leBytes y.faultInfo.toNat 4 ++ List.replicate 4 0 ++ leBytes y.faultBeat.toNat 8

/-- The block of a die; a die in reset does not answer. -/
def Die.dumpBytes (x : Die) (d num : Nat) : List Byte :=
  if x.inReset then leBytes num 2 ++ leBytes 0 2 ++ leBytes 0 4
  else
    let faulted := (x.tiles.map (·.2)).filter fun y => bitOf y.faultInfo 31
    let body := leBytes (x.reg d rLogHead).toNat 4 ++ leBytes (x.reg d rLogOverwritten).toNat 8
      ++ leBytes (x.reg d rStopInfo).toNat 4 ++ leBytes (x.reg d rStopBeat).toNat 8
      ++ leBytes (x.reg d rStopDetail).toNat 8 ++ leBytes faulted.length 4
      ++ faulted.flatMap Tile.dumpBytes ++ x.logBytes
    leBytes num 2 ++ leBytes 0 2 ++ leBytes body.length 4 ++ body

/-- The dump: its header, then a block for each die in local order. The order is the spec's; the exact
places in the header are the model's (log 66). -/
def State.dump (s : State) : List Byte :=
  let blocks := allDies.flatMap fun d => (s.die d).dumpBytes d (s.dieNumber d)
  let (sec, ns) := s.now d32
  let x := s.die d32
  leBytes 0x504D5544 4 ++ leBytes 1 2 ++ leBytes 0 2 ++ s.flash.serial
    ++ leBytes (s.cfg cFwVersion).toNat 4 ++ leBytes sec.toNat 8 ++ leBytes ns 4
    ++ leBytes (s.cfg cBootStatus).toNat 4 ++ leBytes (x.reg d32 rPwrStatus).toNat 4
    ++ leBytes (x.reg d32 rTripInfo).toNat 8 ++ leBytes (64 + blocks.length) 4 ++ leBytes 0 4 ++ blocks

/-! ## Selectors (R596) -/

/-- Bytes of the live record of a type, none when there is no such record. -/
def Flash.liveBytes (f : Flash) (type : Nat) : List Byte :=
  match f.live type with
  | some r => r.bytes
  | none => []

/-- Contents behind a selector; `none` for an unknown one. -/
def State.logContents (s : State) (selector : Nat) : Option (List Byte) :=
  if selector = 0x10 then some s.dump
  else if selector = 0x11 then
    some (allDies.flatMap s.snapBytes)
  else if selector = 0x12 then some (s.flash.liveBytes recMap)
  else if selector = 0x21 then some (s.flash.liveBytes recCertificate)
  else if selector = 0x22 then some s.boot.report
  else if 0x40 ≤ selector ∧ selector < 0x40 + 40 then
    let x := s.die (selector - 0x40)
    some (if x.inReset then [] else x.logBytes)
  else none

/-- A piece of the contents: only the bytes that exist. -/
def logPiece (bs : List Byte) (start n : Nat) : List Byte := (bs.drop start).take n

end Sys2Proof.Machine
end

