-- ==== Sys2Proof/Machine/Mgmt.lean ====
section
/-! DEFINITION. The management endpoint: Oaval's messages, MCTP control, PLDM and the management
Ethernet port (R558, R578, R588 to R597). -/

namespace Sys2Proof.Machine

/-- Firmware serves the management paths. -/
def State.mgmtOn (s : State) : Bool := s.germ.rails == .on && !s.inRecovery

/-! ## Oaval's messages (R592 to R595) -/

/-- ETH_CONTROL in force (R597). -/
def State.ethControl (s : State) : Bool := settingOf s.mgmt.inForce 6 != 0

/-- What the Ethernet port does not serve (R597). -/
def State.ethRefuses (s : State) (command : Byte) (path : MgmtPath) : Bool :=
  path == .ethernet
    && (command == 0x40 || (!s.ethControl && !([0x01, 0x02, 0x30, 0x31].contains command)))

/-- The module hears what comes on a path: on SMBus at its address and with a right PEC, on I3C at its address
(R588). -/
def State.hears (s : State) (path : MgmtPath) : Bool :=
  s.mgmtOn && match path with
    | .smbus a pec => a == s.mgmt.smbusAddr && pec
    | .i3c a => a == s.mgmt.i3cOwn
    | _ => true

/-- A message is one of Oaval's that the module accepts on its path: over MCTP it has Oaval's vendor ID and at most 256
bytes, its type byte and the vendor ID among them (R588, R592, R593). -/
def messageFits (m : MgmtMsg) : Bool :=
  if m.path.isMctp then m.vendor == Config.vendorId && decide (7 + m.args.length ≤ 256)
  else if m.path = .ethernet then decide (4 + m.args.length ≤ 1400)
  else decide (4 + m.args.length ≤ 256)

/-- Place of a path among requests of one microsecond (R595). -/
def pathRank : MgmtPath → Nat
  | .pcie0 => 0
  | .pcie1 => 1
  | .smbus _ _ => 2
  | .i3c _ => 3
  | .control => 4
  | .ethernet => 5

/-- A request joins the queue in order of arrival; those of one microsecond stand in order of their paths (R595). -/
def queueReq (r : MgmtReq) : List MgmtReq → List MgmtReq
  | [] => [r]
  | h :: hs =>
    if h.us = r.us ∧ pathRank r.msg.path < pathRank h.msg.path then r :: h :: hs else h :: queueReq r hs

/-- A request arrives that cannot be served at once: it waits, or finds the queue full (R595). -/
def State.enqueue (s : State) (command : Byte) (m : MgmtMsg) (q : Option Request) : State :=
  if 8 ≤ s.mgmt.queue.length then s.mgmtReply command m q 0x83 []
  else
    let r : MgmtReq := ⟨s.nowNs d32 / 1000, command, m, q⟩
    { s.timed d32 with mgmt := { s.mgmt with queue := queueReq r s.mgmt.queue } }

/-- The command serves the request that it names when that is the first in the queue; one that is not there arrives,
and is served at once when no other waits. A MESSAGE packet arrives by its own command (R595). -/
def State.serveMgmt (s : State) (command : Byte) (m : MgmtMsg)
    (act : Option Request → State → State) : Out :=
  if !s.hears m.path || !messageFits m then .next s
  else
    let go := fun (q : Option Request) (s : State) =>
      if s.ethRefuses command m.path then Host.Outcome.next (s.mgmtReply command m q 0x84 [])
      else .next (act q s)
    match s.mgmt.queue with
    | [] => if m.path = .control then .next s else go none s
    | h :: hs =>
      if h.command = command ∧ h.msg = m then go h.packet { s with mgmt := { s.mgmt with queue := hs } }
      else if m.path = .control then .next s
      else .next (s.enqueue command m none)

/-- Most bytes that a response carries after its completion code on a path; `none` over MCTP (R593). -/
def pathLimit (p : MgmtPath) : Option Nat :=
  match p with
  | .control => some 252
  | .ethernet => some 1396
  | _ => none

def pathCut (p : MgmtPath) (bs : List Byte) : List Byte :=
  match pathLimit p with
  | some n => bs.take n
  | none => bs

/-- GET_ATTESTATION (R576, R578). -/
def execGetAttestation (m : MgmtMsg) (s : State) : Out :=
  s.serveMgmt 0x01 m fun q s =>
    if m.args.length ≠ 16 then s.mgmtReply 0x01 m q 0x81 []
    else
      match s.attest m.args with
      | (s, some r) => s.mgmtReply 0x01 m q 0 (pathCut m.path r)
      | (s, none) => s.mgmtReply 0x01 m q 0x82 []

/-- GET_CERTIFICATE (R578). -/
def execGetCertificate (m : MgmtMsg) (s : State) : Out :=
  s.serveMgmt 0x02 m fun q s =>
    if m.args.length ≠ 0 then s.mgmtReply 0x02 m q 0x81 []
    else
      match s.flash.live recCertificate with
      | some r => s.mgmtReply 0x02 m q 0 (pathCut m.path r.bytes)
      | none => s.mgmtReply 0x02 m q 0x82 []

/-! ## SPARE_CLUSTER (R558) -/

/-- The new entry of a region when physical cluster `x` is to be spared, or no change. -/
def spareEntry (e x : Nat) : Option Nat :=
  let s := meSub e
  if s = 0xF then some (e / 16 * 16 + x)
  else if 9 ≤ s ∨ s = x then none
  else some (if meFailed e then e else e + 0x80)

/-- Payload of the live map, or of one without any disabled cluster. -/
def Flash.mapPayload (f : Flash) : List Byte :=
  match f.live recMap with
  | some r => r.payload
  | none => (List.replicate 128 [(0x0F : Byte), 0]).flatten

/-- The latest record, which holds the entries of all C-dies, waits for the next load (R34, R53, R557,
R600). -/
def State.mapPending (s : State) : State :=
  s.onDies cDies fun s c =>
    if (s.die c).inReset then s
    else s.modDie c fun x => (x.setBit c rSpareMap 30 true).setReg rSpareMapNext (s.mapWord c)

/-- The answer: the new SUB and DIE_DISABLED. -/
def State.spareReply (s : State) (m : MgmtMsg) (q : Option Request) (c r : Nat) : State :=
  s.mgmtReply 0x10 m q 0
    [BitVec.ofNat 8 (meSub (s.flash.mapEntry c r)), BitVec.ofNat 8 (s.dieDisabled c).toNat]

def execSpareCluster (m : MgmtMsg) (s : State) : Out :=
  s.serveMgmt 0x10 m fun q s =>
    let c := fieldLE m.args 0 1
    let r := fieldLE m.args 1 1
    let x := fieldLE m.args 2 1
    if m.args.length ≠ 3 ∨ 31 < c ∨ 3 < r ∨ 8 < x then s.mgmtReply 0x10 m q 0x81 []
    else
      match spareEntry (s.flash.mapEntry c r) x with
      | none => s.spareReply m q c r
      | some e =>
        let old := s.flash.mapPayload
        let at' := 8 * c + 2 * r
        let new := old.take at' ++ leBytes e 2 ++ old.drop (at' + 2)
        match s.writeRecord recMap new with
        | (s, false) => s.mgmtReply 0x10 m q 0x82 []
        | (s, true) =>
          let s := s.mapPending.logEvent d32 0xA5
            (BitVec.ofNat 64 (c + r * 2 ^ 8 + meSub e * 2 ^ 12))
          s.spareReply m q c r

/-! ## Commands 0x20 to 0x40 (R594) -/

/-- SET_POWER_STATE: state, then PERMIT in bit 0. -/
def execMgmtSetPowerState (m : MgmtMsg) (s : State) : Out :=
  s.serveMgmt 0x20 m fun q s =>
    let t := fieldLE m.args 0 1
    let p := fieldLE m.args 1 1
    if m.args.length ≠ 2 ∨ 4 < t ∨ 1 < p then s.mgmtReply 0x20 m q 0x81 []
    else s.ask { source := .message 0x20 m q, target := some t, permit := p == 1 }

/-- MODULE_RESET with its key. -/
def execModuleReset (m : MgmtMsg) (s : State) : Out :=
  s.serveMgmt 0x21 m fun q s =>
    if m.args.length ≠ 2 ∨ fieldLE m.args 0 2 ≠ 0x5754 then s.mgmtReply 0x21 m q 0x81 []
    else s.ask { source := .message 0x21 m q, target := none, permit := false }

/-- Longest READ_LOG piece on a path (R593, R594). -/
def readLimit (p : MgmtPath) : Nat := if p = .control then 250 else 1024

/-- READ_LOG; selector 0x20 is served on the rings only (R596). -/
def execMgmtReadLog (m : MgmtMsg) (s : State) : Out :=
  s.serveMgmt 0x30 m fun q s =>
    let n := fieldLE m.args 5 2
    if m.args.length ≠ 7 ∨ readLimit m.path < n then s.mgmtReply 0x30 m q 0x81 []
    else
      match s.logContents (fieldLE m.args 0 1) with
      | none => s.mgmtReply 0x30 m q 0x81 []
      | some bs =>
        let piece := logPiece bs (fieldLE m.args 1 4) n
        s.used.mgmtReply 0x30 m q 0 (leBytes piece.length 2 ++ piece)

/-- GET_STATUS. -/
def execGetStatus (m : MgmtMsg) (s : State) : Out :=
  s.serveMgmt 0x31 m fun q s =>
    if m.args.length ≠ 0 then s.mgmtReply 0x31 m q 0x81 []
    else
      let x := s.die d32
      (s.timed d32).mgmtReply 0x31 m q 0
        (leBytes (s.cfg cBootStatus).toNat 4 ++ leBytes (s.cfg cFwVersion).toNat 4
          ++ leBytes (x.reg d32 rPwrStatus).toNat 4 ++ leBytes (x.reg d32 rTripInfo).toNat 8
          ++ leBytes s.servoStatus.toNat 4 ++ leBytes (s.timeNow d32).toNat 8)

/-- A value fits its setting (R594). -/
def settingFits (n v : Nat) : Bool :=
  if n = 1 ∨ n = 2 then decide (v < 2 ^ 8)
  else if n = 3 then decide (1 ≤ v) && decide (v < 2 ^ 16)
  else if n = 4 then BitVec.ofNat 64 v &&& ~~~0xFFFF000F == 0
  else n == 5 || n == 6

/-- The payload of a settings record. -/
def settingsPayload (t : Table W64) : List Byte := (List.range 64).map (Config.settingsByte t)

/-- SET_SETTING writes a new settings record; the value takes effect at the next warm reset. -/
def execSetSetting (m : MgmtMsg) (s : State) : Out :=
  s.serveMgmt 0x40 m fun q s =>
    let n := fieldLE m.args 0 1
    let v := fieldLE m.args 1 8
    if m.args.length ≠ 9 ∨ !settingFits n v then s.mgmtReply 0x40 m q 0x81 []
    else
      let t := tput s.mgmt.settings n (BitVec.ofNat 64 v)
      match s.writeRecord recSettings (settingsPayload t) with
      | (s, false) => s.mgmtReply 0x40 m q 0x82 []
      | (s, true) =>
        ({ s with mgmt := { s.mgmt with settings := t } }).mgmtReply 0x40 m q 0 []

/-! ## MCTP control (R589; DSP0236 gives codes and layouts, log 67) -/

/-- The MCTP endpoint hears what comes on a path, one of its bindings (R588). -/
def State.hearsMctp (s : State) (path : MgmtPath) : Bool := path.isMctp && s.hears path

/-- Answers a control or PLDM message. -/
def State.mctp (s : State) (path : MgmtPath) (name : String) (cc : Byte) (body : List Byte) : Out :=
  if s.hearsMctp path then .next (s.sendOn path (.mctp path name cc body)) else .next s

def State.modMgmt (s : State) (f : Mgmt → Mgmt) : State := { s with mgmt := f s.mgmt }

/-- Set Endpoint ID: 0 and 0xFF are no endpoint IDs. -/
def execSetEndpointId (path : MgmtPath) (eid : Byte) (s : State) : Out :=
  if !s.hearsMctp path then .next s
  else if eid = 0 ∨ eid = 0xFF then s.mctp path "SetEndpointID" 0x02 []
  else (s.modMgmt fun m => { m with eid := eid }).mctp path "SetEndpointID" 0 [0, eid, 0]

/-- Get Endpoint ID: the EID, the endpoint type with its static EID, and no medium-specific byte. -/
def execGetEndpointId (path : MgmtPath) (s : State) : Out :=
  let own : Byte := BitVec.ofNat 8 (settingOf s.mgmt.inForce 1).toNat
  s.mctp path "GetEndpointID" 0 [s.mgmt.eid, if s.mgmt.eid = own then 2 else 3, 0]

/-- Get Endpoint UUID: fixed, from the serial number. -/
def execGetEndpointUuid (path : MgmtPath) (s : State) : Out :=
  s.mctp path "GetEndpointUUID" 0
    (leBytes (Config.uuid (BitVec.ofNat 128 (leNat s.flash.serial))).toNat 16)

/-- Bytes that another standard fixes and the spec does not give (log 1, log 67). -/
def State.freeBytes (s : State) (n : Nat) : List Byte := leBytes (Config.freeWord s.fz).toNat n

/-- Get MCTP Version Support: version 1.3 for the base and its control messages; versions of the other
types are not in the spec. -/
def execGetMctpVersionSupport (path : MgmtPath) (msgType : Byte) (s : State) : Out :=
  if msgType = 0xFF ∨ msgType = 0 then
    s.mctp path "GetMCTPVersionSupport" 0 [1, 0xF1, 0xF3, 0xF0, 0x00]
  else if msgType = 1 ∨ msgType = 0x7E then
    s.used.mctp path "GetMCTPVersionSupport" 0 (1 :: s.freeBytes 4)
  else s.mctp path "GetMCTPVersionSupport" 0x80 []

def execGetMessageTypeSupport (path : MgmtPath) (s : State) : Out :=
  s.mctp path "GetMessageTypeSupport" 0 [3, 0x00, 0x01, 0x7E]

/-- Get Vendor Defined Message Support: one set, named by the PCI vendor ID. -/
def execGetVendorDefinedMessageSupport (path : MgmtPath) (selector : Byte) (s : State) : Out :=
  if selector = 0 then
    s.mctp path "GetVendorDefinedMessageSupport" 0
      ([0xFF, 0x00] ++ beBytes Config.vendorId.toNat 2 ++ [0, 0])
  else s.mctp path "GetVendorDefinedMessageSupport" 0x02 []

/-! ## I3C (R588) -/

/-- The target takes a dynamic address, if it has none. -/
def State.takeAddress (s : State) (addr : BitVec 7) : State :=
  if s.mgmtOn && s.mgmt.i3cAddr == 0 then s.modMgmt fun m => { m with i3cAddr := addr } else s

/-- SETDASA names the target by its static address, that of the SMBus binding. -/
def execSetdasa (a : I3cAssign) (s : State) : Out :=
  .next (if a.target = s.mgmt.smbusAddr then s.takeAddress a.addr else s)

def execEntdaa (addr : BitVec 7) (s : State) : Out := .next (s.takeAddress addr)

/-! ## PLDM Base (R590; DSP0240, log 67) -/

def execGetTid (path : MgmtPath) (s : State) : Out := s.mctp path "GetTID" 0 [s.mgmt.tid]

def execSetTid (path : MgmtPath) (tid : Byte) (s : State) : Out :=
  if !s.hearsMctp path then .next s
  else if tid = 0 ∨ tid = 0xFF then s.mctp path "SetTID" 0x02 []
  else (s.modMgmt fun m => { m with tid := tid }).mctp path "SetTID" 0 []

/-- PLDM types: Base, and Platform Monitoring and Control. -/
def pldmType (t : Byte) : Bool := t == 0 || t == 2

def execGetPldmVersion (path : MgmtPath) (t : Byte) (s : State) : Out :=
  if pldmType t then
    s.used.mctp path "GetPLDMVersion" 0 (leBytes 0 4 ++ [0x05] ++ s.freeBytes 8)
  else s.mctp path "GetPLDMVersion" 0x83 []

def execGetPldmTypes (path : MgmtPath) (s : State) : Out :=
  s.mctp path "GetPLDMTypes" 0 (0x05 :: List.replicate 7 0)

/-- A set of command numbers as 32 bytes. -/
def commandBits (cs : List Nat) : List Byte := leBytes (cs.foldl (fun n c => n + 2 ^ c) 0) 32

def execGetPldmCommands (path : MgmtPath) (t : Byte) (s : State) : Out :=
  if t = 0 then s.mctp path "GetPLDMCommands" 0 (commandBits [1, 2, 3, 4, 5])
  else if t = 2 then
    s.mctp path "GetPLDMCommands" 0 (commandBits [0x11, 0x21, 0x39, 0x3A, 0x50, 0x51])
  else s.mctp path "GetPLDMCommands" 0x83 []

/-! ## PLDM Platform Monitoring and Control (R590, R591; DSP0248, log 67) -/

/-- The repository: a record for each sensor and the effecter of R591. DESIGN CHOICE: in this order (log 67). -/
def pdrTable : List PdrEntry :=
  [ { id := 1, kind := .numeric, unit := .volts256, lowerCritical := some (38 * 256), upperCritical := some (50 * 256) },
    { id := 2, kind := .numeric, unit := .amps256 },
    { id := 3, kind := .numeric, unit := .watts, upperWarning := some 4000, upperFatal := some 4200 } ]
  ++ ((List.range 40).map fun d => { id := 0x100 + d, kind := .numeric, unit := .celsius16
                                     upperWarning := some (100 * 16), upperFatal := some (110 * 16) })
  ++ ((List.range 32).map fun c => { id := 0x200 + c, kind := .numeric, unit := .celsius16
                                     upperWarning := some (100 * 16), upperFatal := some (105 * 16) })
  ++ [ { id := 0x1000, kind := .state, unit := .states 3 }, { id := 0x1001, kind := .state, unit := .states 5 },
       { id := 0x1002, kind := .state, unit := .states 3 }, { id := 0x2000, kind := .effecter, unit := .states 4 } ]

/-- The record of a numeric sensor. -/
def numericSensor (n : Nat) : Option PdrEntry := pdrTable.find? fun e => e.id == n && e.kind == .numeric

/-- Value of a numeric sensor (R591). -/
def State.sensorValue (s : State) (n : Nat) : Nat :=
  let x := s.die d32
  if n = 1 then x.field d32 rPwrInput 31 16
  else if n = 2 then x.field d32 rPwrInput 15 0
  else if n = 3 then x.field d32 rModulePower 31 16
  else if n < 0x200 then (s.die (n - 0x100)).field (n - 0x100) rDieTempMax 15 0
  else (s.die (n - 0x200)).field (n - 0x200) (rRegionTemp + 16) 15 0

/-- The state of a reading against its thresholds: 1 normal, 6 lower critical, 8 upper warning, 9
upper critical, 10 upper fatal. A temperature below zero is below every upper limit. -/
def sensorState (e : PdrEntry) (v : Nat) : Byte :=
  let v' : Int := if e.unit = .celsius16 then sextInt 16 v else v
  let above := fun (l : Option Nat) => l.any fun (n : Nat) => decide ((n : Int) ≤ v')
  if above e.upperFatal then 10
  else if e.upperCritical.any fun (n : Nat) => decide ((n : Int) < v') then 9
  else if above e.upperWarning then 8
  else if e.lowerCritical.any fun (n : Nat) => decide (v' < (n : Int)) then 6
  else 1

/-- GetSensorReading. The state before is not in the spec. -/
def execGetSensorReading (path : MgmtPath) (sensor : BitVec 16) (s : State) : Out :=
  match numericSensor sensor.toNat with
  | none => s.mctp path "GetSensorReading" 0x80 []
  | some e =>
    let v := s.sensorValue e.id
    let st := sensorState e v
    s.used.mctp path "GetSensorReading" 0
      ([if e.unit = .celsius16 then 3 else 2, 0, 0, st] ++ s.freeBytes 1 ++ [st] ++ leBytes v 2)

/-- Present state of a state sensor (R591). -/
def State.stateSensor (s : State) (n : Nat) : Option Nat :=
  if n = 0x1000 then some s.pst
  else if n = 0x1001 then some s.bootState
  else if n = 0x1002 then some s.servoState
  else none

def execGetStateSensorReadings (path : MgmtPath) (sensor : BitVec 16) (s : State) : Out :=
  match s.stateSensor sensor.toNat with
  | none => s.mctp path "GetStateSensorReadings" 0x80 []
  | some v =>
    s.used.mctp path "GetStateSensorReadings" 0
      ([1, 0, BitVec.ofNat 8 v] ++ s.freeBytes 1 ++ [BitVec.ofNat 8 v])

abbrev powerEffecter : Nat := 0x2000

/-- A write of the effecter acts as SET_POWER_STATE, the idle timer not permitted. -/
def execSetStateEffecterStates (path : MgmtPath) (effecter : BitVec 16) (state : Byte) (s : State) :
    Out :=
  if !s.hearsMctp path then .next s
  else if effecter.toNat ≠ powerEffecter then s.mctp path "SetStateEffecterStates" 0x80 []
  else if 4 < state.toNat then s.mctp path "SetStateEffecterStates" 0x81 []
  else
    let s := s.modMgmt fun m => { m with effecter := state }
    .next (s.ask { source := .effecter path, target := some state.toNat, permit := false })

def execGetStateEffecterStates (path : MgmtPath) (effecter : BitVec 16) (s : State) : Out :=
  if effecter.toNat ≠ powerEffecter then s.mctp path "GetStateEffecterStates" 0x80 []
  else s.mctp path "GetStateEffecterStates" 0 [1, 0, s.mgmt.effecter, BitVec.ofNat 8 s.pst]

/-- Number of records of the repository. -/
abbrev pdrCount : Nat := 79

def execGetPdrRepositoryInfo (path : MgmtPath) (s : State) : Out :=
  let sizes := pdrTable.map fun e => (Config.pdr e).length
  s.used.mctp path "GetPDRRepositoryInfo" 0
    ([0] ++ s.freeBytes 26 ++ leBytes pdrCount 4 ++ leBytes (sizes.foldl (· + ·) 0) 4
      ++ leBytes (sizes.foldl max 0) 4 ++ s.freeBytes 1)

/-- GetPDR: record 0 names the first one. -/
def execGetPdr (path : MgmtPath) (record : W32) (s : State) : Out :=
  let n := if record = 0 then 1 else record.toNat
  match pdrTable[n - 1]? with
  | none => s.mctp path "GetPDR" 0x82 []
  | some e =>
    let bs := Config.pdr e
    s.mctp path "GetPDR" 0 (leBytes (if n < pdrCount then n + 1 else 0) 4 ++ leBytes 0 4 ++ [0x05]
      ++ leBytes bs.length 2 ++ bs)

/-! ## The Ethernet port (R597) -/

/-- MAC address: the OUI, then the low 24 bits of the serial number. -/
def State.mac (s : State) : BitVec 48 :=
  BitVec.ofNat 48 (Config.oui.toNat * 2 ^ 24 + leNat (s.flash.serial.take 3))

/-- Interface identifier of SLAAC, from the MAC address (RFC 4291). -/
def eui64 (mac : BitVec 48) : Nat :=
  let m := mac.toNat
  (m / 2 ^ 24 ^^^ 0x020000) * 2 ^ 40 + 0xFFFE * 2 ^ 24 + m % 2 ^ 24

/-- The link-local address. -/
def State.linkLocal (s : State) : BitVec 128 :=
  BitVec.ofNat 128 (0xFE80 * 2 ^ 112 + eui64 s.mac)

/-- An ARP request for the port's address is answered with its MAC address. -/
def execArpRequest (target sender : W32) (senderMac : BitVec 48) (s : State) : Out :=
  if s.mgmtOn && s.mgmt.ip4 != 0 && target == s.mgmt.ip4 then
    .next (s.emit (.ethernet "ARP reply" (beBytes s.mac.toNat 6 ++ beBytes target.toNat 4
      ++ beBytes senderMac.toNat 6 ++ beBytes sender.toNat 4)))
  else .next s

/-- An echo request is answered with its payload. -/
def execIcmpEcho (v6 : Bool) (src : BitVec 128) (payload : List Byte) (s : State) : Out :=
  if s.mgmtOn && (v6 || s.mgmt.ip4 != 0) then
    .next (s.emit (.ethernet (if v6 then "ICMPv6 echo reply" else "ICMP echo reply")
      (beBytes src.toNat (if v6 then 16 else 4) ++ payload)))
  else .next s

/-- A neighbour solicitation for an address of the port is answered with its MAC address. -/
def execNeighbourDiscovery (target src : BitVec 128) (s : State) : Out :=
  if s.mgmtOn && (target == s.linkLocal || (s.mgmt.ip6 != 0 && target == s.mgmt.ip6)) then
    .next (s.emit (.ethernet "neighbour advertisement" (beBytes target.toNat 16
      ++ beBytes s.mac.toNat 6 ++ beBytes src.toNat 16)))
  else .next s

/-- A DHCPv4 reply counts when setting 0x05 selects DHCPv4. -/
def execDhcpv4Reply (addr : W32) (s : State) : Out :=
  if s.mgmtOn && Config.dhcpMode (settingOf s.mgmt.inForce 5) then
    .next (s.modMgmt fun m => { m with ip4 := addr })
  else .next s

/-- A router advertisement gives the prefix of the port's IPv6 address. -/
def execRouterAdvertisement (pfx : W64) (s : State) : Out :=
  if s.mgmtOn then
    let a := BitVec.ofNat 128 (pfx.toNat * 2 ^ 64 + eui64 s.mac)
    .next (s.modMgmt fun m => { m with ip6 := a })
  else .next s

end Sys2Proof.Machine
end

