-- ==== Sys2Proof/Machine/RingCmds.lean ====
section
/-! DEFINITION. The module commands of the rings: SWITCH_EPOCH, SNAPSHOT, SET_POWER_STATE and READ_LOG,
and descriptors with a launch time (R468, R471, R472, R508, R530, R577, R596). -/

namespace Sys2Proof.Machine

/-- Runs a module command, unless it is not ready or a field is reserved or out of range. -/
def moduleCommand (r : RingRef) (c : Desc) (good : Bool) (s : State)
    (act : CmdRef → State → State) : Out :=
  if !s.ready r c then .next s
  else
    let (s, cmd) := s.takeCmd r c
    if !cmdClean c true || !good then .next (s.complete cmd 0x01) else .next (act cmd s)

/-- A nanoseconds field of ARGS is in range. -/
def nsGood (c : Desc) (off : Nat) : Bool := decide (cArg c off 4 < second)

/-! ## SWITCH_EPOCH (R468) -/

/-- ACTION and TARGET, as TIME_EPOCH_CTRL[11:9]. -/
def switchBits (c : Desc) : Nat := bitsOf c.args 11 9

/-- Firmware writes the action time and arms one die; whether the die armed. -/
def State.armDie (s : State) (c : Desc) (d : Nat) : State × Bool :=
  let x := s.die d
  if x.inReset then (s, false)
  else
    let x := (x.setReg rEpochSec (BitVec.ofNat 64 (cArg c 0x20 8))).setReg rEpochNs
      (BitVec.ofNat 64 (cArg c 0x28 4))
    let idle := x.armed.isNone
    let s := (s.setDie d x).writeEpochCtrl d (BitVec.ofNat 64 (1 + switchBits c * 2 ^ 9))
    (s, idle && ((s.die d).armed.isSome || switchBits c / 2 == 0))

/-- Arms the dies of a list; the dies that armed. -/
def State.armDies (s : State) (c : Desc) : List Nat → State × List Nat
  | [] => (s, [])
  | d :: ds =>
    let (s, ok) := s.armDie c d
    let (s, l) := s.armDies c ds
    (s, if ok then d :: l else l)

/-- Firmware disarms a die. -/
def State.disarm (s : State) (d : Nat) : State :=
  s.writeEpochCtrl d (setBits ((s.die d).epochWord d 1) 11 10 0)

/-- Arms all 40 dies; when one refuses, the dies that were armed are disarmed. ACTION 0 disarms. -/
def execSwitchEpoch (r : RingRef) (c : Desc) (s : State) : Out :=
  moduleCommand r c (argsClean c [(9, 3), wholeArg 0x20 8, wholeArg 0x28 4] && nsGood c 0x28) s
    fun cmd s =>
      if switchBits c / 2 = 0 then
        let out := allDies.any fun d => (s.die d).inReset
        let s := s.onDies allDies fun s d => (s.armDie c d).1
        s.complete cmd (if out then 0x0A else 0)
      else
        let (s, armed) := s.armDies c allDies
        if armed.length = 40 then s.complete cmd 0
        else (s.onDies armed State.disarm).complete cmd 0x0A

/-! ## SNAPSHOT (R508) -/

def execSnapshot (r : RingRef) (c : Desc) (s : State) : Out :=
  moduleCommand r c (argsClean c [wholeArg 0x18 8, wholeArg 0x20 4] && nsGood c 0x20) s
    fun cmd s => s.snapshotCommand cmd c

/-! ## SET_POWER_STATE (R530, R531) -/

def execSetPowerState (r : RingRef) (c : Desc) (s : State) : Out :=
  moduleCommand r c (argsClean c [wholeArg 0x18 1, (8, 1)] && decide (cArg c 0x18 1 ≤ 4)) s
    fun cmd s => s.ask
      { source := .ring cmd, target := some (cArg c 0x18 1), permit := bitOf c.args 8 }

/-! ## READ_LOG (R577, R596) -/

def logSelector (c : Desc) : Nat := cArg c 0x18 1
def logStart (c : Desc) : Nat := cArg c 0x1C 4
def logAddr (c : Desc) : Nat := cArg c 0x20 8
def logLength (c : Desc) : Nat := cArg c 0x28 4

/-- Named bits of ARGS of READ_LOG. -/
def logArgs : List (Nat × Nat) :=
  [wholeArg 0x18 1, wholeArg 0x1C 4, wholeArg 0x20 8, wholeArg 0x28 4]

/-- Writes bytes to the host and completes with their number; a blocked DMA completes with 0x04. -/
def State.writeOut (s : State) (cmd : CmdRef) (addr : Nat) (bs : List Byte) : State :=
  if bs.isEmpty then s.complete cmd 0
  else
    let (s, ok) := s.dmaTry cmd.ring.port addr bs.length
    if !ok then s.complete cmd 0x04
    else (s.emitWrites cmd.ring.port addr bs).complete cmd 0
      (bytes := bs.length)

/-- Any selector but 0x20. -/
def execReadLog (r : RingRef) (c : Desc) (s : State) : Out :=
  if logSelector c = 0x20 then .next s
  else
    moduleCommand r c (argsClean c logArgs) s fun cmd s =>
      match s.logContents (logSelector c) with
      | none => s.complete cmd 0x01
      | some bs => s.used.writeOut cmd (logAddr c) (logPiece bs (logStart c) (logLength c))

/-- The nonce: descriptor bytes 0x30 to 0x3F. -/
def logNonce (c : Desc) : List Byte := leBytes (cArg c 0x30 16) 16

/-- Bytes of a report with its signature (R576). -/
abbrev reportLength : Nat := 10085

/-- Selector 0x20 signs and returns a fresh report; a report that no window can take is not signed. -/
def execReadLogAttestation (r : RingRef) (c : Desc) (s : State) : Out :=
  if logSelector c ≠ 0x20 then .next s
  else
    let good := argsClean c (wholeArg 0x30 16 :: logArgs) && logStart c == 0
      && decide (reportLength ≤ logLength c)
    moduleCommand r c good s fun cmd s =>
      if !s.canSign then s.complete cmd 0x03
      else if !(s.port cmd.ring.port).dmaAllowed (logAddr c) reportLength then
        (s.modPort cmd.ring.port (·.bump bDmaBlocked)).complete cmd 0x04
      else
        match s.attest (logNonce c) with
        | (s, some bs) => s.writeOut cmd (logAddr c) bs
        | (s, none) => s.complete cmd 0x03

/-! ## Launch times (R259, R472) -/

/-- The command that a descriptor names. Commands whose data DMA brings are left to their own rows. -/
def State.launch (s : State) (r : RingRef) (op : Nat) (c : Desc) : Out :=
  match op with
  | 0x01 => if openModify c then execOpenContextModify r c s else execOpenContext r c s
  | 0x02 => execCloseContext r c s
  | 0x03 => execAppendInput r c s
  | 0x04 => execFetchResult r c s
  | 0x21 => execSwitchEpoch r c s
  | 0x30 => execSnapshot r c s
  | 0x31 => execSetPowerState r c s
  | 0x32 => if logSelector c = 0x20 then execReadLogAttestation r c s else execReadLog r c s
  | _ => .next (s.reservedDue s.taken.length)

/-- The descriptor at the head of a ring is performed once its launch time has come. -/
def execLaunchTimeReached (r : RingRef) (s : State) : Out :=
  match s.taken.find? (·.ring == r) with
  | some t => if bitOf t.words 8 then s.launch r (descOpcode t.words) (descOf t.words) else .next s
  | none => .next s

end Sys2Proof.Machine
end

