-- ==== Sys2Proof/Machine/View.lean ====
section
/-! DEFINITION. Reading registers: fields that the hardware drives, and read-clear fields (R13 to R16,
R510). -/

namespace Sys2Proof.Machine

/-! ## Die registers -/

/-- STATE of TIME_HOLD_STATUS (R269). -/
def Die.holdState (x : Die) (d : Nat) : Nat :=
  let h := x.hold
  if !x.jobOn d then 0
  else if h.slot.isSome then
    if (h.resumeSlot (x.horizon d)).isSome then 5 else if h.closed then 4 else 3
  else if h.left.isSome then 2
  else 1

/-- TIME_HOLD_STATUS (R269). DESIGN CHOICE (log 80): RELEASED counts the release that the die itself has sent, for the
spec says only "releases received". -/
def Die.holdStatus (x : Die) (d : Nat) : W64 :=
  let h := x.hold
  let cause := match h.mine with
    | [] => 0
    | c :: cs => cs.foldl min c
  BitVec.ofNat 64 (x.holdState d * 2 ^ 29 + (!h.mine.isEmpty).toNat * 2 ^ 28 + cause * 2 ^ 24
    + min h.holders.length 255 * 2 ^ 16 + min h.releases.length 255 * 2 ^ 8 + h.seq.toNat)

/-- LNK_STATUS with the fields that the link's engine drives (R396). -/
def Die.linkStatus (x : Die) (d p : Nat) : W64 :=
  let l := x.link p
  let v := x.lreg d p lStatus
  let v := setBits v 24 24 l.replaying.toNat
  let v := setBits v 23 23 (!l.spill.isEmpty).toNat
  let v := setBits v 22 22 (l.causeOpen && !l.toRaise).toNat
  -- a port that has heard nothing from its far end reads as down (R373)
  let v := if isFabricPort p && x.linkPhase d p == 1 && !l.heard then setBits v 31 29 stDown else v
  let v := match l.lockLostAt with
    | some t => v &&& ~~~(BitVec.ofNat 64 (Config.lanesLost d p t).toNat)
    | none => v
  setBits v 20 20 l.lockLostAt.isSome.toNat

/-- _MEM_STATUS (R443). -/
def Die.memStatus (x : Die) (d : Nat) : W64 :=
  let v := setBits (x.reg d rMemStatus) 30 30 (x.mem.lateOpen && !x.mem.lateToRaise).toNat
  setBits v 29 29 ((List.range (memGroups d)).any x.inBlackout).toNat

/-- EDIE_LPDDR_REGION: base and size of region `n` (R410, R442). -/
def lpddrRegion (d n : Nat) (size : Bool) : W64 :=
  let z := regionSize d n
  BitVec.ofNat 64 (if size then z else if z = 0 then 0 else 0x2000000000 + regionOff d n)

/-- A 64-bit word of the fault log (R513). -/
def Die.logWord (x : Die) (i : Nat) : W64 :=
  match x.logAt (i / 4) with
  | some e => BitVec.ofNat 64 (fieldLE e.bytes (8 * (i % 4)) 8)
  | none => 0

/-- What a die register reads as. -/
def State.viewDie (s : State) (d off : Nat) : W64 :=
  let x := s.die d
  let v := x.reg d off
  if rShadow ≤ off then tgetD x.shadows (off - rShadow) 0
  else if off = rTimeNow then s.timeNow d
  else if off = rTimeSecHi then BitVec.ofNat 64 ((s.now d).1.toNat / 2 ^ 34)
  else if off = rJobBeat then BitVec.ofNat 64 (x.job.beat % 2 ^ 48)
  else if off = rHoldStatus then x.holdStatus d
  else if off = rHoldBeatsJob then x.job.q
  else if off = rEpochCtrl then setBits v 31 31 x.armed.isSome.toNat
  else if off = rServoStatus then s.servoStatus
  else if off = rMemStatus then x.memStatus d
  else if off = rCtxShadow then BitVec.ofNat 64 (0x2000000000 + ctxShadowOff d)
  else if rLpddrRegion ≤ off ∧ off < 0x50480 then
    lpddrRegion d ((off - rLpddrRegion) / 16) (off % 16 == 8)
  else if rFaultLog ≤ off ∧ off < rFaultLog + 0x2000 then x.logWord ((off - rFaultLog) / 8)
  else if !isEDie d && (off == rRegion || off == rRegion + 0x40 || off == rRegion + 0x80
      || off == rRegion + 0xC0) then
    setBits v 31 31 (decide (0 < (x.region ((off - rRegion) / 0x40)).startLag)).toNat
  else if rLink ≤ off ∧ off < rLink + 0x4000 ∧ off % 0x200 = lStatus then
    x.linkStatus d ((off - rLink) / 0x200)
  else v

/-- Reading a register clears its RC fields (R13). -/
def Die.clearOnRead (x : Die) (d off : Nat) : Die :=
  match dieReg d off with
  | some r => if r.rc = 0 then x else x.setReg off (x.reg d off &&& ~~~r.rc)
  | none => x

/-- What a read of a die register does: its RC fields clear, and a fabric time that was read has been seen (R13,
R493). -/
def State.seen (s : State) (d off : Nat) : State :=
  let s := s.modDie d (·.clearOnRead d off)
  if off = rTimeNow ∨ off = rTimeSecHi then s.timed d else s

/-! ## Tile registers -/

def TileState.num : TileState → Nat
  | .idle => 0
  | .loaded => 1
  | .running => 2
  | .held => 3
  | .stopped => 4
  | .faulted => 5

/-- What a register of physical tile `t` reads as (R98 to R107, R510). -/
def Die.viewTile (x : Die) (t off : Nat) : W64 :=
  let y := x.tile t
  if off = tStatus then
    BitVec.ofNat 64 (y.state.num * 2 ^ 29 + y.pc.toNat * 2 ^ 16 + t * 2 ^ 7 + t / 72 * 2 ^ 5)
  else if off = tBank then
    let pending := x.armed.any fun a => a.action == 2
    BitVec.ofNat 64 (pending.toNat * 2 ^ 31 + y.span.toNat * 8 + y.valid1.toNat * 4
      + y.valid0.toNat * 2 + y.active.toNat)
  else if off = tAlloc0 then y.alloc0.setWidth 64
  else if off = tAlloc1 then y.alloc1.setWidth 64
  else if off = tAccStatus then BitVec.ofNat 64 (y.ovfEn.toNat * 16 + y.ovf.toNat)
  else if off = tFaultInfo then y.faultInfo.setWidth 64
  else if off = tFaultBeat then y.faultBeat
  else if 0x8000 ≤ off then tgetD y.shadows (off - 0x8000) 0
  else if 0x1000 ≤ off then tgetD y.land ((off - 0x1000) / 8) 0
  else tgetD y.counters off 0

/-! ## BAR0 (R455, R481 to R484, R510, R563, R569) -/

/-- What BAR0 of a port reads as; other offsets read zero, and in recovery all but the CFG_ block. -/
def State.viewBar0 (s : State) (p : Fin 2) (off : Nat) : W64 :=
  let h := s.port p
  if isCfg off then s.cfg off
  else if s.inRecovery then 0
  else if off = bPortStatus then setBits (h.reg off) 18 16 s.pst
  else if (bDmaBlocked + 0x1000 ≤ off ∧ off < bDiscarded + 0x1008) ∨ (cSignatures + 0x1000 ≤ off ∧ off < cFlashRefused + 0x1008) then
    tgetD h.shadows (off - 0x1000) 0
  else if bSqBase ≤ off ∧ off < 0x80800 ∧ off % 0x20 = 0x18 then
    setBits (h.reg off) 30 30 (h.cqFull ((off - bSqBase) / 0x20)).toNat
  else h.reg off

/-! ## READ_CLEAR -/

/-- The 4 or 8 bytes at offset `o` of a register whose offset is `off` and whose value is `v`. -/
def regPart (v : W64) (off o : Nat) (wide : Bool) : W64 :=
  if wide then v else (v >>> (8 * (o - off))) &&& 0xFFFFFFFF

/-- The answer to a read of a tile register. -/
def State.readTileReg (s : State) (r : RegTarget) (wide : Bool) : State :=
  match r with
  | .tile t off =>
    match regAt tileReg off.toNat with
    | some reg =>
      s.emit (.regRead r (regPart ((s.die t.die.val).viewTile t.tile.val reg) reg off.toNat wide))
    | none => s
  | _ => s

/-- An access to a tile register waits for the next maintenance beat of its die (R51). -/
def State.deferReg (s : State) (d : Nat) (r : RegTarget) (wide : Bool) (v : Option W64) : State :=
  s.modDie d fun x => { x with deferred := x.deferred ++ [.register r wide v] }

/-- A read of a register returns its value from before its RC fields clear (R13, R15). A tile register is read in a
maintenance beat while a job runs (R51, R80). An access that the map
does not allow has no effect on the control plane, and is undefined through BAR0 when it is misaligned or
spans two registers (R18). Unmapped bytes of BAR0 read as zero. -/
def execReadClear (r : RegTarget) (wide : Bool) (s : State) : Out :=
  let n := if wide then 8 else 4
  match r with
  | .die d off =>
    let o := off.toNat
    match regAt (dieOrShadow d.val) o with
    | some reg =>
      if (s.die d.val).inReset || o % n != 0 || regAt (dieOrShadow d.val) (o + n - 1) != some reg then
        .next s
      else
        .next ((s.seen d.val reg).emit (.regRead r (regPart (s.viewDie d.val reg) reg o wide)))
    | none => .next s
  | .tile t off =>
    let x := s.die t.die.val
    let o := off.toNat
    match regAt tileReg o with
    | some reg =>
      if x.inReset || o % n != 0 || regAt tileReg (o + n - 1) != some reg
          || gatedTile (x.reg t.die.val rSpareMap) t.tile.val then .next s
      else if x.jobOn t.die.val then .next (s.deferReg t.die.val r wide none)
      else .next (s.readTileReg r wide)
    | none => .next s
  | .bar0 p off =>
    let o := off.toNat
    if s.germ.rails ≠ .on then .next s
    else if o % n ≠ 0 then undef 18
    else
      match regAt bar0Reg o with
      | none => .next (s.emit (.regRead r 0))
      | some reg =>
        if wide && regAt bar0Reg (o + 4) != some reg && (regAt bar0Reg (o + 4)).isSome then undef 18
        else
          let s' := if reg = bFabLastErr ∧ !s.inRecovery then s.modPort p (·.setReg bFabLastErr 0)
                    else s
          .next (s'.emit (.regRead r (regPart (s.viewBar0 p reg) reg o wide)))

end Sys2Proof.Machine
end

