-- ==== Sys2Proof/Machine/Write.lean ====
section
/-! DEFINITION. Writing registers (R13, R17, R18): the fields that a write stores, what each register
does with a write, the ranges and the conditions under which a write is ignored or answered with an
error. -/

namespace Sys2Proof.Machine

/-! ## What a write stores -/

/-- How a write ends: performed, not performed and answered with status 0x5, or undefined by a
rule. -/
inductive WriteEnd where
  | done (s : State)
  | refused
  | undef (rule : Nat)

/-- The bits of a register that an access of `n` bytes at byte `o` covers. -/
def coverMask (o n : Nat) : W64 := if n = 8 then all64 else if o % 8 = 4 then maskOf 63 32 else maskOf 31 0

/-- The register after a write of `v` to the bits `m`: RW bits store, W1C bits clear (R13). -/
def RegInfo.store (r : RegInfo) (old v m : W64) : W64 :=
  let rw := r.rw &&& m
  ((old &&& ~~~rw) ||| (v &&& rw)) &&& ~~~(v &&& m &&& r.w1c)

/-- Bits of a register that a write may touch without storing: named fields that are read-only. -/
def namedRo (d off : Nat) : W64 :=
  if off = rDieId then maskOf 7 0
  else if off = rBeatCtrl then maskOf 0 0
  else if off = rEpochCtrl then maskOf 31 31
  else if off = rServoStatus then maskOf 31 30 ||| maskOf 28 9
  else if off = rSnapCtrl then maskOf 31 28 ||| maskOf 15 0
  else if rLink ≤ off ∧ off < rLink + 0x4000 ∧ off % 0x200 = lStatus then
    maskOf 31 22 ||| maskOf 20 20 ||| maskOf 7 0
  else if d = d32 ∧ off = rPwrStatus then maskOf 31 26 ||| maskOf 24 20
  else if d = d32 ∧ off = rIdleCtrl then maskOf 31 31
  else 0

/-- Named bits of a die register without any field to write: the others are reserved. -/
def roFields (d off : Nat) : W64 :=
  let lk := (off - rLink) % 0x200
  let eg := (off - rEgress) % 0x80
  if off = rSpareMap then maskOf 31 30 ||| maskOf 15 0
  else if off = rSpareMapNext then maskOf 31 31 ||| maskOf 15 0
  else if off = rJobBeat ∨ off = rHoldLastBeat ∨ off = rStopBeat ∨ off = rSnapBeat ∨ off = rBatchIndex then
    maskOf 47 0
  else if off = rHoldLastInfo then maskOf 31 12
  else if rRegion ≤ off ∧ off < rRegion + 0x100 ∧ off % 0x40 = 0 then maskOf 31 31 ||| maskOf 15 0
  else if rRegion ≤ off ∧ off < rRegion + 0x100 ∧ off % 0x40 = 0x20 then maskOf 10 8 ||| maskOf 3 0
  else if off = rStopInfo then maskOf 31 20 ||| maskOf 15 0
  else if off = rStopDetail then maskOf 63 17 ||| maskOf 12 0
  else if off = rTimeSecHi then maskOf 29 0
  else if rPortOffset ≤ off ∧ off < rPortOffset + 64 then maskOf 31 31 ||| maskOf 23 0
  else if rLink ≤ off ∧ off < rLink + 0x4000 ∧ lk = lDelay then maskOf 31 31 ||| maskOf 23 0
  else if rLink ≤ off ∧ off < rLink + 0x4000 ∧ 0x18 ≤ lk ∧ lk ≤ 0x2C then maskOf 27 16 ||| maskOf 11 0
  else if rLink ≤ off ∧ off < rLink + 0x4000 ∧ lk = lStarveMap then maskOf 11 0
  else if rEgress ≤ off ∧ off < rEgress + 0x1000 ∧ eg = 0x38 then maskOf 31 31 ||| maskOf 9 0
  else if rEgress ≤ off ∧ off < rEgress + 0x1000 ∧ eg = 0x3C then maskOf 20 16 ||| maskOf 7 0
  else if off = rMemStatus then maskOf 31 29 ||| maskOf 3 2
  else if off = rWsel then maskOf 31 31 ||| maskOf 5 0
  else if off = rShardStatus then maskOf 31 29
  else if off = rBatchOvf then maskOf 3 0
  else if off = rLogHead then maskOf 7 0
  else if off = rDieTempMax ∨ off = rDiePower ∨ (rRegionTemp ≤ off ∧ off < rRegionTemp + 20) then
    maskOf 15 0
  else if d = d32 ∧ off = rModulePower then maskOf 31 0
  else all64

/-- A value other than zero goes to a reserved field (R17); writes of read-only fields are ignored. -/
def RegInfo.reservedHit (r : RegInfo) (ro v m : W64) : Bool :=
  v &&& m &&& ~~~(r.rw ||| r.w1c ||| r.wo ||| r.rc ||| ro) != 0

/-- The register has a field that a write can change. -/
def RegInfo.writable (r : RegInfo) : Bool := r.rw ||| r.w1c ||| r.wo != 0

/-- The nearest value in a range. -/
def clampNat (lo hi v : Nat) : Nat := max lo (min hi v)

/-! ## MODULE_NUM (R42, R52) -/

/-- An image is resident on the module. -/
def State.imageResident (s : State) : Bool :=
  s.placed0.isSome || s.placed1.isSome
    || s.dies.any fun e => e.2.tiles.any fun t => t.2.valid0 || t.2.valid1

/-- A write of DIE_ID; a new MODULE_NUM goes to the far ends in the next maintenance beat (R367). -/
def State.writeDieId (s : State) (d : Nat) (v : W64) : State :=
  let s := if bitOf v 31 then s.modDie d (·.setBit d rDieId 31 false) else s
  if s.imageResident then s.modDie d (·.setBit d rDieId 31 true)
  else s.modDie d fun x =>
    { x.setField d rDieId 25 16 (bitsOf v 25 16) with
      numChanged := x.numChanged || x.field d rDieId 25 16 != bitsOf v 25 16 }

def execModuleNumWrite (d : DieId) (v : W32) (s : State) : Out :=
  let d := d.val
  if (s.die d).inReset then .next s
  else if v &&& ~~~0x83FF00FF ≠ 0 then undef 17
  else .next (s.writeDieId d (v.setWidth 64))

/-! ## TIME_BEAT_CTRL (R266 to R268, R602) -/

/-- A write of TIME_BEAT_CTRL: HORIZON and FILL keep their values while a job runs. A FILL below 28 is
reserved. -/
def State.writeBeatCtrl (s : State) (d : Nat) (v : W64) : WriteEnd :=
  let x := s.die d
  if x.jobOn d then .done (s.reqHold d (bitOf v 31))
  else if bitsOf v 12 8 < 28 then .undef 17
  else
    let x := { (x.setField d rBeatCtrl 25 16 (bitsOf v 25 16)).setField d rBeatCtrl 12 8
      (bitsOf v 12 8) with horizonSet := true }
    .done ((s.setDie d x).reqHold d (bitOf v 31))

/-! ## One write of a die register -/

/-- The write of a register whose value is `new` once stored and whose written bits are `v` (0
outside the access). -/
def State.actDie (s : State) (d off : Nat) (new v : W64) : WriteEnd :=
  let x := s.die d
  let put := fun (w : W64) => WriteEnd.done (s.setDie d (x.setReg off w))
  let clamp := fun (hi lo a b : Nat) => put (setBits new hi lo (clampNat a b (bitsOf new hi lo)))
  let lk := (off - rLink) % 0x200
  if off = rDieId then .done (s.writeDieId d v)
  else if off = rBeatCtrl then s.writeBeatCtrl d v
  else if off = rEpochCtrl then .done (s.writeEpochCtrl d v)
  else if off = rServoCtrl then .done (s.writeServoCtrl v)
  else if off = rSnapCtrl then
    if !bitOf v 16 then .done s
    else if x.bit d rSnapCtrl 31 then .undef 520
    else .done (s.setDie d (x.armSnapshot d (x.reg d rSnapSec).toNat (x.field d rSnapNs 29 0)))
  else if (off = rSnapSec ∨ off = rSnapNs) ∧ x.bit d rSnapCtrl 31 then .undef 520
  else if off = rCpEscapeTime then clamp 19 0 100 1000000
  else if off = rCpReqTimeout then clamp 23 0 1 10000000
  else if off = rCpRate ∨ off = rCpRate + 4 then clamp 15 0 40 65535
  else if off = rAperture0 ∨ off = rAperture1 then
    if x.jobOn d ∧ (off = rAperture1) = x.bank then .done s else put new
  else if rSetBase ≤ off ∧ off < 0x50300 then
    .done (s.setDie d (x.writeSetBase d ((off - rSetBase) / 8) new))
  else if off = rShardHdr + 56 then .done (s.setDie d (x.startCheck d new))
  else if off = rWtCtrl then if bitsOf new 15 0 = 0 then .undef 17 else put new
  else if off = rNbr0 ∨ off = rNbr1 then
    if (List.range 16).any fun p => bitsOf new (2 * p + 1) (2 * p) == 3 then .undef 17 else put new
  else if off = rBatchCtrl then .done (s.setDie d ((x.setReg off new).noteCtrl (new.setWidth 32)))
  else if rRotation ≤ off ∧ off ≤ rRotationLen then .done (s.setDie d ((x.setReg off new).noteRotation d))
  else if off = rIdleCtrl then
    if s.idleWriteOpen then .undef 547
    else if bitsOf new 30 28 = 0 ∨ 3 < bitsOf new 30 28 then .undef 17
    else put new
  else if off = rResetCtrl then
    .done (if bitOf v 31 then s.modResetWrite (bitsOf v 15 0) else s)
  else if off = rDieResetMask then .done (s.dieResets v.toNat)
  else if off = rWakeSend then .done (s.sendWake d v.toNat)
  else if rRoute0 ≤ off ∧ off < rRoute0 + 0x10000 then
    if x.jobOn d ∧ (decide (rRoute1 ≤ off)) = x.bank then .refused else put new
  else if rLink ≤ off ∧ off < rLink + 0x4000 ∧ lk = lCtrl then
    .done (s.writeLinkCtrl d ((off - rLink) / 0x200) v)
  else if rLink ≤ off ∧ off < rLink + 0x4000 ∧ lk = lDownTime then clamp 16 0 100 100000
  else put new

/-- A write of `n` bytes of a die register at byte offset `o`. -/
def State.writeDie (s : State) (d o n : Nat) (v : W64) : WriteEnd :=
  match regAt (dieOrShadow d) o with
  | none => .done s
  | some off =>
    match dieOrShadow d off with
    | none => .done s
    | some r =>
      let m := coverMask o n
      let w := if o % 8 = 4 ∧ r.wide then v <<< 32 else v
      let m := if r.wide then m else maskOf 31 0
      if r.reservedHit (if r.writable then namedRo d off else roFields d off) w m then .undef 17
      else if !r.writable then .done s
      else s.actDie d off (r.store ((s.die d).reg d off) w m) (w &&& m)

/-! ## One write of a tile register (R92, R93, R100 to R105) -/

/-- The tile runs or is held: its image is in use. -/
def Tile.inUse (y : Tile) : Bool := y.state == .running || y.state == .held

/-- A write of TILE_BANK: bits of an image in use, and of a bank that an armed action names, stay
(R101). -/
def Die.writeBank (x : Die) (t : Nat) (v : W64) : Die :=
  let y := x.tile t
  let any := x.armedFor true || x.armedFor false
  let keep0 := (y.inUse && !y.active) || x.armedFor false
  let keep1 := (y.inUse && y.active) || x.armedFor true
  let y := { y with
    valid0 := if keep0 then y.valid0 else bitOf v 1
    valid1 := if keep1 then y.valid1 else bitOf v 2
    span := if y.inUse || any then y.span else bitOf v 3 }
  let y := if y.state = .idle ∨ y.state = .loaded then
      { y with state := if y.valid0 || y.valid1 then .loaded else .idle }
    else y
  x.setTile t y

/-- What a tile register does with a write. -/
def Die.actTile (x : Die) (t off : Nat) (new v : W64) : Option Die :=
  let y := x.tile t
  if off = tBank then some (x.writeBank t new)
  else if off = tAlloc0 then
    some (if y.inUse && !y.active then x else x.setTile t { y with alloc0 := new.setWidth 32 })
  else if off = tAlloc1 then
    some (if y.inUse && y.active then x else x.setTile t { y with alloc1 := new.setWidth 32 })
  else if off = tAccStatus then
    some (x.setTile t { y with
      ovf := y.ovf &&& ~~~(v.setWidth 4), ovfEn := BitVec.ofNat 4 (bitsOf new 7 4) })
  else if 0x1000 ≤ off ∧ off < 0x3000 then
    let k := (off - 0x1000) / 8
    if y.inUse ∧ k / 512 = y.bank then none
    else some (x.setTile t { y with land := tput y.land k new })
  else some x

/-- Read-only named fields of a tile register. -/
def tileRo (off : Nat) : W64 :=
  if off = tBank then maskOf 31 31 ||| maskOf 0 0
  else if 0x1000 ≤ off ∧ off < 0x3000 then maskOf 62 60 ||| maskOf 58 51 ||| maskOf 47 32
  else if off = tStatus then maskOf 31 5
  else if off = tFaultInfo then maskOf 31 10 ||| maskOf 8 0
  else if off = tFaultBeat then maskOf 47 0
  else if off = tAlloc0 ∨ off = tAlloc1 ∨ off = tAccStatus then 0
  else all64

/-- A write of `n` bytes of a tile register at byte offset `o`. -/
def State.writeTile (s : State) (d t o n : Nat) (v : W64) : WriteEnd :=
  match regAt tileReg o with
  | none => .done s
  | some off =>
    match tileReg off with
    | none => .done s
    | some r =>
      let m := if r.wide then coverMask o n else maskOf 31 0
      let w := if o % 8 = 4 ∧ r.wide then v <<< 32 else v
      if r.reservedHit (tileRo off) w m then .undef 17
      else if !r.writable then .done s
      else
        let x := s.die d
        match x.actTile t off (r.store (x.viewTile t off) w m) (w &&& m) with
        | some x => .done (s.setDie d x)
        | none => .refused

/-! ## The memories of a tile (R59, R60, R62) -/

/-- Words of `k` bytes that an access covers whole. -/
def wholeWords (k off n : Nat) (w : Nat) : Bool := decide (off ≤ k * w) && decide (k * w + k ≤ off + n)

/-- Bytes of the instruction store. -/
def Tile.istoreBytes (y : Tile) (off n : Nat) : List Byte :=
  (List.range n).map fun i =>
    let a := off + i
    BitVec.ofNat 8 ((tgetD y.istore (a / 8) 0).toNat / 2 ^ (8 * (a % 8)))

/-- One byte of the instruction store. -/
def Tile.putIstoreByte (y : Tile) (a : Nat) (b : Byte) : Tile :=
  let w := a / 8
  let lo := 8 * (a % 8)
  { y with istore := tput y.istore w (setBits (tgetD y.istore w 0) (lo + 7) lo b.toNat) }

/-- A write to the instruction store: a word of the active image of a tile in use is not written
(R62). -/
def Tile.writeIstoreBytes (y : Tile) (off : Nat) (bs : List Byte) : Option Tile :=
  let active := fun (w : Nat) => y.span || (decide (4096 ≤ w) == y.active)
  if y.inUse && (active (off / 8) || active ((off + bs.length - 1) / 8)) then none
  else
    let y := { y with
      istoreBad := y.istoreBad.filter fun a => !wholeWords 8 off bs.length a
      istoreWeak := y.istoreWeak.filter fun a => !wholeWords 8 off bs.length a }
    some (((List.range bs.length).zip bs).foldl (fun y e => y.putIstoreByte (off + e.1) e.2) y)

/-! ## BAR0 (R460, R481 to R484, R563, R569) -/

/-- Read-only named fields of a BAR0 register. -/
def bar0Ro (off : Nat) : W64 :=
  if off = bPortStatus then maskOf 18 16 ||| maskOf 3 0
  else if off = cFwCtrl then maskOf 20 16 ||| maskOf 7 0
  else if 0x80000 ≤ off ∧ off < 0x80800 ∧ off % 0x20 = 8 then maskOf 15 0
  else if 0x80000 ≤ off ∧ off < 0x80800 ∧ off % 0x20 = 0x18 then maskOf 30 30 ||| maskOf 15 0
  else if off = bFabLastErr then maskOf 3 0
  else if off = cBootStatus then maskOf 31 21
  else if off = cIdxNext ∨ off = cIdxReserved then maskOf 39 0
  else
    match bar0Reg off with
    | some r => if r.writable then 0 else all64
    | none => 0

/-- A write of a vector-control word: a pending message is sent when the vector is unmasked (R463). -/
def State.writeVector (s : State) (p : Fin 2) (off : Nat) (v : W64) : State :=
  let s := s.modPort p (·.setReg off v)
  if off % 16 ≠ 12 ∨ bitOf v 0 then s
  else
    let vec := (off - bMsixTable) / 16
    let pba := bMsixPba + 8 * (vec / 64)
    if bitOf ((s.port p).reg pba) (vec % 64) then
      (s.modPort p fun h => h.setReg pba (setBits (h.reg pba) (vec % 64) (vec % 64) 0)).emit
        ((s.port p).message p vec)
    else s

/-- What a BAR0 register does with a write. -/
def State.actBar0 (s : State) (p : Fin 2) (off : Nat) (new v : W64) : Out :=
  let h := s.port p
  let x := off % 0x20
  if bSqBase ≤ off ∧ off < 0x80800 then
    let n := (off - bSqBase) / 0x20
    if x = 0 then .next (if bitOf (h.sqCfg n) 31 then s else s.setPort p (h.setReg off new))
    else if x = 0x10 then .next (if bitOf (h.cqCfg n) 31 then s else s.setPort p (h.setReg off new))
    else .next (s.setPort p (h.writeRingCfg n (x == 0x18) v))
  else if off = cFwCtrl then s.fwWrite p v
  else if off = cFwOffset ∨ off = cFwLength then .next (s.setCfg off new)
  else if bMsixTable ≤ off ∧ off < 0x90820 then .next (s.writeVector p off new)
  else .next (s.setPort p (h.setReg off new))

/-- A doorbell write outside offset 0 of its page is ignored and counted (R460). -/
def State.strayDoorbell (s : State) (p : Fin 2) : State := s.modPort p (·.bump bDoorbellsIgnored)

/-- A write of `n` bytes at a BAR0 offset; in recovery only the CFG_ block is there (R455, R563). DESIGN
CHOICE: an 8-byte write whose lower half is a 4-byte register, or offset 0 of a doorbell page, and whose upper
half is unmapped is performed on its low 32 bits, since it spans no second register (R18, log 72). -/
def State.writeBar0 (s : State) (p : Fin 2) (o n : Nat) (v : W64) : Out :=
  if o % n ≠ 0 then undef 18
  else if s.inRecovery && !isCfg o then .next s
  else if o < 0x80000 then
    if o % 0x1000 ≠ 0 then .next (s.strayDoorbell p)
    else
      let r : RingRef := ⟨p, Fin.ofNat 64 (o / 0x1000)⟩
      if o < 0x40000 then execSqTailDoorbell r (v.setWidth 32) [] s
      else execCqHeadDoorbell r (v.setWidth 32) s
  else
    match regAt bar0Reg o with
    | none => .next s
    | some off =>
      match bar0Reg off with
      | none => .next s
      | some r =>
        if n = 8 ∧ !r.wide ∧ (bar0Reg (off + 4)).isSome then undef 18
        else
          let m := if r.wide then coverMask o n else maskOf 31 0
          let w := if o % 8 = 4 ∧ r.wide then v <<< 32 else v
          let old := if isCfg off then s.cfg off else (s.port p).reg off
          if r.reservedHit (bar0Ro off) w m then undef 17
          else if !r.writable then .next s
          else s.actBar0 p off (r.store old w m) (w &&& m)

/-! ## REGISTER_WRITE -/

/-- The end of a write as the answer of a command. -/
def WriteEnd.out (e : WriteEnd) (s : State) : Out :=
  match e with
  | .done s => .next s
  | .refused => .next s
  | .undef r => Machine.undef r

/-- A write of a register. One that its map does not allow has no effect (R18), and one of a tile register waits for a
maintenance beat while a job runs (R51, R80). -/
def execRegisterWrite (r : RegTarget) (wide : Bool) (v : W64) (s : State) : Out :=
  let n := if wide then 8 else 4
  match r with
  | .die d off =>
    let d := d.val
    let o := off.toNat
    match placeOf d (0xF000000000 + o) with
    | some a =>
      if (s.die d).inReset || !a.widthGood n || !(placeOf d (0xF000000000 + o + n - 1)).any (a.joins d)
      then .next s
      else (s.writeDie d o n v).out s
    | none => .next s
  | .tile t off =>
    let d := t.die.val
    let o := off.toNat
    let a := Place.tileReg t.tile.val o
    let map := (s.die d).reg d rSpareMap
    if (s.die d).inReset || gatedTile map t.tile.val || o % n != 0
        || (regAt tileReg o).isNone || regAt tileReg o != regAt tileReg (o + n - 1) || !a.widthGood n
    then .next s
    else if (s.die d).jobOn d then .next (s.deferReg d r wide (some v))
    else (s.writeTile d t.tile.val o n v).out s
  | .bar0 p off => if s.germ.rails ≠ .on then .next s else s.writeBar0 p off.toNat n v

end Sys2Proof.Machine
end

