-- ==== Sys2Proof/Machine/Control.lean ====
section
/-! DEFINITION. The control plane at its two ends: requests performed at their destination (R50, R51,
R62, R380), responses and timeouts at the requester (R381, R392), messages (R592 to R595) and the host's
fabric window (R456, R563). -/

namespace Sys2Proof.Machine

/-- The packet that carries a request leaves the packets delivered to the die. -/
def State.takeRequest (s : State) (d opcode : Nat) (q : Request) : State :=
  let it := fun (p : ControlPacket) => (cpHeader p).opcode == opcode && cpToRequest p == q
  s.modDie d fun x => { x with delivered := removeFirst it x.delivered }

/-! ## What an access reads and writes -/

/-- Bytes `o` to `o + n - 1` of a register whose offset is `off` and whose value is `v`. -/
def regBytes (v : W64) (off o n : Nat) : List Byte := ((leBytes v.toNat 8).drop (o - off)).take n

/-- The bytes at a place. -/
def State.placeRead (s : State) (d : Nat) (a : Place) (n : Nat) : List Byte :=
  let x := s.die d
  match a with
  | .sram t o => Mem.readBytes (x.tile t).sram o n
  | .istore t o => (x.tile t).istoreBytes o n
  | .mem o => Mem.readBytes x.mem.cells o n
  | .tileReg t o =>
    match regAt tileReg o with
    | some off => regBytes (x.viewTile t off) off o n
    | none => []
  | .dieReg o =>
    match regAt (dieOrShadow d) o with
    | some off => regBytes (s.viewDie d off) off o n
    | none => []

/-- What reading a place does: read-clear fields clear (R13), and corrected words of the data SRAM are
counted (R59). -/
def State.afterRead (s : State) (d : Nat) (a : Place) (n : Nat) : State :=
  match a with
  | .sram t o =>
    let k := ((s.die d).tile t).sramWeak.countP fun w => decide (o < 4 * w + 4) && decide (4 * w < o + n)
    if k = 0 then s else s.modDie d (·.modTile t (·.count tSramEcc k))
  | .dieReg o =>
    match regAt (dieOrShadow d) o with
    | some off => s.seen d off
    | none => s
  | _ => s

/-- Writes bytes at a place. -/
def State.placeWrite (s : State) (d : Nat) (a : Place) (bs : List Byte) : WriteEnd :=
  match a with
  | .sram t o => .done (s.modDie d (·.modTile t (·.cpWriteSram o bs)))
  | .istore t o =>
    match ((s.die d).tile t).writeIstoreBytes o bs with
    | some y => .done (s.modDie d (·.setTile t y))
    | none => .refused
  | .mem o => .done (s.modDie d (·.memWriteBytes o bs))
  | .tileReg t o => s.writeTile d t o bs.length (BitVec.ofNat 64 (leNat bs))
  | .dieReg o => s.writeDie d o bs.length (BitVec.ofNat 64 (leNat bs))

/-- Performs an access outside the memory window and answers it; a die that the access itself put into
reset answers nothing. -/
def State.performAccess (s : State) (d : Nat) (a : Place) (op : CpOp) (q : Request) : Out :=
  let n := op.size q
  let bs := s.placeRead d a n
  let old := BitVec.ofNat 64 (leNat bs)
  let write := fun (s : State) (new : List Byte) (imm : W64) =>
    match s.placeWrite d a new with
    | .done s =>
      Host.Outcome.next (if (s.die d).inReset then s else s.respond d op.opcode q 0 imm [])
    | .refused => .next (s.respond d op.opcode q 5 0 [])
    | .undef r => undef r
  match op with
  | .read => .next ((s.afterRead d a n).respond d 0x01 q 0 0 bs)
  | .write => write s q.data 0
  | _ => write (s.afterRead d a n) (op.sum (leNat bs) q.imm) old

/-! ## When an access is performed (R51, R59, R62, R419) -/

/-- A write of the data SRAM that is shorter than a word (R59). -/
def subWord (a : Place) (op : CpOp) (q : Request) : Bool :=
  match a with
  | .sram _ _ => op == .write && decide (op.size q < 4)
  | _ => false

/-- The access waits for a maintenance beat of its die. -/
def Die.defers (x : Die) (d : Nat) (a : Place) (op : CpOp) (q : Request) : Bool :=
  a.tile.isSome && (x.jobOn d || subWord a op q)

/-- Two ranges of bytes meet. -/
def meets (a n b k : Nat) : Bool := decide (a < b + k) && decide (b < a + n)

/-- The rule that leaves a write into a memory window undefined, 0 for none: into a context table share
(R487), or into image staging while an image is tested or programmed (R580). -/
def State.memWriteRule (s : State) (d off n : Nat) : Nat :=
  if !isEDie d then 0
  else if meets off n (regionOff d 1) (regionSize d 1) then 487
  else if d = d32 ∧ meets off n (regionOff d 3) (regionSize d 3) ∧ 1 ≤ s.fwStatus ∧ s.fwStatus ≤ 4 then 580
  else 0

/-- A request at its destination. -/
def State.access (s : State) (d : Nat) (op : CpOp) (q : Request) : Out :=
  let st := s.accessStatus d op q
  if st ≠ 0 then .next (s.respond d op.opcode q st 0 [])
  else
    match placeOf d (reqOff q) with
    | none => .next (s.respond d op.opcode q 1 0 [])
    | some (.mem off) =>
      let rule := if op = .read then 0 else s.memWriteRule d off (op.size q)
      if rule ≠ 0 then undef rule
      else
        .next ((s.modDie d fun x => { x with mem := { x.mem with
          waiting := x.mem.waiting ++ [⟨op, q⟩] } }).serve d)
    | some a =>
      if (s.die d).defers d a op q then
        .next (s.modDie d fun x => { x with deferred := x.deferred ++ [.packet ⟨op, q⟩] })
      else s.performAccess d a op q

/-- A request is taken from those delivered and performed; a die in reset does nothing (its neighbours
answer for it, R373). -/
def State.request (s : State) (d : Nat) (op : CpOp) (q : Request) : Out :=
  if (s.die d).inReset then .next s else (s.takeRequest d op.opcode q).access d op q

def execRead (d : DieId) (q : Request) (s : State) : Out := s.request d.val .read q
def execWrite (d : DieId) (q : Request) (s : State) : Out := s.request d.val .write q
def execAddI32 (d : DieId) (q : Request) (s : State) : Out := s.request d.val .addI32 q
def execAddI64 (d : DieId) (q : Request) (s : State) : Out := s.request d.val .addI64 q
def execAddF32 (d : DieId) (q : Request) (s : State) : Out := s.request d.val .addF32 q

/-- One access that waited for a maintenance beat. -/
def State.runAccess (s : State) (d : Nat) (w : TileAccess) : Out :=
  match w with
  | .packet w =>
    match placeOf d (reqOff w.req) with
    | none => .next s
    | some a => s.performAccess d a w.op w.req
  | .register r wide none => .next (s.readTileReg r wide)
  | .register (.tile t off) wide (some v) =>
    (s.writeTile d t.tile.val off.toNat (if wide then 8 else 4) v).out s
  | .register _ _ (some _) => .next s

/-- The accesses that waited for a maintenance beat, in order of arrival (R514). -/
def State.runDeferred (s : State) (d : Nat) : List TileAccess → Out
  | [] => .next s
  | w :: ws => (s.runAccess d w).bind fun s => s.runDeferred d ws

/-! ## Messages (R592, R595) -/

/-- The commands of R578 and R594. -/
def knownMessage (c : Byte) : Bool := [0x01, 0x02, 0x10, 0x20, 0x21, 0x30, 0x31, 0x40].contains c

/-- A MESSAGE packet reaches a die: E-die 32 queues it for its management core, at most 8. While its firmware serves
no management the answer is that of a path that is busy; DESIGN CHOICE: the spec asks for one response and names
none for this (R381, R595, log 33). -/
def execMessage (d : DieId) (q : Request) (s : State) : Out :=
  let d := d.val
  if (s.die d).inReset then .next s
  else
    let s := s.takeRequest d 0x10 q
    let command := q.data.getD 0 0
    let m : MgmtMsg := { path := .control, tag := q.data.getD 1 0, args := q.data.drop 4 }
    let answer := fun (cc : Byte) => Host.Outcome.next (s.mgmtReply command m (some q) cc [])
    if d ≠ d32 then .next (s.respond d 0x10 q 8 0 [])
    else if !s.mgmtOn then answer 0x83
    else if q.data.length < 4 || !knownMessage command then answer 0x81
    else .next (s.enqueue command m (some q))

/-- An MGMT packet reaches a die: one that does not pass between E-dies is dropped, and the contents of
the others are Oaval's own. -/
def execMgmt (d : DieId) (q : Request) (s : State) : Out :=
  let d := d.val
  if (s.die d).inReset then .next s
  else
    let s := s.takeRequest d 0x41 q
    let l := q.src.toNat % 64
    if isEDie d && decide (32 ≤ l) && decide (l < 40) then .next (s.emit (.mgmtPacket d q))
    else .next (s.modDie d (·.bump rCpDropped))

/-! ## The requester (R381, R392, R456) -/

/-- The request with a tag is over: a host's access is answered, or the reader of a weight set goes on. -/
def State.finish (s : State) (d : Nat) (o : Outstanding) (status : Nat) (data : List Byte) : State :=
  let s := s.modDie d fun x => { x with outstanding := removeFirst (· == o) x.outstanding }
  match o.host with
  | some (p, read, size) => s.hostAnswer p read size status data
  | none => if o.shard then s.readerResponse status data else s

/-- A response reaches its requester; one that nothing waits for is dropped (R392), and a reserved STATUS is undefined
(R17, R381). -/
def execControlResponseArrival (d : DieId) (r : Response) (s : State) : Out :=
  let d := d.val
  if (s.die d).inReset then .next s
  else
    let mine := fun (p : ControlPacket) =>
      let h := cpHeader p
      h.tc == 2 && h.tag == r.tag.toNat && h.status == r.status.toNat
    let s := s.modDie d fun x => { x with delivered := removeFirst mine x.delivered }
    match (s.die d).outstanding.find? (·.tag == r.tag) with
    | some o => if 0xA ≤ r.status.toNat then undef 17 else .next (s.finish d o r.status.toNat r.data)
    | none => .next (s.modDie d (·.bump rCpDropped))

/-- No response came within FAB_CP_REQ_TIMEOUT. -/
def execRequestTimeout (d : DieId) (tag : BitVec 16) (s : State) : Out :=
  let d := d.val
  match (s.die d).outstanding.find? (·.tag == tag) with
  | some o => .next ((s.modDie d (·.bump rCpTimedOut)).finish d o 9 [])
  | none => .next s

/-! ## The fabric window of a host port (R456, R563) -/

/-- The recovery buffer of a port, and all ones beside it. -/
def State.recoveryAccess (s : State) (p : Fin 2) (off size : Nat) (good : Bool) (v : Option W64) : Out :=
  let inside := good && decide (off < 0x800000)
  match v with
  | none =>
    let ones := 2 ^ (8 * min size 8) - 1
    let w := if inside then leNat (Mem.readBytes (s.port p).recovery off size) else ones
    .next (s.emit (.bar2 p (BitVec.ofNat 64 w)))
  | some v =>
    if !inside then .next s
    else if 1 ≤ s.fwStatus ∧ s.fwStatus ≤ 4 then undef 580
    else
      .next (s.modPort p fun h => { h with
        recovery := Mem.writeBytes h.recovery off (leBytes v.toNat size) })

/-- An access of the host at an offset of BAR2: a read, or a write of a value. -/
def State.bar2 (s : State) (p : Fin 2) (off size : Nat) (v : Option W64) : Out :=
  let d := 32 + p.val
  let good := (size == 4 || size == 8) && off % size == 0
  if s.germ.rails ≠ .on then .next s
  else if s.inRecovery then s.recoveryAccess p off size good v
  else if (s.die d).inReset then .next (s.hostAnswer p v.isNone size 3 [])
  else if !good then .next (s.hostAnswer p v.isNone size 8 [])
  else
    let x := s.die d
    let addr := ((s.port p).reg bFabWin).toNat + off
    let data := match v with
      | some v => leBytes v.toNat size
      | none => []
    let q := cpPacket { dst := addr / 2 ^ 48, src := s.dieNumber d, tc := 1,
                        epoch := x.field d rCpCtrl 0 0, dlen := if v.isSome then 1 else 0,
                        opcode := if v.isSome then 0x02 else 0x01, tag := x.nextTag.toNat,
                        length := size, addr := addr } (bytesFlits data (if v.isSome then 1 else 0))
    let x := { x with
      outstanding := x.outstanding ++ [⟨x.nextTag, some (p, v.isNone, size), false⟩]
      nextTag := x.nextTag + 1 }
    .next ((s.setDie d x).cpForward d cpSelf q)

def execBar2Read (p : Fin 2) (off : BitVec 28) (size : Nat) (s : State) : Out :=
  s.bar2 p off.toNat size none

def execBar2Write (p : Fin 2) (off : BitVec 28) (size : Nat) (v : W64) (s : State) : Out :=
  s.bar2 p off.toNat size (some v)

end Sys2Proof.Machine
end

