-- ==== Sys2Proof/Machine/Landing.lean ====
section
/-! DEFINITION. A flit of a scheduled packet at the fill port of a tile (R85 to R89, R241). -/

namespace Sys2Proof.Machine

/-- The entry after a flit that breaks no rule (R86). -/
def landNext (e : W64) (h : Header) (fidx : Nat) : W64 :=
  if hNull h then
    if fidx = hLen h then setBits (setBits (leEmptyKeepArmed e) 62 61 2) 58 58 1 else e
  else
    let n := leRcvd (if fidx = 0 then setBits e 57 51 0 else e) + 1
    setBits (setBits e 57 51 n) 62 61 (if fidx = hLen h then 2 else 1)
where
  /-- FLITS_RCVD of a null packet is 0; ARMED stays. -/
  leEmptyKeepArmed (e : W64) : W64 := setBits e 57 51 0

/-- A tile takes a flit: the bytes, the entry and the counters (R86, R98). -/
def Tile.takeLanding (y : Tile) (h : Header) (fidx : Nat) (payload : Flit) : Tile :=
  let n := hLand h
  let e := y.landing n
  let last := decide (fidx = hLen h)
  let y := y.setLanding n (landNext e h fidx)
  if hNull h then (if last then y.count tNullLanded else y)
  else
    let y := (y.writeSram (64 * leBase e + 64 * fidx) (leBytes payload.toNat 64)).count tFlitsLanded
    if last then y.count tPacketsLanded else y

/-! ## The arrival (R86 to R89) -/

/-- The entry leaves its queue for the fill port in cycle `c`; one that leaves late is counted for the region that
pushed it (R265). -/
def Die.takeEntry (x : Die) (t key : Nat) (f : QFlit) (c : Nat) (late : Bool) : Die :=
  let taken := (x.fillKey t, c :: x.fillTaken t)
  let x := x.setQueue key (removeFirst (· == f) (x.queue key))
  let x := x.modTile t fun y => { y with filled := taken }
  if late && decide (f.src < 288) then x.bump (rRegion + 0x40 * (f.src / 72) + 0x18) else x

/-- What the tile does with a flit that comes through its fill port in the cycle with count `c`. What the tile did in
earlier cycles comes first; of the faults of one cycle the one with the lowest KIND is recorded, and the tile's own
accesses of the cycle come before the flit (R89, R95). -/
def State.landFlit (s : State) (d t c : Nat) (h : Header) (fidx : Nat) (payload : Flit) : Out :=
  let steps := ((s.die d).tile t).flight.length + 1
  (State.runFlight d t (c - 1) steps s).bind fun s =>
    let s := s.settleUpTo d t (c + ((s.die d).tile t).idle)
    let y := (s.die d).tile t
    if y.state != .running && y.state != .held then .next s
    -- a spanning image has no bank 1 that a packet could name (R116)
    else if y.span && hEpoch h == 1 then undef 116
    else if y.landFault h fidx ≠ 0 then
      .next (s.tileFault d t (y.landFault h fidx) y.pc.toNat 0 (hLand h) h)
    else
      (State.runFlight d t c steps s).bind fun s =>
        let s := s.settleUpTo d t (c + 1 + ((s.die d).tile t).idle)
        let y := (s.die d).tile t
        if y.state != .running && y.state != .held then .next s
        else .next (s.modDie d (·.setTile t (y.takeLanding h fidx payload)))

/-- A flit reaches the tile's fill port while a job runs: one that stands in a crossing queue into the tile's region,
at the cycle that the image reserves for it or, late, at a free one (log 75). -/
def execLandingFlitArrival (r : TileRef) (h : Header) (fidx : Fin 64) (payload : Flit) (s : State) :
    Out :=
  let d := r.die.val
  let t := r.tile.val
  let x := s.die d
  let y := x.tile t
  if x.inReset || !x.jobOn d || hKind h != 0 || hDest h != t then .next s
  else
    match x.arriving t h fidx.val payload with
    | none => .next s
    | some (key, f, before) =>
      match x.intake d t f before with
      | .none => .next s
      | .twice => undef 341
      | .onTime c =>
        (s.setDie d (x.takeEntry t key f c false)).landFlit d t (y.clk + c - y.words) h fidx.val payload
      | .late c => (s.setDie d (x.takeEntry t key f c true)).landFlit d t (y.clk - 1) h fidx.val payload

end Sys2Proof.Machine
end

