-- ==== Sys2Proof/Machine/Maintenance.lean ====
section
/-! DEFINITION. Maintenance beats: the work that runs in them and nowhere else (R262, R263, R405, R411
to R413, R374, R496, R498, R514, R515). -/

namespace Sys2Proof.Machine

/-! ## Scrubs (R59, R63, R405, R409) -/

/-- Word `w` of a data SRAM lies in one of the two lines of each bank that are scrubbed in the `m`-th
maintenance beat. -/
def scrubsWord (m w : Nat) : Bool := decide (4 * w % 0x10000 / 128 / 2 = m % 256)

/-- Word `w` of an instruction store lies among the 64 that are scrubbed. -/
def scrubsInstr (m w : Nat) : Bool := decide (w / 64 = m % 128)

/-- Correctable errors that the scrubber reads are corrected, written back and counted. -/
def Tile.scrub (y : Tile) (m : Nat) : Tile :=
  let y := y.count tSramEcc (y.sramWeak.countP (scrubsWord m))
  let y := y.count tIstoreEcc (y.istoreWeak.countP (scrubsInstr m))
  { y with sramWeak := y.sramWeak.filter (!scrubsWord m ·)
           istoreWeak := y.istoreWeak.filter (!scrubsInstr m ·) }

/-- An uncorrectable data SRAM word: a tile fault inside the allocation window of the active bank, else
an entry of the log (R59, R513). -/
def State.scrubBad (s : State) (d t w : Nat) : State :=
  let y := (s.die d).tile t
  if y.inWindow (4 * w) 4 then s.tileFault d t 0x10 y.pc.toNat 0 0
  else s.logEvent d 0x40 (BitVec.ofNat 64 (t + 4 * w * 2 ^ 12))

/-- The scrub of the tiles of a die. -/
def State.scrubTiles (s : State) (d m : Nat) : State :=
  let s := s.modDie d fun x => { x with tiles := tmap (fun _ y => y.scrub m) x.tiles }
  (s.die d).tiles.foldl (fun s e =>
    (e.2.sramBad.filter (scrubsWord m)).foldl (fun s w => s.scrubBad d e.1 w) s) s

/-- The scrubber reads a unit. -/
def State.scrubUnit (s : State) (d u : Nat) : State :=
  let x := s.die d
  if x.mem.bad.contains u then s.memError d u
  else if x.mem.weak.contains u then
    s.setDie d ({ x with mem := { x.mem with weak := x.mem.weak.filter (· != u) } }.bump
      rEccCorrected)
  else s

/-- The scrub of a memory: up to 64 units of HBM; how many of LPDDR5X is open (log 1). It uses what is
left of the beat's capacity and skips groups in blackout. -/
def State.scrubMem (s : State) (d : Nat) : State :=
  let x := s.die d
  let most := if isEDie d then (Config.freeWord s.fz).toNat % 33 else 64
  let s := if isEDie d then s.used else s
  let n := min most (x.cpLeft d)
  let us := (List.range n).map fun i => (x.mem.scrub + i) % memUnits d
  let read := us.filter fun u => !x.inBlackout (memGroup d u)
  let s := read.foldl (fun s u => s.scrubUnit d u) s
  s.modDie d fun x =>
    let x := (x.memUse read.length).bump rScrubUnits read.length
    { x with mem := { x.mem with scrub := (x.mem.scrub + n) % memUnits d } }

/-! ## Telemetry (R515) -/

/-- Sensors of a die. -/
def sensors (d : Nat) : Nat := if isEDie d then 2 else 5

/-- The highest of the die's sensors, as 16 bits. -/
def Die.hottest (x : Die) (d : Nat) : Nat :=
  let t := fun s => sextInt 16 (x.field d (rRegionTemp + 4 * s) 15 0)
  (BitVec.ofInt 16 ((List.range (sensors d)).foldl (fun m s => max m (t s)) (t 0))).toNat

/-- One sensor is converted, and every 64 maintenance beats die power is refreshed: the mean over the
last 1,024, or over as many as there were. -/
def Die.telemetry (x : Die) (d : Nat) (m : MaintIn) : Die :=
  let i := x.teleNext
  let x := x.setReg (rRegionTemp + 4 * i) (m.sensor.setWidth 64)
  let x := { x with teleNext := (i + 1) % sensors d, powerSum := x.powerSum + m.power.toNat }
  let x := x.setReg rDieTempMax (BitVec.ofNat 64 (x.hottest d))
  if x.maintCount % 64 ≠ 0 then x
  else
    let sums := (x.powerSum :: x.powerSums).take 16
    ({ x with powerSum := 0, powerSums := sums }).setReg rDiePower
      (BitVec.ofNat 64 (sums.foldl (· + ·) 0 / (64 * sums.length)))

/-! ## Delay measurements (R374, R376) -/

/-- A measurement of one link, in quarter nanoseconds: what its stamps give, of which this end sends its own; free where
the command brings none (R374, log 1). -/
def State.measureLink (s : State) (d p : Nat) (m : Option Measure) : State :=
  let v := m.elim ((Config.freeWord s.fz).toNat % 2 ^ 24) (·.delay)
  let x := (s.die d).measured p (v :: ((s.die d).link p).delays)
  let cls := x.lfield d p lCtrl 18 16
  let s := (s.setDie d x).used
  let s := m.elim s fun m => s.emit (.stamps d p [m.own])
  if isFabricPort p && cls != 0 && decide (4 * classBound cls < v) then
    (s.modDie d (·.setLField d p lStatus 21 21 1)).logEvent d 0x52 (BitVec.ofNat 64 (v * 2 ^ 32 + p))
  else s

/-- Every 4,096th maintenance beat each active link is measured. -/
def State.measureLinks (s : State) (d : Nat) (ms : List (Fin 32 × Measure)) : State :=
  if (s.die d).maintCount % 4096 ≠ 0 then s
  else
    (portsOf d).foldl (fun s p =>
      if (s.die d).linkActive d p then
        s.measureLink d p ((ms.find? fun m => m.1.val == p).map (·.2))
      else s) s

/-- A module number that has changed goes to the far ends of the die's fabric ports (R367). -/
def State.sendNumber (s : State) (d : Nat) : State :=
  if !(s.die d).numChanged then s
  else
    (((portsOf d).filter isFabricPort).foldl (fun s p => s.emit (.moduleNum d p (s.moduleNum d))) s).modDie d
      fun x => { x with numChanged := false }

/-! ## MAINTENANCE_BEAT -/

/-- The work of a maintenance beat; in a tile window the scrub comes before the accesses (R514), in a
memory the accesses before the scrub (R419). -/
def State.maintain (s : State) (d : Nat) (m : MaintIn) : Out :=
  let s := s.settleAll d
  let n := (s.die d).maintCount
  let s := s.modDie d fun x =>
    { x.noteRefresh d m.hot with maintCount := n + 1, maintDone := true }
  let s := (s.sendExchanges d).sendNumber d
  let s := if (s.die d).inJobBeat d then s.compareBeats d else s
  let s := (s.measureLinks d m.delays).scrubTiles d n
  let s := (s.modDie d (·.telemetry d m)).serve d
  let s := (s.scrubMem d).loadBeat d
  let s := if d = d32 then s.readerNext else s
  let ws := (s.die d).deferred
  (s.modDie d fun x => { x with deferred := [] }).runDeferred d ws

/-- The background work of a maintenance beat, once in it, and not before the tiles have ended the beat
before (R80). -/
def execMaintenanceBeat (d : DieId) (m : MaintIn) (s : State) : Out :=
  let x := s.die d.val
  if x.inReset || !x.isMaint d.val || x.maintDone || x.behind then .next s else s.maintain d.val m

end Sys2Proof.Machine
end

