-- ==== Sys2Proof/Machine/Functions.lean ====
section
/-! DEFINITION. VEXP, VRCP and VRSQ (R147, R185): one of the results as near to the exact one as the
rules ask, which of them the function tables leave free (log 11). -/

namespace Sys2Proof.Machine

/-- `floor (sqrt n)` by the binary digits of the root, highest first. -/
def isqrt (n : Nat) : Nat → Nat → Nat
  | 0, r => r
  | k + 1, r => isqrt n k (if (r + 2 ^ k) * (r + 2 ^ k) ≤ n then r + 2 ^ k else r)

/-- A quotient with a sticky bit below it, so that rounding sees whether it is exact. -/
def sticky (q : Nat) (exact : Bool) : Nat := 2 * q + (!exact).toNat

/-- The reciprocal of `mag × 2^e`, exact but for its rounding. -/
def recip (neg : Bool) (mag : Nat) (e : Int) : Num :=
  .fin neg (sticky (2 ^ 200 / mag) (2 ^ 200 % mag == 0)) (-e - 201)

/-- The reciprocal square root of `mag × 2^e`, exact but for its rounding. -/
def recipSqrt (mag : Nat) (e : Int) : Num :=
  let odd := e % 2
  let n := 2 ^ 240 / (mag * 2 ^ odd.toNat)
  let r := isqrt n 121 0
  .fin false (sticky r (r * r * (mag * 2 ^ odd.toNat) == 2 ^ 240)) (-((e - odd) / 2) - 121)

/-- The fixed-point grid of the exponential: 96 bits below one. -/
abbrev expOne : Nat := 2 ^ 96

/-- ln 2 on that grid. -/
abbrev expLn2 : Nat := 54916777467707473351141471128

/-- The Taylor sum of `e^r` for `0 ≤ r < ln 2` on the grid: term `k` is the term before it times
`r / k`. -/
def expSum (r : Nat) : Nat → Nat → Nat → Nat
  | 0, _, _ => 0
  | n + 1, k, term => term + expSum r n (k + 1) (term * r / expOne / k)

/-- `e^a` or `2^a` of a finite value, from below to within 2^-90 of itself, with a sticky bit: it lies strictly between
two multiples of any unit in the last place just where the exact value does, unless 2^a has a whole `a` and is exact
(log 11). -/
def expNum (base2 : Bool) (neg : Bool) (mag : Nat) (e : Int) : Num :=
  let x := floorShift (if neg then -(mag : Int) else mag) e (-96)
  let unit : Int := if base2 then expOne else expLn2
  let k := x / unit
  let f := x % unit
  let r := if base2 then f.toNat * expLn2 / expOne else f.toNat
  -- beyond these bounds the result is infinite, or rounds to zero
  if k > 200 then .inf false
  else if k < -200 then .fin false 1 (-300)
  else .fin false (sticky (expSum r 40 1 expOne) (base2 && f == 0 && finInt neg mag e (min e (-96)) == x * 2 ^ (-96 - min e (-96)).toNat))
    (k - 97)

/-- The magnitude of an FP32 code without its sign; the code of infinity stands for the first
magnitude beyond the finite ones. -/
def codeMag (c : Nat) : Nat × Int :=
  match ofFP32 (BitVec.ofNat 32 c) with
  | .fin _ m e => (m, e)
  | _ => (1, 128)

/-- The code lies within `k` units in the last place of `mag × 2^e`: the unit is that of the exact
value, 2^-149 in the subnormal range (R147, R185). -/
def nearCode (k mag : Nat) (e : Int) (c : Nat) : Bool :=
  let (m, b) := codeMag c
  let u := max (floorLog mag e - 23) (-149)
  let g := min (min e b) u
  decide ((finInt false m b g - finInt false mag e g).natAbs ≤ k * 2 ^ (u - g).toNat)

/-- The codes within `k` units in the last place of `mag × 2^e`, from infinity's down: below a power of two
the codes lie twice as close. -/
def nearCodes (k mag : Nat) (e : Int) : List Nat :=
  let c := fmtFP32.convert .rtz (.fin false mag e)
  ((List.range (3 * k + 2)).map fun i => min (c - 2 * k + i) 0x7F800000).filter (nearCode k mag e)

/-- One of the results that lie within `k` units in the last place of the exact one; an exact result above
the largest finite magnitude gives infinity (R147, R185). -/
def pickNear (k pick : Nat) (neg : Bool) (x : Num) : W32 :=
  let c := match x with
    | .fin _ mag e =>
      if Num.lt (.fin false (2 ^ 24 - 1) 104) (.fin false mag e) then 0x7F800000
      else
        let cs := nearCodes k mag e
        cs.getD (pick % cs.length) 0
    | _ => 0x7F800000
  BitVec.ofNat 32 (neg.toNat * 2 ^ 31 + c)

def vexpOf (fw : W32) (base2 : Bool) (a : W32) : W32 :=
  match ofFP32 a with
  | .nan => canonicalNaN
  | .inf neg => if neg then 0 else 0x7F800000
  | .fin neg mag e =>
    if mag = 0 then 0x3F800000
    else pickNear 2 (Config.vexpUlp fw base2 a) false (expNum base2 neg mag e)

def vrcpOf (fw a : W32) : W32 :=
  match ofFP32 a with
  | .nan => canonicalNaN
  | .inf neg => if neg then 0x80000000 else 0
  | .fin neg mag e =>
    if mag = 0 then (if neg then 0xFF800000 else 0x7F800000)
    else pickNear 1 (Config.vrcpUlp fw a) neg (recip neg mag e)

def vrsqOf (fw a : W32) : W32 :=
  match ofFP32 a with
  | .nan => canonicalNaN
  | .inf neg => if neg then canonicalNaN else 0
  | .fin neg mag e =>
    if mag = 0 then (if neg then 0xFF800000 else 0x7F800000)
    else if neg then canonicalNaN
    else pickNear 1 (Config.vrsqUlp fw a) false (recipSqrt mag e)

end Sys2Proof.Machine
end

