-- ==== Sys2Proof/Machine/Vector.lean ====
section
/-! DEFINITION. The vector instructions (R180 to R193). -/

namespace Sys2Proof.Machine

/-! ## Fields (R180) -/

def vPM (f : Operands) : Nat := fld f 53 51
def vD (f : Operands) : Nat := fld f 50 46
def vA (f : Operands) : Nat := fld f 45 41
def vB (f : Operands) : Nat := fld f 40 36
def vC (f : Operands) : Nat := fld f 35 31
def vBsel (f : Operands) : Nat := fld f 30 29
def vRM (f : Operands) : Nat := fld f 28 26
def vSF (f : Operands) : Nat := fld f 25 22
def vDF (f : Operands) : Nat := fld f 21 18
def vMod (f : Operands) : Nat := fld f 17 16
def vMod0 (f : Operands) : Bool := bitOf f 16
def vMod1 (f : Operands) : Bool := bitOf f 17
def vImm (f : Operands) : Nat := fld f 15 0

/-- RM, SF and DF are zero: only the conversions use them. -/
def noConvert (f : Operands) : Bool := fld f 28 18 == 0

/-- IMM16 as an operand: a BF16 constant, or sign-extended (R182). -/
def immOperand (integer : Bool) (imm : Nat) : W32 :=
  if integer then BitVec.ofInt 32 (sextInt 16 imm) else BitVec.ofNat 32 (imm * 2 ^ 16)

/-- Lane `i` of the B operand (R182). -/
def Tile.bOperand (y : Tile) (f : Operands) (integer : Bool) (imm : Nat) (i : Nat) : W32 :=
  match vBsel f with
  | 0 => lane (y.readV (vB f)) i
  | 1 => y.readScalar (vB f)
  | _ => immOperand integer imm

/-- The B field is valid: a V register, a readable scalar, or zero beside IMM16, which is zero
where BSEL does not name it (R181, R182). -/
def bGood (f : Operands) : Bool :=
  match vBsel f with
  | 0 => vImm f == 0
  | 1 => scalarReadable (vB f) && vImm f == 0
  | 2 => vB f == 0
  | _ => false

/-- What the B operand reads. -/
def bUse (f : Operands) : List RegUse :=
  match vBsel f with
  | 0 => [useV (vB f)]
  | 1 => scalarUse (vB f)
  | _ => []

/-- An action with a vector destination under the predicate (R183). -/
def vectorAct (y : Tile) (f : Operands) (lat : Nat) (reads : List RegUse) (g : Nat → W32) : Plan :=
  .run { path := pathVx, reads := useP (vPM f) :: reads
         results := [{ kind := .v, idx := vD f, mask := laneMask (y.readP (vPM f)), lat := lat
                       val := ofLanes g }] }

/-- A lane-wise instruction of operands A and B. -/
def planAB (f : Operands) (y : Tile) (lat : Nat) (integer : Bool) (g : W32 → W32 → W32) : Plan :=
  if vC f ≠ 0 ∨ ¬noConvert f ∨ ¬bGood f then .invalid
  else
    vectorAct y f lat (useV (vA f) :: bUse f) fun i =>
      g (lane (y.readV (vA f)) i) (y.bOperand f integer (vImm f) i)

/-- `sa × a + sb × b` modulo 2^32 (R184). -/
def intAdd (na nb : Bool) (a b : W32) : W32 := (if na then -a else a) + (if nb then -b else b)

def planVadd (f : Operands) (_ : State) (y : Tile) : Plan :=
  planAB f y 3 false (fpAdd (vMod1 f) (vMod0 f))

def execVadd (t : TileRef) (f : Operands) (s : State) : Out :=
  issueTile t 1 0x10 f (planVadd f) id s

def planVaddI (f : Operands) (_ : State) (y : Tile) : Plan :=
  planAB f y 1 true (intAdd (vMod1 f) (vMod0 f))

def execVaddI (t : TileRef) (f : Operands) (s : State) : Out :=
  issueTile t 1 0x11 f (planVaddI f) id s

/-- A result in an A or S register that a scalar code names (R181). -/
def scalarResult (c lat : Nat) (v : W32) : Wr :=
  if c < 0x10 then
    { kind := .a, idx := c, mask := 0xFFFFFFFF, lat := lat, val := v.setWidth 1024 }
  else { kind := .s, idx := c - 0x10, mask := 0xFFFFFFFF, lat := lat, val := v.setWidth 1024 }

def planVaddS (f : Operands) (_ : State) (y : Tile) : Plan :=
  if vPM f ≠ 0 ∨ vC f ≠ 0 ∨ ¬noConvert f ∨ ¬bGood f ∨ vBsel f = 0 ∨ ¬scalarWritable (vD f)
      ∨ ¬scalarReadable (vA f) then .invalid
  else
    .run { path := pathVx, reads := scalarUse (vA f) ++ bUse f
           results := [scalarResult (vD f) 1
             (intAdd (vMod1 f) (vMod0 f) (y.readScalar (vA f)) (y.bOperand f true (vImm f) 0))] }

def execVaddS (t : TileRef) (f : Operands) (s : State) : Out :=
  issueTile t 1 0x12 f (planVaddS f) id s

def planVmul (f : Operands) (_ : State) (y : Tile) : Plan :=
  if vMod f ≠ 0 then .invalid else planAB f y 3 false fpMul

def execVmul (t : TileRef) (f : Operands) (s : State) : Out :=
  issueTile t 1 0x14 f (planVmul f) id s

def planVfma (f : Operands) (_ : State) (y : Tile) : Plan :=
  if ¬noConvert f ∨ ¬bGood f then .invalid
  else
    vectorAct y f 4 (useV (vA f) :: useV (vC f) :: bUse f) fun i =>
      fpFma (vMod0 f) (vMod1 f) (lane (y.readV (vA f)) i) (y.bOperand f false (vImm f) i)
        (lane (y.readV (vC f)) i)

def execVfma (t : TileRef) (f : Operands) (s : State) : Out :=
  issueTile t 1 0x16 f (planVfma f) id s

def planVmax (f : Operands) (_ : State) (y : Tile) : Plan :=
  if vMod1 f then .invalid else planAB f y 2 false (fpMax (vMod0 f))

def execVmax (t : TileRef) (f : Operands) (s : State) : Out :=
  issueTile t 1 0x18 f (planVmax f) id s

/-! ## Function tables (R185); the firmware version selects the tables (R66) -/

/-- Everything but PM, D, A and MOD[0] is zero. -/
def functionFieldsGood (f : Operands) : Bool := fld f 40 17 == 0 && vImm f == 0

def State.fwVersion (s : State) : W32 := (s.cfg cFwVersion).setWidth 32

def planFunction (f : Operands) (y : Tile) (g : W32 → W32) : Plan :=
  vectorAct y f 8 [useV (vA f)] fun i => g (lane (y.readV (vA f)) i)

def planVexp (f : Operands) (s : State) (y : Tile) : Plan :=
  if ¬functionFieldsGood f then .invalid
  else planFunction f y (vexpOf s.fwVersion (vMod0 f))

def execVexp (t : TileRef) (f : Operands) (s : State) : Out :=
  issueTile t 1 0x1C f (planVexp f) id s

def planVrcp (f : Operands) (s : State) (y : Tile) : Plan :=
  if ¬functionFieldsGood f ∨ vMod0 f then .invalid else planFunction f y (vrcpOf s.fwVersion)

def execVrcp (t : TileRef) (f : Operands) (s : State) : Out :=
  issueTile t 1 0x1D f (planVrcp f) id s

def planVrsq (f : Operands) (s : State) (y : Tile) : Plan :=
  if ¬functionFieldsGood f ∨ vMod0 f then .invalid else planFunction f y (vrsqOf s.fwVersion)

def execVrsq (t : TileRef) (f : Operands) (s : State) : Out :=
  issueTile t 1 0x1E f (planVrsq f) id s

/-! ## Conversion (R186 to R189) -/

/-- Slots that a register holds of a narrow format (R186). -/
def slotsOf (bits : Nat) : Nat :=
  match bits with
  | 16 => 2
  | 8 => 4
  | 6 => 5
  | 4 => 8
  | _ => 0

/-- The seed field: a readable scalar code under SRS, zero otherwise (R189). -/
def seedGood (f : Operands) : Bool := if vRM f = 5 then scalarReadable (vB f) else vB f == 0

def seedUse (f : Operands) : List RegUse := if vRM f = 5 then scalarUse (vB f) else []

def convertCode (code : Nat) (rm : Round) (x : Num) : Nat :=
  match fmtOf code with
  | some g => g.convert rm x
  | none => 0

def planVcvt (f : Operands) (s : State) (y : Tile) : Plan :=
  let sf := vSF f
  let df := vDF f
  let narrow := sf = 0xB
  let code := if narrow then df else sf
  let bits := fmtBits code
  let imm := vImm f
  let slot := imm % 16
  let sb := imm / 2 ^ 9
  let mx := fmtIsMx code
  if (sf = 0xB ∧ df = 0xB) ∨ (sf ≠ 0xB ∧ df ≠ 0xB) ∨ 0xA < code ∨ vRM f = 7
      ∨ imm / 16 % 32 ≠ 0 ∨ slotsOf bits ≤ slot ∨ (¬mx ∧ (sb ≠ 0 ∨ vC f ≠ 0)) ∨ vBsel f ≠ 0
      ∨ vMod f ≠ 0 ∨ ¬seedGood f ∨ (narrow ∧ mx ∧ vPM f ≠ 0) then .invalid
  else
    let a := y.readV (vA f)
    let off := 32 * bits * slot
    let rnd := roundOf (vRM f) (y.readScalar (vB f)) y.bc s.fz
    let reads := useV (vA f) :: seedUse f
    let undef := if mx ∧ vD f = vC f then some 187 else none
    if narrow then
      if mx then
        let (scale, es) := toBlock df rnd ((List.range 32).map fun e => ofFP32 (lane a e))
        .run { path := pathVx, reads := reads, undef := undef
               results :=
                 [{ kind := .v, idx := vD f, mask := packMask bits off 0xFFFFFFFF, lat := 3
                    val := packAt bits off fun e => es.getD e 0 },
                  { kind := .v, idx := vC f, mask := (0xFF : BitVec 1024) <<< (8 * sb), lat := 3
                    val := BitVec.ofNat 1024 (scale.toNat * 2 ^ (8 * sb)) }] }
      else
        .run { path := pathVx, reads := useP (vPM f) :: reads
               results :=
                 [{ kind := .v, idx := vD f, mask := packMask bits off (y.readP (vPM f)), lat := 3
                    val := packAt bits off fun e => convertCode df (rnd e) (ofFP32 (lane a e)) }] }
    else
      let scale := scaleOf sf (byteOf (y.readV (vC f)).toNat sb)
      .run { path := pathVx, undef := undef
             reads := useP (vPM f) :: (if mx then [useV (vC f)] else []) ++ reads
             results :=
               [{ kind := .v, idx := vD f, mask := laneMask (y.readP (vPM f)), lat := 3
                  val := ofLanes fun e => toFP32 (rnd e)
                    (scaled (decodeCode sf (element (a.toNat >>> off) bits e)) scale (some 0)) }] }

def execVcvt (t : TileRef) (f : Operands) (s : State) : Out :=
  issueTile t 1 0x20 f (planVcvt f) (usedBySru (vRM f)) s

def planVsrnd (f : Operands) (s : State) (y : Tile) : Plan :=
  let df := vDF f
  if vSF f ≠ 0 ∨ vC f ≠ 0 ∨ vImm f ≠ 0 ∨ vBsel f ≠ 0 ∨ vMod f ≠ 0 ∨ 0xA < df ∨ vRM f = 7
      ∨ ¬seedGood f then .invalid
  else
    let rnd := roundOf (vRM f) (y.readScalar (vB f)) y.bc s.fz
    vectorAct y f 3 (useV (vA f) :: seedUse f) fun e =>
      toFP32 .rne (decodeCode df (convertCode df (rnd e) (ofFP32 (lane (y.readV (vA f)) e))))

def execVsrnd (t : TileRef) (f : Operands) (s : State) : Out :=
  issueTile t 1 0x21 f (planVsrnd f) (usedBySru (vRM f)) s

/-! ## Reduction (R146, R190) -/

/-- One step of the tree: lane `i` takes lanes `i` and `i + half`. -/
def treeStep (g : W32 → W32 → W32) (xs : List W32) (half : Nat) : List W32 :=
  (List.range half).map fun i => g (xs.getD i 0) (xs.getD (i + half) 0)

/-- The fixed tree over 32 lanes. -/
def treeFold (g : W32 → W32 → W32) (xs : List W32) : W32 :=
  ([16, 8, 4, 2, 1].foldl (treeStep g) xs).getD 0 0

def planVred (f : Operands) (_ : State) (y : Tile) : Plan :=
  if fld f 40 17 ≠ 0 ∨ vImm f ≠ 0 then .invalid
  else
    let a := y.readV (vA f)
    let p := y.readP (vPM f)
    let xs := fun (z : W32) => (List.range 32).map fun i => if p.getLsbD i then lane a i else z
    let r := if vMod0 f then treeFold (fpMax false) (xs 0xFF800000)
             else treeFold (fpAdd false false) (xs 0)
    .run { path := pathVx, reads := [useV (vA f), useP (vPM f)]
           results := [{ kind := .v, idx := vD f, mask := 0xFFFFFFFF, lat := 12
                         val := r.setWidth 1024 }] }

def execVred (t : TileRef) (f : Operands) (s : State) : Out :=
  issueTile t 1 0x28 f (planVred f) id s

/-! ## Selection, comparison and moves (R191 to R193) -/

def planVsel (f : Operands) (_ : State) (y : Tile) : Plan :=
  if vC f ≠ 0 ∨ ¬noConvert f ∨ ¬bGood f ∨ vMod1 f ∨ (vMod0 f ∧ vBsel f ≠ 2) then .invalid
  else
    let p := y.readP (vPM f)
    .run { path := pathVx, reads := useP (vPM f) :: useV (vA f) :: bUse f
           results := [{ kind := .v, idx := vD f, mask := allLanes, lat := 1
                         val := ofLanes fun i =>
                           if p.getLsbD i then lane (y.readV (vA f)) i
                           else y.bOperand f (vMod0 f) (vImm f) i }] }

def execVsel (t : TileRef) (f : Operands) (s : State) : Out :=
  issueTile t 1 0x30 f (planVsel f) id s

/-- Comparison in FP32 by the condition code (R191). -/
def cmpFp (c : Nat) (a b : W32) : Bool :=
  let x := ofFP32 a
  let y := ofFP32 b
  let nan := x.isNan || y.isNan
  match c with
  | 0 => x.eqv y
  | 1 => !(x.eqv y)
  | 2 => x.lt y
  | 3 => x.lt y || x.eqv y
  | 4 => y.lt x
  | 5 => y.lt x || x.eqv y
  | 6 => !nan
  | _ => nan

/-- Comparison in signed INT32 by the condition code (R191). -/
def cmpInt (c : Nat) (a b : W32) : Bool :=
  match c with
  | 0 => a == b
  | 1 => a != b
  | 2 => a.slt b
  | 3 => a.sle b
  | 4 => b.slt a
  | _ => b.sle a

def planVselCmp (f : Operands) (_ : State) (y : Tile) : Plan :=
  let c := vImm f % 8
  let integer := vMod0 f
  let imm := vImm f / 8 * 8
  let bOk : Bool := match vBsel f with
    | 0 => imm == 0
    | 1 => scalarReadable (vB f) && imm == 0
    | 2 => vB f == 0
    | _ => false
  if vC f ≠ 0 ∨ ¬noConvert f ∨ ¬bOk ∨ vMod1 f ∨ vD f / 8 ≠ 0 ∨ (integer ∧ 6 ≤ c) then .invalid
  else
    let p := y.readP (vPM f)
    let r := fun i => p.getLsbD i &&
      (if integer then cmpInt else cmpFp) c (lane (y.readV (vA f)) i) (y.bOperand f integer imm i)
    .run { path := pathVx, reads := useP (vPM f) :: useV (vA f) :: bUse f
           results := [{ kind := .p, idx := vD f, mask := 0xFFFFFFFF, lat := 2
                         val := BitVec.ofNat 1024
                           ((List.range 32).foldr (fun i n => (r i).toNat + 2 * n) 0) }] }

def execVselCmp (t : TileRef) (f : Operands) (s : State) : Out :=
  issueTile t 1 0x31 f (planVselCmp f) id s

def planVselMov (f : Operands) (_ : State) (y : Tile) : Plan :=
  let imm := vImm f
  let idx := imm % 32
  if fld f 40 18 ≠ 0 then .invalid
  else
    match vMod f with
    | 0 =>
      if vPM f ≠ 0 ∨ imm / 32 ≠ 0 ∨ ¬scalarWritable (vD f) then .invalid
      else .run { path := pathVx, reads := [useV (vA f)]
                  results := [scalarResult (vD f) 1 (lane (y.readV (vA f)) idx)] }
    | 1 =>
      if vPM f ≠ 0 ∨ imm / 32 ≠ 0 ∨ ¬scalarReadable (vA f) then .invalid
      else .run { path := pathVx, reads := scalarUse (vA f)
                  results := [{ kind := .v, idx := vD f, lat := 1
                                mask := (0xFFFFFFFF : BitVec 1024) <<< (32 * idx)
                                val := (y.readScalar (vA f)).setWidth 1024 <<< (32 * idx) }] }
    | 2 =>
      if imm ≠ 0 ∨ ¬scalarReadable (vA f) then .invalid
      else vectorAct y f 1 (scalarUse (vA f)) fun _ => y.readScalar (vA f)
    | _ =>
      if vPM f ≠ 0 ∨ vA f ≠ 0 ∨ ¬scalarWritable (vD f) then .invalid
      else .run { path := pathVx, results := [scalarResult (vD f) 1 (immOperand true imm)] }

def execVselMov (t : TileRef) (f : Operands) (s : State) : Out :=
  issueTile t 1 0x32 f (planVselMov f) id s

end Sys2Proof.Machine
end

