-- ==== Sys2Proof/Machine/Dispatch.lean ====
section
/-! DEFINITION. One arm for each command: a direct call of its meaning. -/

namespace Sys2Proof.Machine

def exec (i : Instr) (s : State) : Host.Outcome State Fault Refusal :=
  match i with
  | .mxld t f => Sys2Proof.Machine.execMxld t f s
  | .mxmul t f => Sys2Proof.Machine.execMxmul t f s
  | .mxsparse t f => Sys2Proof.Machine.execMxsparse t f s
  | .mxacc t f => Sys2Proof.Machine.execMxacc t f s
  | .mxzero t f => Sys2Proof.Machine.execMxzero t f s
  | .mxrd t f => Sys2Proof.Machine.execMxrd t f s
  | .vadd t f => Sys2Proof.Machine.execVadd t f s
  | .vaddI t f => Sys2Proof.Machine.execVaddI t f s
  | .vaddS t f => Sys2Proof.Machine.execVaddS t f s
  | .vmul t f => Sys2Proof.Machine.execVmul t f s
  | .vfma t f => Sys2Proof.Machine.execVfma t f s
  | .vmax t f => Sys2Proof.Machine.execVmax t f s
  | .vexp t f => Sys2Proof.Machine.execVexp t f s
  | .vrcp t f => Sys2Proof.Machine.execVrcp t f s
  | .vrsq t f => Sys2Proof.Machine.execVrsq t f s
  | .vcvt t f => Sys2Proof.Machine.execVcvt t f s
  | .vsrnd t f => Sys2Proof.Machine.execVsrnd t f s
  | .vred t f => Sys2Proof.Machine.execVred t f s
  | .vsel t f => Sys2Proof.Machine.execVsel t f s
  | .vselCmp t f => Sys2Proof.Machine.execVselCmp t f s
  | .vselMov t f => Sys2Proof.Machine.execVselMov t f s
  | .loadv t f => Sys2Proof.Machine.execLoadv t f s
  | .storev t f => Sys2Proof.Machine.execStorev t f s
  | .send t f => Sys2Proof.Machine.execSend t f s
  | .sendm t f => Sys2Proof.Machine.execSendm t f s
  | .gather t f => Sys2Proof.Machine.execGather t f s
  | .land t f => Sys2Proof.Machine.execLand t f s
  | .hbmrd t f => Sys2Proof.Machine.execHbmrd t f s
  | .hbmwr t f => Sys2Proof.Machine.execHbmwr t f s
  | .nop t f => Sys2Proof.Machine.execNop t f s
  | .loop t f => Sys2Proof.Machine.execLoop t f s
  | .br t f => Sys2Proof.Machine.execBr t f s
  | .waitbeat t f => Sys2Proof.Machine.execWaitbeat t f s
  | .holdchk t f => Sys2Proof.Machine.execHoldchk t f s
  | .fault t f => Sys2Proof.Machine.execFault t f s
  | .snap t f => Sys2Proof.Machine.execSnap t f s
  | .fillBudgetExhausted t => Sys2Proof.Machine.execFillBudgetExhausted t s
  | .droopStretch c r => Sys2Proof.Machine.execDroopStretch c r s
  | .beatStart d => Sys2Proof.Machine.execBeatStart d s
  | .maintenanceBeat d m => Sys2Proof.Machine.execMaintenanceBeat d m s
  | .blackoutEnd d => Sys2Proof.Machine.execBlackoutEnd d s
  | .landingFlitArrival t h fidx payload => Sys2Proof.Machine.execLandingFlitArrival t h fidx payload s
  | .holdSymbolReceived d port sym => Sys2Proof.Machine.execHoldSymbolReceived d port sym s
  | .holdTakesEffect d => Sys2Proof.Machine.execHoldTakesEffect d s
  | .rollCallClose d => Sys2Proof.Machine.execRollCallClose d s
  | .holderRelease d => Sys2Proof.Machine.execHolderRelease d s
  | .releaseSymbolReceived d port sym => Sys2Proof.Machine.execReleaseSymbolReceived d port sym s
  | .holdResume d => Sys2Proof.Machine.execHoldResume d s
  | .holdTimeout d => Sys2Proof.Machine.execHoldTimeout d s
  | .reqHoldWrite d on => Sys2Proof.Machine.execReqHoldWrite d on s
  | .epochArm d action target => Sys2Proof.Machine.execEpochArm d action target s
  | .epochCancel d => Sys2Proof.Machine.execEpochCancel d s
  | .stop d => Sys2Proof.Machine.execStop d s
  | .clear d => Sys2Proof.Machine.execClear d s
  | .epochStart d => Sys2Proof.Machine.execEpochStart d s
  | .epochSwitch d => Sys2Proof.Machine.execEpochSwitch d s
  | .epochEnd d => Sys2Proof.Machine.execEpochEnd d s
  | .stopSymbolReceived d port sym => Sys2Proof.Machine.execStopSymbolReceived d port sym s
  | .frameReceived d port f => Sys2Proof.Machine.execFrameReceived d port f s
  | .replayTimeout d port => Sys2Proof.Machine.execReplayTimeout d port s
  | .spillMove d port n => Sys2Proof.Machine.execSpillMove d port n s
  | .symbolLockLost d port => Sys2Proof.Machine.execSymbolLockLost d port s
  | .symbolLockReturned d port => Sys2Proof.Machine.execSymbolLockReturned d port s
  | .linkDown d port => Sys2Proof.Machine.execLinkDown d port s
  | .trainingPhaseComplete d port r => Sys2Proof.Machine.execTrainingPhaseComplete d port r s
  | .trainingPhaseTimeout d port => Sys2Proof.Machine.execTrainingPhaseTimeout d port s
  | .trainingRestart d port => Sys2Proof.Machine.execTrainingRestart d port s
  | .trainingPatternReceived d port => Sys2Proof.Machine.execTrainingPatternReceived d port s
  | .retrain d port => Sys2Proof.Machine.execRetrain d port s
  | .disable d port on => Sys2Proof.Machine.execDisable d port on s
  | .farDieReset d port => Sys2Proof.Machine.execFarDieReset d port s
  | .controlPacketArrival d port p => Sys2Proof.Machine.execControlPacketArrival d port p s
  | .escapeTimeout d port => Sys2Proof.Machine.execEscapeTimeout d port s
  | .read d q => Sys2Proof.Machine.execRead d q s
  | .write d q => Sys2Proof.Machine.execWrite d q s
  | .addI32 d q => Sys2Proof.Machine.execAddI32 d q s
  | .addI64 d q => Sys2Proof.Machine.execAddI64 d q s
  | .addF32 d q => Sys2Proof.Machine.execAddF32 d q s
  | .message d q => Sys2Proof.Machine.execMessage d q s
  | .mgmt d q => Sys2Proof.Machine.execMgmt d q s
  | .controlResponseArrival d r => Sys2Proof.Machine.execControlResponseArrival d r s
  | .requestTimeout d tag => Sys2Proof.Machine.execRequestTimeout d tag s
  | .timeExchangeReceived d port epoch x arrival => Sys2Proof.Machine.execTimeExchangeReceived d port epoch x arrival s
  | .ptpSyncReceived oneStep id origin arrival => Sys2Proof.Machine.execPtpSyncReceived oneStep id origin arrival s
  | .ppsInEdge arrival => Sys2Proof.Machine.execPpsInEdge arrival s
  | .ppsOutSecond => Sys2Proof.Machine.execPpsOutSecond s
  | .reference10mChange present => Sys2Proof.Machine.execReference10mChange present s
  | .servoSourceLost => Sys2Proof.Machine.execServoSourceLost s
  | .set => Sys2Proof.Machine.execSet s
  | .stepAllow => Sys2Proof.Machine.execStepAllow s
  | .sourceWrite source => Sys2Proof.Machine.execSourceWrite source s
  | .snapshotArm d => Sys2Proof.Machine.execSnapshotArm d s
  | .snapshotTaken d => Sys2Proof.Machine.execSnapshotTaken d s
  | .ctxShadowDone e => Sys2Proof.Machine.execCtxShadowDone e s
  | .readClear r wide => Sys2Proof.Machine.execReadClear r wide s
  | .moduleNumWrite d v => Sys2Proof.Machine.execModuleNumWrite d v s
  | .registerWrite r wide v => Sys2Proof.Machine.execRegisterWrite r wide v s
  | .sqTailDoorbell r v descs => Sys2Proof.Machine.execSqTailDoorbell r v descs s
  | .cqHeadDoorbell r v => Sys2Proof.Machine.execCqHeadDoorbell r v s
  | .launchTimeReached r => Sys2Proof.Machine.execLaunchTimeReached r s
  | .ringCfgWrite r cq v => Sys2Proof.Machine.execRingCfgWrite r cq v s
  | .openContext r c => Sys2Proof.Machine.execOpenContext r c s
  | .openContextModify r c => Sys2Proof.Machine.execOpenContextModify r c s
  | .closeContext r c => Sys2Proof.Machine.execCloseContext r c s
  | .appendInput r c => Sys2Proof.Machine.execAppendInput r c s
  | .fetchResult r c => Sys2Proof.Machine.execFetchResult r c s
  | .loadWeightSet w => Sys2Proof.Machine.execLoadWeightSet w s
  | .unloadWeightSet w => Sys2Proof.Machine.execUnloadWeightSet w s
  | .roll w => Sys2Proof.Machine.execRoll w s
  | .rollComplete w => Sys2Proof.Machine.execRollComplete w s
  | .rollAbandon w => Sys2Proof.Machine.execRollAbandon w s
  | .rollBatchesDrained => Sys2Proof.Machine.execRollBatchesDrained s
  | .loadSchedule r c image => Sys2Proof.Machine.execLoadSchedule r c image s
  | .loadLinkWaitEnd => Sys2Proof.Machine.execLoadLinkWaitEnd s
  | .loadPortWaitEnd => Sys2Proof.Machine.execLoadPortWaitEnd s
  | .switchEpoch r c => Sys2Proof.Machine.execSwitchEpoch r c s
  | .snapshot r c => Sys2Proof.Machine.execSnapshot r c s
  | .setPowerState r c => Sys2Proof.Machine.execSetPowerState r c s
  | .readLog r c => Sys2Proof.Machine.execReadLog r c s
  | .readLogAttestation r c => Sys2Proof.Machine.execReadLogAttestation r c s
  | .bar2Read p off size => Sys2Proof.Machine.execBar2Read p off size s
  | .bar2Write p off size v => Sys2Proof.Machine.execBar2Write p off size v s
  | .perstAssert p => Sys2Proof.Machine.execPerstAssert p s
  | .hotReset p => Sys2Proof.Machine.execHotReset p s
  | .pcieLinkLoss p => Sys2Proof.Machine.execPcieLinkLoss p s
  | .functionLevelReset p => Sys2Proof.Machine.execFunctionLevelReset p s
  | .batchBoundary e => Sys2Proof.Machine.execBatchBoundary e s
  | .reservedSelection e => Sys2Proof.Machine.execReservedSelection e s
  | .slotEmit e entry => Sys2Proof.Machine.execSlotEmit e entry s
  | .inputRecordDmaDone e entry record => Sys2Proof.Machine.execInputRecordDmaDone e entry record s
  | .inputRecordDmaFailed e entry => Sys2Proof.Machine.execInputRecordDmaFailed e entry s
  | .resultArrival e h flits => Sys2Proof.Machine.execResultArrival e h flits s
  | .resultDmaFailed e h flits => Sys2Proof.Machine.execResultDmaFailed e h flits s
  | .memoryPacketArrival d h flits region => Sys2Proof.Machine.execMemoryPacketArrival d h flits region s
  | .transferPerformed d => Sys2Proof.Machine.execTransferPerformed d s
  | .lateTransferPerformed d => Sys2Proof.Machine.execLateTransferPerformed d s
  | .memoryDataEmission d => Sys2Proof.Machine.execMemoryDataEmission d s
  | .shardCheckStart d v => Sys2Proof.Machine.execShardCheckStart d v s
  | .shardCheckDone d => Sys2Proof.Machine.execShardCheckDone d s
  | .shardTimeout idx => Sys2Proof.Machine.execShardTimeout idx s
  | .redigest idx => Sys2Proof.Machine.execRedigest idx s
  | .inputPowerSample voltage current upSecond upCenti => Sys2Proof.Machine.execInputPowerSample voltage current upSecond upCenti s
  | .clampTrip => Sys2Proof.Machine.execClampTrip s
  | .inputLost => Sys2Proof.Machine.execInputLost s
  | .overvoltageTrip voltage => Sys2Proof.Machine.execOvervoltageTrip voltage s
  | .thermalWarning d sensor temp => Sys2Proof.Machine.execThermalWarning d sensor temp s
  | .thermalTrip d sensor temp => Sys2Proof.Machine.execThermalTrip d sensor temp s
  | .powerOnReset byPin => Sys2Proof.Machine.execPowerOnReset byPin s
  | .eDieStartTimeout e => Sys2Proof.Machine.execEDieStartTimeout e s
  | .firmwareWatchdogMiss => Sys2Proof.Machine.execFirmwareWatchdogMiss s
  | .modRstN lowNs => Sys2Proof.Machine.execModRstN lowNs s
  | .modReset key => Sys2Proof.Machine.execModReset key s
  | .dieReset d => Sys2Proof.Machine.execDieReset d s
  | .powerStateEntry => Sys2Proof.Machine.execPowerStateEntry s
  | .idleTimer => Sys2Proof.Machine.execIdleTimer s
  | .wakeN lowNs => Sys2Proof.Machine.execWakeN lowNs s
  | .wakePatternDetected port => Sys2Proof.Machine.execWakePatternDetected port s
  | .electricalIdleExit p => Sys2Proof.Machine.execElectricalIdleExit p s
  | .wakeSend e v => Sys2Proof.Machine.execWakeSend e v s
  | .restore => Sys2Proof.Machine.execRestore s
  | .latchedWakeRestore => Sys2Proof.Machine.execLatchedWakeRestore s
  | .restoreStepLate step => Sys2Proof.Machine.execRestoreStepLate step s
  | .firmwareUpdate p floor => Sys2Proof.Machine.execFirmwareUpdate p floor s
  | .firmwareRecovery p => Sys2Proof.Machine.execFirmwareRecovery p s
  | .getAttestation m => Sys2Proof.Machine.execGetAttestation m s
  | .getCertificate m => Sys2Proof.Machine.execGetCertificate m s
  | .spareCluster m => Sys2Proof.Machine.execSpareCluster m s
  | .mgmtSetPowerState m => Sys2Proof.Machine.execMgmtSetPowerState m s
  | .moduleReset m => Sys2Proof.Machine.execModuleReset m s
  | .mgmtReadLog m => Sys2Proof.Machine.execMgmtReadLog m s
  | .getStatus m => Sys2Proof.Machine.execGetStatus m s
  | .setSetting m => Sys2Proof.Machine.execSetSetting m s
  | .setEndpointId path eid => Sys2Proof.Machine.execSetEndpointId path eid s
  | .getEndpointId path => Sys2Proof.Machine.execGetEndpointId path s
  | .getEndpointUuid path => Sys2Proof.Machine.execGetEndpointUuid path s
  | .getMctpVersionSupport path msgType => Sys2Proof.Machine.execGetMctpVersionSupport path msgType s
  | .getMessageTypeSupport path => Sys2Proof.Machine.execGetMessageTypeSupport path s
  | .getVendorDefinedMessageSupport path selector => Sys2Proof.Machine.execGetVendorDefinedMessageSupport path selector s
  | .setdasa assign => Sys2Proof.Machine.execSetdasa assign s
  | .entdaa addr => Sys2Proof.Machine.execEntdaa addr s
  | .getTid path => Sys2Proof.Machine.execGetTid path s
  | .setTid path tid => Sys2Proof.Machine.execSetTid path tid s
  | .getPldmVersion path pldmType => Sys2Proof.Machine.execGetPldmVersion path pldmType s
  | .getPldmTypes path => Sys2Proof.Machine.execGetPldmTypes path s
  | .getPldmCommands path pldmType => Sys2Proof.Machine.execGetPldmCommands path pldmType s
  | .getSensorReading path sensor => Sys2Proof.Machine.execGetSensorReading path sensor s
  | .getStateSensorReadings path sensor => Sys2Proof.Machine.execGetStateSensorReadings path sensor s
  | .setStateEffecterStates path effecter state => Sys2Proof.Machine.execSetStateEffecterStates path effecter state s
  | .getStateEffecterStates path effecter => Sys2Proof.Machine.execGetStateEffecterStates path effecter s
  | .getPdrRepositoryInfo path => Sys2Proof.Machine.execGetPdrRepositoryInfo path s
  | .getPdr path record => Sys2Proof.Machine.execGetPdr path record s
  | .arpRequest target sender senderMac => Sys2Proof.Machine.execArpRequest target sender senderMac s
  | .icmpEcho v6 src payload => Sys2Proof.Machine.execIcmpEcho v6 src payload s
  | .neighbourDiscovery target src => Sys2Proof.Machine.execNeighbourDiscovery target src s
  | .releaseOfDieReset d => Sys2Proof.Machine.execReleaseOfDieReset d s
  | .pcieLinkUp p width => Sys2Proof.Machine.execPcieLinkUp p width s
  | .ptpFollowUpReceived id origin => Sys2Proof.Machine.execPtpFollowUpReceived id origin s
  | .ptpDelayRespReceived domain stamps => Sys2Proof.Machine.execPtpDelayRespReceived domain stamps s
  | .dhcpv4Reply addr => Sys2Proof.Machine.execDhcpv4Reply addr s
  | .routerAdvertisement pfx => Sys2Proof.Machine.execRouterAdvertisement pfx s
  | .firmwareProgrammingEnd ok => Sys2Proof.Machine.execFirmwareProgrammingEnd ok s
  | .ppsOutPulseEnd => Sys2Proof.Machine.execPpsOutPulseEnd s

end Sys2Proof.Machine
end

