-- ==== Sys2Proof/Safety.lean ====
section
/-! DEFINITION. What counts as a good state of the module, in the terms that claims use: the
invariants that every step keeps, and the conditions and frames of the claims about tile
instructions. -/

namespace Sys2Proof.Machine

/-! ## Invariants -/

/-- Every byte memory of a die has its canonical form: the memory behind its controller and the
SRAM of its tiles; its fault log holds at most 256 entries (R513), and a crossing queue at most 8
(R241). -/
def Die.sound (x : Die) : Prop :=
  Mem.wf x.mem.cells = true ∧ (∀ e ∈ x.tiles, Mem.wf e.2.sram = true) ∧ x.log.length ≤ 256
    ∧ ∀ e ∈ x.queues, e.2.length ≤ queueDepth

/-- Every die is sound, the recovery buffers have the canonical form, and the management core holds
at most 8 messages (R595). -/
def State.sound (s : State) : Prop :=
  (∀ e ∈ s.dies, e.2.sound) ∧ Mem.wf s.port0.recovery = true ∧ Mem.wf s.port1.recovery = true
    ∧ s.mgmt.queue.length ≤ 8

/-! ## Tile instructions -/

/-- A tile instruction: its tile, unit, operation and fields, its plan, and what its die does once it
has issued. -/
structure TileForm where
  ref : TileRef
  unit : Nat
  op : Nat
  f : Operands
  plan : State → Tile → Plan
  after : State → State

/-- The tile instructions of the table (R164, R201). -/
def tileForm (i : Instr) : Option TileForm :=
  match i with
  | .mxld t f => some ⟨t, 0, 0x01, f, planMxld f, id⟩
  | .mxmul t f => some ⟨t, 0, 0x02, f, planMxmul f, id⟩
  | .mxsparse t f => some ⟨t, 0, 0x03, f, planMxsparse f, id⟩
  | .mxacc t f => some ⟨t, 0, 0x04, f, planMxacc f, id⟩
  | .mxzero t f => some ⟨t, 0, 0x05, f, planMxzero f, id⟩
  | .mxrd t f => some ⟨t, 0, 0x06, f, planMxrd f, usedBySru (fld f 32 30)⟩
  | .vadd t f => some ⟨t, 1, 0x10, f, planVadd f, id⟩
  | .vaddI t f => some ⟨t, 1, 0x11, f, planVaddI f, id⟩
  | .vaddS t f => some ⟨t, 1, 0x12, f, planVaddS f, id⟩
  | .vmul t f => some ⟨t, 1, 0x14, f, planVmul f, id⟩
  | .vfma t f => some ⟨t, 1, 0x16, f, planVfma f, id⟩
  | .vmax t f => some ⟨t, 1, 0x18, f, planVmax f, id⟩
  | .vexp t f => some ⟨t, 1, 0x1C, f, planVexp f, id⟩
  | .vrcp t f => some ⟨t, 1, 0x1D, f, planVrcp f, id⟩
  | .vrsq t f => some ⟨t, 1, 0x1E, f, planVrsq f, id⟩
  | .vcvt t f => some ⟨t, 1, 0x20, f, planVcvt f, usedBySru (vRM f)⟩
  | .vsrnd t f => some ⟨t, 1, 0x21, f, planVsrnd f, usedBySru (vRM f)⟩
  | .vred t f => some ⟨t, 1, 0x28, f, planVred f, id⟩
  | .vsel t f => some ⟨t, 1, 0x30, f, planVsel f, id⟩
  | .vselCmp t f => some ⟨t, 1, 0x31, f, planVselCmp f, id⟩
  | .vselMov t f => some ⟨t, 1, 0x32, f, planVselMov f, id⟩
  | .loadv t f => some ⟨t, 2, 0x01, f, planLoadv f, id⟩
  | .storev t f => some ⟨t, 2, 0x02, f, planStorev f, id⟩
  | .send t f => some ⟨t, 2, 0x10, f, planSend f, id⟩
  | .sendm t f => some ⟨t, 2, 0x11, f, planSendm f, id⟩
  | .gather t f => some ⟨t, 2, 0x12, f, planGather f, id⟩
  | .land t f => some ⟨t, 2, 0x20, f, planLand f, id⟩
  | .hbmrd t f => some ⟨t, 2, 0x30, f, planHbmrd t.die.val f, id⟩
  | .hbmwr t f => some ⟨t, 2, 0x31, f, planHbmwr t.die.val f, id⟩
  | .nop t f => some ⟨t, 3, 0x00, f,
      fun _ _ => if f = 0 then .run { path := pathSq } else .invalid, id⟩
  | .loop t f => some ⟨t, 3, 0x01, f, planLoop f, id⟩
  | .br t f => some ⟨t, 3, 0x02, f, planBr f, id⟩
  | .waitbeat t f => some ⟨t, 3, 0x03, f,
      fun _ _ => if f = 0 then .run { path := pathSq, wait := true } else .invalid,
      (·.afterWait t.die.val t.tile.val)⟩
  | .holdchk t f => some ⟨t, 3, 0x04, f, planHoldchk f, id⟩
  | .fault t f => some ⟨t, 3, 0x05, f, planFault f, id⟩
  | .snap t f => some ⟨t, 3, 0x06, f, planSnap t.die.val (t.tile.val / 72) f, id⟩
  | _ => none

/-- The tile as the checks at issue find it: flag changes of earlier cycles made (R131). -/
def State.settledTile (s : State) (r : TileRef) : Tile := ((s.tile r).settle (s.tile r).now).1

/-- The tile with the word counted as issued (R98). -/
def State.issuingTile (s : State) (r : TileRef) : Tile := (s.settledTile r).count tIssued

/-- The instruction is the tile's next word, and nothing stands against its fetch: the tile may issue,
its budget is not used up, no overflow flag raises a fault, no step of an earlier instruction comes
due, and the word at PC has good check bits. -/
structure Fetches (s : State) (q : TileForm) : Prop where
  may : s.mayIssue q.ref.die.val q.ref.tile.val = true
  budget : (s.tile q.ref).words < (s.die q.ref.die.val).fill q.ref.die.val
  flags : ((s.tile q.ref).settle (s.tile q.ref).now).2 = none
  word : (s.tile q.ref).fetch = .word (tileWord q.unit q.op q.f) false
  flight : ∀ m ∈ (s.tile q.ref).flight, (s.tile q.ref).clk < m.due

/-- Moreover it acts: its plan is an action, no register that it reads has a pending write, its addresses lie in the
window, it meets no hazard, the bytes that it touches are ready and have good check bits, and its unit reports no
error. -/
structure Acts (s : State) (q : TileForm) (a : Act) : Prop extends Fetches s q where
  plan : q.plan (s.setTile q.ref (s.settledTile q.ref)) (s.settledTile q.ref) = .run a
  reads : a.reads.any ((s.tile q.ref).pendingOn (s.tile q.ref).clk) = false
  window : (a.window.all fun w => (s.tile q.ref).inWindow w.1 w.2) = true
  hazard : (s.issuingTile q.ref).hazard a = none
  noError : q.unit ∉ (s.tile q.ref).unitBad
  touch : ∀ w, a.touch = some w → (s.tile q.ref).unready w.1 w.2 = false
    ∧ wordsIn (s.tile q.ref).sramBad w.1 w.2 = 0 ∧ wordsIn (s.tile q.ref).sramWeak w.1 w.2 = 0

/-- The instruction is the next word of a tile that has nothing in flight, and its unit reports no error. -/
structure Quiet (s : State) (q : TileForm) : Prop where
  may : s.mayIssue q.ref.die.val q.ref.tile.val = true
  budget : (s.tile q.ref).words < (s.die q.ref.die.val).fill q.ref.die.val
  word : (s.tile q.ref).fetch = .word (tileWord q.unit q.op q.f) false
  flags : (s.tile q.ref).ovfPend = []
  flight : (s.tile q.ref).flight = []
  busy : (s.tile q.ref).busy = []
  paths : (s.tile q.ref).paths = []
  banks : (s.tile q.ref).banks = []
  store : (s.tile q.ref).store = none
  noError : q.unit ∉ (s.tile q.ref).unitBad

/-- A byte range of the tile may be read or written: it lies in the window (R82), no landing place in
it is unready (R112), and its words have good check bits (R59). -/
structure Tile.Usable (y : Tile) (a n : Nat) : Prop where
  window : y.inWindow a n = true
  ready : y.unready a n = false
  good : wordsIn y.sramBad a n = 0
  strong : wordsIn y.sramWeak a n = 0

/-- The word counters and the clock of a tile that has issued one word, from `y` to `z`. -/
structure Tile.Counted (y z : Tile) : Prop where
  words : z.words = y.words + 1
  clk : z.clk = y.clk + 1
  issued : z.counter tIssued = y.counter tIssued + 1
  others : ∀ off, off ≠ tIssued → z.counter off = y.counter off

/-- From `y` to `z` one word has issued, the next one follows in sequence (R220), and beside the
bookkeeping of paths, banks and pending results only the named registers have changed. -/
structure Tile.WroteOnly (y z : Tile) (wr : List (RegKind × Nat)) : Prop extends Tile.Counted y z where
  rest : z = { y with
    words := z.words, clk := z.clk, counters := z.counters, paths := z.paths, banks := z.banks
    busy := z.busy, pc := z.pc, loops := z.loops, v := z.v, a := z.a, s := z.s, p := z.p }
  regs : ∀ k i, (k, i) ∉ wr → z.readReg k i = y.readReg k i
  pc : z.pc = (y.sequence .seq).pc
  loops : z.loops = (y.sequence .seq).loops

/-- A lane-wise instruction: its form, the fields that must hold, whether B is an integer, and its result lane
from lanes of A, B and C. -/
structure LaneForm where
  q : TileForm
  good : Bool
  integer : Bool
  lane : State → Nat → W32 → W32 → W32 → W32

/-- How an instruction of R189 rounds element `n`. -/
def State.roundAt (s : State) (t : TileRef) (f : Operands) (n : Nat) : Round :=
  roundOf (vRM f) ((s.tile t).readScalar (vB f)) (s.tile t).bc s.fz n

/-- A VCVT word of the spec with wide code on one side and `code` on the other (R186, R187). -/
def cvtGood (f : Operands) (code : Nat) : Bool :=
  decide (code ≤ 0xA) && vRM f != 7 && vImm f / 16 % 32 == 0
    && decide (vImm f % 16 < slotsOf (fmtBits code)) && vBsel f == 0 && vMod f == 0 && seedGood f
    && (if fmtIsMx code then vD f != vC f else vImm f / 2 ^ 9 == 0 && vC f == 0)

/-- The lane-wise instructions of R184 and R185, VSRND, and VCVT to FP32 (R187, R188). -/
def laneForm (i : Instr) : Option LaneForm :=
  match i with
  | .vadd t f => some ⟨⟨t, 1, 0x10, f, planVadd f, id⟩, vC f == 0 && noConvert f && bGood f, false,
      fun _ _ a b _ => fpAdd (vMod1 f) (vMod0 f) a b⟩
  | .vaddI t f => some ⟨⟨t, 1, 0x11, f, planVaddI f, id⟩, vC f == 0 && noConvert f && bGood f, true,
      fun _ _ a b _ => (if vMod1 f then -a else a) + (if vMod0 f then -b else b)⟩
  | .vmul t f => some ⟨⟨t, 1, 0x14, f, planVmul f, id⟩, vC f == 0 && noConvert f && bGood f && vMod f == 0,
      false, fun _ _ a b _ => fpMul a b⟩
  | .vfma t f => some ⟨⟨t, 1, 0x16, f, planVfma f, id⟩, noConvert f && bGood f, false,
      fun _ _ a b c => fpFma (vMod0 f) (vMod1 f) a b c⟩
  | .vmax t f => some ⟨⟨t, 1, 0x18, f, planVmax f, id⟩, vC f == 0 && noConvert f && bGood f && !vMod1 f,
      false, fun _ _ a b _ => fpMax (vMod0 f) a b⟩
  | .vexp t f => some ⟨⟨t, 1, 0x1C, f, planVexp f, id⟩, functionFieldsGood f, false,
      fun s _ a _ _ => vexpOf s.fwVersion (vMod0 f) a⟩
  | .vrcp t f => some ⟨⟨t, 1, 0x1D, f, planVrcp f, id⟩, functionFieldsGood f && !vMod0 f, false,
      fun s _ a _ _ => vrcpOf s.fwVersion a⟩
  | .vrsq t f => some ⟨⟨t, 1, 0x1E, f, planVrsq f, id⟩, functionFieldsGood f && !vMod0 f, false,
      fun s _ a _ _ => vrsqOf s.fwVersion a⟩
  | .vsrnd t f => some ⟨⟨t, 1, 0x21, f, planVsrnd f, usedBySru (vRM f)⟩,
      vSF f == 0 && vC f == 0 && vImm f == 0 && vBsel f == 0 && vMod f == 0 && decide (vDF f ≤ 0xA) && vRM f != 7
        && seedGood f, false,
      fun s n a _ _ => toFP32 .rne (decodeCode (vDF f) (convertCode (vDF f) (s.roundAt t f n) (ofFP32 a)))⟩
  | .vcvt t f => some ⟨⟨t, 1, 0x20, f, planVcvt f, usedBySru (vRM f)⟩,
      cvtGood f (vSF f) && vSF f != 0xB && vDF f == 0xB, false,
      fun s n _ _ _ => toFP32 (s.roundAt t f n)
        (scaled (decodeCode (vSF f) (element ((s.tile t).readV (vA f)).toNat (fmtBits (vSF f)) (32 * (vImm f % 16) + n)))
          (scaleOf (vSF f) (byteOf ((s.tile t).readV (vC f)).toNat (vImm f / 2 ^ 9))) (some 0))⟩
  | _ => none

/-- The register that a scalar code names for writing (R181). -/
def scalarReg (c : Nat) : RegKind × Nat := if c < 0x10 then (.a, c) else (.s, c - 0x10)

/-- The steps that a send leaves in flight, each in its cycle. -/
def sendFlight (y : Tile) (f : Operands) (copies : Nat) (src : Nat → FlitSrc) : List InFlight :=
  ((List.range copies).flatMap fun c =>
    sendSteps (c * (mLEN f + 2)) (mvDesc y f c) (isNull y f) (mLEN f) y.bc src).map fun m => ⟨y.clk + m.1, y.pc, m.2⟩

/-- What stays as it was when a tile only moves on. -/
def Tile.OnlyMoved (y z : Tile) : Prop :=
  y.Counted z ∧ (∀ k i, z.readReg k i = y.readReg k i) ∧ z.sram = y.sram ∧ z.land = y.land ∧ z.acc = y.acc
    ∧ z.wbase = y.wbase ∧ z.wb0 = y.wb0 ∧ z.wb1 = y.wb1 ∧ z.ovf = y.ovf ∧ z.istore = y.istore ∧ z.bc = y.bc
    ∧ z.state = y.state

/-- Only one die of the module, and what the model keeps of its own, the count of free values used and the clock readings
seen (log 1, log 2), has changed. -/
structure State.SameBut (s t : State) (d : Nat) : Prop where
  dies : ∀ e, e ≠ d → t.die e = s.die e
  rest : t = { s with dies := t.dies, fz := t.fz, ticks := t.ticks }

/-- An armed action: no action is armed, its time lies at least 1 ms ahead, it fits the state of the die, and the
tables of its bank are valid. -/
structure State.MayArm (s : State) (d action : Nat) (target : Bool) : Prop where
  free : (s.die d).armed = none
  ahead : s.nowNs d + 1000000 ≤ ((s.die d).reg d rEpochSec).toNat * second + (s.die d).field d rEpochNs 29 0
  start : action = 1 → (s.die d).jobOn d = false ∧ (s.die d).stopped = false
    ∧ ∀ t ∈ (s.die d).tilesInUse d, ((s.die d).tile t).state ≠ .stopped ∧ ((s.die d).tile t).state ≠ .faulted
  running : action ≠ 1 → (s.die d).jobOn d = true
  bank : action ≠ 3 → ∀ t ∈ (s.die d).tilesInUse d, ((s.die d).tile t).validBank target = true
  other : action = 2 → target ≠ (s.die d).bank

/-- What a die is after it has stopped. -/
structure Die.Halted (x : Die) (d : Nat) : Prop where
  stopped : x.stopped = true
  job : x.jobOn d = false
  armed : x.armed = none
  hold : x.hold.slot = none ∧ x.hold.left = none
  queues : x.queues = []
  relay : x.relay = []
  tiles : ∀ t y, tget x.tiles t = some y → y.state = .stopped ∨ y.state = .faulted

/-- A control field that passes its CHECK and carries no acknowledgement and no credits. -/
structure PlainField (fabric : Bool) (v : BitVec 116) : Prop where
  check : fieldGood fabric v = true
  ack : bitOf v 48 = false
  nak : bitOf v 49 = false
  credit0 : bitsOf v 65 62 = 15
  credit1 : bitsOf v 81 78 = 15

/-- From `s` to `t` link `p` of die `d`, which holds no control packets, has lost all that it held and is in phase 0
and in state `st`; what it discarded is counted. -/
structure State.LinkGone (s t : State) (d p st : Nat) : Prop extends State.SameBut s t d where
  link : (t.die d).link p = Link.reset
  state : (t.die d).linkState d p = st ∧ (t.die d).linkPhase d p = 0
  count : tgetD (t.die d).regs (rLink + 0x200 * p + lDiscarded) 0
    = tgetD (s.die d).regs (rLink + 0x200 * p + lDiscarded) 0 + BitVec.ofNat 64 ((s.die d).link p).discarded
  others : ∀ q, q ≠ p → (t.die d).link q = (s.die d).link q
  tiles : (t.die d).tiles = (s.die d).tiles

/-- The link holds no request and no queued control packet, and no job runs on its die. -/
structure Die.Free (x : Die) (d p : Nat) : Prop where
  reset : x.inReset = false
  port : hasPort d p = true
  job : x.jobOn d = false
  requests : ((heldControl (x.link p)).filter fun q => cpRequest (cpHeader q)) = []
  queued : (x.link p).ctl = []
  whole : (x.link p).cut = none

/-- The command that performs a request. -/
def CpOp.command (op : CpOp) (d : DieId) (q : Request) : Instr :=
  match op with
  | .read => .read d q
  | .write => .write d q
  | .addI32 => .addI32 d q
  | .addI64 => .addI64 d q
  | .addF32 => .addF32 d q

/-- The request that a host access through the fabric window sends: its address is that of FAB_WIN and the offset. -/
def windowRequest (s : State) (p : Fin 2) (off size : Nat) (v : Option W64) : ControlPacket :=
  let addr := ((s.port p).reg bFabWin).toNat + off
  let x := s.die (32 + p.val)
  cpPacket { dst := addr / 2 ^ 48, src := s.dieNumber (32 + p.val), tc := 1
             epoch := x.field (32 + p.val) rCpCtrl 0 0, dlen := if v.isSome then 1 else 0
             opcode := if v.isSome then 0x02 else 0x01, tag := x.nextTag.toNat, length := size, addr := addr }
    (match v with
      | some w => bytesFlits (leBytes w.toNat size) 1
      | none => [])

/-- A sample inside the jump limit, while the servo is in ACQUIRING or LOCKED: acc and adj follow it by KI, KP and
their limits, and TIME_SERVO_OFFSET shows it; one beyond the limit without permission is refused, and the servo is in
HOLDOVER. -/
def State.Sampled (s t : State) (theta : Int) : Prop :=
  let x := s.die 32
  let acc := clampInt (-50000 * 4096) (50000 * 4096) (s.servo.acc + theta * (x.field 32 rServoGain 15 0 : Nat))
  ((theta.natAbs ≤ 16 * x.field 32 rJump 15 0 → t.servo.acc = acc
      ∧ t.servo.adj = clampInt (-((min (x.field 32 rServoCtrl 15 0) 50000 : Nat) * 4096))
          ((min (x.field 32 rServoCtrl 15 0) 50000 : Nat) * 4096) (acc + theta * (x.field 32 rServoGain 31 16 : Nat))
      ∧ (t.die 32).reg 32 rServoOffset = BitVec.ofNat 64 (BitVec.ofInt 32 theta).toNat
      ∧ tgetD (t.die 32).regs rServoUpdates 0 = tgetD x.regs rServoUpdates 0 + 1)
    ∧ (16 * x.field 32 rJump 15 0 < theta.natAbs → s.servo.stepAllow = false → t.servoState = svHoldover
      ∧ (t.die 32).bit 32 rServoStatus 29 = true
      ∧ tgetD (t.die 32).regs rStepsRefused 0 = tgetD x.regs rStepsRefused 0 + 1
      ∧ t.servo.acc = s.servo.acc)
    ∧ (theta.natAbs ≤ 16 * x.field 32 rJump 15 0 ∨ s.servo.stepAllow = false →
      (∀ e, e ≠ 32 → t.die e = s.die e) ∧ ∀ e, (t.die e).timeNs = (s.die e).timeNs))

/-- Registers with no effect beside what they store, that every die has. -/
def plainRegs : List Nat := [rHoldTimeout, rEpochSec, rEpochNs, rSnapSec, rSnapNs]

/-- The command as it is taken from the list of waiting descriptors. -/
def State.cmdOf (s : State) (r : RingRef) (c : Desc) : CmdRef := (s.takeCmd r c).2

/-- A command on a context completes with status 0: the context's record becomes `z`, its copy in memory follows at once
where its state changes and else waits for the next batch boundary, every other context and every other die keeps its
value, and the descriptor no longer waits. -/
def State.CtxDone (s : State) (i : Instr) (r : RingRef) (c : Desc) (z : Ctx) : Prop :=
  let e := 32 + c.context.toNat % 2 ^ 18 / 32768
  let n := c.context.toNat % 2 ^ 18 % 32768
  ∃ u : State, exec i s = .next (u.complete (s.cmdOf r c) 0 (context := c.context))
    ∧ (u.die e).ctx.ctx n = z ∧ (∀ k, k ≠ n → (u.die e).ctx.ctx k = (s.die e).ctx.ctx k)
    ∧ (if z.state = ((s.die e).ctx.ctx n).state then
        (u.die e).mem.cells = (s.die e).mem.cells ∧ n ∈ (u.die e).ctx.dirty
      else (u.die e).mem.cells = Mem.writeBytes (s.die e).mem.cells (regionOff e 1 + 256 * n) z.bytes)
    ∧ (∀ d, d ≠ e → u.die d = s.die d) ∧ u.port0 = s.port0 ∧ u.port1 = s.port1
    ∧ u.taken = removeFirst (fun t => t.isCmd r c) s.taken

/-- A weight command is ready: its fields are clean, none of its opcode runs, its manifest may be read and is good. -/
structure State.WeightReady (s : State) (w : WeightCmd) (roll : Bool) (m : Manifest) : Prop where
  ready : s.ready w.ring w.desc = true
  clean : weightClean w.desc roll = true
  entering : s.entering = false
  free : (if roll then s.rollBusy w.desc else s.weights.loading.isSome) = false
  dma : (s.port w.ring.port).dmaAllowed (cArg w.desc 0x18 8) (cArg w.desc 0x20 4) = true
  manifest : ∃ bs, w.manifest = .bytes bs ∧ parseManifest (bs.take (cArg w.desc 0x20 4)) = some m

/-- The set that a command's manifest makes of this module's shards. -/
def State.setOf (s : State) (w : WeightCmd) (m : Manifest) : WeightSet := m.set (weightPlace w.desc) (s.moduleNum 32)

/-- A roll may go on: its set is resident in the manifest's slot, no load of it runs and no shard is refused. -/
structure State.RollReady (s : State) (w : WeightCmd) (m : Manifest) (b : WeightSet) : Prop
    extends State.WeightReady s w true m where
  loading : (s.weights.loading.any fun j => sameSet j.set (s.setOf w m)) = false
  find : s.weights.find (s.setOf w m) = some b
  slot : s.slotTaken m = false ∧ b.slot = m.slot
  shards : s.badShard m (weightPlace w.desc) = none

/-- An E-die not in reset, in a job beat, with a batch schedule. -/
structure State.Batching (s : State) (d : Nat) (b : BatchSched) : Prop where
  reset : (s.die d).inReset = false
  beat : (s.die d).inJobBeat d = true
  sched : (s.die d).batchSched = some b

/-- From `s` to `t` slot `n` of an E-die and the record of its context `c` have changed. -/
structure State.SlotDone (s t : State) (d n c : Nat) (y : Ctx) (sl : SlotState) : Prop where
  ctx : (t.die d).ctx.ctx c = y
  slot : (t.die d).ctx.slot n = some sl
  slots : ∀ k, k ≠ n → (t.die d).ctx.slot k = (s.die d).ctx.slot k
  ctxs : ∀ k, k ≠ c → (t.die d).ctx.ctx k = (s.die d).ctx.ctx k
  dies : ∀ e, e ≠ d → t.die e = s.die e

/-- A transfer of one part that the controller performs next: due in this beat, first in its order, within the capacity
that is left and outside blackout. -/
structure State.Performs (s : State) (d : Nat) (t : Xfer) (late : Bool) : Prop where
  reset : (s.die d).inReset = false
  job : (s.die d).jobOn d = true
  beat : late = false → (s.die d).hold.slot = none ∧ t.beat = (s.die d).beatNow
    ∧ (s.die d).canPerform d (s.fixXfer d t) (memCapacity d - (s.die d).memUsed) = true
  first : ((s.die d).mem.xfers.find? fun a =>
      if late then a.late && (s.die d).canPerform d a ((s.die d).memLeft d) && !(s.die d).xferBlocked a
      else !a.late && decide (a.beat ≤ (s.die d).beatNow)) = some t
  unblocked : (s.die d).xferBlocked t = false
  whole : t.part d = t.units

/-- Every rail is down: all dies are in reset with empty memory, nothing is taken, and the flash is kept. -/
structure State.AllDown (s t : State) (r : Rails) : Prop where
  rails : t.germ.rails = r ∧ t.germ.move = .none
  dies : ∀ d, d < 40 → (t.die d).inReset = true ∧ (t.die d).mem.cells = [] ∧ (t.die d).tiles = []
  commands : t.taken = [] ∧ t.load = none ∧ t.weights = State.reset.weights
  flash : t.boot.flash.factory = s.boot.flash.factory ∧ t.boot.flash.banks = s.boot.flash.banks
    ∧ t.boot.flash.slot = s.boot.flash.slot

/-- The module right after a power-on reset with this LAST_RESET. -/
structure State.PoweredOn (t : State) (last : Nat) : Prop where
  rails : t.germ.rails = .on ∧ t.germ.move = .none ∧ t.pst = 0
  core : (t.die 32).inReset = false
  dies : ∀ d, d < 40 → d ≠ 32 → (t.die d).inReset = true ∧ (t.die d).mem.cells = []
  commands : t.taken = [] ∧ t.load = none ∧ t.placed0 = none ∧ t.placed1 = none
  last : (t.die 32).field 32 rPwrStatus 22 20 = last
  boot : t.bootState = 1 ∨ t.bootState = 3 ∨ t.bootState = 5

/-- What a warm reset of the module leaves: the rails are on and stay, the C-dies keep memory and log. -/
structure State.Restarted (s t : State) (last : Nat) : Prop where
  rails : t.germ.rails = s.germ.rails ∧ t.germ.move = .none ∧ t.pst = 0
  core : (t.die 32).inReset = false
  dies : ∀ d, d < 40 → d ≠ 32 → (t.die d).inReset = true
  kept : ∀ d, d < 32 → (t.die d).mem.cells = (s.die d).mem.cells ∧ (t.die d).log = (s.die d).log
  commands : t.taken = [] ∧ t.load = none ∧ t.placed0 = none ∧ t.placed1 = none
  last : (t.die 32).field 32 rPwrStatus 22 20 = last
  count : tgetD (t.die 32).regs rWarmResets 0 = tgetD (s.die 32).regs rWarmResets 0 + 1

/-- The command is the event of wake source `k`, which the module takes notice of now. -/
def State.WakeSource (s : State) (i : Instr) (k : Nat) : Prop :=
  (∃ n, i = .wakeN n ∧ 1000 ≤ n ∧ s.germ.rails = .on ∧ k = 3)
    ∨ (∃ p : Fin 16, i = .wakePatternDetected p ∧ s.asleep = true ∧ k = 16 + p.val)
    ∨ ∃ p : Fin 2, i = .electricalIdleExit p ∧ s.asleep = true ∧ k = p.val

/-- A management message is served: its path brings it to the endpoint, fits it and allows the command; it is the first of
the queue, with `q` the control packet that carries it and `u` the module without it, or the queue is empty and it comes
by another path than the control plane (R595). -/
def State.Serves (s : State) (c : Byte) (m : MgmtMsg) (q : Option Request) (u : State) : Prop :=
  s.hears m.path = true ∧ messageFits m = true ∧ s.ethRefuses c m.path = false
    ∧ ((m.path ≠ .control ∧ s.mgmt.queue = [] ∧ q = none ∧ u = s)
      ∨ ∃ (h : MgmtReq) (hs : List MgmtReq), s.mgmt.queue = h :: hs ∧ h.command = c ∧ h.msg = m ∧ q = h.packet
          ∧ u = { s with mgmt := { s.mgmt with queue := hs } })

/-- The commands that carry a message of Oaval's own type, with the command byte. -/
def mgmtForm : Instr → Option (Byte × MgmtMsg)
  | .getAttestation m => some (0x01, m)
  | .getCertificate m => some (0x02, m)
  | .spareCluster m => some (0x10, m)
  | .mgmtSetPowerState m => some (0x20, m)
  | .moduleReset m => some (0x21, m)
  | .mgmtReadLog m => some (0x30, m)
  | .getStatus m => some (0x31, m)
  | .setSetting m => some (0x40, m)
  | _ => none

end Sys2Proof.Machine
end

