-- ==== Sys2Proof/WellFormed.lean ====
section
/-! DEFINITION. Well-formed commands: the bounds that the spec puts on what a command carries. -/

namespace Sys2Proof

/-- Sixteenths of a nanosecond lie below one second (R492). -/
def Stamp.good (t : Stamp) : Bool := decide (t.sixteenths < 16000000000)

/-- A request carries at most 256 bytes and 16 route entries (R378, R380). -/
def Request.good (q : Request) : Bool :=
  decide (q.length ≤ 256) && decide (q.data.length ≤ 256) && decide (q.rrlen.toNat ≤ 16)

/-- A response carries at most 256 bytes (R380). -/
def Response.good (r : Response) : Bool := decide (r.data.length ≤ 256)

/-- A control packet is a header and at most four data flits, no more than DLEN says: of one that is
passed on while it arrives, the flits that have arrived (R377, R378, R389). -/
def ControlPacket.good (p : ControlPacket) : Bool :=
  decide (p.data.length ≤ 4) && decide (p.data.length ≤ p.header.toNat / 2 ^ 390 % 8)

/-- The frame of a fabric port has 58,032 bits (R345). -/
def RxFrame.good (f : RxFrame) (port : Fin 32) : Bool :=
  decide (port.val < 16) || decide (f.bits.toNat < 2 ^ 58032)

/-- The four stamps of a measurement are stamps. -/
def Measure.good (m : Measure) : Bool :=
  m.start.good && m.decoded.good && m.farStart.good && m.farDecoded.good

/-- Phase 4 tells the twelve credit counts, and phase 5 takes 64 measurements (R366, R387). -/
def PhaseResult.good (r : PhaseResult) : Bool :=
  match r with
  | .exchange far => far.credits.length == 12
  | .measure ms => ms.length == 64 && ms.all (·.good)
  | _ => true

/-- A PCIe access has a size of at least one byte and stays in BAR2 (R455, R456). -/
def bar2Good (off : BitVec 28) (size : Nat) : Bool :=
  decide (1 ≤ size) && decide (off.toNat + size ≤ 2 ^ 28)

/-- A packet has 1 to 64 flits (R316). -/
def packetGood (flits : List Flit) : Bool := decide (1 ≤ flits.length) && decide (flits.length ≤ 64)

/-- A management body with its four bytes of header fits a UDP datagram of 1,400 bytes (R593). -/
def MgmtMsg.good (m : MgmtMsg) : Bool := decide (m.args.length ≤ 1396)

/-- The register that a command names lies at a multiple of its width (R18). -/
def RegTarget.aligned (r : RegTarget) (wide : Bool) : Bool :=
  let off := match r with
    | .die _ o => o.toNat
    | .tile _ o => o.toNat
    | .bar0 _ o => o.toNat
  off % (if wide then 8 else 4) == 0

/-- The command keeps the bounds of the spec. -/
def Instr.wf (i : Instr) : Bool :=
  match i with
  | .frameReceived _ p f => f.good p
  | .trainingPhaseComplete _ _ r => r.good
  | .maintenanceBeat _ m => m.delays.all (·.2.good)
  | .controlPacketArrival _ _ p => p.good
  | .read _ q | .write _ q | .addI32 _ q | .addI64 _ q | .addF32 _ q | .message _ q | .mgmt _ q => q.good
  | .controlResponseArrival _ r => r.good
  | .timeExchangeReceived _ _ _ _ t => t.good
  | .ptpSyncReceived _ _ o a => o.good && a.good
  | .ppsInEdge a => a.good
  | .ptpFollowUpReceived _ o => o.good
  | .ptpDelayRespReceived _ x => x.reqTx.good && x.reqRx.good
  | .readClear r wide | .registerWrite r wide _ => r.aligned wide
  | .bar2Read _ off size | .bar2Write _ off size _ => bar2Good off size
  | .inputRecordDmaDone _ _ fs => packetGood fs
  | .resultArrival _ _ fs | .resultDmaFailed _ _ fs => packetGood fs
  | .memoryPacketArrival _ _ fs _ => packetGood fs
  | .sqTailDoorbell _ _ ds => decide (ds.length ≤ 65536)
  | .getAttestation m | .getCertificate m | .spareCluster m | .mgmtSetPowerState m | .moduleReset m
  | .mgmtReadLog m | .getStatus m | .setSetting m => m.good
  | .setdasa a => decide (a.addr ≠ 0)
  | .entdaa a => decide (a ≠ 0)
  | _ => true

end Sys2Proof
end

