-- ==== Sys2Proof/Certificates/Slice0/Obligations.lean ====
section
/-! DEFINITION. The statements about the module, for the provers. A statement whose conclusion is that a command
answers a next state says which command completes, where, and with what. -/

open Sys2Proof Sys2Proof.Machine

/-! ## The machine -/

/-- A step takes the command at the front of the queue and performs it on the state with the rest of the queue. With
nothing queued a step changes nothing (the model's choice, log 15). -/
def Obligations.StepRunsFrontCommand : Prop :=
  (∀ (c : Instr) (cs : List Instr) (s : State), s.pending = c :: cs → step s = exec c { s with pending := cs })
  ∧ (∀ s : State, s.pending = [] → step s = .next s)

/-- The invariants hold of the state right after reset. -/
def Obligations.ResetStateIsSound : Prop :=
  State.reset.sound

/-- Every step keeps the invariants: canonical memories, logs of at most 256 entries, crossing queues of at most 8
flits, and at most 8 queued messages. -/
def Obligations.StepKeepsSoundness : Prop :=
  ∀ s t : State, s.sound → step s = .next t → t.sound

/-- No command touches the queue of commands. -/
def Obligations.CommandsLeaveTheQueue : Prop :=
  ∀ (c : Instr) (s t : State), exec c s = .next t → t.pending = s.pending

/-! ## Tile instructions: issue -/

/-- A tile instruction that is the tile's next word, whose plan is an action inside the window and without a hazard,
completes: the line of a STOREV before it is written, the tile becomes what the action makes of it, a hold is raised if
the action says so, and nothing else of the module changes but what follows the issue. -/
def Obligations.TileInstructionCompletes : Prop :=
  ∀ (i : Instr) (q : TileForm) (s : State) (a : Act) (y z : Tile),
    tileForm i = some q → Acts s q a → (s.issuingTile q.ref).writeStore = some y → y.act a = some z →
    exec i s = .next (q.after (match a.hold with
      | none => s.setTile q.ref z
      | some c => (s.setTile q.ref z).raiseFor q.ref.die.val z.bc c))

/-- A tile instruction that reads a register with a pending write is undefined, whatever addresses its value gives
(R108); one whose addresses lie in the window and that issues with another hazard is undefined: its path is occupied
(R110), an SRAM bank is used twice in a cycle (R111), or a WAITBEAT comes before what is in flight has ended (R163). -/
def Obligations.HazardStops : Prop :=
  ∀ (i : Instr) (q : TileForm) (s : State) (a : Act) (n : Nat),
    tileForm i = some q → Fetches s q →
    q.plan (s.setTile q.ref (s.settledTile q.ref)) (s.settledTile q.ref) = .run a →
    (a.reads.any ((s.tile q.ref).pendingOn (s.tile q.ref).clk) = true → exec i s = .fault (.undefinedCase 108))
    ∧ (a.reads.any ((s.tile q.ref).pendingOn (s.tile q.ref).clk) = false →
      (a.window.all fun w => (s.tile q.ref).inWindow w.1 w.2) = true →
      (s.issuingTile q.ref).hazard a = some n → exec i s = .fault (.undefinedCase n))

/-- An invalid encoding: the tile is FAULTED and records KIND 0x02 with its PC, bank, unit and beat, the word counts as
issued, and the die stops. The budget of the beat is used up without a WAITBEAT: the next word does not issue, the
tile is FAULTED with KIND 0x02, and the die stops.
Commands that complete here: FILL_BUDGET_EXHAUSTED. -/
def Obligations.TileFaultsStopTheDie : Prop :=
  (∀ (i : Instr) (q : TileForm) (s : State), tileForm i = some q → Fetches s q →
    bitOf (s.tile q.ref).faultInfo 31 = false → (s.die q.ref.die.val).stopped = false →
    q.plan (s.setTile q.ref (s.settledTile q.ref)) (s.settledTile q.ref) = .invalid →
    ∃ t, exec i s = .next t ∧ (t.tile q.ref).state = .faulted
      ∧ (t.tile q.ref).faultInfo = faultInfoWord 0x02 (s.tile q.ref).pc.toNat (s.tile q.ref).bank q.unit 0
      ∧ (t.tile q.ref).faultBeat = (s.tile q.ref).bc.setWidth 64
      ∧ (t.tile q.ref).counter tIssued = (s.tile q.ref).counter tIssued + 1
      ∧ (t.die q.ref.die.val).stopped = true
      ∧ (t.die q.ref.die.val).jobOn q.ref.die.val = false)
  ∧ (∀ (r : TileRef) (s : State), s.mayIssue r.die.val r.tile.val = true →
    (s.die r.die.val).fill r.die.val ≤ (s.tile r).words →
    ((s.tile r).settle (s.tile r).now).2 = none → (∀ m ∈ (s.tile r).flight, (s.tile r).clk < m.due) →
    bitOf (s.tile r).faultInfo 31 = false → (s.die r.die.val).stopped = false →
    ∃ t, exec (.fillBudgetExhausted r) s = .next t ∧ (t.tile r).state = .faulted
      ∧ (t.tile r).faultInfo = faultInfoWord 0x02 (s.tile r).pc.toNat (s.tile r).bank 3 0
      ∧ (t.tile r).counter tIssued = (s.tile r).counter tIssued
      ∧ (t.die r.die.val).stopped = true)

/-! ## Vector instructions -/

/-- P0 reads as all ones, and a result for it is discarded. -/
def Obligations.PredicateZeroIsConstant : Prop :=
  ∀ (y : Tile) (w : Wr), y.readP 0 = 0xFFFFFFFF ∧ (w.kind = .p → w.idx = 0 → y.write w = y)

/-- VADD, VADD.I, VMUL, VFMA, VMAX, VEXP, VRCP, VRSQ, VSRND and VCVT to FP32 write their result to the lanes of V[D]
whose bit of P[PM] is 1; every other lane and every other register keeps its value, and nothing else changes but the
count of free values that SRU rounding uses.
Commands that complete here: VADD, VADD_I, VMUL, VFMA, VMAX, VEXP, VRCP, VRSQ, VCVT, VSRND. -/
def Obligations.LaneWiseInstructionsWriteSelectedLanes : Prop :=
  ∀ (i : Instr) (l : LaneForm) (s : State), laneForm i = some l → Quiet s l.q →
    l.good = true →
    ∃ z, exec i s = .next (l.q.after (s.setTile l.q.ref z)) ∧ (s.tile l.q.ref).WroteOnly z [(.v, vD l.q.f)]
      ∧ ∀ n, n < 32 → lane (z.readV (vD l.q.f)) n =
          if ((s.tile l.q.ref).readP (vPM l.q.f)).getLsbD n then
            l.lane s n (lane ((s.tile l.q.ref).readV (vA l.q.f)) n)
              ((s.tile l.q.ref).bOperand l.q.f l.integer (vImm l.q.f) n)
              (lane ((s.tile l.q.ref).readV (vC l.q.f)) n)
          else lane ((s.tile l.q.ref).readV (vD l.q.f)) n

/-- VSEL takes lanes of A where P[PM] is 1 and of B elsewhere; VSEL.CMP sets P[D] to the comparison where P[PM] is 1 and
to 0 elsewhere, and with D = 0 its result is discarded. VADD.S and the four moves of VSEL.MOV: a lane to a scalar, a
scalar to a lane, a scalar to every selected lane, and an immediate to a scalar. VCVT from FP32 writes the codes of
its elements to their slot of V[D]: to a plain format those whose bit of P[PM] is 1, to a block format all of them,
with the scale in a byte of V[C]; every other element and byte keeps its value. VRED writes lane 0 of V[D] with the
sum, or the maximum, of the lanes that P[PM] selects, in the fixed tree; lanes that it does not select enter as +0,
or as minus infinity; the other lanes of V[D] keep their values.
Commands that complete here: VADD_S, VCVT, VRED, VSEL, VSEL_CMP, VSEL_MOV. -/
def Obligations.SelectsMovesConversionsAndReductions : Prop :=
  ((∀ (r : TileRef) (f : Operands) (s : State), Quiet s ⟨r, 1, 0x30, f, planVsel f, id⟩ →
    vC f = 0 → noConvert f = true → bGood f = true → vMod1 f = false → (vMod0 f = true → vBsel f = 2) →
    ∃ z, exec (.vsel r f) s = .next (s.setTile r z) ∧ (s.tile r).WroteOnly z [(.v, vD f)]
      ∧ ∀ n, n < 32 → lane (z.readV (vD f)) n =
          if ((s.tile r).readP (vPM f)).getLsbD n then lane ((s.tile r).readV (vA f)) n
          else (s.tile r).bOperand f (vMod0 f) (vImm f) n)
  ∧ ∀ (r : TileRef) (f : Operands) (s : State), Quiet s ⟨r, 1, 0x31, f, planVselCmp f, id⟩ →
    vC f = 0 → noConvert f = true → vMod1 f = false → vD f < 8 → (vMod0 f = true → vImm f % 8 < 6) →
    (match vBsel f with
      | 0 => vImm f < 8
      | 1 => scalarReadable (vB f) = true ∧ vImm f < 8
      | 2 => vB f = 0
      | _ => False) →
    ∃ z, exec (.vselCmp r f) s = .next (s.setTile r z) ∧ (s.tile r).WroteOnly z [(.p, vD f)]
      ∧ (vD f ≠ 0 → ∀ n, n < 32 → (z.readP (vD f)).getLsbD n =
          (((s.tile r).readP (vPM f)).getLsbD n
            && (if vMod0 f then cmpInt else cmpFp) (vImm f % 8) (lane ((s.tile r).readV (vA f)) n)
                ((s.tile r).bOperand f (vMod0 f) (vImm f / 8 * 8) n))))
  ∧ ((∀ (r : TileRef) (f : Operands) (s : State), Quiet s ⟨r, 1, 0x12, f, planVaddS f, id⟩ →
    vPM f = 0 → vC f = 0 → noConvert f = true → bGood f = true → vBsel f ≠ 0 → scalarWritable (vD f) = true →
    scalarReadable (vA f) = true →
    ∃ z, exec (.vaddS r f) s = .next (s.setTile r z) ∧ (s.tile r).WroteOnly z [scalarReg (vD f)]
      ∧ z.readScalar (vD f) =
          (if vMod1 f then -(s.tile r).readScalar (vA f) else (s.tile r).readScalar (vA f))
            + (if vMod0 f then -(s.tile r).bOperand f true (vImm f) 0
               else (s.tile r).bOperand f true (vImm f) 0))
  ∧ ∀ (r : TileRef) (f : Operands) (s : State), Quiet s ⟨r, 1, 0x32, f, planVselMov f, id⟩ → fld f 40 18 = 0 →
    (vMod f = 0 → vPM f = 0 → vImm f < 32 → scalarWritable (vD f) = true →
      ∃ z, exec (.vselMov r f) s = .next (s.setTile r z)
        ∧ (s.tile r).WroteOnly z [scalarReg (vD f)]
        ∧ z.readScalar (vD f) = lane ((s.tile r).readV (vA f)) (vImm f))
    ∧ (vMod f = 1 → vPM f = 0 → vImm f < 32 → scalarReadable (vA f) = true →
      ∃ z, exec (.vselMov r f) s = .next (s.setTile r z) ∧ (s.tile r).WroteOnly z [(.v, vD f)]
        ∧ ∀ n, n < 32 → lane (z.readV (vD f)) n =
            if n = vImm f then (s.tile r).readScalar (vA f) else lane ((s.tile r).readV (vD f)) n)
    ∧ (vMod f = 2 → vImm f = 0 → scalarReadable (vA f) = true →
      ∃ z, exec (.vselMov r f) s = .next (s.setTile r z) ∧ (s.tile r).WroteOnly z [(.v, vD f)]
        ∧ ∀ n, n < 32 → lane (z.readV (vD f)) n =
            if ((s.tile r).readP (vPM f)).getLsbD n then (s.tile r).readScalar (vA f)
            else lane ((s.tile r).readV (vD f)) n)
    ∧ (vMod f = 3 → vPM f = 0 → vA f = 0 → scalarWritable (vD f) = true →
      ∃ z, exec (.vselMov r f) s = .next (s.setTile r z)
        ∧ (s.tile r).WroteOnly z [scalarReg (vD f)]
        ∧ z.readScalar (vD f) = BitVec.ofInt 32 (sextInt 16 (vImm f))))
  ∧ (∀ (r : TileRef) (f : Operands) (s : State), Quiet s ⟨r, 1, 0x20, f, planVcvt f, usedBySru (vRM f)⟩ →
    vSF f = 0xB → vDF f ≠ 0xB → cvtGood f (vDF f) = true →
    let y := s.tile r
    let bits := fmtBits (vDF f)
    let first := 32 * (vImm f % 16)
    (fmtIsMx (vDF f) = false →
      ∃ z, exec (.vcvt r f) s = .next (usedBySru (vRM f) (s.setTile r z)) ∧ y.WroteOnly z [(.v, vD f)]
        ∧ ∀ n, (n + 1) * bits ≤ 1024 → element (z.readV (vD f)).toNat bits n =
            if first ≤ n ∧ n < first + 32 ∧ (y.readP (vPM f)).getLsbD (n - first) = true then
              convertCode (vDF f) (s.roundAt r f (n - first)) (ofFP32 (lane (y.readV (vA f)) (n - first))) % 2 ^ bits
            else element (y.readV (vD f)).toNat bits n)
    ∧ (fmtIsMx (vDF f) = true → vPM f = 0 →
      let b := toBlock (vDF f) (s.roundAt r f) ((List.range 32).map fun e => ofFP32 (lane (y.readV (vA f)) e))
      ∃ z, exec (.vcvt r f) s = .next (usedBySru (vRM f) (s.setTile r z))
        ∧ y.WroteOnly z [(.v, vD f), (.v, vC f)]
        ∧ (∀ n, (n + 1) * bits ≤ 1024 → element (z.readV (vD f)).toNat bits n =
            if first ≤ n ∧ n < first + 32 then b.2.getD (n - first) 0 % 2 ^ bits
            else element (y.readV (vD f)).toNat bits n)
        ∧ ∀ n, n < 128 → byteOf (z.readV (vC f)).toNat n =
            if n = vImm f / 2 ^ 9 then b.1 else byteOf (y.readV (vC f)).toNat n))
  ∧ (∀ (r : TileRef) (f : Operands) (s : State), Quiet s ⟨r, 1, 0x28, f, planVred f, id⟩ →
    fld f 40 17 = 0 → vImm f = 0 →
    ∃ z, exec (.vred r f) s = .next (s.setTile r z) ∧ (s.tile r).WroteOnly z [(.v, vD f)]
      ∧ lane (z.readV (vD f)) 0 = treeFold (if vMod0 f then fpMax false else fpAdd false false)
          ((List.range 32).map fun n => if ((s.tile r).readP (vPM f)).getLsbD n
            then lane ((s.tile r).readV (vA f)) n else if vMod0 f then 0xFF800000 else 0)
      ∧ ∀ n, 0 < n → n < 32 → lane (z.readV (vD f)) n = lane ((s.tile r).readV (vD f)) n)

/-! ## Numbers -/

/-- A value that FP32 holds rounds to itself in every rounding mode; each NaN becomes the canonical one. FP32 addition
and multiplication do not depend on the order of their operands, and a NaN result is the canonical NaN. -/
def Obligations.RoundingAndCommutativity : Prop :=
  (∀ (rm : Round) (w : W32), toFP32 rm (ofFP32 w) = if (ofFP32 w).isNan then canonicalNaN else w)
  ∧ (∀ a b : W32, fpAdd false false a b = fpAdd false false b a ∧ fpMul a b = fpMul b a
    ∧ ((ofFP32 a).isNan = true → fpAdd false false a b = canonicalNaN ∧ fpMul a b = canonicalNaN))

/-- VMAX returns the operand that is not a NaN when exactly one is, the canonical NaN when both are, and treats +0 as
greater than −0; the minimum in the same way. -/
def Obligations.MaximumRules : Prop :=
  ∀ (m : Bool) (a b : W32),
    ((ofFP32 a).isNan = true → (ofFP32 b).isNan = false → fpMax m a b = b ∧ fpMax m b a = b)
    ∧ ((ofFP32 a).isNan = true → (ofFP32 b).isNan = true → fpMax m a b = canonicalNaN)
    ∧ fpMax m 0x00000000 0x80000000 = (if m then 0x80000000 else 0x00000000)
    ∧ fpMax m 0x80000000 0x00000000 = (if m then 0x80000000 else 0x00000000)
    ∧ ((ofFP32 a).lt (ofFP32 b) = true → fpMax m a b = (if m then a else b) ∧ fpMax m b a = (if m then a else b))



/-! ## Movement -/

/-- LOADV writes the little-endian words of the line at A[AR] + OFF, aligned down to 128 bytes, to the lanes of V[VR]
whose bit of P[PM] is 1.
Commands that complete here: LOADV. -/
def Obligations.LoadReadsItsLine : Prop :=
  ∀ (r : TileRef) (f : Operands) (s : State), Quiet s ⟨r, 2, 0x01, f, planLoadv f, id⟩ → fld f 41 16 = 0 →
    (s.tile r).Usable (mvLine (s.tile r) f) 128 →
    ∃ z, exec (.loadv r f) s = .next (s.setTile r z) ∧ (s.tile r).WroteOnly z [(.v, mVR f)]
      ∧ ∀ n, n < 32 → lane (z.readV (mVR f)) n =
          if ((s.tile r).readP (mPM f)).getLsbD n then
            BitVec.ofNat 32 (leNat ((s.tile r).bytes (mvLine (s.tile r) f + 4 * n) 4))
          else lane ((s.tile r).readV (mVR f)) n

/-- STOREV reads its registers as it issues and writes the lanes of V[VR] whose bit of P[PM] is 1 to the line at A[AR] +
OFF, aligned down to 128 bytes, in the cycle after: the next word of the tile, which begins with that write (R201),
finds those lanes in the line and every other byte of the SRAM as before. Every register and every other tile keeps
its value.
Commands that complete here: STOREV. -/
def Obligations.StoreWritesSelectedLanes : Prop :=
  ∀ (r : TileRef) (f : Operands) (s : State), Quiet s ⟨r, 2, 0x02, f, planStorev f, id⟩ → fld f 41 16 = 0 →
    (s.tile r).Usable (mvLine (s.tile r) f) 128 → Mem.wf (s.tile r).sram = true →
    ∃ z w, exec (.storev r f) s = .next (s.setTile r z) ∧ z.sram = (s.tile r).sram ∧ z.writeStore = some w
      ∧ (∀ n b, n < 32 → b < 4 → ((s.tile r).readP (mPM f)).getLsbD n = true →
          Mem.read w.sram (mvLine (s.tile r) f + 4 * n + b) = byteOf (lane ((s.tile r).readV (mVR f)) n).toNat b)
      ∧ (∀ a, (∀ n b, n < 32 → b < 4 → ((s.tile r).readP (mPM f)).getLsbD n = true →
            a ≠ mvLine (s.tile r) f + 4 * n + b) → Mem.read w.sram a = Mem.read (s.tile r).sram a)
      ∧ w = { z with sram := w.sram, sramBad := w.sramBad, sramWeak := w.sramWeak, known := w.known, store := none }
      ∧ (s.tile r).Counted z ∧ (∀ k i, z.readReg k i = (s.tile r).readReg k i)
      ∧ z.land = (s.tile r).land ∧ z.istore = (s.tile r).istore ∧ z.acc = (s.tile r).acc ∧ z.ovf = (s.tile r).ovf

/-- SEND reads one descriptor and sends LEN + 1 flits, one a cycle, and SENDM does so CNT + 1 times with consecutive
descriptors; a null send sends chaff and reads no data. GATHER sends the flits that the lanes of V[VR] name, or
zeros, HBMRD one request flit, and HBMWR LEN + 1 flits of data, one a cycle. A flit of a send that comes due leaves
the tile: it joins the end of its crossing queue with the header built from the descriptor read last and its flit
index, and no other queue of the die changes. On a path to a region's intake it carries the beat and cycle that
its port-table entry reserves there (R321).
Commands that complete here: SEND, SENDM, GATHER, HBMRD, HBMWR. -/
def Obligations.SendsLeaveOneFlitACycle : Prop :=
  (∀ (r : TileRef) (f : Operands) (s : State), fld f 53 46 = 0 → ncGood f = true →
    (∀ c, c ≤ mCNT f → (s.tile r).inWindow (mvDesc (s.tile r) f c) 8 = true) →
    (isNull (s.tile r) f = false → ∀ m, m ≤ mLEN f / 2 →
      (s.tile r).inWindow (mvLine (s.tile r) f + 128 * m) 128 = true) →
    (Quiet s ⟨r, 2, 0x10, f, planSend f, id⟩ → mCNT f = 0 →
      ∃ z, exec (.send r f) s = .next (s.setTile r z) ∧ (s.tile r).Counted z ∧ z.sram = (s.tile r).sram
        ∧ (∀ k i, z.readReg k i = (s.tile r).readReg k i)
        ∧ z.flight = sendFlight (s.tile r) f 1 (lineSrc (mvLine (s.tile r) f)))
    ∧ (Quiet s ⟨r, 2, 0x11, f, planSendm f, id⟩ →
      ∃ z, exec (.sendm r f) s = .next (s.setTile r z) ∧ (s.tile r).Counted z ∧ z.sram = (s.tile r).sram
        ∧ (∀ k i, z.readReg k i = (s.tile r).readReg k i)
        ∧ z.flight = sendFlight (s.tile r) f (mCNT f + 1) (lineSrc (mvLine (s.tile r) f))))
  ∧ (∀ (r : TileRef) (f : Operands) (s : State),
    let y := s.tile r
    let sends := fun (i : Instr) (l : List (Nat × Micro)) =>
      ∃ z, exec i s = .next (s.setTile r z) ∧ y.Counted z ∧ z.sram = y.sram
        ∧ (∀ k n, z.readReg k n = y.readReg k n) ∧ z.flight = l.map fun m => ⟨y.clk + m.1, y.pc, m.2⟩
    (Quiet s ⟨r, 2, 0x12, f, planGather f, id⟩ → mPM f = 0 → mCNT f = 0 → ncGood f = true → mLEN f ≤ 31 →
      y.inWindow (mvDesc y f 0) 8 = true →
      (isNull y f = false → ∀ n a, n ≤ mLEN f → gatherAddr y f n = some a → y.inWindow a 64 = true) →
      sends (.gather r f) (sendSteps 0 (mvDesc y f 0) (isNull y f) (mLEN f) y.bc fun n =>
        match gatherAddr y f n with
        | some a => .bytes a
        | none => .zero))
    ∧ (Quiet s ⟨r, 2, 0x30, f, planHbmrd r.die.val f, id⟩ → fld f 53 46 = 0 → fld f 31 24 = 0 →
      mvAddr y f + mLEN f < hbmUnits → y.inWindow (mvDesc y f 0) 8 = true →
      sends (.hbmrd r f) [(0, .descriptor (mvDesc y f 0) false),
        (1, .flit (.built (mkHeader (s.dieNumber r.die.val) destMem 2 y.bank 0 0 0 0 0 0 y.bc.toNat)) 0
          (.request (mvAddr y f) (mLEN f)))])
    ∧ (Quiet s ⟨r, 2, 0x31, f, planHbmwr r.die.val f, id⟩ → fld f 53 46 = 0 → fld f 31 16 = 0 →
      (y.readA (mXR f)).toNat + mLEN f < hbmUnits →
      (∀ m, m ≤ mLEN f / 2 → y.inWindow (mvLine y f + 128 * m) 128 = true) →
      sends (.hbmwr r f) ((List.range (mLEN f + 1)).map fun n => (1 + n, .flit (.built (mkHeader
        (s.dieNumber r.die.val) destMem 1 y.bank 0 0 (mLEN f) 0 0 (y.readA (mXR f)).toNat y.bc.toNat)) n
          (lineSrc (mvLine y f) n)))))
  ∧ (∀ (s : State) (d t due : Nat) (hs : HdrSrc) (i : Nat) (src : FlitSrc),
    let x := s.die d
    let y := x.tile t
    let h := y.header hs
    let q := s.sendQueue d (t / 72) h
    let e := x.route (hEpoch h) (hRoute h)
    (x.queue q).length < queueDepth →
    (∃ g : QFlit, ((s.depart d t due hs i src).die d).queue q = x.queue q ++ [g]
        ∧ g.hdr = h ∧ g.fidx = i ∧ g.payload = y.payload src ∧ g.beat = x.job.base + x.fullBeat y.bc
        ∧ g.late = false ∧ g.src = t
        ∧ (q % 5 ≠ qSwitch → (g.due - x.job.base, g.time)
            = flitSlot (x.fill d) (rtEgress e) (hDest h) (x.fullBeat y.bc + rtDbeat e + 1) (rtFt0 e) i))
      ∧ ∀ q', q' ≠ q → ((s.depart d t due hs i src).die d).queue q' = x.queue q')

/-- LAND consumes a VALID entry (mode 0), arms an entry (mode 1) or does both (mode 2), and reports the NULL bit of the
packet that it finds in S[SD]; no other entry changes.
Commands that complete here: LAND. -/
def Obligations.LandConsumesAndArms : Prop :=
  ∀ (r : TileRef) (f : Operands) (s : State), Quiet s ⟨r, 2, 0x20, f, planLand f, id⟩ → fld f 38 16 = 0 →
    fld f 53 52 ≠ 3 → ((fld f 51 51 = 1) → fld f 53 52 ≠ 1) → (fld f 51 51 = 0 → fld f 50 48 = 0) →
    (fld f 53 52 = 0 ↔ fld f 15 0 = 0) → leEnable ((s.tile r).landing (fld f 47 39)) = true →
    (fld f 53 52 ≠ 1 → leState ((s.tile r).landing (fld f 47 39)) = 2) →
    ∃ z, exec (.land r f) s = .next (s.setTile r z) ∧ (s.tile r).Counted z ∧ z.sram = (s.tile r).sram
      ∧ (fld f 53 52 ≠ 1 → leState (z.landing (fld f 47 39)) = 0 ∧ leRcvd (z.landing (fld f 47 39)) = 0
          ∧ leNull (z.landing (fld f 47 39)) = false)
      ∧ (fld f 53 52 = 0 → leArmed (z.landing (fld f 47 39)) = false)
      ∧ (fld f 53 52 ≠ 0 → leArmed (z.landing (fld f 47 39)) = true
          ∧ leDeadline (z.landing (fld f 47 39)) = ((s.tile r).bc.toNat + fld f 15 0) % 2 ^ 16)
      ∧ (fld f 51 51 = 1 → z.readS (fld f 50 48)
          = if leNull ((s.tile r).landing (fld f 47 39)) then 1 else 0)
      ∧ (fld f 53 52 = 1 → leState (z.landing (fld f 47 39)) = leState ((s.tile r).landing (fld f 47 39)))
      ∧ (∀ n, n ≠ fld f 47 39 → z.landing n = (s.tile r).landing n)
      ∧ ∀ k i, (fld f 51 51 = 1 → (k, i) ≠ (.s, fld f 50 48)) → z.readReg k i = (s.tile r).readReg k i

/-! ## Sequencing -/

/-- NOP only passes to the next word; SNAP writes a telemetry value to S[SR]. WAITBEAT of a tile whose region does not
lag and whose die is in the same job beat: the tile waits for the next beat, and nothing else changes.
Commands that complete here: NOP, WAITBEAT, SNAP. -/
def Obligations.NopSnapAndWaitbeat : Prop :=
  ((∀ (r : TileRef) (s : State),
    Quiet s ⟨r, 3, 0x00, 0, fun _ _ => if (0 : Operands) = 0 then .run { path := pathSq } else .invalid, id⟩ →
    ∃ z, exec (.nop r 0) s = .next (s.setTile r z) ∧ (s.tile r).WroteOnly z [])
  ∧ ∀ (r : TileRef) (f : Operands) (s : State),
    Quiet s ⟨r, 3, 0x06, f, planSnap r.die.val (r.tile.val / 72) f, id⟩ →
    fld f 53 51 = 0 → fld f 47 35 = 0 → fld f 30 0 = 0 → fld f 34 31 ≤ 2 →
    ∃ z, exec (.snap r f) s = .next (s.setTile r z) ∧ (s.tile r).WroteOnly z [(.s, fld f 50 48)]
      ∧ z.readS (fld f 50 48) =
          (if fld f 34 31 = 0 then BitVec.ofInt 32 (sextInt 16 ((s.die r.die.val).field r.die.val rDieTempMax 15 0))
           else if fld f 34 31 = 1 then BitVec.ofInt 32 (sextInt 16
             ((s.die r.die.val).field r.die.val (rRegionTemp + 4 * (r.tile.val / 72)) 15 0))
           else BitVec.ofNat 32 ((s.die r.die.val).field r.die.val rDiePower 15 0)))
  ∧ (∀ (r : TileRef) (s : State),
    let x := s.die r.die.val
    let y := s.tile r
    let g := x.region (r.tile.val / 72)
    Quiet s ⟨r, 3, 0x03, 0, fun _ _ => if (0 : Operands) = 0 then .run { path := pathSq, wait := true }
      else .invalid, (·.afterWait r.die.val r.tile.val)⟩ →
    x.hold.slot = none → BitVec.ofNat 48 x.job.beat = y.bc →
    lagOf g.startLag g.stretches (x.period r.die.val (r.tile.val / 72)) (y.words + 1) = 0 →
    ∃ z, exec (.waitbeat r 0) s = .next (s.setTile r z) ∧ Tile.OnlyMoved y z ∧ z.waiting = true
      ∧ z.pc = (y.sequence .seq).pc)

/-- LOOP with a count other than 0 pushes a level whose body begins at the next word; BR whose condition holds goes to
its target and leaves the levels that do not contain it, and otherwise passes to the next word.
Commands that complete here: LOOP, BR. -/
def Obligations.LoopsAndBranches : Prop :=
  (∀ (r : TileRef) (f : Operands) (s : State), Quiet s ⟨r, 3, 0x01, f, planLoop f, id⟩ →
    fld f 53 52 = 0 → fld f 51 48 = 0 → fld f 34 20 = 0 → fld f 19 0 ≠ 0 →
    (s.tile r).pc.toNat + 1 ≤ qWidx f → (s.tile r).loops.length < 4 →
    (∀ l ls, (s.tile r).loops = l :: ls → qWidx f ≤ l.fin ∧ (s.tile r).pc.toNat ≠ l.fin) →
    ∃ z, exec (.loop r f) s = .next (s.setTile r z) ∧ Tile.OnlyMoved (s.tile r) z
      ∧ z.pc = (s.tile r).pc + 1
      ∧ z.loops = ⟨(s.tile r).pc.toNat + 1, qWidx f, fld f 19 0⟩ :: (s.tile r).loops)
  ∧ ∀ (r : TileRef) (f : Operands) (s : State), Quiet s ⟨r, 3, 0x02, f, planBr f, id⟩ →
    condGood f = true → fld f 34 0 = 0 →
    (∀ l ls, (s.tile r).loops = l :: ls → (s.tile r).pc.toNat ≠ l.fin) →
    ∃ z, exec (.br r f) s = .next (s.setTile r z) ∧ Tile.OnlyMoved (s.tile r) z
      ∧ (condHolds (qCond f) ((s.tile r).readS (qSR f)) = true →
          z.pc = BitVec.ofNat 13 (qWidx f) ∧ z.loops = leaveLoops (qWidx f) (s.tile r).loops)
      ∧ (condHolds (qCond f) ((s.tile r).readS (qSR f)) = false →
          z.pc = (s.tile r).pc + 1 ∧ z.loops = (s.tile r).loops)

/-- HOLDCHK of a VALID entry passes; of one that is not VALID and allows a hold it raises cause 0x2 in the tile's job
beat, once a beat. FAULT whose condition holds records KIND 0x08 and stops the die, when no arrival of that cycle raises a
fault of lower KIND; otherwise it passes.
Commands that complete here: HOLDCHK, FAULT. -/
def Obligations.HoldchkAndFault : Prop :=
  (∀ (r : TileRef) (f : Operands) (s : State), Quiet s ⟨r, 3, 0x04, f, planHoldchk f, id⟩ →
    fld f 53 48 = 0 → fld f 37 0 = 0 → leEnable ((s.tile r).landing (fld f 47 39)) = true →
    (leState ((s.tile r).landing (fld f 47 39)) = 2 →
      ∃ z, exec (.holdchk r f) s = .next (s.setTile r z) ∧ (s.tile r).WroteOnly z [])
    ∧ (leState ((s.tile r).landing (fld f 47 39)) ≠ 2 → fld f 38 38 = 0 →
        leNoHold ((s.tile r).landing (fld f 47 39)) = false → (s.tile r).heldRaised = false →
      ∃ z, exec (.holdchk r f) s = .next ((s.setTile r z).raiseFor r.die.val z.bc 2)
        ∧ z.heldRaised = true ∧ fld f 47 39 ∈ z.watch))
  ∧ ∀ (r : TileRef) (f : Operands) (s : State), Quiet s ⟨r, 3, 0x05, f, planFault f, id⟩ →
    condGood f = true → fld f 47 0 = 0 →
    (condHolds (qCond f) ((s.tile r).readS (qSR f)) = true → bitOf (s.tile r).faultInfo 31 = false →
        (s.die r.die.val).stopped = false →
        (s.die r.die.val).arrivalFault r.die.val r.tile.val (s.tile r).words = none →
      ∃ t, exec (.fault r f) s = .next t ∧ (t.tile r).state = .faulted
        ∧ (t.tile r).faultInfo = faultInfoWord 0x08 (s.tile r).pc.toNat (s.tile r).bank 3 0
        ∧ (t.die r.die.val).stopped = true)
    ∧ (condHolds (qCond f) ((s.tile r).readS (qSR f)) = false →
      ∃ z, exec (.fault r f) s = .next (s.setTile r z) ∧ (s.tile r).WroteOnly z [])

/-! ## Matrix -/

/-- MXZERO sets every element of the accumulator to a finite 0 and its window base to the field, leaves the other
accumulators, and clears the overflow flag six cycles later; MXLD records format and kind of its buffer and leaves
its lines to be loaded, one a cycle. MXMUL and MXSPARSE leave one product step for each line of their input rows,
each in its cycle; adding block results to a row adds to each element those of its column, in their order; MXACC
adds a vector of FP32 values to a row; MXRD writes the elements of a row, converted and rounded, to their place in
V, and the overflow flags to S when it is asked to.
Commands that complete here: MXLD, MXMUL, MXSPARSE, MXACC, MXZERO, MXRD. -/
def Obligations.MatrixInstructions : Prop :=
  ((∀ (r : TileRef) (f : Operands) (s : State), Quiet s ⟨r, 0, 0x05, f, planMxzero f, id⟩ → fld f 51 10 = 0 →
    ∃ z, exec (.mxzero r f) s = .next (s.setTile r z) ∧ (s.tile r).Counted z
      ∧ (∀ row col, row < 32 → col < 32 → z.accElem (fld f 53 52) row col = ⟨0, .finite⟩)
      ∧ z.accBase (fld f 53 52) = (BitVec.ofNat 10 (fld f 9 0)).toInt
      ∧ (∀ acc row col, acc ≠ fld f 53 52 → row < 32 → col < 32 →
          z.accElem acc row col = (s.tile r).accElem acc row col ∧ z.accBase acc = (s.tile r).accBase acc)
      ∧ z.ovfPend = [⟨(s.tile r).clk + 6 + (s.tile r).idle, fld f 53 52, false, (s.tile r).pc⟩] ∧ z.sram = (s.tile r).sram
      ∧ ∀ k i, z.readReg k i = (s.tile r).readReg k i)
  ∧ ∀ (r : TileRef) (f : Operands) (s : State), Quiet s ⟨r, 0, 0x01, f, planMxld f, id⟩ →
    fld f 53 52 = 0 → fld f 46 42 = 0 → fld f 32 25 = 0 → fld f 23 20 = 0 → fld f 50 47 ≤ 0xA →
    fld f 24 24 = 0 → (fmtIsMx (fld f 50 47) = false → fld f 37 33 = 0) →
    ((s.tile r).wb (fld f 51 51)).readBy = none →
    (∀ l, l < weightLines (fld f 50 47) false → (s.tile r).inWindow (mxAddr (s.tile r) f + 128 * l) 128 = true) →
    ∃ z, exec (.mxld r f) s = .next (s.setTile r z) ∧ (s.tile r).Counted z
      ∧ (z.wb (fld f 51 51)).kind = some (BitVec.ofNat 4 (fld f 50 47), false)
      ∧ z.flight = (List.range (weightLines (fld f 50 47) false)).map fun l =>
          ⟨(s.tile r).clk + l, (s.tile r).pc,
            .weightLine (fld f 51 51) l (mxAddr (s.tile r) f + 128 * l) (fld f 50 47) false⟩)
  ∧ ((∀ (sparse : Bool) (r : TileRef) (f : Operands) (s : State),
    let y := s.tile r
    let fmt := fld f 50 47
    let rows := fld f 46 42 + 1
    let rpl := rowsPerLine sparse fmt
    let wb := fld f 51 51
    let wf := (y.weightKind wb).1
    (sparse = false → Quiet s ⟨r, 0, 0x02, f, planMxmul f, id⟩ ∧ fmt ≤ 0xA ∧ fmtK fmt = fmtK wf) →
    (sparse = true → Quiet s ⟨r, 0, 0x03, f, planMxsparse f, id⟩
      ∧ ((wf = 4 ∧ fmt = 4) ∨ (wf ∈ [0, 1, 6, 7] ∧ fmt ∈ [0, 1, 5, 6, 7, 8]))
      ∧ ∀ j, j < 32 → metaGood (y.weightMeta wb j) = true) →
    productFieldsGood f = true → (y.weightKind wb).2 = sparse → (y.wb wb).written = none →
    (∀ m, m < (rows + rpl - 1) / rpl → y.inWindow (mxAddr y f + 128 * m) 128 = true) →
    ∃ z, exec (if sparse then .mxsparse r f else .mxmul r f) s = .next (s.setTile r z) ∧ y.Counted z
      ∧ z.acc = y.acc ∧ z.wbase = y.wbase ∧ z.sram = y.sram ∧ (∀ k i, z.readReg k i = y.readReg k i)
      ∧ z.flight = (List.range ((rows + rpl - 1) / rpl)).map fun m => ⟨y.clk + rpl * m, y.pc,
          .product sparse (fld f 53 52) wb fmt (fld f 29 25) (rpl * m) (min rpl (rows - rpl * m))
            (mxAddr y f + 128 * m) (y.readV (fld f 37 33))⟩)
  ∧ (∀ (y : Tile) (acc row due : Nat) (pc : BitVec 13) (bs : List (Nat × Block)) (col : Nat),
    (y.addRow acc row due pc bs).accElem acc row col
      = (bs.filter (·.1 == col)).foldl (fun e b => (e.add (y.accBase acc) b.2).1) (y.accElem acc row col))
  ∧ (∀ (r : TileRef) (f : Operands) (s : State), Quiet s ⟨r, 0, 0x04, f, planMxacc f, id⟩ →
    fld f 51 47 = 0 → fld f 41 38 = 0 → fld f 32 19 = 0 → fld f 18 0 = 0 →
    let y := s.tile r
    let acc := fld f 53 52
    ∃ z, exec (.mxacc r f) s = .next (s.setTile r z) ∧ y.Counted z ∧ z.sram = y.sram ∧ z.wbase = y.wbase
      ∧ (∀ k i, z.readReg k i = y.readReg k i)
      ∧ (∀ j, j < 32 → z.accElem acc (fld f 46 42) j = ((y.accElem acc (fld f 46 42) j).add (y.accBase acc)
          (blockOf (ofFP32 (lane (y.readV (fld f 37 33)) j)))).1)
      ∧ ∀ a row j, row < 32 → j < 32 → (a, row) ≠ (acc, fld f 46 42) → z.accElem a row j = y.accElem a row j)
  ∧ ∀ (r : TileRef) (f : Operands) (s : State) (g : Fmt),
    let y := s.tile r
    let bits := fmtBits (fld f 50 47)
    let first := 32 * fld f 26 25
    Quiet s ⟨r, 0, 0x06, f, planMxrd f, usedBySru (fld f 32 30)⟩ → fmtOf (fld f 50 47) = some g →
    fld f 50 47 = 0xB ∨ fld f 50 47 = 0x9 ∨ fld f 50 47 = 6 ∨ fld f 50 47 = 7 →
    first + 32 ≤ 1024 / bits → fld f 51 51 = 0 → fld f 41 38 = 0 → fld f 23 23 = 0 → fld f 19 0 = 0 →
    fld f 32 30 ≠ 7 → (fld f 32 30 ≠ 5 → fld f 29 27 = 0) → (fld f 24 24 = 0 → fld f 22 20 = 0) →
    ∃ z, exec (.mxrd r f) s = .next (usedBySru (fld f 32 30) (s.setTile r z))
      ∧ y.WroteOnly z ((.v, fld f 37 33) :: if fld f 24 24 = 1 then [(.s, fld f 22 20)] else [])
      ∧ (fld f 24 24 = 1 → z.readS (fld f 22 20) = y.ovf.setWidth 32)
      ∧ ∀ n, (n + 1) * bits ≤ 1024 → element (z.readV (fld f 37 33)).toNat bits n =
          if first ≤ n ∧ n < first + 32 then
            g.convert (roundOf (fld f 32 30) (y.readS (fld f 29 27)) y.bc s.fz (n - first))
              (accValue (y.accBase (fld f 53 52)) (y.accElem (fld f 53 52) (fld f 46 42) (n - first))) % 2 ^ bits
          else element (y.readV (fld f 37 33)).toNat bits n)



/-! ## Beats and holds -/

/-- A cycle of a region is stretched: the stretch counts in the beat that the region is in, and in TIME_REGION's
counter; nothing outside the die changes. A slot lasts 16 ns, and the second passes on at 10^9 ns.
Commands that complete here: DROOP_STRETCH. -/
def Obligations.SlotsAndStretches : Prop :=
  (∀ (c : CDieId) (r : Fin 4) (s : State), (s.die c.val).inReset = false →
    ∃ t, exec (.droopStretch c r) s = .next t ∧ s.SameBut t c.val
      ∧ (t.die c.val).reg c.val (rRegion + 0x40 * r.val + 0x8)
          = tgetD (s.die c.val).regs (rRegion + 0x40 * r.val + 0x8) 0 + 1
      ∧ ((s.die c.val).regionLate r.val = false →
          ((t.die c.val).region r.val).stretches = ((s.die c.val).region r.val).stretches + 1)
      ∧ ((s.die c.val).regionLate r.val = true →
          ((t.die c.val).region r.val).lastStretches = ((s.die c.val).region r.val).lastStretches + 1)
      ∧ ∀ q, q ≠ r.val → (t.die c.val).region q = (s.die c.val).region q)
  ∧ (∀ x : Die, x.ns < second → x.sec.toNat + 1 < 2 ^ 64 →
    x.nextSlot.timeNs = x.timeNs + 16 ∧ x.nextSlot.ns < second)

/-- BEAT_START passes the die to its next slot, 16 ns later: what the slot that ends still sends or finds comes first,
and then, with no job, the fabric's work of the next slot follows; in a hold the next hold slot begins and HOLD_BEATS
counts it; and otherwise the next job beat begins. Passing a slot leaves the job beat as it is and, when no snapshot falls due, the
other dies but the one that keeps the commands.
Commands that complete here: BEAT_START. -/
def Obligations.BeatStartPassesSlot : Prop :=
  (∀ (d : Nat) (s : State), ((s.passSlot d).die d).timeNs = (s.die d).nextSlot.timeNs
    ∧ ((s.passSlot d).die d).job = (s.die d).job
    ∧ ((((s.modDie d (·.flushRaised d)).closeSlot d).die d).snapDue d = false →
        ∀ e, e ≠ d → e ≠ 32 → (s.passSlot d).die e = s.die e))
  ∧ ∀ (d : DieId) (s : State), (s.die d.val).inReset = false → s.boundary d.val = .beat → s.strayWaits d.val = false →
    ((s.die d.val).jobOn d.val = true → (s.die d.val).behind = false) →
    let u := s.passSlot d.val
    let x := u.die d.val
    (x.jobOn d.val = false → exec (.beatStart d) s = .next (u.openSlot d.val))
    ∧ (x.jobOn d.val = true → ∀ j, x.hold.slot = some j →
        ∃ v : State, exec (.beatStart d) s = .next (v.openSlot d.val)
          ∧ u.SameBut v d.val ∧ (v.die d.val).hold.slot = some (j + 1)
          ∧ (v.die d.val).hold.closed = (x.hold.closed || decide (x.horizon d.val ≤ j + 2))
          ∧ tgetD (v.die d.val).regs rHoldBeats 0 = tgetD x.regs rHoldBeats 0 + 1
          ∧ (v.die d.val).job = x.job ∧ (v.die d.val).tiles = x.tiles)
    ∧ (x.jobOn d.val = true → x.hold.slot = none →
        ∃ v : State, exec (.beatStart d) s = .next (v.openBeat d.val)
          ∧ u.SameBut v d.val ∧ (v.die d.val).job.beat = x.job.beat + 1 ∧ (v.die d.val).job.ran = x.job.ran + 1
          ∧ (v.die d.val).hold.left = x.hold.left.map (· - 1) ∧ (v.die d.val).tiles = x.tiles)

/-- The hold symbol that a die owes for the causes raised in a job beat is sent once: with the lowest cause, in the die's
name and beat, and the die is a holder. At the end of a slot no cause of the beat before waits for it, and of this
beat only where a unit may still raise one (the model's reading, log 21). A write of REQ_HOLD stores the bit; in a job beat a 1 raises cause 0x7,
unless the die has raised it. A hold whose cause other than "requested" has not cleared in TIME_HOLD_TIMEOUT slots
stops the slice with KIND 0x32.
Commands that complete here: HOLD_TIMEOUT, REQ_HOLD_WRITE. -/
def Obligations.HoldsAreRaisedAndTimeOut : Prop :=
  (∀ (x : Die) (d b c : Nat) (cs : List Nat), (x.hold.raised.filter (·.1 == b)).map (·.2) = c :: cs →
    let y := x.flushBeat d b
    let sym := mkSymbol 1 (cs.foldl min c) (x.number d) (x.beatNumber b) x.hold.seq.toNat
    y.hold.raised = x.hold.raised.filter (·.1 != b) ∧ symbolKey sym ∈ y.hold.seen
      ∧ (∃ h ∈ y.hold.holders, h.die = BitVec.ofNat 16 (x.number d) ∧ h.beat ≤ b)
      ∧ ∀ p, p ∈ x.sliceLinks d → y.link p = { x.link p with symbols := (x.link p).symbols ++ [sym, sym] })
  ∧ (∀ (x : Die) (d : Nat), ∀ e ∈ (x.flushRaised d).hold.raised,
    e.1 + 1 ≠ x.beatNow ∧ (e.1 = x.beatNow → x.raisesOver x.beatNow = false))
  ∧ (∀ (d : DieId) (on : Bool) (s : State), (s.die d.val).inReset = false →
    ∃ t, exec (.reqHoldWrite d on) s = .next t ∧ s.SameBut t d.val ∧ (t.die d.val).bit d.val rBeatCtrl 31 = on
      ∧ (on = true → (s.die d.val).inJobBeat d.val = true → 7 ∉ (s.die d.val).hold.mine →
          (t.die d.val).hold.mine = (s.die d.val).hold.mine ++ [7]
            ∧ (t.die d.val).hold.raised = (s.die d.val).hold.raised ++ [((s.die d.val).beatNow, 7)])
      ∧ (on = false → (t.die d.val).hold = (s.die d.val).hold)
      ∧ (t.die d.val).tiles = (s.die d.val).tiles)
  ∧ (∀ (d : DieId) (s : State) (j c : Nat), (s.die d.val).jobOn d.val = true → (s.die d.val).hold.slot = some j →
    (s.die d.val).field d.val rHoldTimeout 31 0 ≠ 0 → (s.die d.val).field d.val rHoldTimeout 31 0 ≤ j →
    c ∈ (s.die d.val).hold.mine → c ≠ 7 → (s.die d.val).clearOf d.val c = false →
    (s.die d.val).stopped = false →
    ∃ t, exec (.holdTimeout d) s = .next t ∧ (t.die d.val).stopped = true
      ∧ (t.die d.val).jobOn d.val = false ∧ bitsOf ((t.die d.val).reg d.val rStopInfo) 29 24 = 0x32)

/-- A pending hold whose beats have run takes effect: hold slot 0 begins, HOLDS counts it, and the tiles that wait are
HELD, those without an overflow flag still to change exactly so.
The hold ends: its slots join HOLD_BEATS_JOB, the sequence counts up, nothing of the hold stays, and the next job
beat begins. With the job stopped as the slot ended, only the next slot begins.
Commands that complete here: HOLD_TAKES_EFFECT, HOLD_RESUME. -/
def Obligations.HoldsBeginAndEnd : Prop :=
  (∀ (d : DieId) (s : State), (s.die d.val).inReset = false → s.boundary d.val = .hold →
    (s.die d.val).behind = false → s.strayWaits d.val = false →
    let u := s.passSlot d.val
    let x := u.die d.val
    (x.jobOn d.val = false → exec (.holdTakesEffect d) s = .next (u.openSlot d.val))
    ∧ (x.jobOn d.val = true →
        ∃ v : State, exec (.holdTakesEffect d) s = .next ((v.holdTiles d.val).openSlot d.val)
          ∧ u.SameBut v d.val ∧ (v.die d.val).hold.slot = some 0 ∧ (v.die d.val).hold.left = none
          ∧ (v.die d.val).job = x.job ∧ (v.die d.val).tiles = x.tiles
          ∧ tgetD (v.die d.val).regs rHoldsTaken 0 = tgetD x.regs rHoldsTaken 0 + 1))
  ∧ (∀ (d : Nat) (s : State), (∀ e ∈ (s.die d).tiles, e.2.ovfPend = []) →
    s.SameBut (s.holdTiles d) d
      ∧ ∀ t y, tget (s.die d).tiles t = some y → y.state = .running → y.waiting = true →
          tget ((s.holdTiles d).die d).tiles t = some { y with
            state := .held, words := 0, idle := y.idle + (s.die d).waited d (t / 72) y.words })
  ∧ (∀ (d : DieId) (s : State), (s.die d.val).inReset = false → s.boundary d.val = .resume →
    s.strayWaits d.val = false →
    let u := s.passSlot d.val
    let x := u.die d.val
    (x.jobOn d.val = false → exec (.holdResume d) s = .next (u.openSlot d.val))
    ∧ (x.jobOn d.val = true →
        ∃ v : State, exec (.holdResume d) s = .next (v.openBeat d.val)
          ∧ u.SameBut v d.val ∧ (v.die d.val).job.beat = x.job.beat + 1
          ∧ (v.die d.val).job.q = x.job.q + BitVec.ofNat 64 (s.die d.val).hold.slots
          ∧ (v.die d.val).hold.seq = x.hold.seq + 1
          ∧ (v.die d.val).hold.slot = none ∧ (v.die d.val).hold.left = none ∧ (v.die d.val).hold.holders = []
          ∧ (v.die d.val).hold.mine = []
          ∧ ∀ t y, tget x.tiles t = some y → y.state = .held →
              tget (v.die d.val).tiles t = some { y with state := .running, waiting := true, watch := [] }))

/-- The roll call closes at the end of hold slot H − 2; from slot H − 1 on a holder whose causes have cleared sends its
release, once, and it is on record among those received (the model's choice, log 80); a die that is not a holder sends
none. Once the roll call is closed and every holder has sent its
release, the job resumes H + 1 slots after the last release.
Commands that complete here: ROLL_CALL_CLOSE, HOLDER_RELEASE. -/
def Obligations.RollCallReleaseAndResumeSlot : Prop :=
  (∀ (d : DieId) (s : State) (j : Nat), (s.die d.val).jobOn d.val = true → (s.die d.val).hold.slot = some j →
    ((s.die d.val).horizon d.val ≤ j + 2 →
      ∃ t, exec (.rollCallClose d) s = .next t ∧ s.SameBut t d.val ∧ (t.die d.val).hold.closed = true
        ∧ t.die d.val = { s.die d.val with hold := { (s.die d.val).hold with closed := true } })
    ∧ ((s.die d.val).horizon d.val ≤ j + 1 → (s.die d.val).hold.released = false → (s.die d.val).hold.mine ≠ [] →
        ((s.die d.val).hold.mine.all ((s.die d.val).clearOf d.val)) = true →
      ∃ t, exec (.holderRelease d) s = .next t ∧ s.SameBut t d.val ∧ (t.die d.val).hold.released = true
        ∧ (t.die d.val).hold.releases
            = (s.die d.val).hold.releases ++ [(BitVec.ofNat 16 (s.dieNumber d.val), j)]
        ∧ (t.die d.val).tiles = (s.die d.val).tiles
        ∧ symbolKey (mkSymbol 2 0 (s.dieNumber d.val) j (s.die d.val).hold.seq.toNat) ∈ (t.die d.val).hold.seen)
    ∧ ((s.die d.val).hold.mine = [] ∨ (s.die d.val).hold.released = true ∨ j + 1 < (s.die d.val).horizon d.val
        ∨ (s.die d.val).hold.mine.all ((s.die d.val).clearOf d.val) = false → exec (.holderRelease d) s = .next s))
  ∧ (∀ (h : Hold) (n r : Nat), h.resumeSlot n = some r →
    h.closed = true ∧ (∀ a ∈ h.holders, ∃ e ∈ h.releases, e.1 = a.die) ∧ (∀ e ∈ h.releases, e.2 + n + 1 ≤ r)
      ∧ (h.releases ≠ [] → ∃ e ∈ h.releases, r = e.2 + n + 1))

/-- The first good copy, on a link of the slice, of a hold symbol of this hold sequence is relayed: two copies go out on
every other link of the slice, and on none else. While a job runs and the roll call is open its hold joins: its die is
a holder, and while no hold stands it takes effect as soon as the earliest of the pending hold and the new one, which
has H job beats from the beat in which it was raised. The first good copy of a release symbol of this hold sequence is
relayed in the same way, and during a hold it is on record with the slot that its low 24 bits name.
Commands that complete here: HOLD_SYMBOL_RECEIVED, RELEASE_SYMBOL_RECEIVED. -/
def Obligations.HoldSymbolsAndReleases : Prop :=
  (∀ (d : DieId) (port : Fin 32) (v : W64) (s : State),
    let x := s.die d.val
    x.inReset = false → hasPort d.val port.val = true → symbolGood v = true → bitsOf v 63 60 = 1 →
    1 ≤ bitsOf v 59 56 → bitsOf v 59 56 ≤ 7 →
    x.hold.seen.contains (symbolKey v) = false → bitsOf v 15 8 = x.hold.seq.toNat → x.outside d.val port.val = false →
    ∃ t, exec (.holdSymbolReceived d port v) s = .next t ∧ s.SameBut t d.val
      ∧ symbolKey v ∈ (t.die d.val).hold.seen
      ∧ (∀ p, (t.die d.val).link p = if p ∈ x.sliceLinks d.val ∧ p ≠ port.val then
          { x.link p with symbols := (x.link p).symbols ++ [v, v] } else x.link p)
      ∧ (x.jobOn d.val = true → x.hold.closed = false →
        (∃ h ∈ (t.die d.val).hold.holders, h.die = BitVec.ofNat 16 (bitsOf v 55 40))
        ∧ (x.hold.slot = none →
            let n := x.horizon d.val - (x.beatNow - x.raiseBeat d.val (bitsOf v 39 16))
            (t.die d.val).hold.left = some (match x.hold.left with | some m => min m n | none => n))
        ∧ (x.hold.slot ≠ none → (t.die d.val).hold.left = x.hold.left))
      ∧ (x.jobOn d.val = false ∨ x.hold.closed = true →
          (t.die d.val).hold = { x.hold with seen := symbolKey v :: x.hold.seen }))
  ∧ (∀ (d : DieId) (port : Fin 32) (v : W64) (s : State),
    let x := s.die d.val
    x.inReset = false → hasPort d.val port.val = true → symbolGood v = true → bitsOf v 63 60 = 2 →
    bitsOf v 59 56 = 0 →
    x.hold.seen.contains (symbolKey v) = false → bitsOf v 15 8 = x.hold.seq.toNat → x.outside d.val port.val = false →
    ∃ t, exec (.releaseSymbolReceived d port v) s = .next t ∧ s.SameBut t d.val
      ∧ symbolKey v ∈ (t.die d.val).hold.seen
      ∧ (∀ j, x.hold.slot = some j → (t.die d.val).hold.releases
          = x.hold.releases ++ [(BitVec.ofNat 16 (bitsOf v 55 40), rebuild24 j (bitsOf v 39 16))])
      ∧ (x.hold.slot = none → (t.die d.val).hold.releases = x.hold.releases)
      ∧ ∀ p, (t.die d.val).link p = if p ∈ x.sliceLinks d.val ∧ p ≠ port.val then
          { x.link p with symbols := (x.link p).symbols ++ [v, v] } else x.link p)

/-- A scheduled flit that stands in a crossing queue into its tile's region, and whose turn at the fill port it is, leaves
the queue; where it fits its landing entry it is written to the tile's SRAM at its place, and the entry counts it; the
last one makes the entry VALID.
Commands that complete here: LANDING_FLIT_ARRIVAL. -/
def Obligations.LandingFlitIsWritten : Prop :=
  ∀ (r : TileRef) (h : Header) (i : Fin 64) (v : Flit) (s : State) (key : Nat) (f : QFlit) (before : List QFlit),
    let x := s.die r.die.val
    let y := s.tile r
    let e := y.landing (hLand h)
    x.inReset = false → x.jobOn r.die.val = true → hKind h = 0 → hDest h = r.tile.val →
    x.arriving r.tile.val h i.val v = some (key, f, before) →
    (∃ c, x.intake r.die.val r.tile.val f before = .onTime c ∨ x.intake r.die.val r.tile.val f before = .late c) →
    y.state = .running ∨ y.state = .held → y.flight = [] → y.ovfPend = [] → y.span = false ∨ hEpoch h ≠ 1 →
    hNull h = false → Mem.wf y.sram = true → y.landFault h i.val = 0 →
    ∃ t, exec (.landingFlitArrival r h i v) s = .next t
      ∧ (t.die r.die.val).queue key = removeFirst (· == f) (x.queue key)
      ∧ (∀ b, b < 64 → Mem.read (t.tile r).sram (64 * leBase e + 64 * i.val + b) = byteOf v.toNat b)
      ∧ (∀ a, a < 64 * leBase e + 64 * i.val ∨ 64 * leBase e + 64 * i.val + 64 ≤ a →
          Mem.read (t.tile r).sram a = Mem.read y.sram a)
      ∧ leState ((t.tile r).landing (hLand h)) = (if i.val = hLen h then 2 else 1)
      ∧ (t.tile r).counter tFlitsLanded = y.counter tFlitsLanded + 1
      ∧ (∀ k n, (t.tile r).readReg k n = y.readReg k n)
      ∧ ∀ u : TileRef, u ≠ r → t.tile u = s.tile u



/-! ## Epochs and stops -/

/-- ARM arms its action with its bank and time where nothing stands against it; ARM with ACTION 0 disarms.
Commands that complete here: EPOCH_ARM, EPOCH_CANCEL. -/
def Obligations.ArmingAndDisarming : Prop :=
  (∀ (d : DieId) (a : BitVec 2) (b : Bool) (s : State), (s.die d.val).inReset = false → a ≠ 0 →
    s.MayArm d.val a.toNat b →
    ∃ t, exec (.epochArm d a b) s = .next t ∧ s.SameBut t d.val
      ∧ (t.die d.val).armed = some ⟨a.toNat, b,
          ((s.die d.val).reg d.val rEpochSec).toNat * second + (s.die d.val).field d.val rEpochNs 29 0⟩
      ∧ (t.die d.val).field d.val rEpochCtrl 11 10 = a.toNat ∧ (t.die d.val).bit d.val rEpochCtrl 9 = b
      ∧ t.die d.val = { s.die d.val with armed := (t.die d.val).armed, regs := (t.die d.val).regs })
  ∧ ∀ (d : DieId) (s : State), (s.die d.val).inReset = false →
    ∃ t, exec (.epochCancel d) s = .next t ∧ s.SameBut t d.val ∧ (t.die d.val).armed = none
      ∧ t.die d.val = { s.die d.val with armed := none, regs := (t.die d.val).regs }

/-- START begins job beat 0 on the armed bank: every usable tile runs from its first word with its loops, budget and
landing entries as at a start, JOB and DONE are 1, and nothing is armed. SWITCH, where every tile has ended its beat
and the end of the slot stops nothing, ends the job in its beat and begins beat 0 of the next on the armed bank,
keeping a pending hold and the hold sequence; END leaves no job, no hold and no flits (the model's choice, log 87), and
the running tiles LOADED. A hold that stands at a switch or an end is over before (the model's reading, log 26).
Commands that complete here: EPOCH_START, EPOCH_SWITCH, EPOCH_END. -/
def Obligations.JobsStartSwitchAndEnd : Prop :=
  (∀ (d : DieId) (s : State) (a : Armed), (s.die d.val).inReset = false → s.boundary d.val = .start →
    s.evenHorizon = true → (s.die d.val).armed = some a →
    let u := s.passSlot d.val
    ∃ v : State, exec (.epochStart d) s = .next (v.openBeat d.val) ∧ (∀ e, e ≠ d.val → v.die e = u.die e)
      ∧ v.jobs = u.jobs + 1 ∧ (v.die d.val).jobOn d.val = true ∧ (v.die d.val).bit d.val rEpochCtrl 30 = true
      ∧ (v.die d.val).bank = a.target ∧ (v.die d.val).armed = none ∧ (v.die d.val).job = Job.reset
      ∧ (v.die d.val).queues = [] ∧ (v.die d.val).hold = Hold.reset
      ∧ (v.die d.val).timeNs = (u.die d.val).timeNs
      ∧ ∀ t ∈ (u.die d.val).tilesInUse d.val,
          (v.die d.val).tile t = ((u.die d.val).tile t).start a.target (u.jobs + 1)
          ∧ ((v.die d.val).tile t).state = .running ∧ ((v.die d.val).tile t).bc = 0
          ∧ ((v.die d.val).tile t).pc = (if a.target && !((u.die d.val).tile t).span then 4096 else 0))
  ∧ (∀ (d : DieId) (s : State),
    let w := ((s.passSlot d.val).endHoldFirst d.val).settleAll d.val
    let x := w.die d.val
    (s.die d.val).inReset = false → (s.die d.val).unfinished = false → s.strayWaits d.val = false →
    (∀ a : Armed, s.boundary d.val = .switch → (s.die d.val).armed = some a →
      (x.jobOn d.val = false → exec (.epochSwitch d) s = .next (w.openSlot d.val))
      ∧ (x.jobOn d.val = true →
        ∃ v : State, exec (.epochSwitch d) s = .next (v.openBeat d.val)
          ∧ v.jobs = w.jobs + 1 ∧ (v.die d.val).jobOn d.val = true ∧ (v.die d.val).bit d.val rEpochCtrl 30 = true
          ∧ (v.die d.val).bank = a.target ∧ (v.die d.val).armed = none ∧ (v.die d.val).job.beat = 0
          ∧ (v.die d.val).job.num = x.job.num + 1 ∧ (v.die d.val).job.base = x.job.base + x.job.beat + 1
          ∧ (v.die d.val).job.prevLast = some x.job.beat
          ∧ (v.die d.val).hold = { x.hold with left := x.hold.left.map (· - 1) }
          ∧ ∀ t ∈ x.tilesInUse d.val, (v.die d.val).tile t = (x.tile t).start a.target (w.jobs + 1)))
    ∧ (s.boundary d.val = .finish →
      (x.jobOn d.val = false → exec (.epochEnd d) s = .next (w.openSlot d.val))
      ∧ (x.jobOn d.val = true →
        ∃ v : State, exec (.epochEnd d) s = .next (v.openSlot d.val)
          ∧ (v.die d.val).jobOn d.val = false ∧ (v.die d.val).bit d.val rEpochCtrl 30 = true
          ∧ (v.die d.val).armed = none ∧ (v.die d.val).queues = [] ∧ (v.die d.val).relay = []
          ∧ (v.die d.val).hold.slot = none ∧ (v.die d.val).hold.left = none
          ∧ ∀ t y, tget x.tiles t = some y → y.state = .running →
              ∃ z, tget (v.die d.val).tiles t = some z ∧ z.state = .loaded)))
  ∧ ∀ (d : Nat) (s : State),
    ((s.die d).hold.slot = none → s.endHoldFirst d = s)
    ∧ ((s.die d).hold.slot ≠ none → ((s.endHoldFirst d).die d).hold.seq = (s.die d).hold.seq + 1
        ∧ ((s.endHoldFirst d).die d).hold.slot = none ∧ ((s.endHoldFirst d).die d).hold.left = none)

/-- A requested stop halts the die with KIND 0x3F and its own number; the first stop symbol that a die learns of halts
it with the symbol's class and origin; with no job, CLEAR makes the die ready again.
Commands that complete here: STOP, CLEAR, STOP_SYMBOL_RECEIVED. -/
def Obligations.StopsAndClear : Prop :=
  (∀ (d : DieId) (s : State), (s.die d.val).inReset = false → (s.die d.val).stopped = false →
    ∃ t, exec (.stop d) s = .next t ∧ (∀ e, e ≠ d.val → e ≠ 32 → t.die e = s.die e) ∧ (t.die d.val).Halted d.val
      ∧ (t.die d.val).reg d.val rStopInfo
          = BitVec.ofNat 64 (2 ^ 31 + 2 ^ 30 + 0x3F * 2 ^ 24 + 4 * 2 ^ 20 + s.dieNumber d.val)
      ∧ (t.die d.val).reg d.val rStopBeat = BitVec.ofNat 64 ((s.die d.val).job.beat % 2 ^ 48))
  ∧ (∀ (d : DieId) (port : Fin 32) (v : W64) (s : State), (s.die d.val).inReset = false →
    (s.die d.val).stopped = false → hasPort d.val port.val = true → symbolGood v = true → bitsOf v 63 60 = 3 →
    1 ≤ bitsOf v 59 56 → bitsOf v 59 56 ≤ 4 → (s.die d.val).hold.seen.contains (symbolKey v) = false →
    ∃ t, exec (.stopSymbolReceived d port v) s = .next t ∧ (∀ e, e ≠ d.val → e ≠ 32 → t.die e = s.die e)
      ∧ (t.die d.val).Halted d.val
      ∧ (t.die d.val).reg d.val rStopInfo
          = BitVec.ofNat 64 (2 ^ 31 + bitsOf v 59 56 * 2 ^ 20 + bitsOf v 55 40)
      ∧ (t.die d.val).reg d.val rStopBeat
          = BitVec.ofNat 64 (rebuild24 (s.die d.val).job.beat (bitsOf v 39 16) % 2 ^ 48))
  ∧ ∀ (d : DieId) (s : State), (s.die d.val).inReset = false → (s.die d.val).jobOn d.val = false →
    ∃ t, exec (.clear d) s = .next t ∧ s.SameBut t d.val ∧ (t.die d.val).stopped = false
      ∧ (t.die d.val).reg d.val rStopInfo = 0 ∧ (t.die d.val).reg d.val rStopBeat = 0
      ∧ (t.die d.val).reg d.val rStopDetail = 0
      ∧ (∀ k, tget (t.die d.val).tiles k = (tget (s.die d.val).tiles k).map Tile.cleared)
      ∧ (t.die d.val).links = (s.die d.val).links ∧ (t.die d.val).queues = (s.die d.val).queues



/-! ## Links -/

/-- A frame that arrives: what FEC corrected and could not correct is counted; a CONTROL entry with the expected number
and a good check is accepted, the expected number counts up, and an acknowledgement is due; one beyond the expected
number counts as out of order and asks for a NAK; one below it counts as a duplicate; an acknowledged entry leaves the
replay buffer. A replay timeout replays every unacknowledged entry in order, from the oldest; a full replay buffer
moves its oldest entries to the spill region, into the memory behind it.
Commands that complete here: FRAME_RECEIVED, REPLAY_TIMEOUT, SPILL_MOVE. -/
def Obligations.FramesReplayAndSpill : Prop :=
  ((∀ (d : DieId) (port : Fin 32) (f : RxFrame) (a : Placed) (s : State),
    let p := port.val
    let fabric := isFabricPort p
    let x := s.die d.val
    let l := x.link p
    let r := readFrame fabric f.bits
    let n := BitVec.ofNat 24 (bitsOf r.1.control 23 0)
    let x0 := if fabric then (x.lbump p lFecCorrected r.2.1).lbump p lFecUncorrectable r.2.2 else x
    x.inReset = false → hasPort d.val p = true → x.linkActive d.val p = true → PlainField fabric r.1.control →
    (placeEntries n r.1.headers r.1.entries).filter (·.entry.code.sequenced) = [a] → a.entry.code = .control →
    a.good fabric (badGroups fabric r.1 n) = true →
    (a.seq = l.rxSeq → exec (.frameReceived d port f) s = .next (s.setDie d.val
        (((x0.setLink p { l with rxSeq := l.rxSeq + 1, acked := true, nak := false }).lbump p lRxAccepted).acceptControl p
          a.entry.payload)))
    ∧ (a.seq ≠ l.rxSeq → (a.seq - l.rxSeq).toNat < 2 ^ 23 → exec (.frameReceived d port f) s
        = .next (s.setDie d.val ((x0.modLink p fun l => { l with nak := true }).lbump p lRxOutOfOrder)))
    ∧ (2 ^ 23 ≤ (a.seq - l.rxSeq).toNat →
        exec (.frameReceived d port f) s = .next (s.setDie d.val (x0.lbump p lRxDuplicate))))
  ∧ ∀ (l : Link) (a : BitVec 24) (e : TxEntry), e ∈ (l.ack a).buffer ↔
      e ∈ l.buffer ∧ 2 ^ 23 ≤ (a - e.seq).toNat)
  ∧ ((∀ (d : DieId) (port : Fin 32) (s : State) (e : TxEntry) (es : List TxEntry),
    let p := port.val
    let l := (s.die d.val).link p
    let again := fun (spilled : Bool) (es : List TxEntry) => es.map fun a =>
      ({ entry := a, again := true, catchUp := true, src := 4, spilled := spilled } : Waiting)
    (s.die d.val).inReset = false → (s.die d.val).linkActive d.val p = true → l.spill ++ l.buffer = e :: es →
    l.replayAt ≠ some (s.die d.val).timeNs →
    ∃ t, exec (.replayTimeout d port) s = .next t ∧ s.SameBut t d.val
      ∧ ((t.die d.val).link p).late = again true l.spill ++ again false l.buffer
          ++ ((l.late.filter (!·.again)).map fun w => { w with catchUp := true })
      ∧ ((t.die d.val).link p).replayFrom = some e.seq
      ∧ ((t.die d.val).link p).buffer = l.buffer ∧ ((t.die d.val).link p).spill = l.spill
      ∧ tgetD (t.die d.val).regs (rLink + 0x200 * p + lReplays) 0
          = tgetD (s.die d.val).regs (rLink + 0x200 * p + lReplays) 0 + 1
      ∧ tgetD (t.die d.val).regs (rLink + 0x200 * p + lReplayTimeouts) 0
          = tgetD (s.die d.val).regs (rLink + 0x200 * p + lReplayTimeouts) 0 + 1)
  ∧ ∀ (d : DieId) (port : Fin 32) (n : Nat) (s : State),
    let p := port.val
    let x := s.die d.val
    let l := x.link p
    let es := l.buffer.take n
    x.inReset = false → hasPort d.val p = true → isFabricPort p = true → bufferSize p ≤ l.buffer.length →
    0 < n → n ≤ l.buffer.length → l.spill.length + n ≤ spillSize → n ≤ x.spillRoom d.val p →
    (∀ e ∈ es, x.inBlackout (memGroup d.val (spillUnit d.val p e.seq)) = false) →
    ∃ t, exec (.spillMove d port n) s = .next t ∧ s.SameBut t d.val
      ∧ ((t.die d.val).link p).buffer = l.buffer.drop n ∧ ((t.die d.val).link p).spill = l.spill ++ es
      ∧ (t.die d.val).mem
          = (es.foldl (fun x e => x.writeUnit (spillUnit d.val p e.seq) e.payload) (x.spillUse p n)).mem
      ∧ tgetD (t.die d.val).regs (rLink + 0x200 * p + lSpilled) 0
          = tgetD x.regs (rLink + 0x200 * p + lSpilled) 0 + BitVec.ofNat 64 n
      ∧ ∀ q, q ≠ p → (t.die d.val).link q = x.link q)

/-- With no job, an active link whose lock stayed lost, that meets the far end's training pattern, or whose RETRAIN is
written goes to phase 0 and trains, and counts it; DISABLE holds it in phase 0, and releases it to train, but a fabric
port whose transmitters are off stays down.
Commands that complete here: LINK_DOWN, TRAINING_PATTERN_RECEIVED, RETRAIN, DISABLE. -/
def Obligations.LinksReset : Prop :=
  ∀ (d : DieId) (port : Fin 32) (s : State),
    let p := port.val
    let x := s.die d.val
    let retrains := rLink + 0x200 * p + lRetrains
    x.Free d.val p →
    (x.linkActive d.val p = true →
      (∃ t, exec (.trainingPatternReceived d port) s = .next t ∧ s.LinkGone t d.val p stTraining
        ∧ tgetD (t.die d.val).regs retrains 0 = tgetD x.regs retrains 0 + 1)
      ∧ (∃ t, exec (.retrain d port) s = .next t ∧ s.LinkGone t d.val p stTraining
        ∧ tgetD (t.die d.val).regs retrains 0 = tgetD x.regs retrains 0 + 1)
      ∧ ((x.link p).lockLostAt ≠ none →
        ∃ t, exec (.linkDown d port) s = .next t ∧ s.LinkGone t d.val p stTraining
          ∧ tgetD (t.die d.val).regs retrains 0 = tgetD x.regs retrains 0 + 1
          ∧ tgetD (t.die d.val).regs (rLink + 0x200 * p + lLinkDowns) 0
              = tgetD x.regs (rLink + 0x200 * p + lLinkDowns) 0 + 1
          ∧ ∃ e es, (t.die d.val).log = e :: es ∧ e.code = 0x50 ∧ e.detail = BitVec.ofNat 64 p))
    ∧ (x.linkState d.val p ≠ stDisabled →
      ∃ t, exec (.disable d port true) s = .next t ∧ s.LinkGone t d.val p stDisabled
        ∧ (t.die d.val).lfield d.val p lCtrl 30 30 = 1)
    ∧ (x.linkState d.val p = stDisabled →
      ∃ t, exec (.disable d port false) s = .next t ∧ s.SameBut t d.val
        ∧ (t.die d.val).linkState d.val p = (if s.heldOff p then stDown else stTraining)
        ∧ (t.die d.val).linkPhase d.val p = 0
        ∧ (t.die d.val).lfield d.val p lCtrl 30 30 = 0 ∧ (t.die d.val).links = x.links)

/-- Training passes from phase to phase: a fabric port learns its lanes in phase 1, phase 4 sends what the far end must
know and takes what it sent, and phase 5 sends the stamps of its 64 measurements and makes the link active, with their
mean as the delay (rounded down, the model's choice, log 82); a phase that exceeds its limit leaves the link down until training restarts, but a fabric port that hears nothing stays
in phase 1.
Commands that complete here: SYMBOL_LOCK_LOST, SYMBOL_LOCK_RETURNED, TRAINING_PHASE_COMPLETE, TRAINING_PHASE_TIMEOUT,
TRAINING_RESTART, TRAINING_PATTERN_RECEIVED, FAR_DIE_RESET. -/
def Obligations.TrainingPassesThroughItsPhases : Prop :=
  ∀ (d : DieId) (port : Fin 32) (s : State),
    let p := port.val
    let x := s.die d.val
    x.inReset = false → hasPort d.val p = true → s.heldOff p = false →
    (x.linkState d.val p = stTraining →
      (∀ k r, (k = 0 ∧ r = PhaseResult.plain) ∨ (k = 1 ∧ isFabricPort p = true ∧ ∃ lock, r = .lanes lock)
          ∨ (k = 2 ∧ r = .plain) ∨ (k = 4 ∧ ∃ far, r = .exchange far) →
        x.linkPhase d.val p = k →
        ∃ t, exec (.trainingPhaseComplete d port r) s = .next t ∧ s.SameBut t d.val
          ∧ (t.die d.val).linkState d.val p = stTraining ∧ (t.die d.val).linkPhase d.val p = k + 1
          ∧ (∀ lock, r = .lanes lock → (t.die d.val).lfield d.val p lStatus 7 0 = lock.toNat)
          ∧ (∀ far, r = .exchange far → isFabricPort p = true →
              (t.die d.val).reg d.val (rEgress + 0x80 * p + 0x38) = BitVec.ofNat 64 (2 ^ 31 + far.moduleNum.toNat)))
      ∧ (isFabricPort p = false → x.linkPhase d.val p = 1 →
        ∃ t, exec (.trainingPhaseComplete d port .plain) s = .next t ∧ s.SameBut t d.val
          ∧ (t.die d.val).linkState d.val p = stTraining ∧ (t.die d.val).linkPhase d.val p = 3)
      ∧ (x.linkPhase d.val p = 3 →
        ∃ t, exec (.trainingPhaseComplete d port .plain) s = .next t ∧ t.sent = .exchange d.val p (x.ownEnd d.val p) :: s.sent
          ∧ (∀ e, e ≠ d.val → t.die e = s.die e) ∧ (t.die d.val).links = x.links
          ∧ (t.die d.val).linkState d.val p = stTraining ∧ (t.die d.val).linkPhase d.val p = 4)
      ∧ (x.linkPhase d.val p = 5 → ∀ ms : List Measure, ms.length = 64 →
        ∃ t, exec (.trainingPhaseComplete d port (.measure ms)) s = .next t
          ∧ t.sent = .stamps d.val p (ms.map (·.own)) :: s.sent ∧ (∀ e, e ≠ d.val → t.die e = s.die e)
          ∧ (t.die d.val).linkActive d.val p = true
          ∧ (t.die d.val).reg d.val (rLink + 0x200 * p + lDelay)
              = BitVec.ofNat 64 (2 ^ 31 + (ms.map (·.delay)).sum / 64 % 2 ^ 24))
      ∧ (isFabricPort p = true → x.linkPhase d.val p = 1 → (x.link p).heard = false →
        exec (.trainingPhaseTimeout d port) s = .next s)
      ∧ (isFabricPort p = false ∨ x.linkPhase d.val p ≠ 1 ∨ (x.link p).heard = true →
        ∃ t, exec (.trainingPhaseTimeout d port) s = .next t ∧ s.SameBut t d.val
          ∧ (t.die d.val).linkState d.val p = stDown ∧ (t.die d.val).linkPhase d.val p = 0
          ∧ tgetD (t.die d.val).regs (rLink + 0x200 * p + lTrainFailures) 0
              = tgetD x.regs (rLink + 0x200 * p + lTrainFailures) 0 + 1))
    ∧ (x.linkState d.val p = stTraining → x.linkActive d.val p = false →
      ∃ t, exec (.trainingPatternReceived d port) s = .next t ∧ s.SameBut t d.val
        ∧ (t.die d.val).link p = { x.link p with heard := true })
    ∧ (x.linkState d.val p = stDown →
      ∃ t, exec (.trainingRestart d port) s = .next t ∧ s.SameBut t d.val
        ∧ (t.die d.val).linkState d.val p = stTraining ∧ (t.die d.val).linkPhase d.val p = 0)
    ∧ (x.linkActive d.val p = true → (x.link p).lockLostAt = none →
      ∃ t, exec (.symbolLockLost d port) s = .next t ∧ s.SameBut t d.val
        ∧ (t.die d.val).link p = { x.link p with lockLostAt := some x.timeNs })
    ∧ (x.linkActive d.val p = true →
      ∃ t, exec (.symbolLockReturned d port) s = .next t ∧ s.SameBut t d.val
        ∧ (t.die d.val).link p = { x.link p with lockLostAt := none })
    ∧ (isFabricPort p = false →
      ∃ t, exec (.farDieReset d port) s = .next t ∧ s.SameBut t d.val
        ∧ (t.die d.val).lfield d.val p lStatus 25 25 = 1 ∧ (t.die d.val).links = x.links
        ∧ (t.die d.val).linkState d.val p = x.linkState d.val p)



/-! ## Control plane -/

/-- READ, WRITE and the three additions at a place in a tile's data SRAM, with no job: READ answers with the bytes and
changes none, WRITE stores its data, and an addition stores the sum and answers with the value before; every other
byte and every other die keeps its value.
Commands that complete here: READ, WRITE, ADD_I32, ADD_I64, ADD_F32. -/
def Obligations.AccessesToTileMemory : Prop :=
  ∀ (op : CpOp) (d : DieId) (q : Request) (s : State) (t o : Nat),
    let old := Mem.readBytes ((s.die d.val).tile t).sram o (op.size q)
    (s.die d.val).inReset = false → (s.die d.val).jobOn d.val = false → s.accessStatus d.val op q = 0 →
    placeOf d.val (reqOff q) = some (.sram t o) → (op = .write → 4 ≤ q.length) →
    Mem.wf ((s.die d.val).tile t).sram = true →
    ∃ u : State, exec (op.command d q) s = .next (u.respond d.val op.opcode q 0
          (if op.isAdd then BitVec.ofNat 64 (leNat old) else 0) (if op = .read then old else []))
      ∧ (∀ e, e ≠ d.val → u.die e = s.die e)
      ∧ (∀ i, i < op.size q → Mem.read ((u.die d.val).tile t).sram (o + i) =
          (match op with
            | .read => old
            | .write => q.data
            | _ => op.sum (leNat old) q.imm).getD i 0)
      ∧ (∀ a, a < o ∨ o + op.size q ≤ a →
          Mem.read ((u.die d.val).tile t).sram a = Mem.read ((s.die d.val).tile t).sram a)
      ∧ ∀ k, k ≠ t → (u.die d.val).tile k = (s.die d.val).tile k

/-- A request whose access the address map, the gating or the width does not allow changes nothing but the packets
delivered and is answered with the status that says why; with a job on the die an access to a tile window waits for
a maintenance beat. -/
def Obligations.AccessesTurnedAwayOrDeferred : Prop :=
  ∀ (op : CpOp) (d : DieId) (q : Request) (s : State), (s.die d.val).inReset = false →
    (s.accessStatus d.val op q ≠ 0 →
      exec (op.command d q) s
        = .next ((s.takeRequest d.val op.opcode q).respond d.val op.opcode q (s.accessStatus d.val op q) 0 []))
    ∧ (∀ a t, s.accessStatus d.val op q = 0 → placeOf d.val (reqOff q) = some a → a.tile = some t →
        (s.die d.val).jobOn d.val = true →
      ∃ u, exec (op.command d q) s = .next u ∧ s.SameBut u d.val
        ∧ (u.die d.val).deferred = (s.die d.val).deferred ++ [.packet ⟨op, q⟩]
        ∧ (u.die d.val).tiles = (s.die d.val).tiles)

/-- A control packet goes on by its route: to its own die, among those that wait for its egress, or it is turned away: a
request that cannot go on is answered with the status of its route and one that its destination refuses with status 8
by its own return route, both counted, and another packet is dropped and counted; one that a die originates carries the
table version of that die, and the response to its request is awaited. One that has waited too long at the head of a
VC0 queue moves to VC1 of its escape egress and is counted. A MESSAGE
packet for E-die 32 joins the queue of its management core, and one that comes while no management is served is
answered as busy (the model's choice, log 33); an MGMT packet between E-dies reaches its core; both leave the packets
delivered.
Commands that complete here: CONTROL_PACKET_ARRIVAL, ESCAPE_TIMEOUT, MESSAGE, MGMT. -/
def Obligations.ControlPacketsAndMessages : Prop :=
  ((∀ (d : DieId) (p : ControlPacket) (s : State), (s.die d.val).inReset = false → cpClean p = true →
    (cpHeader p).opcode ≠ 0x40 → p.data.length = cDlen p →
    let x := s.die d.val
    let o := cpOriginated (x.field d.val rCpCtrl 0 0) p
    (∀ e q esc, s.cpRoute d.val o = .out e q esc →
      ∃ t, exec (.controlPacketArrival d none p) s = .next t ∧ s.SameBut t d.val
        ∧ ((t.die d.val).link e).ctl = insertCp ⟨q, cpSelf, x.cpTaken, none⟩ (x.link e).ctl
        ∧ (t.die d.val).outstanding
            = (if cpRequest (cpHeader o) && (cpHeader o).src == s.dieNumber d.val then
                x.outstanding ++ [⟨BitVec.ofNat 16 (cpHeader o).tag, none, false⟩] else x.outstanding)
        ∧ ∀ k, k ≠ e → (t.die d.val).link k = x.link k)
    ∧ (∀ st, s.cpRoute d.val o = .error st → cpRequest (cpHeader o) = false →
      ∃ t, exec (.controlPacketArrival d none p) s = .next t ∧ s.SameBut t d.val
        ∧ tgetD (t.die d.val).regs rCpDropped 0 = tgetD x.regs rCpDropped 0 + 1
        ∧ (t.die d.val).links = x.links ∧ (t.die d.val).delivered = x.delivered)
    ∧ (∀ st, s.cpRoute d.val o = .error st → cpRequest (cpHeader o) = true →
      ∃ u : State, exec (.controlPacketArrival d none p) s
            = .next (u.cpSend d.val (errorResponse (cpHeader o) (s.dieNumber d.val) st false))
        ∧ s.SameBut u d.val ∧ (u.die d.val).links = x.links ∧ (u.die d.val).delivered = x.delivered
        ∧ tgetD (u.die d.val).regs rCpErrors 0 = tgetD x.regs rCpErrors 0 + 1)
    ∧ (∀ port : Fin 32, hasPort d.val port.val = true →
        s.cpRoute d.val p = .deliver → cpGood p = false → cpRequest (cpHeader p) = true →
      ∃ u : State, exec (.controlPacketArrival d (some port) p) s
            = .next (u.cpSend d.val (errorResponse (cpHeader p) (s.dieNumber d.val) 8 true))
        ∧ s.SameBut u d.val ∧ (u.die d.val).delivered = x.delivered
        ∧ tgetD (u.die d.val).regs rCpErrors 0 = tgetD x.regs rCpErrors 0 + 1)
    ∧ (s.cpRoute d.val o = .deliver → cpGood o = true → (cpHeader o).tc = 2 → 0x80 ≤ (cpHeader o).opcode →
      ∃ t, exec (.controlPacketArrival d none p) s = .next t ∧ s.SameBut t d.val
        ∧ (t.die d.val).delivered = x.delivered ++ [o]
        ∧ tgetD (t.die d.val).regs rCpDelivered 0 = tgetD x.regs rCpDelivered 0 + 1
        ∧ (t.die d.val).links = x.links)
    ∧ ∀ (port : Fin 32) (e : Nat) (q : ControlPacket) (esc : Bool), hasPort d.val port.val = true →
      s.cpRoute d.val p = .out e q esc →
      ∃ t, exec (.controlPacketArrival d (some port) p) s = .next t ∧ s.SameBut t d.val
        ∧ ((t.die d.val).link e).ctl = insertCp ⟨q, port.val, x.cpTaken, none⟩ (x.link e).ctl
        ∧ (t.die d.val).outstanding = x.outstanding)
  ∧ ∀ (d : DieId) (port : Fin 32) (c : CpWait) (s : State),
    let x := s.die d.val
    let e := escapeEgress (s.dieNumber d.val) (cpHeader c.pkt).dst
    x.inReset = false → hasPort d.val port.val = true → x.overdue d.val port.val = some c →
    x.egressStatus d.val e = 0 → e ≠ port.val →
    ∃ t, exec (.escapeTimeout d port) s = .next t ∧ s.SameBut t d.val
      ∧ ((t.die d.val).link port.val).ctl = removeFirst (· == c) (x.link port.val).ctl
      ∧ ((t.die d.val).link e).ctl
          = insertCp { c with pkt := cpHopped c.pkt (cpHeader c.pkt).hop (cpHeader c.pkt).hops 1, headAt := none }
            (x.link e).ctl
      ∧ tgetD (t.die d.val).regs (rLink + 0x200 * e + lEscaped) 0
          = tgetD x.regs (rLink + 0x200 * e + lEscaped) 0 + 1)
  ∧ ((∀ (q : Request) (s : State), (s.die 32).inReset = false → s.mgmtOn = true → s.mgmt.queue.length < 8 →
    4 ≤ q.data.length → knownMessage (q.data.getD 0 0) = true →
    ∃ t, exec (.message 32 q) s = .next t
      ∧ t.mgmt.queue = queueReq ⟨s.nowNs 32 / 1000, q.data.getD 0 0,
          { path := .control, tag := q.data.getD 1 0, args := q.data.drop 4 }, some q⟩ s.mgmt.queue
      ∧ t.mgmt = { s.mgmt with queue := t.mgmt.queue } ∧ (∀ e, e ≠ 32 → t.die e = s.die e)
      ∧ t.sent = s.sent)
  ∧ (∀ (q : Request) (s : State), (s.die 32).inReset = false → s.mgmtOn = false →
    exec (.message 32 q) s = .next ((s.takeRequest 32 0x10 q).mgmtReply (q.data.getD 0 0)
      { path := .control, tag := q.data.getD 1 0, args := q.data.drop 4 } (some q) 0x83 []))
  ∧ ∀ (d : DieId) (q : Request) (s : State), (s.die d.val).inReset = false → isEDie d.val = true →
    32 ≤ q.src.toNat % 64 → q.src.toNat % 64 < 40 →
    ∃ t, exec (.mgmt d q) s = .next t ∧ t.sent = .mgmtPacket d.val q :: s.sent
      ∧ (∀ e, e ≠ d.val → t.die e = s.die e)
      ∧ t.die d.val = { s.die d.val with delivered := (t.die d.val).delivered })

/-- A response, or a timeout with status 9, ends the request whose tag it carries; a host's access through the fabric
window is answered, with all ones and FAB_LAST_ERR where it failed. An aligned access of 4 or 8 bytes in BAR2
becomes one request of the port's E-die, which is then outstanding under the next tag; in recovery it reads or
writes the recovery buffer instead.
Commands that complete here: CONTROL_RESPONSE_ARRIVAL, REQUEST_TIMEOUT, BAR2_READ, BAR2_WRITE. -/
def Obligations.FabricWindowAndRequestEnds : Prop :=
  (∀ (d : DieId) (s : State) (o : Outstanding), o.shard = false →
    (∀ r : Response, (s.die d.val).inReset = false →
      ((s.die d.val).outstanding.find? (·.tag == r.tag)) = some o →
      ∃ t, exec (.controlResponseArrival d r) s = .next t
        ∧ (t.die d.val).outstanding = removeFirst (· == o) (s.die d.val).outstanding
        ∧ (o.host = none → s.SameBut t d.val)
        ∧ (∀ p size, o.host = some (p, true, size) → r.status = 0 →
            t.sent = .bar2 p (BitVec.ofNat 64 (leNat (r.data.take size))) :: s.sent)
        ∧ (∀ p read size, o.host = some (p, read, size) → r.status ≠ 0 →
            (t.port p).reg bFabLastErr = BitVec.ofNat 64 r.status.toNat
            ∧ (read = true → t.sent = .bar2 p (BitVec.ofNat 64 (2 ^ (8 * min size 8) - 1)) :: s.sent)))
    ∧ ∀ tag : BitVec 16, ((s.die d.val).outstanding.find? (·.tag == tag)) = some o →
      ∃ t, exec (.requestTimeout d tag) s = .next t
        ∧ (t.die d.val).outstanding = removeFirst (· == o) (s.die d.val).outstanding
        ∧ tgetD (t.die d.val).regs rCpTimedOut 0 = tgetD (s.die d.val).regs rCpTimedOut 0 + 1
        ∧ (∀ p read size, o.host = some (p, read, size) →
            (t.port p).reg bFabLastErr = 9
            ∧ (read = true → t.sent = .bar2 p (BitVec.ofNat 64 (2 ^ (8 * min size 8) - 1)) :: s.sent)))
  ∧ (∀ (p : Fin 2) (off : BitVec 28) (size : Nat) (w : W64) (s : State),
    let x := s.die (32 + p.val)
    s.germ.rails = .on → size = 4 ∨ size = 8 → off.toNat % size = 0 →
    (s.inRecovery = false → x.inReset = false →
      (∃ u : State, exec (.bar2Read p off size) s
            = .next (u.cpForward (32 + p.val) cpSelf (windowRequest s p off.toNat size none))
        ∧ s.SameBut u (32 + p.val) ∧ (u.die (32 + p.val)).nextTag = x.nextTag + 1
        ∧ (u.die (32 + p.val)).outstanding = x.outstanding ++ [⟨x.nextTag, some (p, true, size), false⟩])
      ∧ ∃ u : State, exec (.bar2Write p off size w) s
            = .next (u.cpForward (32 + p.val) cpSelf (windowRequest s p off.toNat size (some w)))
        ∧ s.SameBut u (32 + p.val) ∧ (u.die (32 + p.val)).nextTag = x.nextTag + 1
        ∧ (u.die (32 + p.val)).outstanding = x.outstanding ++ [⟨x.nextTag, some (p, false, size), false⟩])
    ∧ (s.inRecovery = true → off.toNat < 0x800000 →
      exec (.bar2Read p off size) s
          = .next (s.emit (.bar2 p (BitVec.ofNat 64 (leNat (Mem.readBytes (s.port p).recovery off.toNat size)))))
      ∧ (s.fwStatus = 0 → Mem.wf (s.port p).recovery = true →
          ∃ t, exec (.bar2Write p off size w) s = .next t ∧ t.dies = s.dies
            ∧ (∀ i, i < size → Mem.read (t.port p).recovery (off.toNat + i) = BitVec.ofNat 8 (w.toNat / 256 ^ i))
            ∧ ∀ a, a < off.toNat ∨ off.toNat + size ≤ a →
                Mem.read (t.port p).recovery a = Mem.read (s.port p).recovery a)))



/-! ## Fabric time -/

/-- With no job SET loads every die with the given time, at its slot; a job refuses it and the refusal counts.
STEP_ALLOW permits one step; another SOURCE forgets the master and leaves LOCKED for HOLDOVER; a source without a valid
sample for its time is lost, which is HOLDOVER; the 10 MHz reference and the 1PPS pulse, at whole seconds and in P3 by
the germ's time, show on their pins.
Commands that complete here: PPS_OUT_SECOND, REFERENCE_10M_CHANGE, SERVO_SOURCE_LOST, SET, STEP_ALLOW, SOURCE_WRITE,
PPS_OUT_PULSE_END. -/
def Obligations.TimeIsSetAndLost : Prop :=
  (∀ (s : State), (s.die 32).inReset = false →
    let total := ((s.die 32).reg 32 rSetSec).toNat * second + (s.die 32).field 32 rSetNs 29 0
    (s.anyJob = false → ∃ t, exec .set s = .next t
      ∧ (∀ d, d < 40 → (t.die d).sec = BitVec.ofNat 64 (total / second)
          ∧ (t.die d).ns = total % second / 16 * 16 ∧ (t.die d).tiles = (s.die d).tiles)
      ∧ t.servoState = (if s.source = 3 then svFreeRun else svAcquiring))
    ∧ (s.anyJob = true → ∃ t, exec .set s = .next t ∧ s.SameBut t 32
      ∧ tgetD (t.die 32).regs rStepsRefused 0 = tgetD (s.die 32).regs rStepsRefused 0 + 1
      ∧ ∀ d, (t.die d).timeNs = (s.die d).timeNs)
    ∧ (∃ t, exec .stepAllow s = .next t ∧ t = { s with servo := { s.servo with stepAllow := true } })
    ∧ ∀ v : BitVec 2, v.toNat ≠ s.source → ∃ t, exec (.sourceWrite v) s = .next t
      ∧ t.source = v.toNat ∧ t.servo.master = none ∧ t.servo.acc = s.servo.acc
      ∧ t.servoState = (if v.toNat = 3 then svFreeRun
          else if s.servoState = svFreeRun ∨ s.servoState = svAcquiring then svAcquiring else svHoldover)
      ∧ ∀ e, e ≠ 32 → t.die e = s.die e)
  ∧ (∀ s : State, s.source ≠ 3 → s.servoState = svAcquiring ∨ s.servoState = svLocked →
    (s.die 32).inReset = false → s.servo.lastSample + sourceWait s.source ≤ (s.die 32).timeNs →
    ∃ t, exec .servoSourceLost s = .next t ∧ t.servoState = svHoldover ∧ t.servo.adj = s.servo.acc
      ∧ (t.die 32).field 32 rServoStatus 27 25 = 2
      ∧ tgetD (t.die 32).regs rHoldovers 0 = tgetD (s.die 32).regs rHoldovers 0 + 1
      ∧ ∀ e, e ≠ 32 → t.die e = s.die e)
  ∧ (∀ (b : Bool) (s : State), s.servo.ref10m ≠ b →
    ∃ t, exec (.reference10mChange b) s = .next t ∧ t.servo = { s.servo with ref10m := b }
      ∧ (t.die 32).bit 32 rServoStatus 28 = b ∧ (∀ e, e ≠ 32 → t.die e = s.die e)
      ∧ ∃ e es, (t.die 32).log = e :: es ∧ e.code = 0x63 ∧ e.detail = BitVec.ofNat 64 b.toNat)
  ∧ (∀ s : State, (s.die 32).bit 32 rPpsCtrl 31 = true →
    ((s.die 32).inReset = false → (s.die 32).ns = 0 → s.servo.ppsHigh = false →
      exec .ppsOutSecond s = .next { s with
        servo := { s.servo with ppsHigh := true, ppsAt := (s.die 32).timeNs }, sent := .pps true :: s.sent })
    ∧ (s.germOnly = true → (s.die 32).timeNs / second + 1 < 2 ^ 64 →
      ∃ t, exec .ppsOutSecond s = .next t ∧ t.sent = .pps true :: s.sent ∧ t.servo.ppsHigh = true
        ∧ (t.die 32).timeNs = ((s.die 32).timeNs / second + 1) * second ∧ ∀ e, e ≠ 32 → t.die e = s.die e))
  ∧ ∀ s : State, s.servo.ppsHigh = true →
    s.servo.ppsAt + (s.die 32).field 32 rPpsCtrl 23 16 * 1000000 ≤ (s.die 32).timeNs →
    exec .ppsOutPulseEnd s
      = .next { s with servo := { s.servo with ppsHigh := false }, sent := .pps false :: s.sent }

/-- The servo takes a sample from the edge of 1PPS IN, and from a Sync of IEEE 1588 of its domain once its origin and the
mean path delay are known, whichever message brings the last of these; until then what has come is kept. The offset is
that of the default calculation of IEEE 1588, halves rounded down (the model's choice, log 14); a message of another
domain changes nothing.
Commands that complete here: PTP_SYNC_RECEIVED, PPS_IN_EDGE, PTP_FOLLOW_UP_RECEIVED, PTP_DELAY_RESP_RECEIVED. -/
def Obligations.SamplesDriveTheServo : Prop :=
  ∀ s : State, (s.die 32).inReset = false → s.servoState = svAcquiring ∨ s.servoState = svLocked →
    (s.source = 2 → ∀ arrival : Stamp,
      let n : Int := arrival.sixteenths
      ∃ t, exec (.ppsInEdge arrival) s = .next t ∧ s.Sampled t
        ((if 500000000 * 16 ≤ n then n - second * 16 else n) - (s.die 32).field 32 rPpsCtrl 15 0 * 16))
    ∧ (∀ (dom : Byte) (q : BitVec 16) (origin arrival reqTx reqRx : Stamp), s.ptpTakes dom = true →
      (s.source = 1 →
        (∀ delay, s.servo.ptpDelay = some delay →
          (∃ t, exec (.ptpSyncReceived true ⟨dom, q⟩ origin arrival) s = .next t
            ∧ s.Sampled t (ptpTheta origin arrival delay) ∧ t.servo.ptpSync = none)
          ∧ (s.servo.ptpSync = some (q, arrival, none) →
            ∃ t, exec (.ptpFollowUpReceived ⟨dom, q⟩ origin) s = .next t
              ∧ s.Sampled t (ptpTheta origin arrival delay) ∧ t.servo.ptpSync = none))
        ∧ (s.servo.ptpSync = some (q, arrival, some origin) → s.servo.ptpLast = some (origin, arrival) →
          ∃ t, exec (.ptpDelayRespReceived dom ⟨reqTx, reqRx⟩) s = .next t
            ∧ s.Sampled t (ptpTheta origin arrival (ptpMean origin arrival reqTx reqRx))
            ∧ t.servo.ptpDelay = some (ptpMean origin arrival reqTx reqRx)))
      ∧ exec (.ptpSyncReceived false ⟨dom, q⟩ origin arrival) s
          = .next { s with servo := { s.servo with ptpSync := some (q, arrival, none) } }
      ∧ (s.servo.ptpSync = none → s.servo.ptpLast = some (origin, arrival) →
          exec (.ptpDelayRespReceived dom ⟨reqTx, reqRx⟩) s
            = .next { s with servo := { s.servo with ptpDelay := some (ptpMean origin arrival reqTx reqRx) } }))
    ∧ ∀ (dom : Byte) (oneStep : Bool) (q : BitVec 16) (origin arrival : Stamp), s.ptpTakes dom = false →
        exec (.ptpSyncReceived oneStep ⟨dom, q⟩ origin arrival) s = .next s



/-- A time exchange whose packet passes its CHECK counts on an active link, and the link keeps its number, its arrival
and, when the far end was not in a hold, its job beat, unless a later one of no later beat makes it moot (R498); on a
fabric port monitored by its table a good one within 6 ns shows its offset. One whose packet fails its CHECK is dropped
and counted, and the link keeps what it had.
Commands that complete here: TIME_EXCHANGE_RECEIVED. -/
def Obligations.ExchangesAreRecorded : Prop :=
  ∀ (d : DieId) (port : Fin 32) (epoch : Bool) (f : Flit) (arrival : Stamp) (s : State),
    let p := port.val
    let x := s.die d.val
    let e : Exchange := { jobBeat := nearest48 x.job.beat (xBeat f), hseq := BitVec.ofNat 8 (xHseq f)
                          jobnum := BitVec.ofNat 8 (xJobNum f), job := xJob f, held := xHeld f }
    let asym : Int := sextInt 16 ((s.die 32).field 32 (rPortAsym + 4 * (p - 16)) 15 0)
    let theta : Int := (Stamp.total (x.link p).rxStamp : Int) - xPrevTx f
      - 4 * bitsOf (x.lreg d.val p lDelay) 23 0 - asym
    let packet := (x.link p).arrived.findSome? fun b => b.2.find? fun c => cField c 389 382 == 0x40 && c.data == [f]
    x.inReset = false → hasPort d.val p = true → x.linkActive d.val p = true →
    (packet.any (!cpGood ·) = true →
      ∃ t, exec (.timeExchangeReceived d port epoch f arrival) s = .next t ∧ s.SameBut t d.val
        ∧ tgetD (t.die d.val).regs rCpDropped 0 = tgetD x.regs rCpDropped 0 + 1
        ∧ ((t.die d.val).link p).rxXseq = (x.link p).rxXseq
        ∧ ((t.die d.val).link p).exchanges = (x.link p).exchanges)
    ∧ (packet.all cpGood = true →
    isFabricPort p = false ∨ s.role epoch (p - 16) = 1 ∧ (s.die 32).inReset = false ∧ theta.natAbs ≤ 96 →
    ∃ t, exec (.timeExchangeReceived d port epoch f arrival) s = .next t
      ∧ ((t.die d.val).link p).rxXseq = some (BitVec.ofNat 16 (xXseq f))
      ∧ ((t.die d.val).link p).rxStamp = arrival
      ∧ ((t.die d.val).link p).exchanges = noteExchange e (x.link p).exchanges
      ∧ tgetD (t.die d.val).regs rExchRecv 0 = tgetD x.regs rExchRecv 0 + 1
      ∧ (∀ n, (x.link p).rxXseq = some n → BitVec.ofNat 16 (xXseq f) = n + 1 → xResent f = false →
          bitOf (x.lreg d.val p lDelay) 31 = true → xSteps f ≠ 15 → isFabricPort p = true →
          (t.die 32).reg 32 (rPortOffset + 4 * (p - 16)) = BitVec.ofNat 64 (2 ^ 31 + (BitVec.ofInt 24 theta).toNat))
      ∧ ∀ k, k ≠ d.val → k ≠ 32 → t.die k = s.die k)

/-! ## Registers and snapshots -/

/-- A write of a register stores the bits that its map names and no other register: a die's register, MODULE_NUM while
no image is resident, a tile's allocation window while its image does not run, and FAB_WIN of a host port; while a job
runs a write of a tile's register waits for a maintenance beat. Reading a register answers with the value from before, clears its read-clear fields and changes nothing else.
Commands that complete here: READ_CLEAR, MODULE_NUM_WRITE, REGISTER_WRITE. -/
def Obligations.RegistersAreWrittenAndRead : Prop :=
  ((∀ (d : DieId) (off : BitVec 24) (r : RegInfo) (v : W64) (s : State), (s.die d.val).inReset = false →
    off.toNat ∈ plainRegs → dieReg d.val off.toNat = some r → v &&& ~~~r.rw = 0 →
    (off.toNat = rSnapSec ∨ off.toNat = rSnapNs → (s.die d.val).bit d.val rSnapCtrl 31 = false) →
    ∃ t, exec (.registerWrite (.die d off) r.wide v) s = .next t ∧ s.SameBut t d.val
      ∧ (t.die d.val).reg d.val off.toNat = ((s.die d.val).reg d.val off.toNat &&& ~~~r.rw) ||| v
      ∧ (∀ o, o ≠ off.toNat → (t.die d.val).reg d.val o = (s.die d.val).reg d.val o)
      ∧ t.die d.val = { s.die d.val with regs := (t.die d.val).regs })
  ∧ (∀ (d : DieId) (v : W32) (s : State), (s.die d.val).inReset = false → v &&& ~~~0x83FF00FF = 0 →
    ∃ t, exec (.moduleNumWrite d v) s = .next t ∧ s.SameBut t d.val
      ∧ (s.imageResident = false → t.moduleNum d.val = bitsOf v 25 16)
      ∧ (s.imageResident = true → t.moduleNum d.val = s.moduleNum d.val
          ∧ (t.die d.val).bit d.val rDieId 31 = true)
      ∧ ∀ o, o ≠ rDieId → (t.die d.val).reg d.val o = (s.die d.val).reg d.val o)
  ∧ (∀ (r : TileRef) (v : W64) (s : State), (s.die r.die.val).inReset = false →
    gatedTile ((s.die r.die.val).reg r.die.val rSpareMap) r.tile.val = false →
    v &&& ~~~(maskOf 28 16 ||| maskOf 12 0) = 0 →
    ((s.die r.die.val).jobOn r.die.val = false → (s.tile r).inUse = false →
      ∃ t, exec (.registerWrite (.tile r (BitVec.ofNat 16 tAlloc0)) false v) s = .next t
        ∧ ∃ w : W32, t = s.setTile r { s.tile r with alloc0 := w } ∧ bitsOf w 28 16 = bitsOf v 28 16
          ∧ bitsOf w 12 0 = bitsOf v 12 0)
    ∧ ((s.die r.die.val).jobOn r.die.val = true →
      exec (.registerWrite (.tile r (BitVec.ofNat 16 tAlloc0)) false v) s
        = .next (s.setDie r.die.val { s.die r.die.val with
            deferred := (s.die r.die.val).deferred
              ++ [.register (.tile r (BitVec.ofNat 16 tAlloc0)) false (some v)] })))
  ∧ ∀ (p : Fin 2) (v : W64) (s : State), s.germ.rails = .on → s.inRecovery = false →
    v &&& ~~~(maskOf 63 28) = 0 →
    ∃ t, exec (.registerWrite (.bar0 p (BitVec.ofNat 20 bFabWin)) true v) s = .next t
      ∧ bitsOf ((t.port p).reg bFabWin) 63 28 = bitsOf v 63 28 ∧ t.dies = s.dies
      ∧ ∀ o, o ≠ bFabWin → (t.port p).reg o = (s.port p).reg o)
  ∧ ((∀ (d : DieId) (off : BitVec 24) (r : RegInfo) (s : State), (s.die d.val).inReset = false →
    off.toNat < rShadow → dieReg d.val off.toNat = some r →
    ∃ t, exec (.readClear (.die d off) r.wide) s = .next t ∧ (∀ e, e ≠ d.val → t.die e = s.die e)
      ∧ t.sent = .regRead (.die d off) (regPart (s.viewDie d.val off.toNat) off.toNat off.toNat r.wide) :: s.sent
      ∧ t.port0 = s.port0 ∧ t.port1 = s.port1
      ∧ (t.die d.val).reg d.val off.toNat = (s.die d.val).reg d.val off.toNat &&& ~~~r.rc
      ∧ (∀ o, o ≠ off.toNat → (t.die d.val).reg d.val o = (s.die d.val).reg d.val o)
      ∧ t.die d.val = { s.die d.val with regs := (t.die d.val).regs })
  ∧ ∀ (p : Fin 2) (s : State), s.germ.rails = .on → s.inRecovery = false →
    ∃ t, exec (.readClear (.bar0 p (BitVec.ofNat 20 bFabLastErr)) false) s = .next t
      ∧ t.sent = .regRead (.bar0 p (BitVec.ofNat 20 bFabLastErr)) ((s.port p).reg bFabLastErr &&& 0xFFFFFFFF) :: s.sent
      ∧ (t.port p).reg bFabLastErr = 0 ∧ t.dies = s.dies
      ∧ ∀ o, o ≠ bFabLastErr → (t.port p).reg o = (s.port p).reg o)

/-- A snapshot that is armed and due latches the counters of die and tiles, and on E-die 32 those of its host port and of
the CFG_ block, into their shadows, with the job beat, and counts up its sequence; arming clears TAKEN and CTX_DONE, and
an E-die reports CTX_DONE by itself.
Commands that complete here: SNAPSHOT_ARM, SNAPSHOT_TAKEN, CTX_SHADOW_DONE. -/
def Obligations.SnapshotsLatch : Prop :=
  (∀ (d : DieId) (s : State), (s.die d.val).inReset = false → (s.die d.val).bit d.val rSnapCtrl 31 = false →
    ∃ t, exec (.snapshotArm d) s = .next t ∧ s.SameBut t d.val
      ∧ (t.die d.val).bit d.val rSnapCtrl 31 = true ∧ (t.die d.val).field d.val rSnapCtrl 30 29 = 0
      ∧ (t.die d.val).field d.val rSnapCtrl 15 0 = (s.die d.val).field d.val rSnapCtrl 15 0
      ∧ t.die d.val = { s.die d.val with regs := (t.die d.val).regs })
  ∧ (∀ (d : DieId) (s : State), (s.die d.val).inReset = false → (s.die d.val).bit d.val rSnapCtrl 31 = true →
    ((s.die d.val).reg d.val rSnapSec).toNat * second + (s.die d.val).field d.val rSnapNs 29 0
      < (s.die d.val).timeNs + 16 → (s.die d.val).batchDue d.val = none → s.snaps = [] →
    ∃ t, exec (.snapshotTaken d) s = .next t ∧ (∀ e, e ≠ d.val → t.die e = s.die e)
      ∧ (∀ k y, tget (s.die d.val).tiles k = some y →
          tget (t.die d.val).tiles k = some { y with shadows := y.counters })
      ∧ (t.die d.val).shadows = countersOf (dieReg d.val) (isBatchReg d.val) (s.die d.val).regs
      ∧ (d.val = 32 → t.port0.shadows
          = countersOf bar0Reg (fun _ => false) (s.port0.regs ++ s.boot.cfg.filter (isCfg ·.1)))
      ∧ (t.die d.val).reg d.val rSnapBeat = BitVec.ofNat 64 ((s.die d.val).job.beat % 2 ^ 48)
      ∧ (t.die d.val).bit d.val rSnapCtrl 31 = false ∧ (t.die d.val).bit d.val rSnapCtrl 30 = true
      ∧ (t.die d.val).field d.val rSnapCtrl 15 0
          = ((s.die d.val).field d.val rSnapCtrl 15 0 + 1) % 2 ^ 16)
  ∧ ∀ (e : EDieId) (s : State), (s.die (32 + e.val)).inReset = false →
    (s.die (32 + e.val)).bit (32 + e.val) rSnapCtrl 30 = true → s.snaps = [] →
    ∃ t, exec (.ctxShadowDone e) s = .next t ∧ s.SameBut t (32 + e.val)
      ∧ (t.die (32 + e.val)).bit (32 + e.val) rSnapCtrl 29 = true
      ∧ t.die (32 + e.val) = { s.die (32 + e.val) with regs := (t.die (32 + e.val)).regs }



/-! ## Host rings -/

/-- The host's doorbells, and a write of a ring configuration: an enabled ring in range takes its tail or head; a tail
has the descriptors before it fetched and taken, each with whether its launch time had passed; a head makes room for
messages; a disabled ring ignores and counts them; ENABLE 1 stores the fields, and ENABLE 0 resets the index and, the
model's choice (log 84), the doorbell.
Commands that complete here: SQ_TAIL_DOORBELL, CQ_HEAD_DOORBELL, RING_CFG_WRITE. -/
def Obligations.DoorbellsAndRings : Prop :=
  ∀ (r : RingRef) (v : W32) (s : State),
    let n := r.ring.val
    let h := s.port r.port
    s.inRecovery = false →
    (doorbellGood (h.sqCfg n) v = true → s.served = true →
        (s.taken.all fun t => knownOpcode (descOpcode t.words)) = true →
      (∃ t, exec (.sqTailDoorbell r v []) s = .next t ∧ t.dies = s.dies ∧ t.taken = s.taken
        ∧ t.port r.port = { h.setReg (0x1000 * n) (v.setWidth 64) with untaken := tdel h.untaken n })
      ∧ ∀ w : Flit, h.cqFull n = false → bitsOf (h.sqCfg n) 15 0 ≠ v.toNat → knownOpcode (descOpcode w) = true →
        h.dmaAllowed (h.reg (bSqBase + 0x20 * n) + BitVec.ofNat 64 (64 * bitsOf (h.sqCfg n) 15 0)).toNat 64 = true →
        ∃ t, exec (.sqTailDoorbell r v [w]) s = .next t ∧ t.dies = s.dies
          ∧ t.taken = s.taken ++ [⟨r, h.epoch, w, decide (launchTime (descOf w) ≤ (s.die (performer w)).timeNs)⟩]
          ∧ t.sent = .dmaRead r.port h.ecrcGenerate
              (h.reg (bSqBase + 0x20 * n) + BitVec.ofNat 64 (64 * bitsOf (h.sqCfg n) 15 0)) 64 :: s.sent
          ∧ bitsOf ((t.port r.port).sqCfg n) 15 0 = (bitsOf (h.sqCfg n) 15 0 + 1) % ringSize (h.sqCfg n))
    ∧ (doorbellGood (h.cqCfg n) v = true → tgetD h.owed n [] = [] → tgetD h.untaken n [] = [] →
      ∃ t, exec (.cqHeadDoorbell r v) s = .next t ∧ t.dies = s.dies
        ∧ t.port r.port = { h.setReg (0x40000 + 0x1000 * n) (v.setWidth 64) with
            msiSent := h.msiSent.filter (· != n) })
    ∧ (doorbellGood (h.sqCfg n) v = false → ∀ ws,
      ∃ t, exec (.sqTailDoorbell r v ws) s = .next t ∧ t.dies = s.dies ∧ t.taken = s.taken
        ∧ t.port r.port = h.bump bDoorbellsIgnored)
    ∧ (v.setWidth 64 &&& ~~~(ringFields false) = 0 →
      ∃ t, exec (.ringCfgWrite r false v) s = .next t ∧ t.dies = s.dies
        ∧ bitOf ((t.port r.port).sqCfg n) 31 = bitOf v 31
        ∧ (bitOf v 31 = true → bitOf (h.sqCfg n) 31 = false →
            bitsOf ((t.port r.port).sqCfg n) 20 16 = bitsOf v 20 16)
        ∧ (bitOf v 31 = true → bitOf (h.sqCfg n) 31 = true →
            bitsOf ((t.port r.port).sqCfg n) 20 16 = bitsOf (h.sqCfg n) 20 16)
        ∧ (bitOf v 31 = false → bitsOf ((t.port r.port).sqCfg n) 15 0 = 0 ∧ (t.port r.port).sqTail n = 0))

/-- OPEN_CONTEXT of an idle context without an adapter queues it with the command's fields, its set in force at once
(the model's reading, log 45); MODIFY rewrites class, ring,
set and tag, the set for its next batch; CLOSE of a queued or faulted context, for which no adapter command runs,
makes it idle, and of a context in a batch waits for its end;
APPEND_INPUT and FETCH_RESULT add one entry, of at most four; a launch time that has come performs its command. A
context command that meets the context in the wrong state, or finds its list full, only completes, with status 0x02,
0x03 or 0x06; one with a reserved field completes with 0x01; and one that is not ready waits.
Commands that complete here: LAUNCH_TIME_REACHED, OPEN_CONTEXT, OPEN_CONTEXT_MODIFY, CLOSE_CONTEXT, APPEND_INPUT,
FETCH_RESULT. -/
def Obligations.ContextCommands : Prop :=
  (∀ (r : RingRef) (c : Desc) (s : State),
    let e := 32 + c.context.toNat % 2 ^ 18 / 32768
    let n := c.context.toNat % 2 ^ 18 % 32768
    let y := (s.die e).ctx.ctx n
    (s.die e).inReset = false → s.ready r c e = true → cmdClean c false = true →
    (openModify c = false → openGood c = true → cArg c 0x3C 4 = 0 → y.state = .idle →
      s.CtxDone (.openContext r c) r c { Ctx.reset with
        state := .queued, cls := openClass c, eff := openClass c, wsid := BitVec.ofNat 16 (cArg c 0x1C 2)
        active := BitVec.ofNat 16 (cArg c 0x1C 2), submitPort := r.port, cring := openCring c, userTag := BitVec.ofNat 64 (cArg c 0x20 8)
        kvBase := BitVec.ofNat 64 (cArg c 0x28 8), kvLen := BitVec.ofNat 64 (cArg c 0x30 8)
        kvTier := BitVec.ofNat 8 (cArg c 0x38 1) })
    ∧ (openModify c = true → openGood c = true → y.state ≠ .idle → y.state ≠ .faulted →
      s.CtxDone (.openContextModify r c) r c { y with
        cls := openClass c, cring := openCring c, wsid := BitVec.ofNat 16 (cArg c 0x1C 2)
        userTag := BitVec.ofNat 64 (cArg c 0x20 8) })
    ∧ (argsClean c [] = true → y.state = .queued ∨ y.state = .faulted → y.closing = none →
      (∀ j, s.weights.loading = some j ∨ s.weights.rolling = some j →
        j.set.wsid.toNat ≠ adapterWsid ∨ j.set.context ≠ (e - 32) * 2 ^ 15 + n) →
      s.CtxDone (.closeContext r c) r c y.closed)
    ∧ (argsClean c [] = true → y.state = .running ∨ y.state = .held ∨ y.state = .admitted → y.closing = none →
      ∃ t, exec (.closeContext r c) s = .next t ∧ (t.die e).ctx.ctx n = { y with closing := some (s.cmdOf r c) })
    ∧ (entryGood c = true → y.state ≠ .idle → y.state ≠ .faulted → y.inputs.length < 4 →
      s.CtxDone (.appendInput r c) r c { y with inputs := y.inputs ++ [entryOf c r.port], submitPort := r.port }
      ∧ ∀ t, s.taken.find? (·.ring == r) = some t → bitOf t.words 8 = true → descOpcode t.words = 0x03 →
          descOf t.words = c →
          s.CtxDone (.launchTimeReached r) r c
            { y with inputs := y.inputs ++ [entryOf c r.port], submitPort := r.port })
    ∧ (entryGood c = true → y.state ≠ .idle → y.state ≠ .faulted → y.outputs.length < 4 →
      s.CtxDone (.fetchResult r c) r c { y with outputs := y.outputs ++ [entryOf c r.port], submitPort := r.port }))
  ∧ (∀ (r : RingRef) (c : Desc) (s : State),
    let e := 32 + c.context.toNat % 2 ^ 18 / 32768
    let n := c.context.toNat % 2 ^ 18 % 32768
    let y := (s.die e).ctx.ctx n
    let ends := fun (i : Instr) (st : Nat) =>
      exec i s = .next ((s.takeCmd r c).1.complete (s.cmdOf r c) st (context := c.context))
    (s.die e).inReset = false →
    (s.ready r c e = false → exec (.appendInput r c) s = .next s ∧ exec (.closeContext r c) s = .next s)
    ∧ (s.ready r c e = true → cmdClean c false = true → entryGood c = true →
        (y.state = .idle → ends (.appendInput r c) 0x02 ∧ ends (.fetchResult r c) 0x02)
        ∧ (y.state = .faulted → ends (.appendInput r c) 0x03 ∧ ends (.fetchResult r c) 0x03)
        ∧ (y.state ≠ .idle → y.state ≠ .faulted → 4 ≤ y.inputs.length → ends (.appendInput r c) 0x06))
    ∧ (s.ready r c e = true → (cmdClean c false && entryGood c) = false → ends (.appendInput r c) 0x01))

/-- SWITCH_EPOCH with ACTION 0 disarms every die that is not in reset, and with another arms all 40 dies for its time
where none of them refuses; SNAPSHOT arms all dies and waits for them; each takes its descriptor.
Commands that complete here: SWITCH_EPOCH, SNAPSHOT. -/
def Obligations.SwitchEpochAndSnapshot : Prop :=
  ∀ (r : RingRef) (c : Desc) (s : State), s.ready r c = true → cmdClean c true = true →
    (argsClean c [(9, 3), wholeArg 0x20 8, wholeArg 0x28 4] = true → nsGood c 0x28 = true →
      (switchBits c / 2 = 0 → (∀ d, d < 40 → (s.die d).inReset = false) →
        ∃ u : State, exec (.switchEpoch r c) s = .next (u.complete (s.cmdOf r c) 0)
          ∧ ∀ d, d < 40 → (u.die d).armed = none ∧ (u.die d).jobOn d = (s.die d).jobOn d
              ∧ (u.die d).tiles = (s.die d).tiles)
      ∧ (switchBits c / 2 ≠ 0 →
          (∀ d, d < 40 → (s.die d).inReset = false
            ∧ (s.die d).timeNs + 1000016 ≤ cArg c 0x20 8 * second + cArg c 0x28 4 ∧ (s.die d).ns < second
            ∧ (s.die d).armed = none
            ∧ (switchBits c / 2 = 1 → (s.die d).jobOn d = false ∧ (s.die d).stopped = false
                ∧ ∀ t ∈ (s.die d).tilesInUse d,
                    ((s.die d).tile t).state ≠ .stopped ∧ ((s.die d).tile t).state ≠ .faulted)
            ∧ (switchBits c / 2 ≠ 1 → (s.die d).jobOn d = true)
            ∧ (switchBits c / 2 ≠ 3 → ∀ t ∈ (s.die d).tilesInUse d,
                ((s.die d).tile t).validBank (bitOf c.args 9) = true)
            ∧ (switchBits c / 2 = 2 → bitOf c.args 9 ≠ (s.die d).bank)) →
        ∃ u : State, exec (.switchEpoch r c) s = .next (u.complete (s.cmdOf r c) 0)
          ∧ ∀ d, d < 40 → (u.die d).armed
              = some ⟨switchBits c / 2, bitOf c.args 9, cArg c 0x20 8 * second + cArg c 0x28 4⟩))
    ∧ (argsClean c [wholeArg 0x18 8, wholeArg 0x20 4] = true → nsGood c 0x20 = true → s.snaps = [] →
        s.nowNs 32 + 100000 ≤ snapTime c →
        ∃ t, exec (.snapshot r c) s = .next t ∧ t.snaps = [⟨s.cmdOf r c, c, true, allDies.filter fun d => (s.die d).inReset, [], []⟩]
          ∧ (∀ d, d < 40 → (s.die d).inReset = false → (t.die d).bit d rSnapCtrl 31 = true)
          ∧ t.port0 = s.port0 ∧ t.port1 = s.port1 ∧ t.sent = s.sent)

/-- READ_LOG writes the requested piece of a log to host memory, at most 512 bytes in a write, and completes with its length; selector 0x20 signs and
writes a fresh report; SET_POWER_STATE to the state that stands completes and sets PERMIT.
Commands that complete here: SET_POWER_STATE, READ_LOG, READ_LOG_ATTESTATION. -/
def Obligations.LogsAndPowerByRing : Prop :=
  ∀ (r : RingRef) (c : Desc) (s : State), s.ready r c = true → cmdClean c true = true →
    (∀ bs, logSelector c ≠ 0x20 → argsClean c logArgs = true →
      (s.takeCmd r c).1.logContents (logSelector c) = some bs →
      let piece := logPiece bs (logStart c) (logLength c)
      piece ≠ [] → (s.port r.port).dmaAllowed (logAddr c) piece.length = true →
      ∃ u : State, exec (.readLog r c) s = .next (u.complete (s.cmdOf r c) 0 (bytes := piece.length))
        ∧ u.sent = (s.emitWrites r.port (logAddr c) piece).sent ∧ u.dies = s.dies)
    ∧ (logSelector c = 0x20 → argsClean c (wholeArg 0x30 16 :: logArgs) = true → logStart c = 0 →
      reportLength ≤ logLength c → s.canSign = true →
      (s.port r.port).dmaAllowed (logAddr c) reportLength = true → ∀ u bs,
      (s.takeCmd r c).1.attest (logNonce c) = (u, some bs) → bs.length = reportLength →
      u.port r.port = s.port r.port →
      exec (.readLogAttestation r c) s
        = .next ((u.emitWrites r.port (logAddr c) bs).complete (s.cmdOf r c) 0 (bytes := bs.length)))
    ∧ (argsClean c [wholeArg 0x18 1, (8, 1)] = true → cArg c 0x18 1 ≤ 4 → s.germ.move = .none → s.germ.latched = false →
      cArg c 0x18 1 = s.pst →
      ∃ u : State, exec (.setPowerState r c) s = .next (u.complete (s.cmdOf r c) 0) ∧ u.pst = s.pst
        ∧ (u.die 32).bit 32 rIdleCtrl 31 = bitOf c.args 8 ∧ u.germ = s.germ)



/-! ## Schedules and weights -/

/-- LOAD_SCHEDULE reads the image into staging and runs on; when its links and ports have come up, or their wait has
ended, the load goes on. A load into a bank that an armed action names ends with 0x09 and code 0x0A; a failed check
with no job leaves the target bank not VALID and completes with 0x09 and its code; a check that waits leaves
the load on record; one that passes with no job writes the tables, leaves the placement on record and no stop on the
dies that it writes, and completes with status 0.
Commands that complete here: LOAD_SCHEDULE, LOAD_LINK_WAIT_END, LOAD_PORT_WAIT_END. -/
def Obligations.SchedulesLoad : Prop :=
  (∀ (r : RingRef) (c : Desc) (bs : List Byte) (s : State),
    s.ready r c = true → s.entering = false → loadClean c = true → s.load = none →
    (s.port r.port).dmaAllowed (loadAddr c) (loadLength c) = true →
    let image := bs.take (loadLength c)
    ∃ u : State, exec (.loadSchedule r c (.bytes bs)) s
        = .next ((u.stageImage image).goLoad { cmd := s.cmdOf r c, image := image, placement := loadPlace c
                                               linksDone := false, stage := .checking } true true)
      ∧ u.dies = s.dies ∧ u.load = none ∧ u.sent = (s.emitReads r.port (loadAddr c) (loadLength c)).sent)
  ∧ (∀ (s : State) (j : LoadJob), s.load = some j → j.stage = .checking →
    (j.linksDone = false → exec .loadLinkWaitEnd s = .next (s.goLoad j false true))
    ∧ (j.linksDone = true → exec .loadPortWaitEnd s = .next (s.goLoad j false false)))
  ∧ (∀ (s : State) (j : LoadJob) (a b : Bool),
    ((allDies.any fun d => (s.die d).armedAgainst) = true →
      s.goLoad j a b = State.complete { s with load := none } j.cmd 0x09 (detail := 0x0A))
    ∧ ((allDies.any fun d => (s.die d).armedAgainst) = false →
      (∀ code, code ≠ 0 → (s.checkLoad j.image j.placement a b).1 = .fail code → s.liveLoad = false →
        ∃ u : State, s.goLoad j a b = u.complete j.cmd 0x09 (detail := code) ∧ u.load = none
          ∧ u.dies = (s.dropTarget (fieldLE j.image 0x4C 4 == 1)).dies ∧ u.placed0 = s.placed0
          ∧ u.placed1 = s.placed1 ∧ u.port0 = s.port0 ∧ u.port1 = s.port1)
      ∧ (s.checkLoad j.image j.placement a b = (.wait, none) →
        s.goLoad j a b = { s with load := some { j with linksDone := false } })
      ∧ (∀ r, s.checkLoad j.image j.placement a b = (.wait, some r) →
        s.goLoad j a b = { s with load := some { j with linksDone := true } })
      ∧ ∀ img plans, s.checkLoad j.image j.placement a b = (.pass, some (img, plans)) → s.liveLoad = false →
        s.goLoad j a b = State.complete { s.writeLoad img j.placement plans with load := none } j.cmd 0))
  ∧ ∀ (s : State) (img : Image) (place : W32) (plans : List (Nat × List (Nat × TilePlan) × DiePlan)),
    let u := s.writeLoad img place plans
    (u.placed0 = some place ∨ u.placed1 = some place)
      ∧ ∀ p ∈ plans, (u.die p.1).stopped = false ∧ (u.die p.1).reg p.1 rStopInfo = 0

/-- LOAD_WEIGHT_SET puts its set, none of its shards verified, on record; UNLOAD removes it and its bases; ROLL raises
the barrier, and once its batches have drained its journal says that it rolls and its layers begin; a stopped roll
completes with the TO version from its layer, or goes back to the FROM version, and a roll of the same set whose reader
is lost stops first. What an unload of a set that is not resident does, and that a lost reader's roll is stopped by these
two commands, is the model's reading (log 44).
Commands that complete here: LOAD_WEIGHT_SET, UNLOAD_WEIGHT_SET, ROLL, ROLL_COMPLETE, ROLL_ABANDON,
ROLL_BATCHES_DRAINED. -/
def Obligations.WeightSetsLoadAndRoll : Prop :=
  ∀ (w : WeightCmd) (m : Manifest) (s : State),
    let a := s.setOf w m
    let cmd := s.cmdOf w.ring w.desc
    (weightUnload w.desc = false → s.WeightReady w false m → s.weights.isRolled a = false → s.slotTaken m = false →
      s.badShard m (weightPlace w.desc) = none → s.weights.find a = none →
      ∃ u : State, exec (.loadWeightSet w) s = .next u.loadOn.readerNext
        ∧ u.weights.loading = some (m.job w cmd false (fun _ => true) a)
        ∧ u.weights.sets = (s.weights.sets.filter fun b => !sameSet a b) ++ [a])
    ∧ (weightUnload w.desc = true → s.WeightReady w false m → s.weights.rolling = none → s.weights.journal.state = 0 →
      ∃ u : State, exec (.unloadWeightSet w) s = .next (u.complete cmd 0)
        ∧ u.weights.sets = (s.weights.sets.filter fun b => !sameSet a b)
        ∧ ∀ b, s.weights.find a = some b → b.wsid.toNat ≠ adapterWsid → ∀ d, d < 40 →
            bitOf ((s.die d).reg d rWsel) 31 = false → (u.die d).reg d (rSetBase + 8 * b.slot) = 0)
    ∧ (∀ b, s.RollReady w m b →
      (rollMode w.desc = 0 → b.mixed = false →
        ∃ t, exec (.roll w) s = .next t ∧ t.weights.rolling = some (m.job w cmd true (fun _ => true) a)
          ∧ t.weights.sets = (s.weights.sets.map fun g => if sameSet b g then { g with rolling := true } else g)
          ∧ t.weights.journal = s.weights.journal ∧ t.dies = s.dies)
      ∧ (rollMode w.desc = 1 → (s.weights.rolling.all fun j => sameSet j.set a) = true → s.stoppedRoll b = true →
        a.version = s.weights.journal.toV →
        ∃ u : State, exec (.rollComplete w) s = .next (u.beginLayers (m.job w cmd false
            (fun l => decide (s.weights.journal.layer ≤ l) && decide (l < s.weights.journal.layers))
            (a.layersFrom s.weights.journal.layer s.weights.journal.layers)))
          ∧ u.weights = (s.stopRoll a).weights ∧ (s.weights.rolling = none → u.dies = s.dies))
      ∧ (rollMode w.desc = 2 → (s.weights.rolling.all fun j => sameSet j.set a) = true → s.stoppedRoll b = true →
        a.version = s.weights.journal.fromV →
        ∃ u : State, exec (.rollAbandon w) s = .next (u.beginLayers (m.job w cmd false
            (fun l => decide (l < s.weights.journal.layer + 1)) (a.layersFrom 0 (s.weights.journal.layer + 1))))
          ∧ u.weights.journal.state = 2 ∧ u.weights.journal.layer = 0
          ∧ u.weights.journal.seq = s.weights.journal.seq + 1
          ∧ u.weights.journal.toV = s.weights.journal.fromV))
    ∧ ∀ j b, s.weights.rolling = some j → j.waiting = true → s.inFlight j.set.wsid = false →
      s.weights.find j.set = some b →
      ∃ u : State, exec .rollBatchesDrained s = .next (u.beginLayers j) ∧ u.weights.journal
          = ⟨s.weights.journal.seq + 1, b.wsid, 1, b.slot, b.version, j.set.version, j.set.layers, 0⟩

/-! ## Batches -/

/-- A boundary begins its batch: the index and the set are on record and the counts of the batch before are latched; the
reserved selection happens once, at its offset. At its offset a slot's packet leaves with its record, as a null
packet when the slot has no context or its record failed, or, when the record is still on its way, its context is
HELD and the E-die raises cause 0x6.
Commands that complete here: BATCH_BOUNDARY, RESERVED_SELECTION, SLOT_EMIT. -/
def Obligations.BatchesBeginAndEmit : Prop :=
  (∀ (e : EDieId) (b : BatchSched) (s : State),
    let d := 32 + e.val
    let x := s.die d
    s.Batching d b →
    (∀ j, b.batchAt x.job.beat = some j → x.ctx.started = false →
      ∃ t, exec (.batchBoundary e) s = .next t ∧ (t.die d).reg d rBatchIndex = BitVec.ofNat 64 j
        ∧ (t.die d).ctx.started = true ∧ (t.die d).ctx.batchWsid = s.batchSet j x.job.ran
        ∧ (t.die d).ctx.resDone = false ∧ (t.die d).reg d rBatchFilled = (stick x.ctx.liveFilled).1
        ∧ (t.die d).reg d rBatchNull = (stick x.ctx.liveNull).1)
    ∧ (x.ctx.started = true → x.ctx.resDone = false → x.batchOffset b = b.resSel →
      ∃ t, exec (.reservedSelection e) s = .next t ∧ (t.die d).ctx.resDone = true
        ∧ (t.die d).ctx.batchWsid = x.ctx.batchWsid
        ∧ ((bitOf x.ctx.ctrlInForce 0 = false ∨ s.stillAdmits x.ctx = false) → (t.die d).ctx.slots = x.ctx.slots)))
  ∧ (∀ (e : EDieId) (b : BatchSched) (n : Nat) (ent : BatchEntry) (sl : SlotState) (s : State),
    let d := 32 + e.val
    let x := s.die d
    s.Batching d b → x.ctx.started = true → b.entries[n]? = some ent → x.ctx.slot n = some sl →
    sl.emitted = false → sl.owed = false → x.batchOffset b = ent.emit →
    (∀ c staged, sl.ctx = some c → sl.record = some staged → sl.failed = false →
      ∃ u : State, exec (.slotEmit e n) s = .next (u.sendSlot d (slotHeader ent.hdr (b.inBytes / 64) false x.job.beat)
          (slotFlit ((d - 32) * 2 ^ 15 + c) (x.ctx.ctx c) sl (tgetD x.regs rBatchIndex 0).toNat :: staged) false)
        ∧ s.SlotDone u d n c { x.ctx.ctx c with state := .running } { sl with emitted := true, owed := false })
    ∧ (sl.ctx = none ∨ sl.failed = true →
      ∃ u : State, exec (.slotEmit e n) s = .next (u.sendSlot d (slotHeader ent.hdr (b.inBytes / 64) true x.job.beat)
          (List.replicate (b.inBytes / 64 + 1) 0) false)
        ∧ (u.die d).ctx.liveNull = x.ctx.liveNull + 1 ∧ (u.die d).ctx.records = x.ctx.records)
    ∧ (∀ c, sl.ctx = some c → sl.record = none → sl.failed = false →
      ∃ t, exec (.slotEmit e n) s = .next t
        ∧ s.SlotDone t d n c
            { x.ctx.ctx c with state := .held, inputHolds := (x.ctx.ctx c).inputHolds + 1 } { sl with owed := true }
        ∧ tgetD (t.die d).regs rCtxInputHolds 0 = tgetD x.regs rCtxInputHolds 0 + 1
        ∧ 6 ∈ (t.die d).hold.mine ∧ (x.beatNow, 6) ∈ (t.die d).hold.raised ∧ (t.die d).relay = x.relay))

/-- An input record that arrives is staged and counted, and one that fails makes its context FAULTED with code 0x0002; a
result packet that is here and accepted goes to the host, in writes of at most 512 bytes, moves the position and both
entries on and queues its context again; one whose DMA fails makes its context FAULTED. That no more than OUT_BYTES of a
result go to the host is the model's reading (log 45).
Commands that complete here: INPUT_RECORD_DMA_DONE, INPUT_RECORD_DMA_FAILED, RESULT_ARRIVAL, RESULT_DMA_FAILED. -/
def Obligations.RecordsAndResults : Prop :=
  (∀ (e : EDieId) (b : BatchSched) (n c : Nat) (ent : BatchEntry) (sl : SlotState) (record : List Flit) (s : State),
    let d := 32 + e.val
    let x := s.die d
    s.Batching d b → b.entries[n]? = some ent → x.ctx.slot n = some sl →
    sl.ctx = some c → sl.record = none → sl.failed = false → sl.owed = false →
    (record.length = b.inBytes / 64 →
      ∃ t, exec (.inputRecordDmaDone e n record) s = .next t ∧ s.SlotDone t d n c
        { x.ctx.ctx c with inputBytes := (x.ctx.ctx c).inputBytes + BitVec.ofNat 64 b.inBytes }
        { sl with record := some record })
    ∧ ∃ t, exec (.inputRecordDmaFailed e n) s = .next t ∧ s.SlotDone t d n c
        { x.ctx.ctx c with state := .faulted, faultCode := 0x0002 } { sl with failed := true })
  ∧ ∀ (e : EDieId) (b : BatchSched) (n c : Nat) (sl : SlotState) (f : Flit) (h : Header) (flits : List Flit)
      (o : CtxEntry) (os : List CtxEntry) (a : Arrival) (s : State),
    let d := 32 + e.val
    let x := s.die d
    let y := x.ctx.ctx c
    s.Batching d b → x.arrival h flits 4 = some a → sl.inGone = false → x.resultFate d h flits = .accept b n c sl f →
    y.outputs = o :: os → 0 < b.outBytes →
    (0 < resBytes f → y.closing = none →
        (s.port o.port).dmaAllowed (o.addr.toNat + o.offset) (min (resBytes f) b.outBytes) = true →
      let bytes := (flitBytes (flits.drop 1)).take (min (resBytes f) b.outBytes)
      ∃ t, exec (.resultArrival e h flits) s = .next t ∧ s.SlotDone t d n c
          { y with
            state := .queued, position := y.position + BitVec.ofNat 32 (resAdvance f)
            inputs := (advanceEntry y.inputs b.inBytes).1, outputs := (advanceEntry y.outputs b.outBytes).1
            resultBytes := y.resultBytes + BitVec.ofNat 64 (min (resBytes f) b.outBytes) }
          { sl with done := true }
        ∧ tgetD (t.die d).regs rResultsDelivered 0 = tgetD x.regs rResultsDelivered 0 + 1
        ∧ ∀ i, 512 * i < bytes.length →
            .dmaWrite o.port (s.port o.port).ecrcGenerate (BitVec.ofNat 64 (o.addr.toNat + o.offset + 512 * i))
              ((bytes.drop (512 * i)).take 512) ∈ t.sent)
    ∧ ∃ t, exec (.resultDmaFailed e h flits) s = .next t ∧ s.SlotDone t d n c
        { y with state := .faulted, faultCode := 0x0002 } { sl with done := true }



/-! ## Memory -/

/-- A transfer in its beat: a write puts its units behind the aperture and a read takes them, with good check bits, for
its packet; both count and leave the list; a late one is performed in the same way and counts as late; one that
cannot be performed in its beat becomes late, with the aperture of that beat, and raises cause 0x5.
Commands that complete here: TRANSFER_PERFORMED, LATE_TRANSFER_PERFORMED. -/
def Obligations.TransfersMoveUnits : Prop :=
  ∀ (d : DieId) (t : Xfer) (late : Bool) (s : State),
    let x := s.die d.val
    let i : Instr := if late then .lateTransferPerformed d else .transferPerformed d
    let fixed := s.fixXfer d.val t
    let t0 := if late then t else fixed
    let rest := removeFirst (· == t0) (x.mem.xfers.map fun a => if a == t then t0 else a)
    (s.Performs d.val t late →
      (∀ fs, t0.kind = .write fs → fs.length = t.units →
        ∃ u, exec i s = .next u ∧ s.SameBut u d.val
          ∧ (u.die d.val).mem.cells = (x.writeUnits (t0.touched x d.val) fs).mem.cells
          ∧ (u.die d.val).mem.xfers = rest
          ∧ tgetD (u.die d.val).regs rUnitsWritten 0 = tgetD x.regs rUnitsWritten 0 + BitVec.ofNat 64 t.units
          ∧ (t.late = true → tgetD (u.die d.val).regs rTransfersLate 0 = tgetD x.regs rTransfersLate 0 + 1)
          ∧ (u.die d.val).memUsed = x.memUsed + t.units ∧ (u.die d.val).tiles = x.tiles)
      ∧ ∀ h, t0.kind = .read h → t0.got = [] → x.mem.bad = [] → x.mem.weak = [] →
        ∃ u, exec i s = .next u ∧ s.SameBut u d.val
          ∧ (u.die d.val).mem.cells = x.mem.cells
          ∧ (u.die d.val).mem.emits = x.mem.emits ++ [⟨if t.late then x.beatNow else x.beatNow + 1, h,
              (t0.touched x d.val).map fun o => o.elim 0 fun n => Mem.readFlit x.mem.cells (64 * n), t.late⟩]
          ∧ (u.die d.val).mem.xfers = rest
          ∧ tgetD (u.die d.val).regs rUnitsRead 0 = tgetD x.regs rUnitsRead 0 + BitVec.ofNat 64 t.units)
    ∧ (x.inReset = false → x.inJobBeat d.val = true → late = false → (x.beatNow, 5) ∉ x.hold.raised →
        (x.mem.xfers.find? fun a => !a.late && decide (a.beat ≤ x.beatNow)) = some t →
        ¬(t.beat = x.beatNow ∧ x.canPerform d.val fixed (memCapacity d.val - x.memUsed) = true
          ∧ x.xferBlocked t = false) →
      ∃ u, exec i s = .next u ∧ s.SameBut u d.val ∧ { fixed with late := true } ∈ (u.die d.val).mem.xfers
        ∧ 5 ∈ (u.die d.val).hold.mine ∧ (u.die d.val).mem.lateOpen = true
        ∧ (u.die d.val).mem.cells = x.mem.cells)

/-- A packet whose flits are here, for which the images reserve an intake and that passes the intake check leaves the
link switch and gets its performance beat, the one after that of its last flit; any other stops the slice with KIND
0x21. Read data leaves as one packet, flit after flit, in the beat that it is due; a refresh puts its group in blackout
for 16 slots, and a blackout that is over leaves nothing behind; the background work of a maintenance beat is done once:
the sensor whose turn it is, whether the memory is hot, a module number that has changed, the scrub of the tiles, and the
register reads that waited.
Commands that complete here: MAINTENANCE_BEAT, BLACKOUT_END, MEMORY_PACKET_ARRIVAL, MEMORY_DATA_EMISSION. -/
def Obligations.IntakeEmissionMaintenance : Prop :=
  (∀ (d : DieId) (h : Header) (flits : List Flit) (region : Option (Fin 4)) (a : Arrival) (s : State),
    let x := s.die d.val
    let v := s.setDie d.val (x.takePacket h a)
    x.inReset = false → x.jobOn d.val = true → x.arrival h flits (region.elim 4 (·.val)) = some a →
    ((a.reserved && intakeGood d.val h flits) = true → a.late = false → x.beatNow ≤ a.due →
      ∃ u, exec (.memoryPacketArrival d h flits region) s = .next u ∧ s.SameBut u d.val
        ∧ (u.die d.val).mem.xfers = insertXfer (packetXfer h flits a x.job.beat (a.due + 1)) x.mem.xfers
        ∧ (u.die d.val).mem.cells = x.mem.cells ∧ (u.die d.val).relay = (x.takePacket h a).relay)
    ∧ ((a.reserved && intakeGood d.val h flits) = true →
      exec (.memoryPacketArrival d h flits region) s = .next (v.addRequest d.val h flits a))
    ∧ ((a.reserved && intakeGood d.val h flits) = false →
      exec (.memoryPacketArrival d h flits region) s = .next (v.dieFault d.val 0x21 (stopDetailAt 0 0 h))))
  ∧ (∀ (d : DieId) (e : Emit) (f : Flit) (s : State),
    let x := s.die d.val
    let h := emitHeader e.hdr false (e.beat - x.job.base)
    x.inReset = false → x.jobOn d.val = true →
    (x.mem.emits.find? fun e => e.late || (x.hold.slot.isNone && decide (e.beat ≤ x.beatNow))) = some e →
    e.data = [f] → s.headerGood d.val h = true →
    ∃ u, exec (.memoryDataEmission d) s = .next u ∧ s.SameBut u d.val
      ∧ (u.die d.val).mem.emits = removeFirst (· == e) x.mem.emits
      ∧ ∃ r, (u.die d.val).relay = x.relay ++ [r] ∧ r.payload = f ∧ r.hdr = h ∧ r.fidx = 0 ∧ r.late = e.late)
  ∧ (∀ (d : DieId) (s : State),
    (∃ u, exec (.blackoutEnd d) s = .next u ∧ s.SameBut u d.val
      ∧ u.die d.val = { s.die d.val with mem := { (s.die d.val).mem with
          blackout := (s.die d.val).mem.blackout.filter fun b => b.2 != 0 } }
      ∧ ∀ g, (∀ b ∈ (s.die d.val).mem.blackout, b.1 = g → b.2 = 0) → ∀ b ∈ (u.die d.val).mem.blackout, b.1 ≠ g)
    ∧ (∀ g, (∀ b ∈ (s.die d.val).mem.blackout, b.1 = g → b.2 ≤ 1) →
        ((s.passSlot d.val).die d.val).inBlackout g = false)
    ∧ ∀ g n, Die.inBlackout { (s.die d.val).refresh g with
        mem := Nat.repeat MemCtl.passBlackout n ((s.die d.val).refresh g).mem } g = decide (n < 16))
  ∧ ∀ (d : DieId) (m : MaintIn) (s : State),
    let x := s.die d.val
    x.inReset = false → x.isMaint d.val = true → x.maintDone = false → x.behind = false →
    (∀ w ∈ x.deferred, ∃ r wide, w = .register r wide none) → x.teleNext < sensors d.val →
    ∃ u, exec (.maintenanceBeat d m) s = .next u ∧ (u.die d.val).maintDone = true
      ∧ (u.die d.val).maintCount = x.maintCount + 1 ∧ (u.die d.val).deferred = []
      ∧ (u.die d.val).teleNext = (x.teleNext + 1) % sensors d.val
      ∧ (u.die d.val).reg d.val (rRegionTemp + 4 * x.teleNext) = m.sensor.setWidth 64
      ∧ (u.die d.val).bit d.val rMemStatus 31 = m.hot ∧ (u.die d.val).numChanged = false
      ∧ ∀ t y, tget (u.die d.val).tiles t = some y → ∀ w ∈ y.sramWeak, scrubsWord x.maintCount w = false

/-- A shard check: the write of its last word starts it with STATUS 1, or 4 for a bad header; once the payload has been
read its end says 2 or 3 and counts, and a match verifies the shard; a shard that is not verified in time is brought and
sent again and counts, below the retry limit, and ends its command at the limit; a re-digest starts a check of a resident
shard.
Commands that complete here: SHARD_CHECK_START, SHARD_CHECK_DONE, SHARD_TIMEOUT, REDIGEST. -/
def Obligations.ShardsAreChecked : Prop :=
  (∀ (d : DieId) (v : W64) (s : State),
    let x := s.die d.val
    let ws := (x.setReg (rShardHdr + 56) v).shardHdr d.val
    x.inReset = false → x.field d.val rShardStatus 31 29 ≠ 1 →
    ∃ t, exec (.shardCheckStart d v) s = .next t ∧ s.SameBut t d.val
      ∧ (t.die d.val).field d.val rShardStatus 31 29
          = (if shardHeaderGood d.val (shardBytes ws) then 1 else 4)
      ∧ (t.die d.val).mem.check = ws ∧ (t.die d.val).mem.checkRead = [] ∧ (t.die d.val).mem.cells = x.mem.cells)
  ∧ (∀ (d : DieId) (s : State),
    let x := s.die d.val
    let good := x.shardMatches
    x.inReset = false → x.field d.val rShardStatus 31 29 = 1 → x.checkRead = true → s.weights.shardOf d.val (shardBytes x.mem.check) = none →
    ∃ t, exec (.shardCheckDone d) s = .next t ∧ s.SameBut t d.val
      ∧ (t.die d.val).field d.val rShardStatus 31 29 = (if good then 2 else 3)
      ∧ tgetD (t.die d.val).regs (if good then rShardsVerified else rShardsMismatched) 0
          = tgetD x.regs (if good then rShardsVerified else rShardsMismatched) 0 + 1)
  ∧ (∀ (s : State) (d : Nat) (h : List Byte) (good : Bool) (a : WeightSet) (g : Shard),
    s.weights.shardOf d h = some (a, g) → s.weights.rolling = none → s.weights.loading = none →
    (s.shardResult d h good).weights = (s.markShard a g good).weights)
  ∧ (∀ (k i : Nat) (roll : Bool) (g : ShardSend) (s : State),
    s.weights.allSends[k]? = some (roll, i, g) → g.stage = .status →
    ∃ u : State, exec (.shardTimeout k) s = .next u.readerNext
      ∧ (g.resends < (s.die 32).field 32 rWtCtrl 31 24 →
          tgetD (u.die 32).regs rWtRefetched 0 = tgetD (s.die 32).regs rWtRefetched 0 + 1
          ∧ (∀ e, e ≠ 32 → u.die e = s.die e)
          ∧ ∃ j, u.weights.job roll = some j
              ∧ j.sends[i]? = some { g with stage := .staging, resends := g.resends + 1, stale := true })
      ∧ ((s.die 32).field 32 rWtCtrl 31 24 ≤ g.resends → u.weights.job roll = none))
  ∧ ∀ (k : Nat) (a : WeightSet) (h : Shard) (s : State),
    s.weights.allShards[k]? = some (a, h) → (s.die 32).field 32 rWtCtrl 23 16 ≠ 0 → a.rolling = false →
    s.weights.jobOf a = none → (s.die h.die).inReset = false → (s.die h.die).field h.die rShardStatus 31 29 ≠ 1 →
    h.header.length = 64 → h.die < 40 →
    ∃ t, exec (.redigest k) s = .next t ∧ s.SameBut t h.die
      ∧ shardBytes ((t.die h.die).shardHdr h.die) = h.header
      ∧ (t.die h.die).field h.die rShardStatus 31 29 = (if shardHeaderGood h.die h.header then 1 else 4)
      ∧ (t.die h.die).mem.redigest = shardHeaderGood h.die h.header



/-! ## Power and reset -/

/-- A sample of the input shows in PWR_INPUT and MODULE_POWER, counts the samples in a row above the clamp, and sets or
clears the alarm by the mean of the last second; 1,000 such samples clamp the module in P2 with its C-dies off; a failed
input, an overvoltage, or a sensor at its limit takes every rail down; a sensor at 100 degrees only warns. That the
samples missing from a mean count as zero (log 86), and that a tripped module that is still warm stays tripped without
input (log 46), is the model's choice; a mean in W may be rounded either way.
Commands that complete here: INPUT_POWER_SAMPLE, CLAMP_TRIP, INPUT_LOST, OVERVOLTAGE_TRIP, THERMAL_WARNING,
THERMAL_TRIP. -/
def Obligations.InputSamplesAndTrips : Prop :=
  (∀ (v i : BitVec 16) (up up10 : Bool) (s : State), s.germ.rails ≠ .lost →
    let ps := (v.toNat * i.toNat :: s.germ.powers).take secondSamples
    let sum := powerSum ps secondSamples
    let unit := 65536 * secondSamples
    ∃ t, exec (.inputPowerSample v i up up10) s = .next t ∧ (∀ d, d ≠ 32 → t.die d = s.die d)
      ∧ (t.die 32).reg 32 rPwrInput = BitVec.ofNat 64 (v.toNat * 2 ^ 16 + i.toNat)
      ∧ tgetD (t.die 32).regs rModulePower 0 = BitVec.ofNat 64 (powerMean ps secondSamples up * 2 ^ 16
          + max ((s.die 32).field 32 rModulePower 15 0) (powerMean ps centiSamples up10))
      ∧ t.germ.powers = ps
      ∧ t.germ.clampRun = (if 4200 * 65536 ≤ v.toNat * i.toNat then min (s.germ.clampRun + 1) 1000 else 0)
      ∧ t.pwrBit 24 = (if 4000 * unit < sum then true else if sum < 3900 * unit then false else s.pwrBit 24))
  ∧ (∀ s : State, s.germ.rails ≠ .lost → s.inputFailed = true → ∃ t, exec .inputLost s = .next t
      ∧ s.AllDown t (if s.germ.rails = .tripped ∧ s.germ.warm.isEmpty = false then .tripped else .lost))
  ∧ (∀ s : State, s.germ.rails = .on → s.overvoltage = true →
    ∃ t, exec (.overvoltageTrip (BitVec.ofNat 16 s.inputVolts)) s = .next t ∧ s.AllDown t .tripped
      ∧ (t.die 32).field 32 rTripInfo 63 56 = 3 ∧ (t.die 32).field 32 rTripInfo 47 32 = s.inputVolts)
  ∧ (∀ (d : DieId) (k : Fin 5) (c : BitVec 16) (s : State), s.germ.rails = .on → hasSensor d.val k.val = true →
    ((if k.val = 4 then 1680 else 1760) ≤ sensorTemp c →
      ∃ t, exec (.thermalTrip d k c) s = .next t ∧ s.AllDown t .tripped
        ∧ (t.die 32).field 32 rTripInfo 63 56 = 2 ∧ (t.die 32).field 32 rTripInfo 55 48 = d.val
        ∧ tgetD (t.die 32).regs rThermalTrips 0 = tgetD (s.die 32).regs rThermalTrips 0 + 1)
    ∧ (1600 ≤ sensorTemp c → ∃ t, exec (.thermalWarning d k c) s = .next t ∧ t.pwrBit 23 = true
        ∧ t.germ.rails = .on ∧ ∀ e, e ≠ 32 → t.die e = s.die e)
    ∧ (sensorTemp c < 1520 → s.germ.warm = [] → ∃ t, exec (.thermalWarning d k c) s = .next t ∧ t.pwrBit 23 = false))
  ∧ ∀ s : State, s.germ.rails = .on → 1000 ≤ s.germ.clampRun →
    ∃ t, exec .clampTrip s = .next t ∧ t.pst = 2 ∧ t.pwrBit 26 = true ∧ t.germ.rails = .on ∧ t.germ.move = .none
      ∧ tgetD (t.die 32).regs rClampTrips 0 = tgetD (s.die 32).regs rClampTrips 0 + 1
      ∧ (t.die 32).field 32 rTripInfo 63 56 = 1 ∧ t.placed0 = none ∧ t.placed1 = none ∧ t.load = none
      ∧ ∀ d, d < 32 → (t.die d).inReset = true ∧ (t.die d).mem.cells = []

/-- A power-on reset starts the module with its C-dies in reset and their memory empty, out of a trip only when the trip
is over; MOD_RST_N low for 10 us and MOD_RESET with its key restart it, memory and logs kept; a die reset keeps the die's
memory and log, and while boot is in its first steps starts boot again; a release starts the training of the die's links
but for those whose transmitter is held off; an E-die that does not start stops boot; a firmware that does not answer
shows on both ports.
Commands that complete here: POWER_ON_RESET, E_DIE_START_TIMEOUT, FIRMWARE_WATCHDOG_MISS, MOD_RST_N, MOD_RESET,
DIE_RESET, RELEASE_OF_DIE_RESET. -/
def Obligations.ResetsAndBoot : Prop :=
  (∀ s : State,
    (¬(s.germ.rails = .tripped ∧ s.tripOver = false) → ∃ t, exec (.powerOnReset false) s = .next t ∧ t.PoweredOn 0)
    ∧ (s.germ.rails = .p4 → ∃ t, exec (.powerOnReset true) s = .next t ∧ t.PoweredOn 0)
    ∧ (s.germ.rails = .tripped → s.tripOver = true → ∃ t, exec (.powerOnReset true) s = .next t ∧ t.PoweredOn 3)
    ∧ (s.germ.rails = .tripped → s.tripOver = false → ∀ pin, exec (.powerOnReset pin) s = .next s))
  ∧ (∀ (n : Nat) (s : State), s.germ.rails = .on → 10000 ≤ n →
    ∃ t, exec (.modRstN n) s = .next t ∧ s.Restarted t 1)
  ∧ (∀ (k : BitVec 16) (s : State), s.germ.rails = .on →
    (k = 0x5754 → s.boot.programming = none → ∃ t, exec (.modReset k) s = .next t ∧ s.Restarted t 2)
    ∧ (k ≠ 0x5754 → exec (.modReset k) s = .next s))
  ∧ (∀ (d : DieId) (s : State), s.germ.rails = .on → (s.die 32).inReset = false → d.val ≠ 32 → s.bootState = 1 →
    ∃ t, exec (.dieReset d) s = .next t ∧ (t.die 32).inReset = false
      ∧ ∀ e, e < 40 → e ≠ 32 → (t.die e).inReset = true ∧ (e < 32 → (t.die e).mem.cells = (s.die e).mem.cells))
  ∧ (∀ (d : DieId) (s : State), s.germ.rails = .on → (s.die 32).inReset = false → d.val ≠ 32 → s.bootState ≠ 1 →
    ∃ t, exec (.dieReset d) s = .next t ∧ (t.die d.val).inReset = true
      ∧ (d.val < 32 → (t.die d.val).mem.cells = (s.die d.val).mem.cells)
      ∧ (t.die d.val).log = (s.die d.val).log ∧ (t.die d.val).ns = (s.die d.val).ns ∧ (t.die d.val).sec = (s.die d.val).sec
      ∧ tgetD (t.die 32).regs rDieResets 0 = tgetD (s.die 32).regs rDieResets 0 + 1 ∧ t.load = none
      ∧ ∀ e, e ≠ d.val → e ≠ 32 → (t.die e).tiles = (s.die e).tiles)
  ∧ (∀ (d : DieId) (s : State), (s.die d.val).inReset = true → s.mayRelease d.val = true →
    ∃ t, exec (.releaseOfDieReset d) s = .next t ∧ (t.die d.val).inReset = false
      ∧ (d.val < 32 → (t.die d.val).mem.cells = (s.die d.val).mem.cells) ∧ t.pst = s.pst
      ∧ ∀ p ∈ portsOf d.val, s.heldOff p = false → (t.die d.val).linkState d.val p = stTraining)
  ∧ (∀ (e : EDieId) (s : State), s.bootState = 1 → e.val ≠ 0 → (s.die (32 + e.val)).inReset = true →
    ∃ t, exec (.eDieStartTimeout e) s = .next t ∧ t.bootState = 5 ∧ bitsOf (t.cfg cBootStatus) 28 24 = 8
      ∧ t.dies = s.dies)
  ∧ ∀ s : State, s.germ.rails = .on → s.bootState ≠ 3 → s.bootState ≠ 4 →
    ∃ t, exec .firmwareWatchdogMiss s = .next t ∧ t.dies = s.dies
      ∧ bitOf (t.port0.reg bPortStatus) 30 = true ∧ bitOf (t.port1.reg bPortStatus) 30 = true

/-- An entry ends in its state with what that state keeps; the idle timer begins one; a source with its enable set wakes
a sleeping module, is latched during an entry, joins a restore, a latched one that has not begun among them, and with its
enable clear does nothing; a restore ends in P0 with the dies that have trims released; a ready signal that is late leaves
the state.
Commands that complete here: POWER_STATE_ENTRY, IDLE_TIMER, WAKE_N, WAKE_PATTERN_DETECTED, ELECTRICAL_IDLE_EXIT,
WAKE_SEND, RESTORE, LATCHED_WAKE_RESTORE, RESTORE_STEP_LATE. -/
def Obligations.PowerStatesChange : Prop :=
  (∀ (n : Nat) (s : State), s.germ.move = .entering n → s.germ.asked = [] → 1 ≤ n →
    s.commandRuns = false → s.mayLeaveRun = true →
    ∃ t, exec .powerStateEntry s = .next t
      ∧ (n ≤ 3 → t.pst = n ∧ t.germ.move = .none ∧ t.pwrBit 28 = false
          ∧ tgetD (t.die 32).regs rStateEntries 0 = tgetD (s.die 32).regs rStateEntries 0 + 1)
      ∧ (n = 1 → ∀ d, d ≠ 32 → t.die d = s.die d)
      ∧ (n = 2 → ∀ d, d < 32 → (t.die d).inReset = true ∧ (t.die d).mem.cells = (s.die d).mem.cells)
      ∧ (2 ≤ n → t.placed0 = none ∧ t.placed1 = none)
      ∧ (n = 3 → ∀ d, d < 40 → (t.die d).inReset = true ∧ (d < 32 → (t.die d).mem.cells = []))
      ∧ (n = 4 → s.AllDown t .p4))
  ∧ (∀ s : State, let n := (s.die 32).field 32 rIdleCtrl 30 28
    s.germ.rails = .on → s.germ.move = .none → s.germ.latched = false → (s.die 32).bit 32 rIdleCtrl 31 = true →
    s.pst < n → n ≤ 3 →
    s.commandRuns = false → s.mayLeaveRun = true →
    ∃ t, exec .idleTimer s = .next t ∧ t.germ.move = .entering n ∧ t.germ.byTimer = true ∧ t.pst = s.pst
      ∧ t.pwrBit 28 = true ∧ (n ≤ 2 → ∀ d, d ≠ 32 → t.die d = s.die d))
  ∧ (∀ (i : Instr) (k : Nat) (s : State), s.WakeSource i k →
    ((s.die 32).bit 32 rWakeEn k = false → exec i s = .next s)
    ∧ ((s.die 32).bit 32 rWakeEn k = true →
      (s.germ.move = .none → s.germ.latched = false → s.pst ≠ 0 →
        ∃ t, exec i s = .next t ∧ t.germ.move = .restoring ∧ t.pwrBit 27 = true
          ∧ (t.die 32).bit 32 rWakeCause k = true ∧ t.pst = s.pst ∧ ∀ d, d ≠ 32 → t.die d = s.die d)
      ∧ (s.germ.move = .none → s.germ.latched = false → s.pst = 0 → exec i s = .next s)
      ∧ ((s.germ.move = .restoring ∨ (s.germ.move = .none ∧ s.germ.latched = true)) → exec i s = .next (s.modDie 32 (·.setBit 32 rWakeCause k true)))
      ∧ ∀ n, s.germ.move = .entering n → ∃ t, exec i s = .next t ∧ t.germ.latched = true
        ∧ t.germ.move = .entering n ∧ (t.die 32).bit 32 rWakeCause k = true
        ∧ (t.die 32).bit 32 rWakeCause 15 = true))
  ∧ (∀ (e : EDieId) (v : BitVec 2) (s : State), (s.die (32 + e.val)).inReset = false →
    ∃ t, exec (.wakeSend e v) s = .next t ∧ t.dies = s.dies
      ∧ ∀ q, q < 2 → v.getLsbD q = true → (s.die (32 + e.val)).linkActive (32 + e.val) (16 + 2 * e.val + q) = false →
          s.txOn = true → .wakePattern (32 + e.val) (16 + 2 * e.val + q) ∈ t.sent)
  ∧ (∀ s : State, s.germ.rails = .on → s.germ.latched = true → s.germ.move = .none →
    ∃ t, exec .latchedWakeRestore s = .next t ∧ t.germ.move = .restoring ∧ t.germ.latched = false)
  ∧ (∀ s : State, s.germ.move = .restoring → s.germ.asked = [] →
    ∃ t, exec .restore s = .next t ∧ t.pst = 0 ∧ t.germ.move = .none ∧ t.pwrBit 27 = false
      ∧ ∀ d, d < 40 → d ≠ 32 → s.trimmed d = true → (t.die d).inReset = false)
  ∧ ∀ (n : Fin 4) (s : State), s.germ.move = .restoring →
    ∃ t, exec (.restoreStepLate n) s = .next t ∧ t.germ.move = .none ∧ t.pst = s.pst ∧ t.pwrBit 25 = true
      ∧ t.pwrBit 27 = false

/-- PERST_N, a hot reset, the loss of the link and a Function Level Reset put the BAR0 registers of their port at reset,
end what the port was owed and remove its entries from every context; only the last one keeps the link; the other
port and every tile keep their state. A link that comes up shows its width.
Commands that complete here: PERST_ASSERT, HOT_RESET, PCIE_LINK_LOSS, FUNCTION_LEVEL_RESET, PCIE_LINK_UP. -/
def Obligations.PortsResetAndLinkUp : Prop :=
  (∀ (p : Fin 2) (i : Instr) (keep : Bool) (s : State),
    (keep = false ∧ (i = .perstAssert p ∨ i = .hotReset p ∨ i = .pcieLinkLoss p))
      ∨ (keep = true ∧ i = .functionLevelReset p) →
    ∃ t, exec i s = .next t ∧ (∀ q, q ≠ p → t.port q = s.port q)
      ∧ (t.port p).epoch = (s.port p).epoch + 1 ∧ (t.port p).linkUp = (keep && (s.port p).linkUp)
      ∧ (t.port p).owed = [] ∧ (t.port p).recovery = (s.port p).recovery
      ∧ (∀ off, off ≠ bPortStatus → off ≠ bDiscarded → (t.port p).reg off = HostPort.reset.reg off)
      ∧ (∀ e n, 32 ≤ e → e < 40 → (t.die e).ctx.ctx n = ((s.die e).ctx.ctx n).dropPort p)
      ∧ ∀ d, (t.die d).tiles = (s.die d).tiles ∧ (t.die d).regs = (s.die d).regs)
  ∧ ∀ (p : Fin 2) (w : Nat) (s : State), s.germ.rails = .on → s.asleep = false → w = 1 ∨ w = 2 ∨ w = 4 ∨ w = 8 →
    ∃ t, exec (.pcieLinkUp p w) s = .next t ∧ (t.port p).linkUp = true
      ∧ bitsOf ((t.port p).reg bPortStatus) 3 0 = w ∧ t.dies = s.dies



/-! ## Firmware, identity and management -/

/-- GO for an update or a recovery begins to program the image when it passes its tests and otherwise ends with their
reason; programming that ends leaves the image in the slot, or an erased slot, and a recovery then resets the
module; a report is signed while the identity key is usable; the certificate is returned; SPARE_CLUSTER appends a
map record with the cluster as the spared one. Whether that record reads back is open; one that does not is answered as
one that could not be signed (log 49).
Commands that complete here: FIRMWARE_UPDATE, FIRMWARE_RECOVERY, GET_ATTESTATION, GET_CERTIFICATE, SPARE_CLUSTER,
FIRMWARE_PROGRAMMING_END. -/
def Obligations.FirmwareAndIdentity : Prop :=
  (∀ (p : Fin 2) (floor : Bool) (s : State), s.germ.rails = .on → s.boot.programming = none →
    (s.inRecovery = false → (floor = true → s.canSign = true) →
      let bs := s.fwBytes p false
      ∃ t, exec (.firmwareUpdate p floor) s = .next t ∧ t.dies = s.dies
        ∧ t.boot.flash = s.boot.flash
        ∧ (fwTest bs s.flash.floor = 0 → t.fwStatus = 3
            ∧ t.boot.programming = some ⟨p, false, floor, bs.take (fwLength bs)⟩)
        ∧ (fwTest bs s.flash.floor ≠ 0 → t.fwStatus = 6 ∧ t.boot.programming = none
            ∧ bitsOf (t.cfg cFwCtrl) 20 16 = fwTest bs s.flash.floor))
    ∧ (s.inRecovery = true →
      let bs := s.fwBytes p true
      ∃ t, exec (.firmwareRecovery p) s = .next t ∧ t.dies = s.dies ∧ t.boot.flash = s.boot.flash
        ∧ (fwTest bs s.flash.floor = 0 → t.fwStatus = 3 ∧ t.bootState = 4
            ∧ t.boot.programming = some ⟨p, true, false, bs.take (fwLength bs)⟩)
        ∧ (fwTest bs s.flash.floor ≠ 0 → t.fwStatus = 6 ∧ t.bootState = s.bootState)))
  ∧ (∀ (j : Programming) (s : State), s.boot.programming = some j → s.boot.delayedReset = none →
    (j.recovery = false → j.floor = false →
      j.image.length ≤ slotSize →
      ∃ t, exec (.firmwareProgrammingEnd true) s = .next t ∧ t.boot.flash.slot = j.image
        ∧ t.boot.flash.torn = false ∧ t.fwStatus = 5 ∧ t.boot.programming = none)
    ∧ (∃ t, exec (.firmwareProgrammingEnd false) s = .next t ∧ t.boot.flash.slot = [] ∧ t.fwStatus = 7
        ∧ t.boot.programming = none)
    ∧ (j.recovery = true → ∃ t, exec (.firmwareProgrammingEnd true) s = .next t ∧ s.Restarted t 2))
  ∧ ∀ (m : MgmtMsg) (q : Option Request) (s u : State),
    (s.Serves 0x01 m q u → m.args.length = 16 →
      (∀ v r, u.attest m.args = (v, some r) →
        exec (.getAttestation m) s = .next (v.mgmtReply 0x01 m q 0 (pathCut m.path r)))
      ∧ (u.canSign = false → exec (.getAttestation m) s = .next (u.mgmtReply 0x01 m q 0x82 [])))
    ∧ (s.Serves 0x02 m q u → m.args = [] → exec (.getCertificate m) s = .next (match u.flash.live recCertificate with
        | some r => u.mgmtReply 0x02 m q 0 (pathCut m.path r.bytes)
        | none => u.mgmtReply 0x02 m q 0x82 []))
    ∧ ∀ c r x : Byte, m.args = [c, r, x] → c.toNat ≤ 31 → r.toNat ≤ 3 → x.toNat ≤ 8 → s.Serves 0x10 m q u →
      (spareEntry (u.flash.mapEntry c.toNat r.toNat) x.toNat = none →
        exec (.spareCluster m) s = .next (u.spareReply m q c.toNat r.toNat))
      ∧ ∀ e, spareEntry (u.flash.mapEntry c.toNat r.toNat) x.toNat = some e →
        (u.canSign = false → exec (.spareCluster m) s = .next (u.mgmtReply 0x10 m q 0x82 []))
        ∧ (u.canSign = true → u.idxNext ≠ u.idxReserved → u.idxNext + 1024 < 2 ^ 40 →
            u.flash.mapPayload.length = 256 → u.flash.used + 10240 ≤ bankSize →
          ∃ t, exec (.spareCluster m) s = .next t ∧ t.idxNext = u.idxNext + 1
            ∧ if Config.readbackGood u.fz then
                ∃ g ∈ t.flash.banks, g.type = BitVec.ofNat 16 recMap
                  ∧ fieldLE g.payload (8 * c.toNat + 2 * r.toNat) 2 = e % 2 ^ 16
              else ∃ v : State, t = v.mgmtReply 0x10 m q 0x82 [])

/-- A management message that its path brings to the endpoint is answered on that path, at once or, behind others, in its
turn, with 0x83 once 8 wait: SET_POWER_STATE changes nothing for the state that stands, begins the
entry of a lower one and is refused for a higher one but P0; MODULE_RESET with its key resets the module; READ_LOG
and GET_STATUS return their bytes; SET_SETTING keeps the value for the next reset; wrong arguments are answered with
0x81 and what the Ethernet port does not serve with 0x84. A settings record that does not read back is answered as one
that could not be signed (log 49).
Commands that complete here: MGMT_SET_POWER_STATE, MODULE_RESET, MGMT_READ_LOG, GET_STATUS, SET_SETTING. -/
def Obligations.ManagementMessagesAreServed : Prop :=
  (∀ (i : Instr) (c : Byte) (m : MgmtMsg) (q : Option Request) (s u : State), mgmtForm i = some (c, m) →
    ((s.hears m.path = false ∨ messageFits m = false) → exec i s = .next s)
    ∧ (s.hears m.path = true → messageFits m = true → m.path ≠ .control → s.mgmt.queue = [] →
        s.ethRefuses c m.path = true → exec i s = .next (s.mgmtReply c m none 0x84 []))
    ∧ (s.hears m.path = true → messageFits m = true → m.path ≠ .control →
        ∀ h hs, s.mgmt.queue = h :: hs → ¬(h.command = c ∧ h.msg = m) →
        (8 ≤ s.mgmt.queue.length → exec i s = .next (s.mgmtReply c m none 0x83 []))
        ∧ (s.mgmt.queue.length < 8 → ∃ t, exec i s = .next t ∧ t.dies = s.dies
            ∧ t.mgmt = { s.mgmt with queue := queueReq ⟨s.nowNs 32 / 1000, c, m, none⟩ s.mgmt.queue }))
    ∧ (s.Serves c m q u → 17 ≤ m.args.length → exec i s = .next (u.mgmtReply c m q 0x81 [])))
  ∧ ∀ (m : MgmtMsg) (q : Option Request) (s u : State),
    (∀ n p : Byte, m.args = [n, p] → n.toNat ≤ 4 → p.toNat ≤ 1 → s.Serves 0x20 m q u → u.germ.move = .none →
      u.germ.latched = false →
      (n.toNat = u.pst → ∃ v : State, exec (.mgmtSetPowerState m) s = .next (v.mgmtReply 0x20 m q 0 [])
        ∧ v.pst = u.pst ∧ v.germ = u.germ ∧ (v.die 32).bit 32 rIdleCtrl 31 = (p == 1))
      ∧ (u.pst < n.toNat → u.commandRuns = false → u.mayLeaveRun = true →
        ∃ t, exec (.mgmtSetPowerState m) s = .next t ∧ t.germ.move = .entering n.toNat ∧ t.pst = u.pst)
      ∧ (n.toNat < u.pst → n ≠ 0 → exec (.mgmtSetPowerState m) s = .next (u.mgmtReply 0x20 m q 0x84 [])))
    ∧ (m.args = [0x54, 0x57] → s.Serves 0x21 m q u → (∀ n, u.germ.move ≠ .entering n) → u.boot.programming = none →
      ∃ t, exec (.moduleReset m) s = .next t ∧ s.Restarted t 2)
    ∧ (∀ bs, m.args.length = 7 → fieldLE m.args 5 2 ≤ readLimit m.path → s.Serves 0x30 m q u →
      u.logContents (fieldLE m.args 0 1) = some bs →
      let piece := logPiece bs (fieldLE m.args 1 4) (fieldLE m.args 5 2)
      exec (.mgmtReadLog m) s = .next (u.used.mgmtReply 0x30 m q 0 (leBytes piece.length 2 ++ piece)))
    ∧ (m.args = [] → s.Serves 0x31 m q u →
      exec (.getStatus m) s = .next ((u.timed 32).mgmtReply 0x31 m q 0
        (leBytes (u.cfg cBootStatus).toNat 4 ++ leBytes (u.cfg cFwVersion).toNat 4
          ++ leBytes ((u.die 32).reg 32 rPwrStatus).toNat 4 ++ leBytes ((u.die 32).reg 32 rTripInfo).toNat 8
          ++ leBytes u.servoStatus.toNat 4 ++ leBytes (u.timeNow 32).toNat 8)))
    ∧ (let n := fieldLE m.args 0 1
      let v := fieldLE m.args 1 8
      m.args.length = 9 → settingFits n v = true → s.Serves 0x40 m q u →
      (u.canSign = false → exec (.setSetting m) s = .next (u.mgmtReply 0x40 m q 0x82 []))
      ∧ (u.canSign = true → u.idxNext ≠ u.idxReserved → u.idxNext + 1024 < 2 ^ 40 →
          u.flash.used + 10048 ≤ bankSize →
        ∃ (w : State) (cc : Byte), exec (.setSetting m) s = .next (w.mgmtReply 0x40 m q cc [])
          ∧ w.mgmt.inForce = u.mgmt.inForce
          ∧ if Config.readbackGood u.fz then cc = 0 ∧ tget w.mgmt.settings n = some (BitVec.ofNat 64 v)
            else cc = 0x82 ∧ w.mgmt.settings = u.mgmt.settings))

/-- MCTP control and PLDM requests that the endpoint hears are answered on their path, over I3C after an in-band
interrupt, with the codes and layouts of their standards (log 67), and Set Endpoint ID, SetTID and the power effecter take
their values; one on another path, to another address or with a wrong PEC changes nothing; SETDASA, by its static address,
and ENTDAA give a target without an address its own; ARP, echo and neighbour requests for an address of the port are answered, and a DHCPv4 reply and a
router advertisement set its addresses.
Commands that complete here: SET_ENDPOINT_ID, GET_ENDPOINT_ID, GET_ENDPOINT_UUID, GET_MCTP_VERSION_SUPPORT,
GET_MESSAGE_TYPE_SUPPORT, GET_VENDOR_DEFINED_MESSAGE_SUPPORT, SETDASA, ENTDAA, GET_TID, SET_TID, GET_PLDM_VERSION,
GET_PLDM_TYPES, GET_PLDM_COMMANDS, GET_SENSOR_READING, GET_STATE_SENSOR_READINGS, SET_STATE_EFFECTER_STATES,
GET_STATE_EFFECTER_STATES, GET_PDR_REPOSITORY_INFO, GET_PDR, ARP_REQUEST, ICMP_ECHO, NEIGHBOUR_DISCOVERY,
DHCPV4_REPLY, ROUTER_ADVERTISEMENT. -/
def Obligations.StandardProtocolsAreAnswered : Prop :=
  (∀ (p : MgmtPath) (s : State), s.hearsMctp p = true →
    (∀ e : Byte, e ≠ 0 → e ≠ 0xFF → ∃ u : State,
      exec (.setEndpointId p e) s = .next (u.sendOn p (.mctp p "SetEndpointID" 0 [0, e, 0]))
        ∧ u = { s with mgmt := { s.mgmt with eid := e } })
    ∧ (∃ k, exec (.getEndpointId p) s = .next (s.sendOn p (.mctp p "GetEndpointID" 0 [s.mgmt.eid, k, 0])))
    ∧ (∃ b : List Byte, b.length = 16
        ∧ exec (.getEndpointUuid p) s = .next (s.sendOn p (.mctp p "GetEndpointUUID" 0 b)))
    ∧ exec (.getMctpVersionSupport p 0) s
        = .next (s.sendOn p (.mctp p "GetMCTPVersionSupport" 0 [1, 0xF1, 0xF3, 0xF0, 0x00]))
    ∧ exec (.getMessageTypeSupport p) s
        = .next (s.sendOn p (.mctp p "GetMessageTypeSupport" 0 [3, 0x00, 0x01, 0x7E]))
    ∧ exec (.getVendorDefinedMessageSupport p 0) s
        = .next (s.sendOn p (.mctp p "GetVendorDefinedMessageSupport" 0
            ([0xFF, 0x00] ++ beBytes Config.vendorId.toNat 2 ++ [0, 0])))
    ∧ exec (.getTid p) s = .next (s.sendOn p (.mctp p "GetTID" 0 [s.mgmt.tid]))
    ∧ (∀ e : Byte, e ≠ 0 → e ≠ 0xFF → exec (.setTid p e) s
        = .next (State.sendOn { s with mgmt := { s.mgmt with tid := e } } p (.mctp p "SetTID" 0 [])))
    ∧ (∀ t : Byte, t = 0 ∨ t = 2 → ∃ b, exec (.getPldmVersion p t) s
        = .next (s.used.sendOn p (.mctp p "GetPLDMVersion" 0 b)))
    ∧ exec (.getPldmTypes p) s = .next (s.sendOn p (.mctp p "GetPLDMTypes" 0 (0x05 :: List.replicate 7 0)))
    ∧ exec (.getPldmCommands p 2) s = .next (s.sendOn p (.mctp p "GetPLDMCommands" 0
        (commandBits [0x11, 0x21, 0x39, 0x3A, 0x50, 0x51])))
    ∧ (∀ n e, numericSensor n.toNat = some e →
      let v := s.sensorValue e.id
      ∃ b : List Byte, b.length = 1 ∧ exec (.getSensorReading p n) s
        = .next (s.used.sendOn p (.mctp p "GetSensorReading" 0
            ([if e.unit = .celsius16 then 3 else 2, 0, 0, sensorState e v] ++ b ++ [sensorState e v] ++ leBytes v 2))))
    ∧ (∀ n v, s.stateSensor n.toNat = some v → ∃ b : List Byte, b.length = 1 ∧ exec (.getStateSensorReadings p n) s
        = .next (s.used.sendOn p (.mctp p "GetStateSensorReadings" 0
            ([1, 0, BitVec.ofNat 8 v] ++ b ++ [BitVec.ofNat 8 v]))))
    ∧ (s.germ.move = .none → s.germ.latched = false → s.pst ≤ 4 →
      ∃ u : State, exec (.setStateEffecterStates p 0x2000 (BitVec.ofNat 8 s.pst)) s
        = .next (u.sendOn p (.mctp p "SetStateEffecterStates" 0 [])) ∧ u.mgmt.effecter = BitVec.ofNat 8 s.pst
          ∧ u.pst = s.pst)
    ∧ exec (.getStateEffecterStates p 0x2000) s
        = .next (s.sendOn p (.mctp p "GetStateEffecterStates" 0 [1, 0, s.mgmt.effecter, BitVec.ofNat 8 s.pst]))
    ∧ (∃ b, exec (.getPdrRepositoryInfo p) s = .next (s.used.sendOn p (.mctp p "GetPDRRepositoryInfo" 0 b)))
    ∧ ∀ (n : W32) e, 1 ≤ n.toNat → pdrTable[n.toNat - 1]? = some e →
        exec (.getPdr p n) s = .next (s.sendOn p (.mctp p "GetPDR" 0
          (leBytes (if n.toNat < pdrCount then n.toNat + 1 else 0) 4 ++ leBytes 0 4 ++ [0x05]
            ++ leBytes (Config.pdr e).length 2 ++ Config.pdr e))))
  ∧ (∀ (p : MgmtPath) (s : State), s.hearsMctp p = false →
    (∀ e, exec (.setEndpointId p e) s = .next s ∧ exec (.setTid p e) s = .next s)
    ∧ ∀ n e, exec (.setStateEffecterStates p n e) s = .next s)
  ∧ ∀ s : State, s.mgmtOn = true →
    (∀ a : BitVec 7, s.mgmt.i3cAddr = 0 →
        exec (.setdasa ⟨s.mgmt.smbusAddr, a⟩) s = .next { s with mgmt := { s.mgmt with i3cAddr := a } }
        ∧ exec (.entdaa a) s = .next { s with mgmt := { s.mgmt with i3cAddr := a } })
    ∧ (∀ (o : W32) (mac : BitVec 48), s.mgmt.ip4 ≠ 0 → exec (.arpRequest s.mgmt.ip4 o mac) s
        = .next (s.emit (.ethernet "ARP reply" (beBytes s.mac.toNat 6 ++ beBytes s.mgmt.ip4.toNat 4
            ++ beBytes mac.toNat 6 ++ beBytes o.toNat 4))))
    ∧ (∀ (o : BitVec 128) (bs : List Byte), exec (.icmpEcho true o bs) s
        = .next (s.emit (.ethernet "ICMPv6 echo reply" (beBytes o.toNat 16 ++ bs)))
      ∧ exec (.neighbourDiscovery s.linkLocal o) s = .next (s.emit (.ethernet "neighbour advertisement"
          (beBytes s.linkLocal.toNat 16 ++ beBytes s.mac.toNat 6 ++ beBytes o.toNat 16))))
    ∧ (∀ a : W32, exec (.dhcpv4Reply a) s = .next (if Config.dhcpMode (settingOf s.mgmt.inForce 5)
        then { s with mgmt := { s.mgmt with ip4 := a } } else s))
    ∧ ∀ a : W64, exec (.routerAdvertisement a) s = .next { s with mgmt := { s.mgmt with
        ip6 := BitVec.ofNat 128 (a.toNat * 2 ^ 64 + eui64 s.mac) } }
end

