-- ==== Sys2Proof/Laws/Table.lean ====
section
/-! SUPPORT. Laws of the sparse tables: what reading gives after an entry was set or a function was
applied. -/

namespace Sys2Proof.Machine

variable {α : Type}

@[simp] theorem tget_nil (k : Nat) : tget ([] : Table α) k = none := rfl

@[simp] theorem tget_tput (m : Table α) (k : Nat) (v : α) : tget (tput m k v) k = some v := by
  induction m with
  | nil => simp [tput, tget]
  | cons e m ih =>
    obtain ⟨j, x⟩ := e
    rcases Nat.lt_trichotomy j k with h | h | h
    · simp [tput, tget, h, Nat.ne_of_lt h, ih]
    · simp [tput, tget, h]
    · simp [tput, tget, Nat.not_lt.mpr (Nat.le_of_lt h), Nat.ne_of_gt h]

theorem tget_tput_ne (m : Table α) {k n : Nat} (v : α) (h : n ≠ k) :
    tget (tput m k v) n = tget m n := by
  induction m with
  | nil => simp [tput, tget, Ne.symm h]
  | cons e m ih =>
    obtain ⟨j, x⟩ := e
    rcases Nat.lt_trichotomy j k with g | g | g
    · simp [tput, tget, g, ih]
    · simp [tput, tget, g, Ne.symm h]
    · simp [tput, tget, Nat.not_lt.mpr (Nat.le_of_lt g), Nat.ne_of_gt g, Ne.symm h]

@[simp] theorem tput_tput (m : Table α) (k : Nat) (v w : α) :
    tput (tput m k v) k w = tput m k w := by
  induction m with
  | nil => simp [tput]
  | cons e m ih =>
    obtain ⟨j, x⟩ := e
    rcases Nat.lt_trichotomy j k with h | h | h
    · simp [tput, h, ih]
    · simp [tput, h]
    · simp [tput, Nat.not_lt.mpr (Nat.le_of_lt h), Nat.ne_of_gt h]

@[simp] theorem tgetD_nil (k : Nat) (d : α) : tgetD ([] : Table α) k d = d := rfl

@[simp] theorem tgetD_tput (m : Table α) (k : Nat) (v d : α) : tgetD (tput m k v) k d = v := by
  simp [tgetD]

theorem tgetD_tput_ne (m : Table α) {k n : Nat} (v d : α) (h : n ≠ k) :
    tgetD (tput m k v) n d = tgetD m n d := by
  simp [tgetD, tget_tput_ne m v h]

theorem tgetD_tput_if (m : Table α) (k n : Nat) (v d : α) :
    tgetD (tput m k v) n d = if n = k then v else tgetD m n d := by
  by_cases h : n = k
  · simp [h]
  · simp [h, tgetD_tput_ne m v d h]

@[simp] theorem tget_tmap (f : Nat → α → α) (m : Table α) (k : Nat) :
    tget (tmap f m) k = (tget m k).map (f k) := by
  induction m with
  | nil => rfl
  | cons e m ih =>
    obtain ⟨j, x⟩ := e
    by_cases h : j = k
    · simp [tmap, tget, h]
    · simpa [tmap, tget, h] using ih

/-- An entry that satisfies the test of all entries of a table. -/
theorem tget_mem {m : Table α} {k : Nat} {v : α} (h : tget m k = some v) : (k, v) ∈ m := by
  induction m with
  | nil => simp at h
  | cons e m ih =>
    obtain ⟨j, x⟩ := e
    by_cases g : j = k
    · simp [tget, g] at h
      simp [g, h]
    · simp only [tget, g, if_false] at h
      exact List.mem_cons_of_mem _ (ih h)

/-- What a table lists after an entry was set: the entry, or what it listed before. -/
theorem mem_tput {m : Table α} {k : Nat} {v : α} {e : Nat × α} (h : e ∈ tput m k v) :
    e = (k, v) ∨ e ∈ m := by
  induction m with
  | nil => simpa [tput] using h
  | cons f m ih =>
    obtain ⟨j, x⟩ := f
    rcases Nat.lt_trichotomy j k with g | g | g
    · simp only [tput, g, if_true, List.mem_cons] at h
      rcases h with h | h
      · exact .inr (by simp [h])
      · rcases ih h with h | h
        · exact .inl h
        · exact .inr (List.mem_cons_of_mem _ h)
    · simp only [tput, g, Nat.lt_irrefl, if_false, if_true, List.mem_cons] at h
      rcases h with h | h
      · exact .inl h
      · exact .inr (List.mem_cons_of_mem _ h)
    · simp only [tput, Nat.not_lt.mpr (Nat.le_of_lt g), Nat.ne_of_gt g, if_false, List.mem_cons] at h
      rcases h with h | h | h
      · exact .inl h
      · exact .inr (by simp [h])
      · exact .inr (List.mem_cons_of_mem _ h)

/-- A property of all entries stays one when an entry that has it is set. -/
theorem forall_mem_tput {m : Table α} {P : Nat × α → Prop} {k : Nat} {v : α}
    (h : ∀ e ∈ m, P e) (hv : P (k, v)) : ∀ e ∈ tput m k v, P e := by
  intro e he
  rcases mem_tput he with rfl | he
  · exact hv
  · exact h e he

theorem forall_mem_tmap {m : Table α} {P Q : Nat × α → Prop} {f : Nat → α → α}
    (h : ∀ e ∈ m, P e) (hf : ∀ e, P e → Q (e.1, f e.1 e.2)) : ∀ e ∈ tmap f m, Q e := by
  intro e he
  simp only [tmap, List.mem_map] at he
  obtain ⟨a, ha, rfl⟩ := he
  exact hf a (h a ha)

end Sys2Proof.Machine
end

