-- ==== Sys2Proof/Laws/State.lean ====
section
/-! SUPPORT. What each update of the state leaves in each field: one law per field and update. -/

namespace Sys2Proof.Machine

/-! ## The module -/

@[simp] theorem State.setDie_pending (s : State) (d : Nat) (x : Die) :
    (s.setDie d x).pending = s.pending := rfl
@[simp] theorem State.setDie_sent (s : State) (d : Nat) (x : Die) :
    (s.setDie d x).sent = s.sent := rfl
@[simp] theorem State.setDie_dies (s : State) (d : Nat) (x : Die) :
    (s.setDie d x).dies = tput s.dies d x := rfl
@[simp] theorem State.setDie_port0 (s : State) (d : Nat) (x : Die) :
    (s.setDie d x).port0 = s.port0 := rfl
@[simp] theorem State.setDie_port1 (s : State) (d : Nat) (x : Die) :
    (s.setDie d x).port1 = s.port1 := rfl
@[simp] theorem State.setDie_taken (s : State) (d : Nat) (x : Die) :
    (s.setDie d x).taken = s.taken := rfl
@[simp] theorem State.setDie_weights (s : State) (d : Nat) (x : Die) :
    (s.setDie d x).weights = s.weights := rfl
@[simp] theorem State.setDie_load (s : State) (d : Nat) (x : Die) :
    (s.setDie d x).load = s.load := rfl
@[simp] theorem State.setDie_snaps (s : State) (d : Nat) (x : Die) :
    (s.setDie d x).snaps = s.snaps := rfl
@[simp] theorem State.setDie_germ (s : State) (d : Nat) (x : Die) :
    (s.setDie d x).germ = s.germ := rfl
@[simp] theorem State.setDie_boot (s : State) (d : Nat) (x : Die) :
    (s.setDie d x).boot = s.boot := rfl
@[simp] theorem State.setDie_servo (s : State) (d : Nat) (x : Die) :
    (s.setDie d x).servo = s.servo := rfl
@[simp] theorem State.setDie_mgmt (s : State) (d : Nat) (x : Die) :
    (s.setDie d x).mgmt = s.mgmt := rfl
@[simp] theorem State.setDie_placed0 (s : State) (d : Nat) (x : Die) :
    (s.setDie d x).placed0 = s.placed0 := rfl
@[simp] theorem State.setDie_placed1 (s : State) (d : Nat) (x : Die) :
    (s.setDie d x).placed1 = s.placed1 := rfl
@[simp] theorem State.setDie_remoteGen (s : State) (d : Nat) (x : Die) :
    (s.setDie d x).remoteGen = s.remoteGen := rfl
@[simp] theorem State.setDie_jobs (s : State) (d : Nat) (x : Die) :
    (s.setDie d x).jobs = s.jobs := rfl
@[simp] theorem State.setDie_fz (s : State) (d : Nat) (x : Die) :
    (s.setDie d x).fz = s.fz := rfl
@[simp] theorem State.setDie_ticks (s : State) (d : Nat) (x : Die) :
    (s.setDie d x).ticks = s.ticks := rfl

@[simp] theorem State.modDie_pending (s : State) (d : Nat) (f : Die → Die) :
    (s.modDie d f).pending = s.pending := rfl
@[simp] theorem State.modDie_sent (s : State) (d : Nat) (f : Die → Die) :
    (s.modDie d f).sent = s.sent := rfl
@[simp] theorem State.modDie_dies (s : State) (d : Nat) (f : Die → Die) :
    (s.modDie d f).dies = tput s.dies d (f (s.die d)) := rfl
@[simp] theorem State.modDie_port0 (s : State) (d : Nat) (f : Die → Die) :
    (s.modDie d f).port0 = s.port0 := rfl
@[simp] theorem State.modDie_port1 (s : State) (d : Nat) (f : Die → Die) :
    (s.modDie d f).port1 = s.port1 := rfl
@[simp] theorem State.modDie_taken (s : State) (d : Nat) (f : Die → Die) :
    (s.modDie d f).taken = s.taken := rfl
@[simp] theorem State.modDie_weights (s : State) (d : Nat) (f : Die → Die) :
    (s.modDie d f).weights = s.weights := rfl
@[simp] theorem State.modDie_load (s : State) (d : Nat) (f : Die → Die) :
    (s.modDie d f).load = s.load := rfl
@[simp] theorem State.modDie_snaps (s : State) (d : Nat) (f : Die → Die) :
    (s.modDie d f).snaps = s.snaps := rfl
@[simp] theorem State.modDie_germ (s : State) (d : Nat) (f : Die → Die) :
    (s.modDie d f).germ = s.germ := rfl
@[simp] theorem State.modDie_boot (s : State) (d : Nat) (f : Die → Die) :
    (s.modDie d f).boot = s.boot := rfl
@[simp] theorem State.modDie_servo (s : State) (d : Nat) (f : Die → Die) :
    (s.modDie d f).servo = s.servo := rfl
@[simp] theorem State.modDie_mgmt (s : State) (d : Nat) (f : Die → Die) :
    (s.modDie d f).mgmt = s.mgmt := rfl
@[simp] theorem State.modDie_placed0 (s : State) (d : Nat) (f : Die → Die) :
    (s.modDie d f).placed0 = s.placed0 := rfl
@[simp] theorem State.modDie_placed1 (s : State) (d : Nat) (f : Die → Die) :
    (s.modDie d f).placed1 = s.placed1 := rfl
@[simp] theorem State.modDie_remoteGen (s : State) (d : Nat) (f : Die → Die) :
    (s.modDie d f).remoteGen = s.remoteGen := rfl
@[simp] theorem State.modDie_jobs (s : State) (d : Nat) (f : Die → Die) :
    (s.modDie d f).jobs = s.jobs := rfl
@[simp] theorem State.modDie_fz (s : State) (d : Nat) (f : Die → Die) :
    (s.modDie d f).fz = s.fz := rfl
@[simp] theorem State.modDie_ticks (s : State) (d : Nat) (f : Die → Die) :
    (s.modDie d f).ticks = s.ticks := rfl

@[simp] theorem State.used_pending (s : State)  :
    (s.used).pending = s.pending := rfl
@[simp] theorem State.used_sent (s : State)  :
    (s.used).sent = s.sent := rfl
@[simp] theorem State.used_dies (s : State)  :
    (s.used).dies = s.dies := rfl
@[simp] theorem State.used_port0 (s : State)  :
    (s.used).port0 = s.port0 := rfl
@[simp] theorem State.used_port1 (s : State)  :
    (s.used).port1 = s.port1 := rfl
@[simp] theorem State.used_taken (s : State)  :
    (s.used).taken = s.taken := rfl
@[simp] theorem State.used_weights (s : State)  :
    (s.used).weights = s.weights := rfl
@[simp] theorem State.used_load (s : State)  :
    (s.used).load = s.load := rfl
@[simp] theorem State.used_snaps (s : State)  :
    (s.used).snaps = s.snaps := rfl
@[simp] theorem State.used_germ (s : State)  :
    (s.used).germ = s.germ := rfl
@[simp] theorem State.used_boot (s : State)  :
    (s.used).boot = s.boot := rfl
@[simp] theorem State.used_servo (s : State)  :
    (s.used).servo = s.servo := rfl
@[simp] theorem State.used_mgmt (s : State)  :
    (s.used).mgmt = s.mgmt := rfl
@[simp] theorem State.used_placed0 (s : State)  :
    (s.used).placed0 = s.placed0 := rfl
@[simp] theorem State.used_placed1 (s : State)  :
    (s.used).placed1 = s.placed1 := rfl
@[simp] theorem State.used_remoteGen (s : State)  :
    (s.used).remoteGen = s.remoteGen := rfl
@[simp] theorem State.used_jobs (s : State)  :
    (s.used).jobs = s.jobs := rfl
@[simp] theorem State.used_fz (s : State)  :
    (s.used).fz = s.fz + 1 := rfl
@[simp] theorem State.used_ticks (s : State)  :
    (s.used).ticks = s.ticks := rfl

@[simp] theorem State.emit_pending (s : State) (e : Emission) :
    (s.emit e).pending = s.pending := rfl
@[simp] theorem State.emit_sent (s : State) (e : Emission) :
    (s.emit e).sent = e :: s.sent := rfl
@[simp] theorem State.emit_dies (s : State) (e : Emission) :
    (s.emit e).dies = s.dies := rfl
@[simp] theorem State.emit_port0 (s : State) (e : Emission) :
    (s.emit e).port0 = s.port0 := rfl
@[simp] theorem State.emit_port1 (s : State) (e : Emission) :
    (s.emit e).port1 = s.port1 := rfl
@[simp] theorem State.emit_taken (s : State) (e : Emission) :
    (s.emit e).taken = s.taken := rfl
@[simp] theorem State.emit_weights (s : State) (e : Emission) :
    (s.emit e).weights = s.weights := rfl
@[simp] theorem State.emit_load (s : State) (e : Emission) :
    (s.emit e).load = s.load := rfl
@[simp] theorem State.emit_snaps (s : State) (e : Emission) :
    (s.emit e).snaps = s.snaps := rfl
@[simp] theorem State.emit_germ (s : State) (e : Emission) :
    (s.emit e).germ = s.germ := rfl
@[simp] theorem State.emit_boot (s : State) (e : Emission) :
    (s.emit e).boot = s.boot := rfl
@[simp] theorem State.emit_servo (s : State) (e : Emission) :
    (s.emit e).servo = s.servo := rfl
@[simp] theorem State.emit_mgmt (s : State) (e : Emission) :
    (s.emit e).mgmt = s.mgmt := rfl
@[simp] theorem State.emit_placed0 (s : State) (e : Emission) :
    (s.emit e).placed0 = s.placed0 := rfl
@[simp] theorem State.emit_placed1 (s : State) (e : Emission) :
    (s.emit e).placed1 = s.placed1 := rfl
@[simp] theorem State.emit_remoteGen (s : State) (e : Emission) :
    (s.emit e).remoteGen = s.remoteGen := rfl
@[simp] theorem State.emit_jobs (s : State) (e : Emission) :
    (s.emit e).jobs = s.jobs := rfl
@[simp] theorem State.emit_fz (s : State) (e : Emission) :
    (s.emit e).fz = s.fz := rfl
@[simp] theorem State.emit_ticks (s : State) (e : Emission) :
    (s.emit e).ticks = s.ticks := rfl

@[simp] theorem State.emits_pending (s : State) (es : List Emission) :
    (s.emits es).pending = s.pending := rfl
@[simp] theorem State.emits_sent (s : State) (es : List Emission) :
    (s.emits es).sent = es.reverse ++ s.sent := rfl
@[simp] theorem State.emits_dies (s : State) (es : List Emission) :
    (s.emits es).dies = s.dies := rfl
@[simp] theorem State.emits_port0 (s : State) (es : List Emission) :
    (s.emits es).port0 = s.port0 := rfl
@[simp] theorem State.emits_port1 (s : State) (es : List Emission) :
    (s.emits es).port1 = s.port1 := rfl
@[simp] theorem State.emits_taken (s : State) (es : List Emission) :
    (s.emits es).taken = s.taken := rfl
@[simp] theorem State.emits_weights (s : State) (es : List Emission) :
    (s.emits es).weights = s.weights := rfl
@[simp] theorem State.emits_load (s : State) (es : List Emission) :
    (s.emits es).load = s.load := rfl
@[simp] theorem State.emits_snaps (s : State) (es : List Emission) :
    (s.emits es).snaps = s.snaps := rfl
@[simp] theorem State.emits_germ (s : State) (es : List Emission) :
    (s.emits es).germ = s.germ := rfl
@[simp] theorem State.emits_boot (s : State) (es : List Emission) :
    (s.emits es).boot = s.boot := rfl
@[simp] theorem State.emits_servo (s : State) (es : List Emission) :
    (s.emits es).servo = s.servo := rfl
@[simp] theorem State.emits_mgmt (s : State) (es : List Emission) :
    (s.emits es).mgmt = s.mgmt := rfl
@[simp] theorem State.emits_placed0 (s : State) (es : List Emission) :
    (s.emits es).placed0 = s.placed0 := rfl
@[simp] theorem State.emits_placed1 (s : State) (es : List Emission) :
    (s.emits es).placed1 = s.placed1 := rfl
@[simp] theorem State.emits_remoteGen (s : State) (es : List Emission) :
    (s.emits es).remoteGen = s.remoteGen := rfl
@[simp] theorem State.emits_jobs (s : State) (es : List Emission) :
    (s.emits es).jobs = s.jobs := rfl
@[simp] theorem State.emits_fz (s : State) (es : List Emission) :
    (s.emits es).fz = s.fz := rfl
@[simp] theorem State.emits_ticks (s : State) (es : List Emission) :
    (s.emits es).ticks = s.ticks := rfl

@[simp] theorem State.setCfg_pending (s : State) (off : Nat) (v : W64) :
    (s.setCfg off v).pending = s.pending := rfl
@[simp] theorem State.setCfg_sent (s : State) (off : Nat) (v : W64) :
    (s.setCfg off v).sent = s.sent := rfl
@[simp] theorem State.setCfg_dies (s : State) (off : Nat) (v : W64) :
    (s.setCfg off v).dies = s.dies := rfl
@[simp] theorem State.setCfg_port0 (s : State) (off : Nat) (v : W64) :
    (s.setCfg off v).port0 = s.port0 := rfl
@[simp] theorem State.setCfg_port1 (s : State) (off : Nat) (v : W64) :
    (s.setCfg off v).port1 = s.port1 := rfl
@[simp] theorem State.setCfg_taken (s : State) (off : Nat) (v : W64) :
    (s.setCfg off v).taken = s.taken := rfl
@[simp] theorem State.setCfg_weights (s : State) (off : Nat) (v : W64) :
    (s.setCfg off v).weights = s.weights := rfl
@[simp] theorem State.setCfg_load (s : State) (off : Nat) (v : W64) :
    (s.setCfg off v).load = s.load := rfl
@[simp] theorem State.setCfg_snaps (s : State) (off : Nat) (v : W64) :
    (s.setCfg off v).snaps = s.snaps := rfl
@[simp] theorem State.setCfg_germ (s : State) (off : Nat) (v : W64) :
    (s.setCfg off v).germ = s.germ := rfl
@[simp] theorem State.setCfg_boot (s : State) (off : Nat) (v : W64) :
    (s.setCfg off v).boot = { s.boot with cfg := tput s.boot.cfg off v } := rfl
@[simp] theorem State.setCfg_servo (s : State) (off : Nat) (v : W64) :
    (s.setCfg off v).servo = s.servo := rfl
@[simp] theorem State.setCfg_mgmt (s : State) (off : Nat) (v : W64) :
    (s.setCfg off v).mgmt = s.mgmt := rfl
@[simp] theorem State.setCfg_placed0 (s : State) (off : Nat) (v : W64) :
    (s.setCfg off v).placed0 = s.placed0 := rfl
@[simp] theorem State.setCfg_placed1 (s : State) (off : Nat) (v : W64) :
    (s.setCfg off v).placed1 = s.placed1 := rfl
@[simp] theorem State.setCfg_remoteGen (s : State) (off : Nat) (v : W64) :
    (s.setCfg off v).remoteGen = s.remoteGen := rfl
@[simp] theorem State.setCfg_jobs (s : State) (off : Nat) (v : W64) :
    (s.setCfg off v).jobs = s.jobs := rfl
@[simp] theorem State.setCfg_fz (s : State) (off : Nat) (v : W64) :
    (s.setCfg off v).fz = s.fz := rfl
@[simp] theorem State.setCfg_ticks (s : State) (off : Nat) (v : W64) :
    (s.setCfg off v).ticks = s.ticks := rfl

@[simp] theorem State.setTile_pending (s : State) (t : TileRef) (y : Tile) :
    (s.setTile t y).pending = s.pending := rfl
@[simp] theorem State.setTile_sent (s : State) (t : TileRef) (y : Tile) :
    (s.setTile t y).sent = s.sent := rfl
@[simp] theorem State.setTile_dies (s : State) (t : TileRef) (y : Tile) :
    (s.setTile t y).dies = (s.modDie t.die.val (·.setTile t.tile.val y)).dies := rfl
@[simp] theorem State.setTile_port0 (s : State) (t : TileRef) (y : Tile) :
    (s.setTile t y).port0 = s.port0 := rfl
@[simp] theorem State.setTile_port1 (s : State) (t : TileRef) (y : Tile) :
    (s.setTile t y).port1 = s.port1 := rfl
@[simp] theorem State.setTile_taken (s : State) (t : TileRef) (y : Tile) :
    (s.setTile t y).taken = s.taken := rfl
@[simp] theorem State.setTile_weights (s : State) (t : TileRef) (y : Tile) :
    (s.setTile t y).weights = s.weights := rfl
@[simp] theorem State.setTile_load (s : State) (t : TileRef) (y : Tile) :
    (s.setTile t y).load = s.load := rfl
@[simp] theorem State.setTile_snaps (s : State) (t : TileRef) (y : Tile) :
    (s.setTile t y).snaps = s.snaps := rfl
@[simp] theorem State.setTile_germ (s : State) (t : TileRef) (y : Tile) :
    (s.setTile t y).germ = s.germ := rfl
@[simp] theorem State.setTile_boot (s : State) (t : TileRef) (y : Tile) :
    (s.setTile t y).boot = s.boot := rfl
@[simp] theorem State.setTile_servo (s : State) (t : TileRef) (y : Tile) :
    (s.setTile t y).servo = s.servo := rfl
@[simp] theorem State.setTile_mgmt (s : State) (t : TileRef) (y : Tile) :
    (s.setTile t y).mgmt = s.mgmt := rfl
@[simp] theorem State.setTile_placed0 (s : State) (t : TileRef) (y : Tile) :
    (s.setTile t y).placed0 = s.placed0 := rfl
@[simp] theorem State.setTile_placed1 (s : State) (t : TileRef) (y : Tile) :
    (s.setTile t y).placed1 = s.placed1 := rfl
@[simp] theorem State.setTile_remoteGen (s : State) (t : TileRef) (y : Tile) :
    (s.setTile t y).remoteGen = s.remoteGen := rfl
@[simp] theorem State.setTile_jobs (s : State) (t : TileRef) (y : Tile) :
    (s.setTile t y).jobs = s.jobs := rfl
@[simp] theorem State.setTile_fz (s : State) (t : TileRef) (y : Tile) :
    (s.setTile t y).fz = s.fz := rfl
@[simp] theorem State.setTile_ticks (s : State) (t : TileRef) (y : Tile) :
    (s.setTile t y).ticks = s.ticks := rfl

/-! ## Dies -/

@[simp] theorem Die.setReg_regs (x : Die) (off : Nat) (v : W64) :
    (x.setReg off v).regs = tput x.regs off v := rfl
@[simp] theorem Die.setReg_shadows (x : Die) (off : Nat) (v : W64) :
    (x.setReg off v).shadows = x.shadows := rfl
@[simp] theorem Die.setReg_sec (x : Die) (off : Nat) (v : W64) :
    (x.setReg off v).sec = x.sec := rfl
@[simp] theorem Die.setReg_ns (x : Die) (off : Nat) (v : W64) :
    (x.setReg off v).ns = x.ns := rfl
@[simp] theorem Die.setReg_inReset (x : Die) (off : Nat) (v : W64) :
    (x.setReg off v).inReset = x.inReset := rfl
@[simp] theorem Die.setReg_tiles (x : Die) (off : Nat) (v : W64) :
    (x.setReg off v).tiles = x.tiles := rfl
@[simp] theorem Die.setReg_regions (x : Die) (off : Nat) (v : W64) :
    (x.setReg off v).regions = x.regions := rfl
@[simp] theorem Die.setReg_queues (x : Die) (off : Nat) (v : W64) :
    (x.setReg off v).queues = x.queues := rfl
@[simp] theorem Die.setReg_relay (x : Die) (off : Nat) (v : W64) :
    (x.setReg off v).relay = x.relay := rfl
@[simp] theorem Die.setReg_incoming (x : Die) (off : Nat) (v : W64) :
    (x.setReg off v).incoming = x.incoming := rfl
@[simp] theorem Die.setReg_reserves (x : Die) (off : Nat) (v : W64) :
    (x.setReg off v).reserves = x.reserves := rfl
@[simp] theorem Die.setReg_eq (x : Die) (off : Nat) (v : W64) :
    (x.setReg off v).eq = x.eq := rfl
@[simp] theorem Die.setReg_claims (x : Die) (off : Nat) (v : W64) :
    (x.setReg off v).claims = x.claims := rfl
@[simp] theorem Die.setReg_interval (x : Die) (off : Nat) (v : W64) :
    (x.setReg off v).interval = x.interval := rfl
@[simp] theorem Die.setReg_links (x : Die) (off : Nat) (v : W64) :
    (x.setReg off v).links = x.links := rfl
@[simp] theorem Die.setReg_hold (x : Die) (off : Nat) (v : W64) :
    (x.setReg off v).hold = x.hold := rfl
@[simp] theorem Die.setReg_job (x : Die) (off : Nat) (v : W64) :
    (x.setReg off v).job = x.job := rfl
@[simp] theorem Die.setReg_armed (x : Die) (off : Nat) (v : W64) :
    (x.setReg off v).armed = x.armed := rfl
@[simp] theorem Die.setReg_bank (x : Die) (off : Nat) (v : W64) :
    (x.setReg off v).bank = x.bank := rfl
@[simp] theorem Die.setReg_stopped (x : Die) (off : Nat) (v : W64) :
    (x.setReg off v).stopped = x.stopped := rfl
@[simp] theorem Die.setReg_outstanding (x : Die) (off : Nat) (v : W64) :
    (x.setReg off v).outstanding = x.outstanding := rfl
@[simp] theorem Die.setReg_nextTag (x : Die) (off : Nat) (v : W64) :
    (x.setReg off v).nextTag = x.nextTag := rfl
@[simp] theorem Die.setReg_cpTaken (x : Die) (off : Nat) (v : W64) :
    (x.setReg off v).cpTaken = x.cpTaken := rfl
@[simp] theorem Die.setReg_numChanged (x : Die) (off : Nat) (v : W64) :
    (x.setReg off v).numChanged = x.numChanged := rfl
@[simp] theorem Die.setReg_delivered (x : Die) (off : Nat) (v : W64) :
    (x.setReg off v).delivered = x.delivered := rfl
@[simp] theorem Die.setReg_cameBy (x : Die) (off : Nat) (v : W64) :
    (x.setReg off v).cameBy = x.cameBy := rfl
@[simp] theorem Die.setReg_deferred (x : Die) (off : Nat) (v : W64) :
    (x.setReg off v).deferred = x.deferred := rfl
@[simp] theorem Die.setReg_mem (x : Die) (off : Nat) (v : W64) :
    (x.setReg off v).mem = x.mem := rfl
@[simp] theorem Die.setReg_log (x : Die) (off : Nat) (v : W64) :
    (x.setReg off v).log = x.log := rfl
@[simp] theorem Die.setReg_maintCount (x : Die) (off : Nat) (v : W64) :
    (x.setReg off v).maintCount = x.maintCount := rfl
@[simp] theorem Die.setReg_maintDone (x : Die) (off : Nat) (v : W64) :
    (x.setReg off v).maintDone = x.maintDone := rfl
@[simp] theorem Die.setReg_teleNext (x : Die) (off : Nat) (v : W64) :
    (x.setReg off v).teleNext = x.teleNext := rfl
@[simp] theorem Die.setReg_powerSum (x : Die) (off : Nat) (v : W64) :
    (x.setReg off v).powerSum = x.powerSum := rfl
@[simp] theorem Die.setReg_powerSums (x : Die) (off : Nat) (v : W64) :
    (x.setReg off v).powerSums = x.powerSums := rfl
@[simp] theorem Die.setReg_ctx (x : Die) (off : Nat) (v : W64) :
    (x.setReg off v).ctx = x.ctx := rfl
@[simp] theorem Die.setReg_meters (x : Die) (off : Nat) (v : W64) :
    (x.setReg off v).meters = x.meters := rfl
@[simp] theorem Die.setReg_metered (x : Die) (off : Nat) (v : W64) :
    (x.setReg off v).metered = x.metered := rfl
@[simp] theorem Die.setReg_horizonSet (x : Die) (off : Nat) (v : W64) :
    (x.setReg off v).horizonSet = x.horizonSet := rfl
@[simp] theorem Die.setReg_fence (x : Die) (off : Nat) (v : W64) :
    (x.setReg off v).fence = x.fence := rfl

@[simp] theorem Die.setField_regs (x : Die) (d off hi lo v : Nat) :
    (x.setField d off hi lo v).regs = tput x.regs off (setBits (x.reg d off) hi lo v) := rfl
@[simp] theorem Die.setField_shadows (x : Die) (d off hi lo v : Nat) :
    (x.setField d off hi lo v).shadows = x.shadows := rfl
@[simp] theorem Die.setField_sec (x : Die) (d off hi lo v : Nat) :
    (x.setField d off hi lo v).sec = x.sec := rfl
@[simp] theorem Die.setField_ns (x : Die) (d off hi lo v : Nat) :
    (x.setField d off hi lo v).ns = x.ns := rfl
@[simp] theorem Die.setField_inReset (x : Die) (d off hi lo v : Nat) :
    (x.setField d off hi lo v).inReset = x.inReset := rfl
@[simp] theorem Die.setField_tiles (x : Die) (d off hi lo v : Nat) :
    (x.setField d off hi lo v).tiles = x.tiles := rfl
@[simp] theorem Die.setField_regions (x : Die) (d off hi lo v : Nat) :
    (x.setField d off hi lo v).regions = x.regions := rfl
@[simp] theorem Die.setField_queues (x : Die) (d off hi lo v : Nat) :
    (x.setField d off hi lo v).queues = x.queues := rfl
@[simp] theorem Die.setField_relay (x : Die) (d off hi lo v : Nat) :
    (x.setField d off hi lo v).relay = x.relay := rfl
@[simp] theorem Die.setField_incoming (x : Die) (d off hi lo v : Nat) :
    (x.setField d off hi lo v).incoming = x.incoming := rfl
@[simp] theorem Die.setField_reserves (x : Die) (d off hi lo v : Nat) :
    (x.setField d off hi lo v).reserves = x.reserves := rfl
@[simp] theorem Die.setField_eq (x : Die) (d off hi lo v : Nat) :
    (x.setField d off hi lo v).eq = x.eq := rfl
@[simp] theorem Die.setField_claims (x : Die) (d off hi lo v : Nat) :
    (x.setField d off hi lo v).claims = x.claims := rfl
@[simp] theorem Die.setField_interval (x : Die) (d off hi lo v : Nat) :
    (x.setField d off hi lo v).interval = x.interval := rfl
@[simp] theorem Die.setField_links (x : Die) (d off hi lo v : Nat) :
    (x.setField d off hi lo v).links = x.links := rfl
@[simp] theorem Die.setField_hold (x : Die) (d off hi lo v : Nat) :
    (x.setField d off hi lo v).hold = x.hold := rfl
@[simp] theorem Die.setField_job (x : Die) (d off hi lo v : Nat) :
    (x.setField d off hi lo v).job = x.job := rfl
@[simp] theorem Die.setField_armed (x : Die) (d off hi lo v : Nat) :
    (x.setField d off hi lo v).armed = x.armed := rfl
@[simp] theorem Die.setField_bank (x : Die) (d off hi lo v : Nat) :
    (x.setField d off hi lo v).bank = x.bank := rfl
@[simp] theorem Die.setField_stopped (x : Die) (d off hi lo v : Nat) :
    (x.setField d off hi lo v).stopped = x.stopped := rfl
@[simp] theorem Die.setField_outstanding (x : Die) (d off hi lo v : Nat) :
    (x.setField d off hi lo v).outstanding = x.outstanding := rfl
@[simp] theorem Die.setField_nextTag (x : Die) (d off hi lo v : Nat) :
    (x.setField d off hi lo v).nextTag = x.nextTag := rfl
@[simp] theorem Die.setField_cpTaken (x : Die) (d off hi lo v : Nat) :
    (x.setField d off hi lo v).cpTaken = x.cpTaken := rfl
@[simp] theorem Die.setField_numChanged (x : Die) (d off hi lo v : Nat) :
    (x.setField d off hi lo v).numChanged = x.numChanged := rfl
@[simp] theorem Die.setField_delivered (x : Die) (d off hi lo v : Nat) :
    (x.setField d off hi lo v).delivered = x.delivered := rfl
@[simp] theorem Die.setField_cameBy (x : Die) (d off hi lo v : Nat) :
    (x.setField d off hi lo v).cameBy = x.cameBy := rfl
@[simp] theorem Die.setField_deferred (x : Die) (d off hi lo v : Nat) :
    (x.setField d off hi lo v).deferred = x.deferred := rfl
@[simp] theorem Die.setField_mem (x : Die) (d off hi lo v : Nat) :
    (x.setField d off hi lo v).mem = x.mem := rfl
@[simp] theorem Die.setField_log (x : Die) (d off hi lo v : Nat) :
    (x.setField d off hi lo v).log = x.log := rfl
@[simp] theorem Die.setField_maintCount (x : Die) (d off hi lo v : Nat) :
    (x.setField d off hi lo v).maintCount = x.maintCount := rfl
@[simp] theorem Die.setField_maintDone (x : Die) (d off hi lo v : Nat) :
    (x.setField d off hi lo v).maintDone = x.maintDone := rfl
@[simp] theorem Die.setField_teleNext (x : Die) (d off hi lo v : Nat) :
    (x.setField d off hi lo v).teleNext = x.teleNext := rfl
@[simp] theorem Die.setField_powerSum (x : Die) (d off hi lo v : Nat) :
    (x.setField d off hi lo v).powerSum = x.powerSum := rfl
@[simp] theorem Die.setField_powerSums (x : Die) (d off hi lo v : Nat) :
    (x.setField d off hi lo v).powerSums = x.powerSums := rfl
@[simp] theorem Die.setField_ctx (x : Die) (d off hi lo v : Nat) :
    (x.setField d off hi lo v).ctx = x.ctx := rfl
@[simp] theorem Die.setField_meters (x : Die) (d off hi lo v : Nat) :
    (x.setField d off hi lo v).meters = x.meters := rfl
@[simp] theorem Die.setField_metered (x : Die) (d off hi lo v : Nat) :
    (x.setField d off hi lo v).metered = x.metered := rfl
@[simp] theorem Die.setField_horizonSet (x : Die) (d off hi lo v : Nat) :
    (x.setField d off hi lo v).horizonSet = x.horizonSet := rfl
@[simp] theorem Die.setField_fence (x : Die) (d off hi lo v : Nat) :
    (x.setField d off hi lo v).fence = x.fence := rfl

@[simp] theorem Die.setBit_regs (x : Die) (d off i : Nat) (b : Bool) :
    (x.setBit d off i b).regs = tput x.regs off (setBits (x.reg d off) i i b.toNat) := rfl
@[simp] theorem Die.setBit_shadows (x : Die) (d off i : Nat) (b : Bool) :
    (x.setBit d off i b).shadows = x.shadows := rfl
@[simp] theorem Die.setBit_sec (x : Die) (d off i : Nat) (b : Bool) :
    (x.setBit d off i b).sec = x.sec := rfl
@[simp] theorem Die.setBit_ns (x : Die) (d off i : Nat) (b : Bool) :
    (x.setBit d off i b).ns = x.ns := rfl
@[simp] theorem Die.setBit_inReset (x : Die) (d off i : Nat) (b : Bool) :
    (x.setBit d off i b).inReset = x.inReset := rfl
@[simp] theorem Die.setBit_tiles (x : Die) (d off i : Nat) (b : Bool) :
    (x.setBit d off i b).tiles = x.tiles := rfl
@[simp] theorem Die.setBit_regions (x : Die) (d off i : Nat) (b : Bool) :
    (x.setBit d off i b).regions = x.regions := rfl
@[simp] theorem Die.setBit_queues (x : Die) (d off i : Nat) (b : Bool) :
    (x.setBit d off i b).queues = x.queues := rfl
@[simp] theorem Die.setBit_relay (x : Die) (d off i : Nat) (b : Bool) :
    (x.setBit d off i b).relay = x.relay := rfl
@[simp] theorem Die.setBit_incoming (x : Die) (d off i : Nat) (b : Bool) :
    (x.setBit d off i b).incoming = x.incoming := rfl
@[simp] theorem Die.setBit_reserves (x : Die) (d off i : Nat) (b : Bool) :
    (x.setBit d off i b).reserves = x.reserves := rfl
@[simp] theorem Die.setBit_eq (x : Die) (d off i : Nat) (b : Bool) :
    (x.setBit d off i b).eq = x.eq := rfl
@[simp] theorem Die.setBit_claims (x : Die) (d off i : Nat) (b : Bool) :
    (x.setBit d off i b).claims = x.claims := rfl
@[simp] theorem Die.setBit_interval (x : Die) (d off i : Nat) (b : Bool) :
    (x.setBit d off i b).interval = x.interval := rfl
@[simp] theorem Die.setBit_links (x : Die) (d off i : Nat) (b : Bool) :
    (x.setBit d off i b).links = x.links := rfl
@[simp] theorem Die.setBit_hold (x : Die) (d off i : Nat) (b : Bool) :
    (x.setBit d off i b).hold = x.hold := rfl
@[simp] theorem Die.setBit_job (x : Die) (d off i : Nat) (b : Bool) :
    (x.setBit d off i b).job = x.job := rfl
@[simp] theorem Die.setBit_armed (x : Die) (d off i : Nat) (b : Bool) :
    (x.setBit d off i b).armed = x.armed := rfl
@[simp] theorem Die.setBit_bank (x : Die) (d off i : Nat) (b : Bool) :
    (x.setBit d off i b).bank = x.bank := rfl
@[simp] theorem Die.setBit_stopped (x : Die) (d off i : Nat) (b : Bool) :
    (x.setBit d off i b).stopped = x.stopped := rfl
@[simp] theorem Die.setBit_outstanding (x : Die) (d off i : Nat) (b : Bool) :
    (x.setBit d off i b).outstanding = x.outstanding := rfl
@[simp] theorem Die.setBit_nextTag (x : Die) (d off i : Nat) (b : Bool) :
    (x.setBit d off i b).nextTag = x.nextTag := rfl
@[simp] theorem Die.setBit_cpTaken (x : Die) (d off i : Nat) (b : Bool) :
    (x.setBit d off i b).cpTaken = x.cpTaken := rfl
@[simp] theorem Die.setBit_numChanged (x : Die) (d off i : Nat) (b : Bool) :
    (x.setBit d off i b).numChanged = x.numChanged := rfl
@[simp] theorem Die.setBit_delivered (x : Die) (d off i : Nat) (b : Bool) :
    (x.setBit d off i b).delivered = x.delivered := rfl
@[simp] theorem Die.setBit_cameBy (x : Die) (d off i : Nat) (b : Bool) :
    (x.setBit d off i b).cameBy = x.cameBy := rfl
@[simp] theorem Die.setBit_deferred (x : Die) (d off i : Nat) (b : Bool) :
    (x.setBit d off i b).deferred = x.deferred := rfl
@[simp] theorem Die.setBit_mem (x : Die) (d off i : Nat) (b : Bool) :
    (x.setBit d off i b).mem = x.mem := rfl
@[simp] theorem Die.setBit_log (x : Die) (d off i : Nat) (b : Bool) :
    (x.setBit d off i b).log = x.log := rfl
@[simp] theorem Die.setBit_maintCount (x : Die) (d off i : Nat) (b : Bool) :
    (x.setBit d off i b).maintCount = x.maintCount := rfl
@[simp] theorem Die.setBit_maintDone (x : Die) (d off i : Nat) (b : Bool) :
    (x.setBit d off i b).maintDone = x.maintDone := rfl
@[simp] theorem Die.setBit_teleNext (x : Die) (d off i : Nat) (b : Bool) :
    (x.setBit d off i b).teleNext = x.teleNext := rfl
@[simp] theorem Die.setBit_powerSum (x : Die) (d off i : Nat) (b : Bool) :
    (x.setBit d off i b).powerSum = x.powerSum := rfl
@[simp] theorem Die.setBit_powerSums (x : Die) (d off i : Nat) (b : Bool) :
    (x.setBit d off i b).powerSums = x.powerSums := rfl
@[simp] theorem Die.setBit_ctx (x : Die) (d off i : Nat) (b : Bool) :
    (x.setBit d off i b).ctx = x.ctx := rfl
@[simp] theorem Die.setBit_meters (x : Die) (d off i : Nat) (b : Bool) :
    (x.setBit d off i b).meters = x.meters := rfl
@[simp] theorem Die.setBit_metered (x : Die) (d off i : Nat) (b : Bool) :
    (x.setBit d off i b).metered = x.metered := rfl
@[simp] theorem Die.setBit_horizonSet (x : Die) (d off i : Nat) (b : Bool) :
    (x.setBit d off i b).horizonSet = x.horizonSet := rfl
@[simp] theorem Die.setBit_fence (x : Die) (d off i : Nat) (b : Bool) :
    (x.setBit d off i b).fence = x.fence := rfl

@[simp] theorem Die.bump_regs (x : Die) (off n : Nat) :
    (x.bump off n).regs = tput x.regs off (tgetD x.regs off 0 + BitVec.ofNat 64 n) := rfl
@[simp] theorem Die.bump_shadows (x : Die) (off n : Nat) :
    (x.bump off n).shadows = x.shadows := rfl
@[simp] theorem Die.bump_sec (x : Die) (off n : Nat) :
    (x.bump off n).sec = x.sec := rfl
@[simp] theorem Die.bump_ns (x : Die) (off n : Nat) :
    (x.bump off n).ns = x.ns := rfl
@[simp] theorem Die.bump_inReset (x : Die) (off n : Nat) :
    (x.bump off n).inReset = x.inReset := rfl
@[simp] theorem Die.bump_tiles (x : Die) (off n : Nat) :
    (x.bump off n).tiles = x.tiles := rfl
@[simp] theorem Die.bump_regions (x : Die) (off n : Nat) :
    (x.bump off n).regions = x.regions := rfl
@[simp] theorem Die.bump_queues (x : Die) (off n : Nat) :
    (x.bump off n).queues = x.queues := rfl
@[simp] theorem Die.bump_relay (x : Die) (off n : Nat) :
    (x.bump off n).relay = x.relay := rfl
@[simp] theorem Die.bump_incoming (x : Die) (off n : Nat) :
    (x.bump off n).incoming = x.incoming := rfl
@[simp] theorem Die.bump_reserves (x : Die) (off n : Nat) :
    (x.bump off n).reserves = x.reserves := rfl
@[simp] theorem Die.bump_eq (x : Die) (off n : Nat) :
    (x.bump off n).eq = x.eq := rfl
@[simp] theorem Die.bump_claims (x : Die) (off n : Nat) :
    (x.bump off n).claims = x.claims := rfl
@[simp] theorem Die.bump_interval (x : Die) (off n : Nat) :
    (x.bump off n).interval = x.interval := rfl
@[simp] theorem Die.bump_links (x : Die) (off n : Nat) :
    (x.bump off n).links = x.links := rfl
@[simp] theorem Die.bump_hold (x : Die) (off n : Nat) :
    (x.bump off n).hold = x.hold := rfl
@[simp] theorem Die.bump_job (x : Die) (off n : Nat) :
    (x.bump off n).job = x.job := rfl
@[simp] theorem Die.bump_armed (x : Die) (off n : Nat) :
    (x.bump off n).armed = x.armed := rfl
@[simp] theorem Die.bump_bank (x : Die) (off n : Nat) :
    (x.bump off n).bank = x.bank := rfl
@[simp] theorem Die.bump_stopped (x : Die) (off n : Nat) :
    (x.bump off n).stopped = x.stopped := rfl
@[simp] theorem Die.bump_outstanding (x : Die) (off n : Nat) :
    (x.bump off n).outstanding = x.outstanding := rfl
@[simp] theorem Die.bump_nextTag (x : Die) (off n : Nat) :
    (x.bump off n).nextTag = x.nextTag := rfl
@[simp] theorem Die.bump_cpTaken (x : Die) (off n : Nat) :
    (x.bump off n).cpTaken = x.cpTaken := rfl
@[simp] theorem Die.bump_numChanged (x : Die) (off n : Nat) :
    (x.bump off n).numChanged = x.numChanged := rfl
@[simp] theorem Die.bump_delivered (x : Die) (off n : Nat) :
    (x.bump off n).delivered = x.delivered := rfl
@[simp] theorem Die.bump_cameBy (x : Die) (off n : Nat) :
    (x.bump off n).cameBy = x.cameBy := rfl
@[simp] theorem Die.bump_deferred (x : Die) (off n : Nat) :
    (x.bump off n).deferred = x.deferred := rfl
@[simp] theorem Die.bump_mem (x : Die) (off n : Nat) :
    (x.bump off n).mem = x.mem := rfl
@[simp] theorem Die.bump_log (x : Die) (off n : Nat) :
    (x.bump off n).log = x.log := rfl
@[simp] theorem Die.bump_maintCount (x : Die) (off n : Nat) :
    (x.bump off n).maintCount = x.maintCount := rfl
@[simp] theorem Die.bump_maintDone (x : Die) (off n : Nat) :
    (x.bump off n).maintDone = x.maintDone := rfl
@[simp] theorem Die.bump_teleNext (x : Die) (off n : Nat) :
    (x.bump off n).teleNext = x.teleNext := rfl
@[simp] theorem Die.bump_powerSum (x : Die) (off n : Nat) :
    (x.bump off n).powerSum = x.powerSum := rfl
@[simp] theorem Die.bump_powerSums (x : Die) (off n : Nat) :
    (x.bump off n).powerSums = x.powerSums := rfl
@[simp] theorem Die.bump_ctx (x : Die) (off n : Nat) :
    (x.bump off n).ctx = x.ctx := rfl
@[simp] theorem Die.bump_meters (x : Die) (off n : Nat) :
    (x.bump off n).meters = x.meters := rfl
@[simp] theorem Die.bump_metered (x : Die) (off n : Nat) :
    (x.bump off n).metered = x.metered := rfl
@[simp] theorem Die.bump_horizonSet (x : Die) (off n : Nat) :
    (x.bump off n).horizonSet = x.horizonSet := rfl
@[simp] theorem Die.bump_fence (x : Die) (off n : Nat) :
    (x.bump off n).fence = x.fence := rfl

@[simp] theorem Die.setTile_regs (x : Die) (t : Nat) (y : Tile) :
    (x.setTile t y).regs = x.regs := rfl
@[simp] theorem Die.setTile_shadows (x : Die) (t : Nat) (y : Tile) :
    (x.setTile t y).shadows = x.shadows := rfl
@[simp] theorem Die.setTile_sec (x : Die) (t : Nat) (y : Tile) :
    (x.setTile t y).sec = x.sec := rfl
@[simp] theorem Die.setTile_ns (x : Die) (t : Nat) (y : Tile) :
    (x.setTile t y).ns = x.ns := rfl
@[simp] theorem Die.setTile_inReset (x : Die) (t : Nat) (y : Tile) :
    (x.setTile t y).inReset = x.inReset := rfl
@[simp] theorem Die.setTile_tiles (x : Die) (t : Nat) (y : Tile) :
    (x.setTile t y).tiles = tput x.tiles t y := rfl
@[simp] theorem Die.setTile_regions (x : Die) (t : Nat) (y : Tile) :
    (x.setTile t y).regions = x.regions := rfl
@[simp] theorem Die.setTile_queues (x : Die) (t : Nat) (y : Tile) :
    (x.setTile t y).queues = x.queues := rfl
@[simp] theorem Die.setTile_relay (x : Die) (t : Nat) (y : Tile) :
    (x.setTile t y).relay = x.relay := rfl
@[simp] theorem Die.setTile_incoming (x : Die) (t : Nat) (y : Tile) :
    (x.setTile t y).incoming = x.incoming := rfl
@[simp] theorem Die.setTile_reserves (x : Die) (t : Nat) (y : Tile) :
    (x.setTile t y).reserves = x.reserves := rfl
@[simp] theorem Die.setTile_eq (x : Die) (t : Nat) (y : Tile) :
    (x.setTile t y).eq = x.eq := rfl
@[simp] theorem Die.setTile_claims (x : Die) (t : Nat) (y : Tile) :
    (x.setTile t y).claims = x.claims := rfl
@[simp] theorem Die.setTile_interval (x : Die) (t : Nat) (y : Tile) :
    (x.setTile t y).interval = x.interval := rfl
@[simp] theorem Die.setTile_links (x : Die) (t : Nat) (y : Tile) :
    (x.setTile t y).links = x.links := rfl
@[simp] theorem Die.setTile_hold (x : Die) (t : Nat) (y : Tile) :
    (x.setTile t y).hold = x.hold := rfl
@[simp] theorem Die.setTile_job (x : Die) (t : Nat) (y : Tile) :
    (x.setTile t y).job = x.job := rfl
@[simp] theorem Die.setTile_armed (x : Die) (t : Nat) (y : Tile) :
    (x.setTile t y).armed = x.armed := rfl
@[simp] theorem Die.setTile_bank (x : Die) (t : Nat) (y : Tile) :
    (x.setTile t y).bank = x.bank := rfl
@[simp] theorem Die.setTile_stopped (x : Die) (t : Nat) (y : Tile) :
    (x.setTile t y).stopped = x.stopped := rfl
@[simp] theorem Die.setTile_outstanding (x : Die) (t : Nat) (y : Tile) :
    (x.setTile t y).outstanding = x.outstanding := rfl
@[simp] theorem Die.setTile_nextTag (x : Die) (t : Nat) (y : Tile) :
    (x.setTile t y).nextTag = x.nextTag := rfl
@[simp] theorem Die.setTile_cpTaken (x : Die) (t : Nat) (y : Tile) :
    (x.setTile t y).cpTaken = x.cpTaken := rfl
@[simp] theorem Die.setTile_numChanged (x : Die) (t : Nat) (y : Tile) :
    (x.setTile t y).numChanged = x.numChanged := rfl
@[simp] theorem Die.setTile_delivered (x : Die) (t : Nat) (y : Tile) :
    (x.setTile t y).delivered = x.delivered := rfl
@[simp] theorem Die.setTile_cameBy (x : Die) (t : Nat) (y : Tile) :
    (x.setTile t y).cameBy = x.cameBy := rfl
@[simp] theorem Die.setTile_deferred (x : Die) (t : Nat) (y : Tile) :
    (x.setTile t y).deferred = x.deferred := rfl
@[simp] theorem Die.setTile_mem (x : Die) (t : Nat) (y : Tile) :
    (x.setTile t y).mem = x.mem := rfl
@[simp] theorem Die.setTile_log (x : Die) (t : Nat) (y : Tile) :
    (x.setTile t y).log = x.log := rfl
@[simp] theorem Die.setTile_maintCount (x : Die) (t : Nat) (y : Tile) :
    (x.setTile t y).maintCount = x.maintCount := rfl
@[simp] theorem Die.setTile_maintDone (x : Die) (t : Nat) (y : Tile) :
    (x.setTile t y).maintDone = x.maintDone := rfl
@[simp] theorem Die.setTile_teleNext (x : Die) (t : Nat) (y : Tile) :
    (x.setTile t y).teleNext = x.teleNext := rfl
@[simp] theorem Die.setTile_powerSum (x : Die) (t : Nat) (y : Tile) :
    (x.setTile t y).powerSum = x.powerSum := rfl
@[simp] theorem Die.setTile_powerSums (x : Die) (t : Nat) (y : Tile) :
    (x.setTile t y).powerSums = x.powerSums := rfl
@[simp] theorem Die.setTile_ctx (x : Die) (t : Nat) (y : Tile) :
    (x.setTile t y).ctx = x.ctx := rfl
@[simp] theorem Die.setTile_meters (x : Die) (t : Nat) (y : Tile) :
    (x.setTile t y).meters = x.meters := rfl
@[simp] theorem Die.setTile_metered (x : Die) (t : Nat) (y : Tile) :
    (x.setTile t y).metered = x.metered := rfl
@[simp] theorem Die.setTile_horizonSet (x : Die) (t : Nat) (y : Tile) :
    (x.setTile t y).horizonSet = x.horizonSet := rfl
@[simp] theorem Die.setTile_fence (x : Die) (t : Nat) (y : Tile) :
    (x.setTile t y).fence = x.fence := rfl

@[simp] theorem Die.setRegion_regs (x : Die) (r : Nat) (y : Region) :
    (x.setRegion r y).regs = x.regs := rfl
@[simp] theorem Die.setRegion_shadows (x : Die) (r : Nat) (y : Region) :
    (x.setRegion r y).shadows = x.shadows := rfl
@[simp] theorem Die.setRegion_sec (x : Die) (r : Nat) (y : Region) :
    (x.setRegion r y).sec = x.sec := rfl
@[simp] theorem Die.setRegion_ns (x : Die) (r : Nat) (y : Region) :
    (x.setRegion r y).ns = x.ns := rfl
@[simp] theorem Die.setRegion_inReset (x : Die) (r : Nat) (y : Region) :
    (x.setRegion r y).inReset = x.inReset := rfl
@[simp] theorem Die.setRegion_tiles (x : Die) (r : Nat) (y : Region) :
    (x.setRegion r y).tiles = x.tiles := rfl
@[simp] theorem Die.setRegion_regions (x : Die) (r : Nat) (y : Region) :
    (x.setRegion r y).regions = tput x.regions r y := rfl
@[simp] theorem Die.setRegion_queues (x : Die) (r : Nat) (y : Region) :
    (x.setRegion r y).queues = x.queues := rfl
@[simp] theorem Die.setRegion_relay (x : Die) (r : Nat) (y : Region) :
    (x.setRegion r y).relay = x.relay := rfl
@[simp] theorem Die.setRegion_incoming (x : Die) (r : Nat) (y : Region) :
    (x.setRegion r y).incoming = x.incoming := rfl
@[simp] theorem Die.setRegion_reserves (x : Die) (r : Nat) (y : Region) :
    (x.setRegion r y).reserves = x.reserves := rfl
@[simp] theorem Die.setRegion_eq (x : Die) (r : Nat) (y : Region) :
    (x.setRegion r y).eq = x.eq := rfl
@[simp] theorem Die.setRegion_claims (x : Die) (r : Nat) (y : Region) :
    (x.setRegion r y).claims = x.claims := rfl
@[simp] theorem Die.setRegion_interval (x : Die) (r : Nat) (y : Region) :
    (x.setRegion r y).interval = x.interval := rfl
@[simp] theorem Die.setRegion_links (x : Die) (r : Nat) (y : Region) :
    (x.setRegion r y).links = x.links := rfl
@[simp] theorem Die.setRegion_hold (x : Die) (r : Nat) (y : Region) :
    (x.setRegion r y).hold = x.hold := rfl
@[simp] theorem Die.setRegion_job (x : Die) (r : Nat) (y : Region) :
    (x.setRegion r y).job = x.job := rfl
@[simp] theorem Die.setRegion_armed (x : Die) (r : Nat) (y : Region) :
    (x.setRegion r y).armed = x.armed := rfl
@[simp] theorem Die.setRegion_bank (x : Die) (r : Nat) (y : Region) :
    (x.setRegion r y).bank = x.bank := rfl
@[simp] theorem Die.setRegion_stopped (x : Die) (r : Nat) (y : Region) :
    (x.setRegion r y).stopped = x.stopped := rfl
@[simp] theorem Die.setRegion_outstanding (x : Die) (r : Nat) (y : Region) :
    (x.setRegion r y).outstanding = x.outstanding := rfl
@[simp] theorem Die.setRegion_nextTag (x : Die) (r : Nat) (y : Region) :
    (x.setRegion r y).nextTag = x.nextTag := rfl
@[simp] theorem Die.setRegion_cpTaken (x : Die) (r : Nat) (y : Region) :
    (x.setRegion r y).cpTaken = x.cpTaken := rfl
@[simp] theorem Die.setRegion_numChanged (x : Die) (r : Nat) (y : Region) :
    (x.setRegion r y).numChanged = x.numChanged := rfl
@[simp] theorem Die.setRegion_delivered (x : Die) (r : Nat) (y : Region) :
    (x.setRegion r y).delivered = x.delivered := rfl
@[simp] theorem Die.setRegion_cameBy (x : Die) (r : Nat) (y : Region) :
    (x.setRegion r y).cameBy = x.cameBy := rfl
@[simp] theorem Die.setRegion_deferred (x : Die) (r : Nat) (y : Region) :
    (x.setRegion r y).deferred = x.deferred := rfl
@[simp] theorem Die.setRegion_mem (x : Die) (r : Nat) (y : Region) :
    (x.setRegion r y).mem = x.mem := rfl
@[simp] theorem Die.setRegion_log (x : Die) (r : Nat) (y : Region) :
    (x.setRegion r y).log = x.log := rfl
@[simp] theorem Die.setRegion_maintCount (x : Die) (r : Nat) (y : Region) :
    (x.setRegion r y).maintCount = x.maintCount := rfl
@[simp] theorem Die.setRegion_maintDone (x : Die) (r : Nat) (y : Region) :
    (x.setRegion r y).maintDone = x.maintDone := rfl
@[simp] theorem Die.setRegion_teleNext (x : Die) (r : Nat) (y : Region) :
    (x.setRegion r y).teleNext = x.teleNext := rfl
@[simp] theorem Die.setRegion_powerSum (x : Die) (r : Nat) (y : Region) :
    (x.setRegion r y).powerSum = x.powerSum := rfl
@[simp] theorem Die.setRegion_powerSums (x : Die) (r : Nat) (y : Region) :
    (x.setRegion r y).powerSums = x.powerSums := rfl
@[simp] theorem Die.setRegion_ctx (x : Die) (r : Nat) (y : Region) :
    (x.setRegion r y).ctx = x.ctx := rfl
@[simp] theorem Die.setRegion_meters (x : Die) (r : Nat) (y : Region) :
    (x.setRegion r y).meters = x.meters := rfl
@[simp] theorem Die.setRegion_metered (x : Die) (r : Nat) (y : Region) :
    (x.setRegion r y).metered = x.metered := rfl
@[simp] theorem Die.setRegion_horizonSet (x : Die) (r : Nat) (y : Region) :
    (x.setRegion r y).horizonSet = x.horizonSet := rfl
@[simp] theorem Die.setRegion_fence (x : Die) (r : Nat) (y : Region) :
    (x.setRegion r y).fence = x.fence := rfl

@[simp] theorem Die.setLink_regs (x : Die) (p : Nat) (y : Link) :
    (x.setLink p y).regs = x.regs := rfl
@[simp] theorem Die.setLink_shadows (x : Die) (p : Nat) (y : Link) :
    (x.setLink p y).shadows = x.shadows := rfl
@[simp] theorem Die.setLink_sec (x : Die) (p : Nat) (y : Link) :
    (x.setLink p y).sec = x.sec := rfl
@[simp] theorem Die.setLink_ns (x : Die) (p : Nat) (y : Link) :
    (x.setLink p y).ns = x.ns := rfl
@[simp] theorem Die.setLink_inReset (x : Die) (p : Nat) (y : Link) :
    (x.setLink p y).inReset = x.inReset := rfl
@[simp] theorem Die.setLink_tiles (x : Die) (p : Nat) (y : Link) :
    (x.setLink p y).tiles = x.tiles := rfl
@[simp] theorem Die.setLink_regions (x : Die) (p : Nat) (y : Link) :
    (x.setLink p y).regions = x.regions := rfl
@[simp] theorem Die.setLink_queues (x : Die) (p : Nat) (y : Link) :
    (x.setLink p y).queues = x.queues := rfl
@[simp] theorem Die.setLink_relay (x : Die) (p : Nat) (y : Link) :
    (x.setLink p y).relay = x.relay := rfl
@[simp] theorem Die.setLink_incoming (x : Die) (p : Nat) (y : Link) :
    (x.setLink p y).incoming = x.incoming := rfl
@[simp] theorem Die.setLink_reserves (x : Die) (p : Nat) (y : Link) :
    (x.setLink p y).reserves = x.reserves := rfl
@[simp] theorem Die.setLink_eq (x : Die) (p : Nat) (y : Link) :
    (x.setLink p y).eq = x.eq := rfl
@[simp] theorem Die.setLink_claims (x : Die) (p : Nat) (y : Link) :
    (x.setLink p y).claims = x.claims := rfl
@[simp] theorem Die.setLink_interval (x : Die) (p : Nat) (y : Link) :
    (x.setLink p y).interval = x.interval := rfl
@[simp] theorem Die.setLink_links (x : Die) (p : Nat) (y : Link) :
    (x.setLink p y).links = tput x.links p y := rfl
@[simp] theorem Die.setLink_hold (x : Die) (p : Nat) (y : Link) :
    (x.setLink p y).hold = x.hold := rfl
@[simp] theorem Die.setLink_job (x : Die) (p : Nat) (y : Link) :
    (x.setLink p y).job = x.job := rfl
@[simp] theorem Die.setLink_armed (x : Die) (p : Nat) (y : Link) :
    (x.setLink p y).armed = x.armed := rfl
@[simp] theorem Die.setLink_bank (x : Die) (p : Nat) (y : Link) :
    (x.setLink p y).bank = x.bank := rfl
@[simp] theorem Die.setLink_stopped (x : Die) (p : Nat) (y : Link) :
    (x.setLink p y).stopped = x.stopped := rfl
@[simp] theorem Die.setLink_outstanding (x : Die) (p : Nat) (y : Link) :
    (x.setLink p y).outstanding = x.outstanding := rfl
@[simp] theorem Die.setLink_nextTag (x : Die) (p : Nat) (y : Link) :
    (x.setLink p y).nextTag = x.nextTag := rfl
@[simp] theorem Die.setLink_cpTaken (x : Die) (p : Nat) (y : Link) :
    (x.setLink p y).cpTaken = x.cpTaken := rfl
@[simp] theorem Die.setLink_numChanged (x : Die) (p : Nat) (y : Link) :
    (x.setLink p y).numChanged = x.numChanged := rfl
@[simp] theorem Die.setLink_delivered (x : Die) (p : Nat) (y : Link) :
    (x.setLink p y).delivered = x.delivered := rfl
@[simp] theorem Die.setLink_cameBy (x : Die) (p : Nat) (y : Link) :
    (x.setLink p y).cameBy = x.cameBy := rfl
@[simp] theorem Die.setLink_deferred (x : Die) (p : Nat) (y : Link) :
    (x.setLink p y).deferred = x.deferred := rfl
@[simp] theorem Die.setLink_mem (x : Die) (p : Nat) (y : Link) :
    (x.setLink p y).mem = x.mem := rfl
@[simp] theorem Die.setLink_log (x : Die) (p : Nat) (y : Link) :
    (x.setLink p y).log = x.log := rfl
@[simp] theorem Die.setLink_maintCount (x : Die) (p : Nat) (y : Link) :
    (x.setLink p y).maintCount = x.maintCount := rfl
@[simp] theorem Die.setLink_maintDone (x : Die) (p : Nat) (y : Link) :
    (x.setLink p y).maintDone = x.maintDone := rfl
@[simp] theorem Die.setLink_teleNext (x : Die) (p : Nat) (y : Link) :
    (x.setLink p y).teleNext = x.teleNext := rfl
@[simp] theorem Die.setLink_powerSum (x : Die) (p : Nat) (y : Link) :
    (x.setLink p y).powerSum = x.powerSum := rfl
@[simp] theorem Die.setLink_powerSums (x : Die) (p : Nat) (y : Link) :
    (x.setLink p y).powerSums = x.powerSums := rfl
@[simp] theorem Die.setLink_ctx (x : Die) (p : Nat) (y : Link) :
    (x.setLink p y).ctx = x.ctx := rfl
@[simp] theorem Die.setLink_meters (x : Die) (p : Nat) (y : Link) :
    (x.setLink p y).meters = x.meters := rfl
@[simp] theorem Die.setLink_metered (x : Die) (p : Nat) (y : Link) :
    (x.setLink p y).metered = x.metered := rfl
@[simp] theorem Die.setLink_horizonSet (x : Die) (p : Nat) (y : Link) :
    (x.setLink p y).horizonSet = x.horizonSet := rfl
@[simp] theorem Die.setLink_fence (x : Die) (p : Nat) (y : Link) :
    (x.setLink p y).fence = x.fence := rfl

@[simp] theorem Die.setQueue_regs (x : Die) (q : Nat) (fs : List QFlit) :
    (x.setQueue q fs).regs = x.regs := rfl
@[simp] theorem Die.setQueue_shadows (x : Die) (q : Nat) (fs : List QFlit) :
    (x.setQueue q fs).shadows = x.shadows := rfl
@[simp] theorem Die.setQueue_sec (x : Die) (q : Nat) (fs : List QFlit) :
    (x.setQueue q fs).sec = x.sec := rfl
@[simp] theorem Die.setQueue_ns (x : Die) (q : Nat) (fs : List QFlit) :
    (x.setQueue q fs).ns = x.ns := rfl
@[simp] theorem Die.setQueue_inReset (x : Die) (q : Nat) (fs : List QFlit) :
    (x.setQueue q fs).inReset = x.inReset := rfl
@[simp] theorem Die.setQueue_tiles (x : Die) (q : Nat) (fs : List QFlit) :
    (x.setQueue q fs).tiles = x.tiles := rfl
@[simp] theorem Die.setQueue_regions (x : Die) (q : Nat) (fs : List QFlit) :
    (x.setQueue q fs).regions = x.regions := rfl
@[simp] theorem Die.setQueue_queues (x : Die) (q : Nat) (fs : List QFlit) :
    (x.setQueue q fs).queues = tput x.queues q fs := rfl
@[simp] theorem Die.setQueue_relay (x : Die) (q : Nat) (fs : List QFlit) :
    (x.setQueue q fs).relay = x.relay := rfl
@[simp] theorem Die.setQueue_incoming (x : Die) (q : Nat) (fs : List QFlit) :
    (x.setQueue q fs).incoming = x.incoming := rfl
@[simp] theorem Die.setQueue_reserves (x : Die) (q : Nat) (fs : List QFlit) :
    (x.setQueue q fs).reserves = x.reserves := rfl
@[simp] theorem Die.setQueue_eq (x : Die) (q : Nat) (fs : List QFlit) :
    (x.setQueue q fs).eq = x.eq := rfl
@[simp] theorem Die.setQueue_claims (x : Die) (q : Nat) (fs : List QFlit) :
    (x.setQueue q fs).claims = x.claims := rfl
@[simp] theorem Die.setQueue_interval (x : Die) (q : Nat) (fs : List QFlit) :
    (x.setQueue q fs).interval = x.interval := rfl
@[simp] theorem Die.setQueue_links (x : Die) (q : Nat) (fs : List QFlit) :
    (x.setQueue q fs).links = x.links := rfl
@[simp] theorem Die.setQueue_hold (x : Die) (q : Nat) (fs : List QFlit) :
    (x.setQueue q fs).hold = x.hold := rfl
@[simp] theorem Die.setQueue_job (x : Die) (q : Nat) (fs : List QFlit) :
    (x.setQueue q fs).job = x.job := rfl
@[simp] theorem Die.setQueue_armed (x : Die) (q : Nat) (fs : List QFlit) :
    (x.setQueue q fs).armed = x.armed := rfl
@[simp] theorem Die.setQueue_bank (x : Die) (q : Nat) (fs : List QFlit) :
    (x.setQueue q fs).bank = x.bank := rfl
@[simp] theorem Die.setQueue_stopped (x : Die) (q : Nat) (fs : List QFlit) :
    (x.setQueue q fs).stopped = x.stopped := rfl
@[simp] theorem Die.setQueue_outstanding (x : Die) (q : Nat) (fs : List QFlit) :
    (x.setQueue q fs).outstanding = x.outstanding := rfl
@[simp] theorem Die.setQueue_nextTag (x : Die) (q : Nat) (fs : List QFlit) :
    (x.setQueue q fs).nextTag = x.nextTag := rfl
@[simp] theorem Die.setQueue_cpTaken (x : Die) (q : Nat) (fs : List QFlit) :
    (x.setQueue q fs).cpTaken = x.cpTaken := rfl
@[simp] theorem Die.setQueue_numChanged (x : Die) (q : Nat) (fs : List QFlit) :
    (x.setQueue q fs).numChanged = x.numChanged := rfl
@[simp] theorem Die.setQueue_delivered (x : Die) (q : Nat) (fs : List QFlit) :
    (x.setQueue q fs).delivered = x.delivered := rfl
@[simp] theorem Die.setQueue_cameBy (x : Die) (q : Nat) (fs : List QFlit) :
    (x.setQueue q fs).cameBy = x.cameBy := rfl
@[simp] theorem Die.setQueue_deferred (x : Die) (q : Nat) (fs : List QFlit) :
    (x.setQueue q fs).deferred = x.deferred := rfl
@[simp] theorem Die.setQueue_mem (x : Die) (q : Nat) (fs : List QFlit) :
    (x.setQueue q fs).mem = x.mem := rfl
@[simp] theorem Die.setQueue_log (x : Die) (q : Nat) (fs : List QFlit) :
    (x.setQueue q fs).log = x.log := rfl
@[simp] theorem Die.setQueue_maintCount (x : Die) (q : Nat) (fs : List QFlit) :
    (x.setQueue q fs).maintCount = x.maintCount := rfl
@[simp] theorem Die.setQueue_maintDone (x : Die) (q : Nat) (fs : List QFlit) :
    (x.setQueue q fs).maintDone = x.maintDone := rfl
@[simp] theorem Die.setQueue_teleNext (x : Die) (q : Nat) (fs : List QFlit) :
    (x.setQueue q fs).teleNext = x.teleNext := rfl
@[simp] theorem Die.setQueue_powerSum (x : Die) (q : Nat) (fs : List QFlit) :
    (x.setQueue q fs).powerSum = x.powerSum := rfl
@[simp] theorem Die.setQueue_powerSums (x : Die) (q : Nat) (fs : List QFlit) :
    (x.setQueue q fs).powerSums = x.powerSums := rfl
@[simp] theorem Die.setQueue_ctx (x : Die) (q : Nat) (fs : List QFlit) :
    (x.setQueue q fs).ctx = x.ctx := rfl
@[simp] theorem Die.setQueue_meters (x : Die) (q : Nat) (fs : List QFlit) :
    (x.setQueue q fs).meters = x.meters := rfl
@[simp] theorem Die.setQueue_metered (x : Die) (q : Nat) (fs : List QFlit) :
    (x.setQueue q fs).metered = x.metered := rfl
@[simp] theorem Die.setQueue_horizonSet (x : Die) (q : Nat) (fs : List QFlit) :
    (x.setQueue q fs).horizonSet = x.horizonSet := rfl
@[simp] theorem Die.setQueue_fence (x : Die) (q : Nat) (fs : List QFlit) :
    (x.setQueue q fs).fence = x.fence := rfl

/-! ## Tiles and ports -/

@[simp] theorem Tile.count_state (y : Tile) (off n : Nat) :
    (y.count off n).state = y.state := rfl
@[simp] theorem Tile.count_pc (y : Tile) (off n : Nat) :
    (y.count off n).pc = y.pc := rfl
@[simp] theorem Tile.count_bc (y : Tile) (off n : Nat) :
    (y.count off n).bc = y.bc := rfl
@[simp] theorem Tile.count_loops (y : Tile) (off n : Nat) :
    (y.count off n).loops = y.loops := rfl
@[simp] theorem Tile.count_words (y : Tile) (off n : Nat) :
    (y.count off n).words = y.words := rfl
@[simp] theorem Tile.count_waiting (y : Tile) (off n : Nat) :
    (y.count off n).waiting = y.waiting := rfl
@[simp] theorem Tile.count_heldRaised (y : Tile) (off n : Nat) :
    (y.count off n).heldRaised = y.heldRaised := rfl
@[simp] theorem Tile.count_clk (y : Tile) (off n : Nat) :
    (y.count off n).clk = y.clk := rfl
@[simp] theorem Tile.count_idle (y : Tile) (off n : Nat) :
    (y.count off n).idle = y.idle := rfl
@[simp] theorem Tile.count_busy (y : Tile) (off n : Nat) :
    (y.count off n).busy = y.busy := rfl
@[simp] theorem Tile.count_flight (y : Tile) (off n : Nat) :
    (y.count off n).flight = y.flight := rfl
@[simp] theorem Tile.count_sendDesc (y : Tile) (off n : Nat) :
    (y.count off n).sendDesc = y.sendDesc := rfl
@[simp] theorem Tile.count_sendHalf (y : Tile) (off n : Nat) :
    (y.count off n).sendHalf = y.sendHalf := rfl
@[simp] theorem Tile.count_paths (y : Tile) (off n : Nat) :
    (y.count off n).paths = y.paths := rfl
@[simp] theorem Tile.count_banks (y : Tile) (off n : Nat) :
    (y.count off n).banks = y.banks := rfl
@[simp] theorem Tile.count_gen (y : Tile) (off n : Nat) :
    (y.count off n).gen = y.gen := rfl
@[simp] theorem Tile.count_v (y : Tile) (off n : Nat) :
    (y.count off n).v = y.v := rfl
@[simp] theorem Tile.count_a (y : Tile) (off n : Nat) :
    (y.count off n).a = y.a := rfl
@[simp] theorem Tile.count_s (y : Tile) (off n : Nat) :
    (y.count off n).s = y.s := rfl
@[simp] theorem Tile.count_p (y : Tile) (off n : Nat) :
    (y.count off n).p = y.p := rfl
@[simp] theorem Tile.count_acc (y : Tile) (off n : Nat) :
    (y.count off n).acc = y.acc := rfl
@[simp] theorem Tile.count_wbase (y : Tile) (off n : Nat) :
    (y.count off n).wbase = y.wbase := rfl
@[simp] theorem Tile.count_wb0 (y : Tile) (off n : Nat) :
    (y.count off n).wb0 = y.wb0 := rfl
@[simp] theorem Tile.count_wb1 (y : Tile) (off n : Nat) :
    (y.count off n).wb1 = y.wb1 := rfl
@[simp] theorem Tile.count_ovf (y : Tile) (off n : Nat) :
    (y.count off n).ovf = y.ovf := rfl
@[simp] theorem Tile.count_ovfEn (y : Tile) (off n : Nat) :
    (y.count off n).ovfEn = y.ovfEn := rfl
@[simp] theorem Tile.count_ovfPend (y : Tile) (off n : Nat) :
    (y.count off n).ovfPend = y.ovfPend := rfl
@[simp] theorem Tile.count_sram (y : Tile) (off n : Nat) :
    (y.count off n).sram = y.sram := rfl
@[simp] theorem Tile.count_sramBad (y : Tile) (off n : Nat) :
    (y.count off n).sramBad = y.sramBad := rfl
@[simp] theorem Tile.count_sramWeak (y : Tile) (off n : Nat) :
    (y.count off n).sramWeak = y.sramWeak := rfl
@[simp] theorem Tile.count_known (y : Tile) (off n : Nat) :
    (y.count off n).known = y.known := rfl
@[simp] theorem Tile.count_init0 (y : Tile) (off n : Nat) :
    (y.count off n).init0 = y.init0 := rfl
@[simp] theorem Tile.count_init1 (y : Tile) (off n : Nat) :
    (y.count off n).init1 = y.init1 := rfl
@[simp] theorem Tile.count_unitBad (y : Tile) (off n : Nat) :
    (y.count off n).unitBad = y.unitBad := rfl
@[simp] theorem Tile.count_filled (y : Tile) (off n : Nat) :
    (y.count off n).filled = y.filled := rfl
@[simp] theorem Tile.count_istore (y : Tile) (off n : Nat) :
    (y.count off n).istore = y.istore := rfl
@[simp] theorem Tile.count_istoreBad (y : Tile) (off n : Nat) :
    (y.count off n).istoreBad = y.istoreBad := rfl
@[simp] theorem Tile.count_istoreWeak (y : Tile) (off n : Nat) :
    (y.count off n).istoreWeak = y.istoreWeak := rfl
@[simp] theorem Tile.count_land (y : Tile) (off n : Nat) :
    (y.count off n).land = y.land := rfl
@[simp] theorem Tile.count_watch (y : Tile) (off n : Nat) :
    (y.count off n).watch = y.watch := rfl
@[simp] theorem Tile.count_alloc0 (y : Tile) (off n : Nat) :
    (y.count off n).alloc0 = y.alloc0 := rfl
@[simp] theorem Tile.count_alloc1 (y : Tile) (off n : Nat) :
    (y.count off n).alloc1 = y.alloc1 := rfl
@[simp] theorem Tile.count_valid0 (y : Tile) (off n : Nat) :
    (y.count off n).valid0 = y.valid0 := rfl
@[simp] theorem Tile.count_valid1 (y : Tile) (off n : Nat) :
    (y.count off n).valid1 = y.valid1 := rfl
@[simp] theorem Tile.count_span (y : Tile) (off n : Nat) :
    (y.count off n).span = y.span := rfl
@[simp] theorem Tile.count_active (y : Tile) (off n : Nat) :
    (y.count off n).active = y.active := rfl
@[simp] theorem Tile.count_faultInfo (y : Tile) (off n : Nat) :
    (y.count off n).faultInfo = y.faultInfo := rfl
@[simp] theorem Tile.count_faultBeat (y : Tile) (off n : Nat) :
    (y.count off n).faultBeat = y.faultBeat := rfl
@[simp] theorem Tile.count_counters (y : Tile) (off n : Nat) :
    (y.count off n).counters = tput y.counters off (y.counter off + BitVec.ofNat 64 n) := rfl
@[simp] theorem Tile.count_shadows (y : Tile) (off n : Nat) :
    (y.count off n).shadows = y.shadows := rfl
@[simp] theorem Tile.count_store (y : Tile) (off n : Nat) :
    (y.count off n).store = y.store := rfl

@[simp] theorem Tile.setLanding_state (y : Tile) (n : Nat) (v : W64) :
    (y.setLanding n v).state = y.state := rfl
@[simp] theorem Tile.setLanding_pc (y : Tile) (n : Nat) (v : W64) :
    (y.setLanding n v).pc = y.pc := rfl
@[simp] theorem Tile.setLanding_bc (y : Tile) (n : Nat) (v : W64) :
    (y.setLanding n v).bc = y.bc := rfl
@[simp] theorem Tile.setLanding_loops (y : Tile) (n : Nat) (v : W64) :
    (y.setLanding n v).loops = y.loops := rfl
@[simp] theorem Tile.setLanding_words (y : Tile) (n : Nat) (v : W64) :
    (y.setLanding n v).words = y.words := rfl
@[simp] theorem Tile.setLanding_waiting (y : Tile) (n : Nat) (v : W64) :
    (y.setLanding n v).waiting = y.waiting := rfl
@[simp] theorem Tile.setLanding_heldRaised (y : Tile) (n : Nat) (v : W64) :
    (y.setLanding n v).heldRaised = y.heldRaised := rfl
@[simp] theorem Tile.setLanding_clk (y : Tile) (n : Nat) (v : W64) :
    (y.setLanding n v).clk = y.clk := rfl
@[simp] theorem Tile.setLanding_idle (y : Tile) (n : Nat) (v : W64) :
    (y.setLanding n v).idle = y.idle := rfl
@[simp] theorem Tile.setLanding_busy (y : Tile) (n : Nat) (v : W64) :
    (y.setLanding n v).busy = y.busy := rfl
@[simp] theorem Tile.setLanding_flight (y : Tile) (n : Nat) (v : W64) :
    (y.setLanding n v).flight = y.flight := rfl
@[simp] theorem Tile.setLanding_sendDesc (y : Tile) (n : Nat) (v : W64) :
    (y.setLanding n v).sendDesc = y.sendDesc := rfl
@[simp] theorem Tile.setLanding_sendHalf (y : Tile) (n : Nat) (v : W64) :
    (y.setLanding n v).sendHalf = y.sendHalf := rfl
@[simp] theorem Tile.setLanding_paths (y : Tile) (n : Nat) (v : W64) :
    (y.setLanding n v).paths = y.paths := rfl
@[simp] theorem Tile.setLanding_banks (y : Tile) (n : Nat) (v : W64) :
    (y.setLanding n v).banks = y.banks := rfl
@[simp] theorem Tile.setLanding_gen (y : Tile) (n : Nat) (v : W64) :
    (y.setLanding n v).gen = y.gen := rfl
@[simp] theorem Tile.setLanding_v (y : Tile) (n : Nat) (v : W64) :
    (y.setLanding n v).v = y.v := rfl
@[simp] theorem Tile.setLanding_a (y : Tile) (n : Nat) (v : W64) :
    (y.setLanding n v).a = y.a := rfl
@[simp] theorem Tile.setLanding_s (y : Tile) (n : Nat) (v : W64) :
    (y.setLanding n v).s = y.s := rfl
@[simp] theorem Tile.setLanding_p (y : Tile) (n : Nat) (v : W64) :
    (y.setLanding n v).p = y.p := rfl
@[simp] theorem Tile.setLanding_acc (y : Tile) (n : Nat) (v : W64) :
    (y.setLanding n v).acc = y.acc := rfl
@[simp] theorem Tile.setLanding_wbase (y : Tile) (n : Nat) (v : W64) :
    (y.setLanding n v).wbase = y.wbase := rfl
@[simp] theorem Tile.setLanding_wb0 (y : Tile) (n : Nat) (v : W64) :
    (y.setLanding n v).wb0 = y.wb0 := rfl
@[simp] theorem Tile.setLanding_wb1 (y : Tile) (n : Nat) (v : W64) :
    (y.setLanding n v).wb1 = y.wb1 := rfl
@[simp] theorem Tile.setLanding_ovf (y : Tile) (n : Nat) (v : W64) :
    (y.setLanding n v).ovf = y.ovf := rfl
@[simp] theorem Tile.setLanding_ovfEn (y : Tile) (n : Nat) (v : W64) :
    (y.setLanding n v).ovfEn = y.ovfEn := rfl
@[simp] theorem Tile.setLanding_ovfPend (y : Tile) (n : Nat) (v : W64) :
    (y.setLanding n v).ovfPend = y.ovfPend := rfl
@[simp] theorem Tile.setLanding_sram (y : Tile) (n : Nat) (v : W64) :
    (y.setLanding n v).sram = y.sram := rfl
@[simp] theorem Tile.setLanding_sramBad (y : Tile) (n : Nat) (v : W64) :
    (y.setLanding n v).sramBad = y.sramBad := rfl
@[simp] theorem Tile.setLanding_sramWeak (y : Tile) (n : Nat) (v : W64) :
    (y.setLanding n v).sramWeak = y.sramWeak := rfl
@[simp] theorem Tile.setLanding_known (y : Tile) (n : Nat) (v : W64) :
    (y.setLanding n v).known = y.known := rfl
@[simp] theorem Tile.setLanding_init0 (y : Tile) (n : Nat) (v : W64) :
    (y.setLanding n v).init0 = y.init0 := rfl
@[simp] theorem Tile.setLanding_init1 (y : Tile) (n : Nat) (v : W64) :
    (y.setLanding n v).init1 = y.init1 := rfl
@[simp] theorem Tile.setLanding_unitBad (y : Tile) (n : Nat) (v : W64) :
    (y.setLanding n v).unitBad = y.unitBad := rfl
@[simp] theorem Tile.setLanding_filled (y : Tile) (n : Nat) (v : W64) :
    (y.setLanding n v).filled = y.filled := rfl
@[simp] theorem Tile.setLanding_istore (y : Tile) (n : Nat) (v : W64) :
    (y.setLanding n v).istore = y.istore := rfl
@[simp] theorem Tile.setLanding_istoreBad (y : Tile) (n : Nat) (v : W64) :
    (y.setLanding n v).istoreBad = y.istoreBad := rfl
@[simp] theorem Tile.setLanding_istoreWeak (y : Tile) (n : Nat) (v : W64) :
    (y.setLanding n v).istoreWeak = y.istoreWeak := rfl
@[simp] theorem Tile.setLanding_land (y : Tile) (n : Nat) (v : W64) :
    (y.setLanding n v).land = tput y.land (landKey y.bank n) v := rfl
@[simp] theorem Tile.setLanding_watch (y : Tile) (n : Nat) (v : W64) :
    (y.setLanding n v).watch = y.watch := rfl
@[simp] theorem Tile.setLanding_alloc0 (y : Tile) (n : Nat) (v : W64) :
    (y.setLanding n v).alloc0 = y.alloc0 := rfl
@[simp] theorem Tile.setLanding_alloc1 (y : Tile) (n : Nat) (v : W64) :
    (y.setLanding n v).alloc1 = y.alloc1 := rfl
@[simp] theorem Tile.setLanding_valid0 (y : Tile) (n : Nat) (v : W64) :
    (y.setLanding n v).valid0 = y.valid0 := rfl
@[simp] theorem Tile.setLanding_valid1 (y : Tile) (n : Nat) (v : W64) :
    (y.setLanding n v).valid1 = y.valid1 := rfl
@[simp] theorem Tile.setLanding_span (y : Tile) (n : Nat) (v : W64) :
    (y.setLanding n v).span = y.span := rfl
@[simp] theorem Tile.setLanding_active (y : Tile) (n : Nat) (v : W64) :
    (y.setLanding n v).active = y.active := rfl
@[simp] theorem Tile.setLanding_faultInfo (y : Tile) (n : Nat) (v : W64) :
    (y.setLanding n v).faultInfo = y.faultInfo := rfl
@[simp] theorem Tile.setLanding_faultBeat (y : Tile) (n : Nat) (v : W64) :
    (y.setLanding n v).faultBeat = y.faultBeat := rfl
@[simp] theorem Tile.setLanding_counters (y : Tile) (n : Nat) (v : W64) :
    (y.setLanding n v).counters = y.counters := rfl
@[simp] theorem Tile.setLanding_shadows (y : Tile) (n : Nat) (v : W64) :
    (y.setLanding n v).shadows = y.shadows := rfl
@[simp] theorem Tile.setLanding_store (y : Tile) (n : Nat) (v : W64) :
    (y.setLanding n v).store = y.store := rfl

@[simp] theorem HostPort.setReg_regs (h : HostPort) (off : Nat) (v : W64) :
    (h.setReg off v).regs = tput h.regs off v := rfl
@[simp] theorem HostPort.setReg_shadows (h : HostPort) (off : Nat) (v : W64) :
    (h.setReg off v).shadows = h.shadows := rfl
@[simp] theorem HostPort.setReg_owed (h : HostPort) (off : Nat) (v : W64) :
    (h.setReg off v).owed = h.owed := rfl
@[simp] theorem HostPort.setReg_phase0 (h : HostPort) (off : Nat) (v : W64) :
    (h.setReg off v).phase0 = h.phase0 := rfl
@[simp] theorem HostPort.setReg_msiSent (h : HostPort) (off : Nat) (v : W64) :
    (h.setReg off v).msiSent = h.msiSent := rfl
@[simp] theorem HostPort.setReg_epoch (h : HostPort) (off : Nat) (v : W64) :
    (h.setReg off v).epoch = h.epoch := rfl
@[simp] theorem HostPort.setReg_recovery (h : HostPort) (off : Nat) (v : W64) :
    (h.setReg off v).recovery = h.recovery := rfl
@[simp] theorem HostPort.setReg_linkUp (h : HostPort) (off : Nat) (v : W64) :
    (h.setReg off v).linkUp = h.linkUp := rfl
@[simp] theorem HostPort.setReg_untaken (h : HostPort) (off : Nat) (v : W64) :
    (h.setReg off v).untaken = h.untaken := rfl
@[simp] theorem HostPort.setReg_ecrcGenerate (h : HostPort) (off : Nat) (v : W64) :
    (h.setReg off v).ecrcGenerate = h.ecrcGenerate := rfl
@[simp] theorem HostPort.setReg_ecrcCheck (h : HostPort) (off : Nat) (v : W64) :
    (h.setReg off v).ecrcCheck = h.ecrcCheck := rfl
@[simp] theorem HostPort.setReg_aer (h : HostPort) (off : Nat) (v : W64) :
    (h.setReg off v).aer = h.aer := rfl

@[simp] theorem HostPort.bump_regs (h : HostPort) (off n : Nat) :
    (h.bump off n).regs = tput h.regs off (h.reg off + BitVec.ofNat 64 n) := rfl
@[simp] theorem HostPort.bump_shadows (h : HostPort) (off n : Nat) :
    (h.bump off n).shadows = h.shadows := rfl
@[simp] theorem HostPort.bump_owed (h : HostPort) (off n : Nat) :
    (h.bump off n).owed = h.owed := rfl
@[simp] theorem HostPort.bump_phase0 (h : HostPort) (off n : Nat) :
    (h.bump off n).phase0 = h.phase0 := rfl
@[simp] theorem HostPort.bump_msiSent (h : HostPort) (off n : Nat) :
    (h.bump off n).msiSent = h.msiSent := rfl
@[simp] theorem HostPort.bump_epoch (h : HostPort) (off n : Nat) :
    (h.bump off n).epoch = h.epoch := rfl
@[simp] theorem HostPort.bump_recovery (h : HostPort) (off n : Nat) :
    (h.bump off n).recovery = h.recovery := rfl
@[simp] theorem HostPort.bump_linkUp (h : HostPort) (off n : Nat) :
    (h.bump off n).linkUp = h.linkUp := rfl
@[simp] theorem HostPort.bump_untaken (h : HostPort) (off n : Nat) :
    (h.bump off n).untaken = h.untaken := rfl
@[simp] theorem HostPort.bump_ecrcGenerate (h : HostPort) (off n : Nat) :
    (h.bump off n).ecrcGenerate = h.ecrcGenerate := rfl
@[simp] theorem HostPort.bump_ecrcCheck (h : HostPort) (off n : Nat) :
    (h.bump off n).ecrcCheck = h.ecrcCheck := rfl
@[simp] theorem HostPort.bump_aer (h : HostPort) (off n : Nat) :
    (h.bump off n).aer = h.aer := rfl

/-! ## Reading what was set -/

@[simp] theorem State.die_setDie (s : State) (d : Nat) (x : Die) : (s.setDie d x).die d = x := by
  simp [State.die]

theorem State.die_setDie_ne (s : State) {d e : Nat} (x : Die) (h : e ≠ d) :
    (s.setDie d x).die e = s.die e := by
  simp [State.die, tgetD_tput_ne _ _ _ h]

theorem State.die_setDie_if (s : State) (d e : Nat) (x : Die) :
    (s.setDie d x).die e = if e = d then x else s.die e := by
  simp [State.die, tgetD_tput_if]

@[simp] theorem State.die_modDie (s : State) (d : Nat) (f : Die → Die) :
    (s.modDie d f).die d = f (s.die d) := s.die_setDie d _

theorem State.die_modDie_ne (s : State) {d e : Nat} (f : Die → Die) (h : e ≠ d) :
    (s.modDie d f).die e = s.die e := s.die_setDie_ne _ h

@[simp] theorem State.setDie_setDie (s : State) (d : Nat) (x y : Die) :
    (s.setDie d x).setDie d y = s.setDie d y := by
  simp [State.setDie]

@[simp] theorem State.die_used (s : State) (d : Nat) : s.used.die d = s.die d := rfl

@[simp] theorem State.die_emit (s : State) (e : Emission) (d : Nat) : (s.emit e).die d = s.die d := rfl

@[simp] theorem State.die_emits (s : State) (es : List Emission) (d : Nat) :
    (s.emits es).die d = s.die d := rfl

@[simp] theorem State.die_setCfg (s : State) (off : Nat) (v : W64) (d : Nat) :
    (s.setCfg off v).die d = s.die d := rfl

@[simp] theorem Die.tile_setTile (x : Die) (t : Nat) (y : Tile) : (x.setTile t y).tile t = y := by
  simp [Die.tile]

theorem Die.tile_setTile_ne (x : Die) {t u : Nat} (y : Tile) (h : u ≠ t) :
    (x.setTile t y).tile u = x.tile u :=
  tgetD_tput_ne x.tiles y _ h

@[simp] theorem Die.setTile_setTile (x : Die) (t : Nat) (y z : Tile) :
    (x.setTile t y).setTile t z = x.setTile t z := by
  simp [Die.setTile]

@[simp] theorem State.tile_setTile (s : State) (r : TileRef) (y : Tile) : (s.setTile r y).tile r = y := by
  simp [State.tile, State.setTile]

@[simp] theorem State.setTile_setTile (s : State) (r : TileRef) (y z : Tile) :
    (s.setTile r y).setTile r z = s.setTile r z := by
  simp [State.setTile, State.modDie]

theorem Die.reg_setReg_if (x : Die) (d off o : Nat) (v : W64) :
    (x.setReg off v).reg d o = if o = off then v else x.reg d o := by
  simp [Die.reg, tgetD_tput_if]

@[simp] theorem Die.reg_setReg (x : Die) (d off : Nat) (v : W64) : (x.setReg off v).reg d off = v := by
  simp [Die.reg]

@[simp] theorem Die.reg_setTile (x : Die) (d off t : Nat) (y : Tile) :
    (x.setTile t y).reg d off = x.reg d off := rfl

@[simp] theorem Die.reg_setLink (x : Die) (d off p : Nat) (y : Link) :
    (x.setLink p y).reg d off = x.reg d off := rfl

@[simp] theorem Die.reg_setQueue (x : Die) (d off q : Nat) (fs : List QFlit) :
    (x.setQueue q fs).reg d off = x.reg d off := rfl

@[simp] theorem Die.reg_setRegion (x : Die) (d off r : Nat) (y : Region) :
    (x.setRegion r y).reg d off = x.reg d off := rfl

@[simp] theorem Die.link_setLink (x : Die) (p : Nat) (y : Link) : (x.setLink p y).link p = y := by
  simp [Die.link]

theorem Die.link_setLink_ne (x : Die) {p q : Nat} (y : Link) (h : q ≠ p) :
    (x.setLink p y).link q = x.link q := by
  simp [Die.link, tgetD_tput_ne _ _ _ h]

@[simp] theorem Die.queue_setQueue (x : Die) (q : Nat) (fs : List QFlit) :
    (x.setQueue q fs).queue q = fs := by
  simp [Die.queue]

theorem Die.queue_setQueue_ne (x : Die) {q r : Nat} (fs : List QFlit) (h : r ≠ q) :
    (x.setQueue q fs).queue r = x.queue r := by
  simp [Die.queue, tgetD_tput_ne _ _ _ h]

@[simp] theorem Die.region_setRegion (x : Die) (r : Nat) (y : Region) :
    (x.setRegion r y).region r = y := by
  simp [Die.region]

theorem Die.region_setRegion_ne (x : Die) {r q : Nat} (y : Region) (h : q ≠ r) :
    (x.setRegion r y).region q = x.region q := by
  simp [Die.region, tgetD_tput_ne _ _ _ h]

@[simp] theorem State.port_setPort (s : State) (p : Fin 2) (x : HostPort) : (s.setPort p x).port p = x := by
  by_cases h : p = 0 <;> simp [State.port, State.setPort, h]

@[simp] theorem State.die_setPort (s : State) (p : Fin 2) (x : HostPort) (d : Nat) :
    (s.setPort p x).die d = s.die d := by
  by_cases h : p = 0 <;> simp [State.die, State.setPort, h]

@[simp] theorem HostPort.reg_setReg (h : HostPort) (off : Nat) (v : W64) : (h.setReg off v).reg off = v := by
  simp [HostPort.reg]

@[simp] theorem State.cfg_setCfg (s : State) (off : Nat) (v : W64) : (s.setCfg off v).cfg off = v := by
  simp [State.cfg]

end Sys2Proof.Machine
end

