-- ==== Sys2Proof/Laws/Frames.lean ====
section
/-! SUPPORT. Frames: how "only this die has changed" passes through the operations of a die. -/

namespace Sys2Proof.Machine

namespace State

theorem sameBut_refl (s : State) (d : Nat) : s.SameBut s d := ⟨fun _ _ => rfl, rfl⟩

theorem sameBut_setDie (s : State) (d : Nat) (x : Die) : s.SameBut (s.setDie d x) d :=
  ⟨fun _ h => s.die_setDie_ne x h, rfl⟩

theorem sameBut_modDie (s : State) (d : Nat) (f : Die → Die) : s.SameBut (s.modDie d f) d :=
  s.sameBut_setDie d _

theorem SameBut.trans {s t u : State} {d : Nat} (h : s.SameBut t d) (g : t.SameBut u d) :
    s.SameBut u d :=
  ⟨fun e he => (g.dies e he).trans (h.dies e he), by rw [g.rest, h.rest]⟩

theorem SameBut.used {s t : State} {d : Nat} (h : s.SameBut t d) : s.SameBut t.used d :=
  h.trans ⟨fun _ _ => rfl, rfl⟩

theorem SameBut.setDie {s t : State} {d : Nat} (h : s.SameBut t d) (x : Die) :
    s.SameBut (t.setDie d x) d := h.trans (t.sameBut_setDie d x)

theorem SameBut.modDie {s t : State} {d : Nat} (h : s.SameBut t d) (f : Die → Die) :
    s.SameBut (t.modDie d f) d := h.setDie _

end State

/-- What relaying a symbol leaves of a die: the symbol is seen, and only links have changed beside. -/
theorem Die.spread_eq (x : Die) (d : Nat) (e : Option Nat) (v : W64) : x.spread d e v = { x with
    hold := { x.hold with seen := symbolKey v :: x.hold.seen }, links := (x.spread d e v).links } := by
  unfold Die.spread
  simp only
  generalize ((x.sliceLinks d).filter fun p => some p != e) = l
  generalize hy : ({ x with hold := { x.hold with seen := symbolKey v :: x.hold.seen } } : Die) = y
  have h : y = { x with hold := { x.hold with seen := symbolKey v :: x.hold.seen }, links := y.links } := by
    rw [← hy]
  clear hy
  induction l generalizing y with
  | nil => exact h
  | cons p l ih =>
    simp only [List.foldl_cons]
    apply ih
    rw [h]
    rfl

theorem foldl_symbols_link (v : W64) (l : List Nat) (x : Die) (p : Nat) (hn : l.Nodup) :
    (l.foldl (fun y p => y.modLink p fun k => { k with symbols := k.symbols ++ [v, v] }) x).link p =
      if p ∈ l then { x.link p with symbols := (x.link p).symbols ++ [v, v] } else x.link p := by
  induction l generalizing x with
  | nil => simp
  | cons q l ih =>
    rw [List.nodup_cons] at hn
    rw [List.foldl_cons, ih _ hn.2]
    by_cases h : p = q
    · subst h
      simp [hn.1, Die.modLink]
    · simp [h, Die.modLink, Die.link_setLink_ne _ _ h]

/-- Every link of the slice, the one on which a symbol came apart, owes two copies more. -/
theorem Die.spread_link (x : Die) (d : Nat) (e : Option Nat) (v : W64) (p : Nat)
    (hn : (x.sliceLinks d).Nodup) : (x.spread d e v).link p =
      if p ∈ x.sliceLinks d ∧ some p ≠ e then
        { x.link p with symbols := (x.link p).symbols ++ [v, v] } else x.link p := by
  unfold Die.spread
  simp only
  rw [foldl_symbols_link _ _ _ _ (hn.filter _)]
  simp [Die.link]

theorem portsOf_nodup (d : Nat) : (portsOf d).Nodup :=
  List.nodup_range.filter _

theorem Die.sliceLinks_nodup (x : Die) (d : Nat) : (x.sliceLinks d).Nodup :=
  (portsOf_nodup d).filter _

@[simp] theorem Die.spread_hold (x : Die) (d : Nat) (e : Option Nat) (v : W64) :
    (x.spread d e v).hold = { x.hold with seen := symbolKey v :: x.hold.seen } := by
  rw [spread_eq]

@[simp] theorem Die.spread_regs (x : Die) (d : Nat) (e : Option Nat) (v : W64) :
    (x.spread d e v).regs = x.regs := by
  rw [spread_eq]

@[simp] theorem Die.spread_tiles (x : Die) (d : Nat) (e : Option Nat) (v : W64) :
    (x.spread d e v).tiles = x.tiles := by
  rw [spread_eq]

@[simp] theorem Die.spread_job (x : Die) (d : Nat) (e : Option Nat) (v : W64) :
    (x.spread d e v).job = x.job := by
  rw [spread_eq]

@[simp] theorem Die.spread_ns (x : Die) (d : Nat) (e : Option Nat) (v : W64) :
    (x.spread d e v).ns = x.ns := by
  rw [spread_eq]

@[simp] theorem Die.spread_sec (x : Die) (d : Nat) (e : Option Nat) (v : W64) :
    (x.spread d e v).sec = x.sec := by
  rw [spread_eq]

end Sys2Proof.Machine
end

