-- ==== Sys2Proof/Laws/Bits.lean ====
section
/-! SUPPORT. Laws of bit fields: what a field, or a bit, reads as after a field was set. -/

namespace Sys2Proof.Machine

theorem bitsOf_testBit {n : Nat} (v : BitVec n) (hi lo i : Nat) :
    (bitsOf v hi lo).testBit i = (decide (i < hi + 1 - lo) && v.getLsbD (lo + i)) := by
  simp [bitsOf, Nat.testBit_mod_two_pow, Nat.testBit_shiftRight, BitVec.getLsbD]

theorem bitsOf_lt {n : Nat} (v : BitVec n) (hi lo : Nat) : bitsOf v hi lo < 2 ^ (hi + 1 - lo) :=
  Nat.mod_lt _ (Nat.two_pow_pos _)

/-- A bit of a word whose field was set. -/
theorem getLsbD_setBits (v : W64) {hi lo : Nat} (x : Nat) (h : hi < 64) (g : lo ≤ hi) (i : Nat) :
    (setBits v hi lo x).getLsbD i =
      if lo ≤ i ∧ i ≤ hi then x.testBit (i - lo) else v.getLsbD i := by
  by_cases hi64 : i < 64
  · simp only [setBits, BitVec.getLsbD_or, BitVec.getLsbD_and, BitVec.getLsbD_not,
      BitVec.getLsbD_shiftLeft, BitVec.getLsbD_ofNat, hi64, decide_true, Bool.true_and,
      Nat.testBit_two_pow_sub_one, Nat.testBit_mod_two_pow]
    by_cases h1 : lo ≤ i
    · by_cases h2 : i ≤ hi
      · have a1 : ¬ i < lo := by omega
        have a2 : i - lo < 64 := by omega
        have a3 : i - lo < hi + 1 - lo := by omega
        simp [h1, h2, a1, a2, a3]
      · have a1 : ¬ i < lo := by omega
        have a3 : ¬ i - lo < hi + 1 - lo := by omega
        simp [h1, h2, a3]
    · have a1 : i < lo := by omega
      simp [h1, a1]
  · have : ¬(lo ≤ i ∧ i ≤ hi) := by omega
    rw [if_neg this, BitVec.getLsbD_of_ge _ _ (by omega), BitVec.getLsbD_of_ge _ _ (by omega)]

theorem bitOf_setBits (v : W64) {hi lo : Nat} (x : Nat) (h : hi < 64) (g : lo ≤ hi) (i : Nat) :
    bitOf (setBits v hi lo x) i = if lo ≤ i ∧ i ≤ hi then x.testBit (i - lo) else bitOf v i :=
  getLsbD_setBits v x h g i

/-- The field that was set. -/
theorem bitsOf_setBits (v : W64) {hi lo : Nat} (x : Nat) (h : hi < 64) (g : lo ≤ hi) :
    bitsOf (setBits v hi lo x) hi lo = x % 2 ^ (hi + 1 - lo) := by
  apply Nat.eq_of_testBit_eq
  intro i
  rw [bitsOf_testBit, getLsbD_setBits v x h g, Nat.testBit_mod_two_pow]
  by_cases hi' : i < hi + 1 - lo
  · have : lo ≤ lo + i ∧ lo + i ≤ hi := by omega
    simp [hi', this]
  · simp [hi']

/-- A field apart from the one that was set. -/
theorem bitsOf_setBits_ne (v : W64) {hi lo a b : Nat} (x : Nat) (h : hi < 64) (g : lo ≤ hi)
    (d : a < lo ∨ hi < b) : bitsOf (setBits v hi lo x) a b = bitsOf v a b := by
  apply Nat.eq_of_testBit_eq
  intro i
  rw [bitsOf_testBit, bitsOf_testBit, getLsbD_setBits v x h g]
  by_cases hi' : i < a + 1 - b
  · have : ¬(lo ≤ b + i ∧ b + i ≤ hi) := by omega
    simp [this]
  · simp [hi']

/-- One bit that was set. -/
theorem bitOf_setBit (v : W64) {k : Nat} (b : Bool) (h : k < 64) (i : Nat) :
    bitOf (setBits v k k b.toNat) i = if i = k then b else bitOf v i := by
  rw [bitOf_setBits v _ h (Nat.le_refl k)]
  by_cases hk : i = k
  · subst hk
    cases b <;> simp
  · have : ¬(k ≤ i ∧ i ≤ k) := by omega
    simp [this, hk]

end Sys2Proof.Machine
end

