-- ==== Sys2Proof/Laws/Completion.lean ====
section
/-! SUPPORT. Completions, events and interrupts change only the host ports, what has left the module, and the model's own
free values and clock readings. -/

namespace Sys2Proof.Machine

/-- From `s` to `t` only the host ports, what has left the module, the count of free values and what was seen of the
clocks have changed. -/
def State.OnlyHost (s t : State) : Prop :=
  t = { s with port0 := t.port0, port1 := t.port1, sent := t.sent, fz := t.fz, ticks := t.ticks }

namespace State

theorem OnlyHost.refl (s : State) : s.OnlyHost s := rfl

theorem OnlyHost.trans {s t u : State} (h : s.OnlyHost t) (g : t.OnlyHost u) : s.OnlyHost u := by
  unfold OnlyHost at *
  rw [g, h]

theorem OnlyHost.dies {s t : State} (h : s.OnlyHost t) : t.dies = s.dies := by rw [h]
theorem OnlyHost.die {s t : State} (h : s.OnlyHost t) (d : Nat) : t.die d = s.die d := by
  simp only [State.die, h.dies]
theorem OnlyHost.pending {s t : State} (h : s.OnlyHost t) : t.pending = s.pending := by rw [h]
theorem OnlyHost.taken {s t : State} (h : s.OnlyHost t) : t.taken = s.taken := by rw [h]
theorem OnlyHost.weights {s t : State} (h : s.OnlyHost t) : t.weights = s.weights := by rw [h]
theorem OnlyHost.load {s t : State} (h : s.OnlyHost t) : t.load = s.load := by rw [h]
theorem OnlyHost.snaps {s t : State} (h : s.OnlyHost t) : t.snaps = s.snaps := by rw [h]
theorem OnlyHost.germ {s t : State} (h : s.OnlyHost t) : t.germ = s.germ := by rw [h]
theorem OnlyHost.boot {s t : State} (h : s.OnlyHost t) : t.boot = s.boot := by rw [h]
theorem OnlyHost.servo {s t : State} (h : s.OnlyHost t) : t.servo = s.servo := by rw [h]
theorem OnlyHost.mgmt {s t : State} (h : s.OnlyHost t) : t.mgmt = s.mgmt := by rw [h]
theorem OnlyHost.placed0 {s t : State} (h : s.OnlyHost t) : t.placed0 = s.placed0 := by rw [h]
theorem OnlyHost.placed1 {s t : State} (h : s.OnlyHost t) : t.placed1 = s.placed1 := by rw [h]
theorem OnlyHost.jobs {s t : State} (h : s.OnlyHost t) : t.jobs = s.jobs := by rw [h]

theorem onlyHost_setPort (s : State) (p : Fin 2) (h : HostPort) : s.OnlyHost (s.setPort p h) := by
  unfold OnlyHost setPort
  split <;> rfl

theorem onlyHost_modPort (s : State) (p : Fin 2) (f : HostPort → HostPort) : s.OnlyHost (s.modPort p f) :=
  s.onlyHost_setPort p _

theorem onlyHost_used (s : State) : s.OnlyHost s.used := rfl

theorem onlyHost_timed (s : State) (d : Nat) : s.OnlyHost (s.timed d) := rfl

theorem onlyHost_emit (s : State) (e : Emission) : s.OnlyHost (s.emit e) := rfl

theorem onlyHost_emits (s : State) (es : List Emission) : s.OnlyHost (s.emits es) := rfl

theorem onlyHost_msix (s : State) (p : Fin 2) (v : Nat) : s.OnlyHost (s.msix p v) := by
  unfold msix
  split
  · exact s.onlyHost_modPort p _
  · rfl

theorem onlyHost_portStatus (s : State) (p : Fin 2) (i : Nat) : s.OnlyHost (s.portStatus p i) := by
  unfold portStatus
  simp only
  split
  · rfl
  · exact (s.onlyHost_modPort p _).trans (onlyHost_msix _ _ _)

theorem onlyHost_dmaTry (s : State) (p : Fin 2) (a n : Nat) : s.OnlyHost (s.dmaTry p a n).1 := by
  unfold dmaTry
  split
  · rfl
  · exact s.onlyHost_modPort p (·.bump bDmaBlocked)

theorem onlyHost_cqWrite (s : State) (p : Fin 2) (n : Nat) (c : Completion) : s.OnlyHost (s.cqWrite p n c) := by
  have key : ∀ (u : State) (b : Bool) (v : Nat), s.OnlyHost u → s.OnlyHost
      (if c.type = 3 then u.msix p 128
       else if b then (u.modPort p fun h => { h with msiSent := n :: h.msiSent }).msix p v else u) := by
    intro u b v h
    split
    · exact h.trans (onlyHost_msix _ _ _)
    · split
      · exact (h.trans (onlyHost_modPort _ _ _)).trans (onlyHost_msix _ _ _)
      · exact h
  unfold cqWrite
  exact key _ _ _ (((s.onlyHost_setPort p _).trans (onlyHost_timed _ _)).trans (onlyHost_emit _ _))

theorem onlyHost_cqDrain (s : State) (p : Fin 2) (n fuel : Nat) : s.OnlyHost (s.cqDrain p n fuel) := by
  induction fuel generalizing s with
  | zero => rfl
  | succ k ih =>
    unfold cqDrain
    simp only
    split
    · rfl
    · split
      · rfl
      · split
        · exact (((s.onlyHost_dmaTry _ _ _).trans (onlyHost_modPort _ _ _)).trans (onlyHost_cqWrite _ _ _ _)).trans (ih _)
        · exact s.onlyHost_dmaTry _ _ _

theorem onlyHost_cqPost (s : State) (p : Fin 2) (n : Nat) (c : Completion) : s.OnlyHost (s.cqPost p n c) := by
  unfold cqPost
  simp only
  split
  · exact (s.onlyHost_modPort p _).trans (onlyHost_cqDrain _ _ _ _)
  · exact s.onlyHost_modPort p _

theorem onlyHost_complete (s : State) (c : CmdRef) (st : Nat) (ctx : W32) (b d : Nat) :
    s.OnlyHost (s.complete c st ctx b d) := by
  unfold complete
  split
  · exact s.onlyHost_cqPost _ _ _
  · exact s.onlyHost_modPort _ _

theorem onlyHost_eventOn (s : State) (p : Fin 2) (c d : Nat) : s.OnlyHost (s.eventOn p c d) :=
  s.onlyHost_cqPost _ _ _

theorem onlyHost_event (s : State) (c d : Nat) : s.OnlyHost (s.event c d) :=
  (s.onlyHost_eventOn 0 c d).trans (onlyHost_eventOn _ 1 c d)

@[simp] theorem complete_die (s : State) (c : CmdRef) (st : Nat) (ctx : W32) (b k d : Nat) :
    (s.complete c st ctx b k).die d = s.die d := (s.onlyHost_complete c st ctx b k).die d

@[simp] theorem event_die (s : State) (c k d : Nat) : (s.event c k).die d = s.die d := (s.onlyHost_event c k).die d

@[simp] theorem portStatus_die (s : State) (p : Fin 2) (i d : Nat) : (s.portStatus p i).die d = s.die d :=
  (s.onlyHost_portStatus p i).die d

theorem onlyHost_stopReached (s : State) (o : Nat) : s.OnlyHost (s.stopReached o) := by
  unfold stopReached
  split
  · rfl
  · exact ((s.onlyHost_portStatus 0 31).trans (onlyHost_portStatus _ 1 31)).trans (onlyHost_event _ _ _)

@[simp] theorem stopReached_die (s : State) (o d : Nat) : (s.stopReached o).die d = s.die d :=
  (s.onlyHost_stopReached o).die d

end State

end Sys2Proof.Machine
end

