-- ==== Sys2Proof/Laws/Stop.lean ====
section
/-! SUPPORT. What a stop leaves of a die, and what it leaves alone. -/

namespace Sys2Proof.Machine

/-! ## The end of a batch -/

/-- From `s` to `t` beside what completions change only dies and the weight sets have changed. -/
def State.OnlyDies (s t : State) : Prop :=
  t = { s with
    dies := t.dies, weights := t.weights, port0 := t.port0, port1 := t.port1, sent := t.sent, fz := t.fz
    ticks := t.ticks }

/-- A change of a context record leaves everything of its die but the records and their memory. -/
theorem Die.modCtx_eq (x : Die) (e c : Nat) (f : Ctx → Ctx) :
    ∃ (k : CtxEngine) (m : List Host.Cell), x.modCtx e c f = { x with ctx := k, mem := { x.mem with cells := m } } := by
  unfold Die.modCtx
  simp only
  split
  · exact ⟨_, x.mem.cells, rfl⟩
  · unfold Die.writeCtx
    exact ⟨_, _, rfl⟩

namespace State

theorem OnlyDies.refl (s : State) : s.OnlyDies s := rfl

theorem OnlyDies.trans {s t u : State} (h : s.OnlyDies t) (g : t.OnlyDies u) : s.OnlyDies u := by
  unfold OnlyDies at *
  rw [g, h]

theorem OnlyHost.onlyDies {s t : State} (h : s.OnlyHost t) : s.OnlyDies t := by
  unfold OnlyDies OnlyHost at *
  rw [h]

theorem onlyDies_setDie (s : State) (d : Nat) (x : Die) : s.OnlyDies (s.setDie d x) := rfl
theorem onlyDies_modDie (s : State) (d : Nat) (f : Die → Die) : s.OnlyDies (s.modDie d f) := rfl
theorem onlyDies_used (s : State) : s.OnlyDies s.used := rfl
theorem onlyDies_modCtx (s : State) (d c : Nat) (f : Ctx → Ctx) : s.OnlyDies (s.modCtx d c f) := rfl

theorem OnlyDies.pending {s t : State} (h : s.OnlyDies t) : t.pending = s.pending := by rw [h]
theorem OnlyDies.taken {s t : State} (h : s.OnlyDies t) : t.taken = s.taken := by rw [h]
theorem OnlyDies.load {s t : State} (h : s.OnlyDies t) : t.load = s.load := by rw [h]
theorem OnlyDies.snaps {s t : State} (h : s.OnlyDies t) : t.snaps = s.snaps := by rw [h]
theorem OnlyDies.germ {s t : State} (h : s.OnlyDies t) : t.germ = s.germ := by rw [h]
theorem OnlyDies.boot {s t : State} (h : s.OnlyDies t) : t.boot = s.boot := by rw [h]
theorem OnlyDies.servo {s t : State} (h : s.OnlyDies t) : t.servo = s.servo := by rw [h]
theorem OnlyDies.mgmt {s t : State} (h : s.OnlyDies t) : t.mgmt = s.mgmt := by rw [h]
theorem OnlyDies.jobs {s t : State} (h : s.OnlyDies t) : t.jobs = s.jobs := by rw [h]

theorem onlyDies_readerForget (s : State) : s.OnlyDies s.readerForget := rfl

theorem onlyDies_failJob (s : State) (p : WeightJob → Bool) (j : Option WeightJob) (st : Nat) : s.OnlyDies
    (match j with | some j => if p j then s.readerForget.complete j.cmd st else s | none => s) := by
  split
  · split
    · exact s.onlyDies_readerForget.trans (onlyHost_complete _ _ _ _ _ _).onlyDies
    · rfl
  · rfl

theorem onlyDies_dropAdapters (s : State) (c : Nat) : s.OnlyDies (s.dropAdapters c) := by
  unfold dropAdapters
  simp only
  refine OnlyDies.trans ?_ (onlyDies_failJob _ (fun j => j.set.wsid.toNat == adapterWsid && j.set.context == c) _ _)
  refine OnlyDies.trans ?_ (onlyDies_failJob _ (fun j => j.set.wsid.toNat == adapterWsid && j.set.context == c) _ _)
  rfl

theorem onlyDies_closeCtx (s : State) (e c : Nat) : s.OnlyDies (s.closeCtx e c) :=
  (s.onlyDies_modCtx e c _).trans (onlyDies_dropAdapters _ _)

/-- Of the dies only E-die 32, which may read shards, changes as adapters go: its outstanding requests. -/
theorem dropAdapters_dies (s : State) (c : Nat) :
    (∃ o, (s.dropAdapters c).die 32 = { s.die 32 with outstanding := o })
      ∧ ∀ d, d ≠ 32 → (s.dropAdapters c).die d = s.die d := by
  have key : ∀ (s : State) (p : WeightJob → Bool) (j : Option WeightJob) (st : Nat),
      let u := match j with | some j => if p j then s.readerForget.complete j.cmd st else s | none => s
      (∃ o, u.die 32 = { s.die 32 with outstanding := o }) ∧ ∀ d, d ≠ 32 → u.die d = s.die d := by
    intro s p j st
    simp only
    split
    · split
      · simp only [complete_die]
        exact ⟨⟨_, s.die_modDie 32 _⟩, fun d hd => s.die_modDie_ne _ hd⟩
      · exact ⟨⟨_, rfl⟩, fun _ _ => rfl⟩
    · exact ⟨⟨_, rfl⟩, fun _ _ => rfl⟩
  unfold dropAdapters
  simp only
  generalize hu : ({ s with weights := _ } : State) = u
  have hd : ∀ d, u.die d = s.die d := fun d => by rw [← hu]; rfl
  obtain ⟨⟨o, h1⟩, h2⟩ := key u (fun j => j.set.wsid.toNat == adapterWsid && j.set.context == c) s.weights.loading 0x0B
  obtain ⟨⟨o', h3⟩, h4⟩ := key _ (fun j => j.set.wsid.toNat == adapterWsid && j.set.context == c) s.weights.rolling 0x0B
  exact ⟨⟨o', h3.trans (congrArg (fun x : Die => { x with outstanding := o' })
    (h1.trans (congrArg (fun x : Die => { x with outstanding := o }) (hd 32))))⟩, fun d hd' => (h4 d hd').trans ((h2 d hd').trans (hd d))⟩

theorem onlyDies_finishClose (s : State) (e c : Nat) : s.OnlyDies (s.finishClose e c) := by
  unfold finishClose
  simp only
  split
  · rfl
  · exact (s.onlyDies_closeCtx e c).trans (onlyHost_complete _ _ _ _ _ _).onlyDies

theorem onlyDies_endSlot (s : State) (e : Nat) (sl : SlotState) : s.OnlyDies (s.endSlot e sl) := by
  unfold endSlot
  split
  · rfl
  · simp only
    refine OnlyDies.trans ?_ (onlyDies_finishClose _ _ _)
    split
    · rfl
    · split <;> rfl

theorem onlyDies_endSlots (l : List (Nat × SlotState)) (s : State) (e : Nat) :
    s.OnlyDies (l.foldl (fun s sl => s.endSlot e sl.2) s) := by
  induction l generalizing s with
  | nil => rfl
  | cons a l ih => exact (s.onlyDies_endSlot e a.2).trans (ih _)

theorem onlyDies_endBatch (s : State) (e : Nat) : s.OnlyDies (s.endBatch e) := by
  unfold endBatch
  exact (onlyDies_endSlots (s.die e).ctx.slots s e).trans (onlyDies_modDie _ _ _)

/-- A property of a die that context records, their memory, outstanding requests and the count of missing results do not
touch outlives the end of its batch; every other die but E-die 32 stays as it is. -/
theorem endBatch_ind (P : Die → Prop) (hc : ∀ (x : Die) c m, P x → P { x with ctx := c, mem := { x.mem with cells := m } })
    (ho : ∀ (x : Die) o, P x → P { x with outstanding := o }) (hb : ∀ x : Die, P x → P (x.bump rResultsMissing))
    (s : State) (e : Nat) (h : P (s.die e)) :
    P ((s.endBatch e).die e) ∧ ∀ d, d ≠ e → d ≠ 32 → (s.endBatch e).die d = s.die d := by
  have hmod : ∀ (s : State) c f, P (s.die e) → P ((s.modCtx e c f).die e) := by
    intro s c f h
    obtain ⟨k, m, hk⟩ := (s.die e).modCtx_eq e c f
    rw [modCtx, die_modDie, hk]
    exact hc _ _ _ h
  have hfin : ∀ (s : State) c, P (s.die e) →
      P ((s.finishClose e c).die e) ∧ ∀ d, d ≠ e → d ≠ 32 → (s.finishClose e c).die d = s.die d := by
    intro s c h
    unfold finishClose closeCtx
    simp only
    split
    · exact ⟨h, fun _ _ _ => rfl⟩
    · simp only [complete_die]
      obtain ⟨⟨o, h1⟩, h2⟩ := (s.modCtx e c Ctx.closed).dropAdapters_dies ((e - 32) * 2 ^ 15 + c)
      refine ⟨?_, fun d hd h32 => (h2 d h32).trans (s.die_modDie_ne _ hd)⟩
      by_cases he : e = 32
      · subst he
        rw [h1]
        exact ho _ _ (hmod s c _ h)
      · rw [h2 e he]
        exact hmod s c _ h
  have hslot : ∀ (s : State) sl, P (s.die e) →
      P ((s.endSlot e sl).die e) ∧ ∀ d, d ≠ e → d ≠ 32 → (s.endSlot e sl).die d = s.die d := by
    intro s sl h
    unfold endSlot
    split
    · exact ⟨h, fun _ _ _ => rfl⟩
    · next c _ =>
      have key : ∀ u : State, P (u.die e) → (∀ d, d ≠ e → u.die d = s.die d) →
          P ((u.finishClose e c).die e) ∧ ∀ d, d ≠ e → d ≠ 32 → (u.finishClose e c).die d = s.die d := fun u h1 h2 =>
        ⟨(hfin u c h1).1, fun d hd h32 => ((hfin u c h1).2 d hd h32).trans (h2 d hd)⟩
      simp only
      split
      · exact key s h fun _ _ => rfl
      · split
        all_goals first
          | exact key s h fun _ _ => rfl
          | refine key _ ?_ ?_
            · rw [die_modDie]; exact hb _ (hmod s c _ h)
            · intro d hd; rw [die_modDie_ne _ _ hd]; exact s.die_modDie_ne _ hd
  have hfold : ∀ (l : List (Nat × SlotState)) (s : State), P (s.die e) →
      P ((l.foldl (fun s sl => s.endSlot e sl.2) s).die e)
        ∧ ∀ d, d ≠ e → d ≠ 32 → (l.foldl (fun s sl => s.endSlot e sl.2) s).die d = s.die d := by
    intro l
    induction l with
    | nil => exact fun s h => ⟨h, fun _ _ _ => rfl⟩
    | cons a l ih =>
      intro s h
      obtain ⟨h1, h2⟩ := hslot s a.2 h
      obtain ⟨h3, h4⟩ := ih _ h1
      exact ⟨h3, fun d hd h32 => (h4 d hd h32).trans (h2 d hd h32)⟩
  obtain ⟨h1, h2⟩ := hfold (s.die e).ctx.slots s h
  unfold endBatch
  refine ⟨?_, fun d hd h32 => ?_⟩
  · rw [die_modDie]
    exact hc _ _ ((List.foldl (fun s sl => s.endSlot e sl.2) s (s.die e).ctx.slots).die e).mem.cells h1
  · rw [die_modDie_ne _ _ hd]
    exact h2 d hd h32

end State

/-! ## A die that halts -/

theorem Die.reg_setReg_ne (x : Die) (d : Nat) {off o : Nat} (v : W64) (h : o ≠ off) :
    (x.setReg off v).reg d o = x.reg d o := by
  rw [Die.reg_setReg_if, if_neg h]

theorem Die.reg_bump_ne (x : Die) (d : Nat) {off o : Nat} (n : Nat) (h : o ≠ off) :
    (x.bump off n).reg d o = x.reg d o := x.reg_setReg_ne d _ h

theorem Die.reg_setField_ne (x : Die) (d : Nat) {off o : Nat} (hi lo v : Nat) (h : o ≠ off) :
    (x.setField d off hi lo v).reg d o = x.reg d o := x.reg_setReg_ne d _ h

@[simp] theorem Die.reg_setField (x : Die) (d off hi lo v : Nat) :
    (x.setField d off hi lo v).reg d off = setBits (x.reg d off) hi lo v := x.reg_setReg d off _

theorem Die.bit_setBit (x : Die) (d off : Nat) {i : Nat} (b : Bool) (h : i < 64) (k : Nat) :
    (x.setBit d off i b).bit d off k = if k = i then b else x.bit d off k := by
  simp only [Die.bit, Die.setBit, Die.reg_setField]
  exact bitOf_setBit _ b h k

theorem Die.halt_fields (x : Die) (d : Nat) :
    (x.halt d).stopped = true ∧ (x.halt d).tiles = tmap (fun _ y => y.stop) x.tiles ∧ (x.halt d).queues = []
      ∧ (x.halt d).relay = [] ∧ (x.halt d).eq = [] ∧ (x.halt d).armed = none ∧ (x.halt d).hold = x.hold.abandon
      ∧ (x.halt d).mem = x.mem.drop ∧ (x.halt d).log = x.log ∧ (x.halt d).job = x.job ∧ (x.halt d).ctx = x.ctx := by
  unfold Die.halt
  simp only
  split
  · exact ⟨rfl, rfl, rfl, rfl, rfl, rfl, rfl, rfl, rfl, rfl, rfl⟩
  · next h =>
    refine ⟨rfl, rfl, rfl, rfl, rfl, ?_, rfl, rfl, rfl, rfl, rfl⟩
    revert h
    show ¬ x.armed.isSome = true → x.armed = none
    cases x.armed <;> simp

theorem Die.halt_reg (x : Die) (d off : Nat) (h1 : off ≠ rStopFlits) (h2 : off ≠ rBeatCtrl) (h3 : off ≠ rEpochCtrl) :
    (x.halt d).reg d off = x.reg d off := by
  unfold Die.halt
  simp only
  split
  · show (Die.setBit _ _ _ _ _).reg d off = _
    rw [Die.setBit, Die.reg_setField_ne _ _ _ _ _ h3, Die.setBit, Die.reg_setField_ne _ _ _ _ _ h2]
    exact x.reg_bump_ne d _ h1
  · rw [Die.setBit, Die.reg_setField_ne _ _ _ _ _ h2]
    exact x.reg_bump_ne d _ h1

theorem Die.halt_jobOn (x : Die) (d : Nat) : (x.halt d).jobOn d = false := by
  have hne : rBeatCtrl ≠ rEpochCtrl := by decide
  unfold Die.halt Die.jobOn
  simp only
  split
  · show (Die.setBit _ _ _ _ _).bit d rBeatCtrl 0 = _
    rw [Die.bit, Die.setBit, Die.reg_setField_ne _ _ _ _ _ hne]
    exact (Die.bit_setBit _ d rBeatCtrl false (by decide) 0).trans (if_pos rfl)
  · exact (Die.bit_setBit _ d rBeatCtrl false (by decide) 0).trans (if_pos rfl)

theorem Tile.stop_state (y : Tile) : y.stop.state = .stopped ∨ y.stop.state = .faulted := by
  unfold Tile.stop
  simp only
  split
  · next h => exact .inr h
  · exact .inl rfl

theorem Die.halt_halted (x : Die) (d : Nat) : (x.halt d).Halted d := by
  obtain ⟨h1, h2, h3, h4, _, h6, h7, _⟩ := x.halt_fields d
  refine ⟨h1, x.halt_jobOn d, h6, by rw [h7]; exact ⟨rfl, rfl⟩, h3, h4, fun t y h => ?_⟩
  rw [h2, tget_tmap] at h
  cases g : tget x.tiles t with
  | none => simp [g] at h
  | some z =>
    simp only [g, Option.map_some, Option.some.injEq] at h
    rw [← h]
    exact z.stop_state

namespace State

/-- Halting a die: its record is halted, and only contexts of an E-die change beside. -/
theorem haltDie_ind (P : Die → Prop) (hc : ∀ (x : Die) c m, P x → P { x with ctx := c, mem := { x.mem with cells := m } })
    (ho : ∀ (x : Die) o, P x → P { x with outstanding := o }) (hb : ∀ x : Die, P x → P (x.bump rResultsMissing))
    (s : State) (d o : Nat) (h : P ((s.die d).halt d)) :
    P ((s.haltDie d o).die d) ∧ ∀ e, e ≠ d → e ≠ 32 → (s.haltDie d o).die e = s.die e := by
  unfold haltDie
  simp only
  have h1 : P (((s.stopReached o).modDie d (·.halt d)).die d) := by
    rw [die_modDie, stopReached_die]; exact h
  have h2 : ∀ e, e ≠ d → ((s.stopReached o).modDie d (·.halt d)).die e = s.die e := fun e he => by
    rw [die_modDie_ne _ _ he, stopReached_die]
  split
  · obtain ⟨h3, h4⟩ := endBatch_ind P hc ho hb _ d h1
    refine ⟨?_, fun e he h32 => ?_⟩
    · rw [die_modDie]
      exact hc _ _ (((s.stopReached o).modDie d (·.halt d)).endBatch d |>.die d).mem.cells h3
    · rw [die_modDie_ne _ _ he, h4 e he h32, h2 e he]
  · exact ⟨h1, fun e he _ => h2 e he⟩

theorem onlyDies_haltDie (s : State) (d o : Nat) : s.OnlyDies (s.haltDie d o) := by
  unfold haltDie
  simp only
  have h : s.OnlyDies ((s.stopReached o).modDie d (·.halt d)) :=
    (s.onlyHost_stopReached o).onlyDies.trans (onlyDies_modDie _ _ _)
  split
  · exact (h.trans (onlyDies_endBatch _ _)).trans (onlyDies_modDie _ _ _)
  · exact h

theorem die_logEvent_ne (s : State) {d e : Nat} (code : Nat) (v : W64) (h : e ≠ d) :
    (s.logEvent d code v).die e = s.die e := s.die_setDie_ne _ h

theorem onlyDies_logEvent (s : State) (d code : Nat) (v : W64) : s.OnlyDies (s.logEvent d code v) := rfl

end State

/-- A log entry leaves everything of a die but the log and its registers. -/
theorem Die.addLog_eq (x : Die) (e : LogEntry) :
    x.addLog e = { x with log := (x.addLog e).log, regs := (x.addLog e).regs } := by
  unfold Die.addLog
  split
  · split
    · rfl
    · simp only
      split <;> rfl
  · rfl

theorem Die.addLog_reg (x : Die) (e : LogEntry) (d off : Nat) (h1 : off ≠ rLogHead) (h2 : off ≠ rLogOverwritten) :
    (x.addLog e).reg d off = x.reg d off := by
  unfold Die.addLog
  split
  · split
    · rfl
    · simp only
      split
      · exact Die.reg_setReg_ne _ _ _ h1
      · exact (Die.reg_bump_ne _ _ _ h2).trans (Die.reg_setReg_ne _ _ _ h1)
  · exact Die.reg_setReg_ne _ _ _ h1

namespace State

theorem die_logEvent (s : State) (d code : Nat) (v : W64) : (s.logEvent d code v).die d =
    (s.die d).addLog ⟨(s.now d).1, (s.now d).2, BitVec.ofNat 16 code, 1, BitVec.ofNat 48 ((s.die d).logBeat d), v⟩ := by
  unfold logEvent
  exact die_setDie _ _ _

theorem raiseStop_onlyDies (s : State) (d kind : Nat) (v w : W64) : s.OnlyDies (s.raiseStop d kind v w) := by
  unfold raiseStop
  simp only
  have h : ∀ c : Bool, s.OnlyDies (if c then s else s.modDie d (·.spread d none
      (mkSymbol 3 (stopClass kind) (s.dieNumber d) (s.die d).job.beat (s.die d).hold.seq.toNat))) := by
    intro c; cases c <;> rfl
  split
  · exact h _
  · exact (h _).trans ((onlyDies_logEvent _ d kind w).trans ((onlyDies_modDie _ d _).trans (onlyDies_haltDie _ d _)))

/-- A die that had not stopped and raises a stop has halted and holds the record; its tiles have stopped as they were, and
no other die but E-die 32, whose requests for shards may have become nobody's, has changed. -/
theorem raiseStop_halts (s : State) (d kind : Nat) (v w : W64) (h : (s.die d).stopped = false) :
    ((s.raiseStop d kind v w).die d).Halted d
      ∧ ((s.raiseStop d kind v w).die d).reg d rStopInfo = BitVec.ofNat 64 (2 ^ 31 + 2 ^ 30 + kind * 2 ^ 24
          + stopClass kind * 2 ^ 20 + s.dieNumber d)
      ∧ ((s.raiseStop d kind v w).die d).reg d rStopBeat = BitVec.ofNat 64 ((s.die d).job.beat % 2 ^ 48)
      ∧ ((s.raiseStop d kind v w).die d).reg d rStopDetail = v
      ∧ ((s.raiseStop d kind v w).die d).tiles = tmap (fun _ y => y.stop) (s.die d).tiles
      ∧ ∀ e, e ≠ d → e ≠ 32 → (s.raiseStop d kind v w).die e = s.die e := by
  unfold raiseStop
  simp only [h, Bool.false_eq_true, if_false]
  generalize hu : (if (s.die d).hold.seen.contains (symbolKey (mkSymbol 3 (stopClass kind) (s.dieNumber d)
    (s.die d).job.beat (s.die d).hold.seq.toNat)) = true then s else s.modDie d _) = u
  have h1 : (u.die d).tiles = (s.die d).tiles ∧ (u.die d).job = (s.die d).job := by
    rw [← hu]
    split
    · exact ⟨rfl, rfl⟩
    · rw [die_modDie, Die.spread_eq]; exact ⟨rfl, rfl⟩
  have h2 : ∀ e, e ≠ d → u.die e = s.die e := by
    intro e he
    rw [← hu]
    split
    · rfl
    · exact s.die_modDie_ne _ he
  have key := haltDie_ind (fun x => x.Halted d
      ∧ x.reg d rStopInfo = BitVec.ofNat 64 (2 ^ 31 + 2 ^ 30 + kind * 2 ^ 24 + stopClass kind * 2 ^ 20 + s.dieNumber d)
      ∧ x.reg d rStopBeat = BitVec.ofNat 64 ((s.die d).job.beat % 2 ^ 48) ∧ x.reg d rStopDetail = v
      ∧ x.tiles = tmap (fun _ y => y.stop) (s.die d).tiles)
    (fun x c m ⟨g1, g2⟩ => ⟨⟨g1.stopped, g1.job, g1.armed, g1.hold, g1.queues, g1.relay, g1.tiles⟩, g2⟩)
    (fun x o ⟨g1, g2⟩ => ⟨⟨g1.stopped, g1.job, g1.armed, g1.hold, g1.queues, g1.relay, g1.tiles⟩, g2⟩)
    (fun x ⟨g1, g2, g3, g4, g5⟩ =>
      ⟨⟨g1.stopped, by
          rw [Die.jobOn, Die.bit, Die.reg_bump_ne _ _ _ (by decide)]; exact g1.job,
        g1.armed, g1.hold, g1.queues, g1.relay, g1.tiles⟩,
        by rw [Die.reg_bump_ne _ _ _ (by decide)]; exact g2,
        by rw [Die.reg_bump_ne _ _ _ (by decide)]; exact g3,
        by rw [Die.reg_bump_ne _ _ _ (by decide)]; exact g4, g5⟩)
    ((u.logEvent d kind w).modDie d fun x =>
      ((x.setReg rStopInfo (BitVec.ofNat 64 (2 ^ 31 + 2 ^ 30 + kind * 2 ^ 24 + stopClass kind * 2 ^ 20 + s.dieNumber d))).setReg
        rStopBeat (BitVec.ofNat 64 (x.job.beat % 2 ^ 48))).setReg rStopDetail v) d (s.dieNumber d)
    (by
      rw [die_modDie]
      refine ⟨Die.halt_halted _ d, ?_, ?_, ?_, ?_⟩
      · rw [Die.halt_reg _ _ _ (by decide) (by decide) (by decide), Die.reg_setReg_ne _ _ _ (by decide),
          Die.reg_setReg_ne _ _ _ (by decide), Die.reg_setReg]
      · rw [Die.halt_reg _ _ _ (by decide) (by decide) (by decide), Die.reg_setReg_ne _ _ _ (by decide), Die.reg_setReg]
        rw [die_logEvent, Die.addLog_eq]
        show BitVec.ofNat 64 ((u.die d).job.beat % 2 ^ 48) = _
        rw [h1.2]
      · rw [Die.halt_reg _ _ _ (by decide) (by decide) (by decide), Die.reg_setReg]
      · rw [(Die.halt_fields _ d).2.1, die_logEvent, Die.addLog_eq]
        show tmap _ (u.die d).tiles = _
        rw [h1.1])
  refine ⟨key.1.1, key.1.2.1, key.1.2.2.1, key.1.2.2.2.1, key.1.2.2.2.2, fun e he h32 => ?_⟩
  exact (key.2 e he h32).trans (by rw [die_modDie_ne _ _ he, die_logEvent_ne _ _ _ he, h2 e he])

/-- A tile that records a fault on a die that had not stopped: the record, and the die halts; the line of a STOREV in
flight is not written. -/
theorem tileFault_halts (s : State) (d t kind pc unit land : Nat) (hd : Header)
    (h : (s.die d).stopped = false) (hf : bitOf ((s.die d).tile t).faultInfo 31 = false) :
    let y := (s.die d).tile t
    let u := s.tileFault d t kind pc unit land hd
    (u.die d).Halted d ∧ ((u.die d).tile t).state = .faulted
      ∧ ((u.die d).tile t).faultInfo = faultInfoWord kind pc y.bank unit land
      ∧ ((u.die d).tile t).faultBeat = y.bc.setWidth 64
      ∧ ((u.die d).tile t).sram = y.sram
      ∧ (∀ off, ((u.die d).tile t).counter off = y.counter off)
      ∧ (u.die d).reg d rStopInfo = BitVec.ofNat 64 (2 ^ 31 + 2 ^ 30 + kind * 2 ^ 24
          + stopClass kind * 2 ^ 20 + s.dieNumber d)
      ∧ ∀ e, e ≠ d → e ≠ 32 → u.die e = s.die e := by
  intro y u
  have hu : u = s.tileFault d t kind pc unit land hd := rfl
  clear_value u
  unfold tileFault at hu
  simp only [hf, Bool.false_eq_true, if_false] at hu
  generalize hz : ({ (s.die d).tile t with
      state := .faulted, busy := [], flight := [], ovfPend := [], banks := [], paths := [], store := none
      faultInfo := faultInfoWord kind pc ((s.die d).tile t).bank unit land
      faultBeat := ((s.die d).tile t).bc.setWidth 64 } : Tile) = z at hu
  have hst : ((s.modDie d (·.setTile t z)).die d).stopped = false := by rw [die_modDie]; exact h
  have hn : (s.modDie d (·.setTile t z)).dieNumber d = s.dieNumber d := by
    simp only [dieNumber, die_modDie]; rfl
  obtain ⟨h1, h2, _, _, h5, h6⟩ := raiseStop_halts (s.modDie d (·.setTile t z)) d kind
    (stopDetailAt 0 0 hd ||| BitVec.ofNat 64 t) (BitVec.ofNat 64 (pc % 2 ^ 13 + t * 2 ^ 16)) hst
  have hstop : (u.die d).tile t = z.stop := by
    rw [hu, Die.tile, h5, die_modDie]
    simp [tgetD, Die.setTile]
  have hzs : z.stop.state = .faulted ∧ z.stop.faultInfo = z.faultInfo ∧ z.stop.faultBeat = z.faultBeat
      ∧ z.stop.sram = z.sram ∧ z.stop.counters = z.counters := by
    rw [← hz]
    exact ⟨rfl, rfl, rfl, rfl, rfl⟩
  refine ⟨by rw [hu]; exact h1, by rw [hstop]; exact hzs.1, ?_, ?_, ?_, ?_, by rw [hu, h2, hn], fun e he h32 => ?_⟩
  · rw [hstop, hzs.2.1, ← hz]
  · rw [hstop, hzs.2.2.1, ← hz]
  · rw [hstop, hzs.2.2.2.1, ← hz]
  · intro off
    rw [hstop, Tile.counter, hzs.2.2.2.2, ← hz]; rfl
  · rw [hu]
    exact (h6 e he h32).trans (s.die_modDie_ne _ he)

end State

end Sys2Proof.Machine
end

