-- ==== Sys2Proof/Laws/Beats.lean ====
section
/-! SUPPORT. What the hold symbols at the end of a slot, and the passage to the next slot, leave of a die. -/

namespace Sys2Proof.Machine

theorem Die.nextSlot_eq (x : Die) : x.nextSlot = { x with sec := x.nextSlot.sec, ns := x.nextSlot.ns } := by
  unfold Die.nextSlot
  split <;> rfl

/-- The passage to the next slot depends on the clock alone. -/
theorem Die.nextSlot_congr {x y : Die} (h1 : x.sec = y.sec) (h2 : x.ns = y.ns) :
    x.nextSlot.sec = y.nextSlot.sec ∧ x.nextSlot.ns = y.nextSlot.ns := by
  unfold Die.nextSlot
  rw [h1, h2]
  split <;> exact ⟨rfl, rfl⟩

/-- From `x` to `y` hold symbols have been sent: registers, links and of the hold the raised causes, the holders and
the symbols seen may have changed. -/
def Die.OnlySymbols (x y : Die) : Prop :=
  y = { x with
    regs := y.regs, links := y.links
    hold := { x.hold with raised := y.hold.raised, holders := y.hold.holders, seen := y.hold.seen } }

theorem Die.OnlySymbols.trans {x y z : Die} (h : x.OnlySymbols y) (g : y.OnlySymbols z) : x.OnlySymbols z := by
  unfold Die.OnlySymbols at *
  rw [g, h]

theorem Die.onlySymbols_flushBeat (x : Die) (d b : Nat) : x.OnlySymbols (x.flushBeat d b) := by
  unfold Die.flushBeat Die.OnlySymbols
  simp only
  split
  · rfl
  · rw [Die.spread_eq]; rfl

/-- Sending the hold symbols of a slot that ends leaves tiles, job and clock. -/
theorem Die.onlySymbols_flushRaised (x : Die) (d : Nat) : x.OnlySymbols (x.flushRaised d) := by
  have h : x.OnlySymbols (if x.beatNow = 0 then x else x.flushBeat d (x.beatNow - 1)) := by
    split
    · rfl
    · exact x.onlySymbols_flushBeat d _
  unfold Die.flushRaised
  simp only
  generalize (if x.beatNow = 0 then x else x.flushBeat d (x.beatNow - 1)) = u at h ⊢
  split
  · exact h.trans (Die.onlySymbols_flushBeat _ d _)
  · exact h

theorem Die.flushBeat_reg (x : Die) (d b e off : Nat) (h : off ≠ rSymbolsSent) :
    (x.flushBeat d b).reg e off = x.reg e off := by
  unfold Die.flushBeat
  simp only
  split
  · rfl
  · show tgetD (Die.spread _ _ _ _).regs _ _ = _
    rw [Die.spread_regs]
    exact Die.reg_bump_ne _ e _ h

/-- Of a die's registers only the count of symbols changes as its hold symbols are sent. -/
theorem Die.flushRaised_reg (x : Die) (d e off : Nat) (h : off ≠ rSymbolsSent) :
    (x.flushRaised d).reg e off = x.reg e off := by
  have g : (if x.beatNow = 0 then x else x.flushBeat d (x.beatNow - 1)).reg e off = x.reg e off := by
    split
    · rfl
    · exact x.flushBeat_reg d _ e off h
  unfold Die.flushRaised
  simp only
  generalize (if x.beatNow = 0 then x else x.flushBeat d (x.beatNow - 1)) = u at g ⊢
  split
  · exact (Die.flushBeat_reg _ d _ e off h).trans g
  · exact g

/-- The symbol of a beat goes out once: no cause of that beat waits any more, and those of other beats stay. -/
theorem Die.flushBeat_raised (x : Die) (d b : Nat) :
    (x.flushBeat d b).hold.raised = x.hold.raised.filter (·.1 != b) := by
  unfold Die.flushBeat
  simp only
  split
  · next h =>
    rw [List.map_eq_nil_iff, List.filter_eq_nil_iff] at h
    exact (List.filter_eq_self.2 fun a ha => by simpa using h a ha).symm
  · rw [Die.spread_eq]; rfl

end Sys2Proof.Machine
end

