-- ==== Sys2Proof/Laws/Issue.lean ====
section
/-! SUPPORT. What issuing a word does: the cases of `issueTile` and `perform`, for an action that
completes, for one with a hazard, and for a plan that faults. -/

namespace Sys2Proof.Machine

@[simp] theorem State.modDie_setTile_setTile (s : State) (r : TileRef) (y : Tile) (f : Tile → Tile) :
    (s.setTile r y).modDie r.die.val (·.modTile r.tile.val f) = s.setTile r (f y) := by
  simp [State.setTile, State.modDie, State.setDie, Die.setTile, Die.modTile, State.die, Die.tile]

theorem State.setTile_eq (s : State) (r : TileRef) (y : Tile) :
    s.modDie r.die.val (·.setTile r.tile.val y) = s.setTile r y := rfl

theorem State.tile_eq (s : State) (r : TileRef) : (s.die r.die.val).tile r.tile.val = s.tile r := rfl

theorem Tile.settle_eq (y : Tile) (t : Nat) :
    (y.settle t).1 = { y with ovf := (y.settle t).1.ovf, ovfPend := (y.settle t).1.ovfPend } := rfl

theorem State.settledTile_eq (s : State) (r : TileRef) : s.settledTile r =
    { s.tile r with ovf := (s.settledTile r).ovf, ovfPend := (s.settledTile r).ovfPend } := rfl

/-- The tile that issues differs from the tile before in its flags and in the count of issued words. -/
theorem State.issuingTile_eq (s : State) (r : TileRef) : s.issuingTile r =
    { s.tile r with
      ovf := (s.settledTile r).ovf, ovfPend := (s.settledTile r).ovfPend
      counters := tput (s.tile r).counters tIssued ((s.tile r).counter tIssued + 1) } := rfl

@[simp] theorem State.issuingTile_state (s : State) (r : TileRef) : (s.issuingTile r).state = (s.tile r).state := by
  rw [s.issuingTile_eq]
@[simp] theorem State.issuingTile_clk (s : State) (r : TileRef) : (s.issuingTile r).clk = (s.tile r).clk := by
  rw [s.issuingTile_eq]
@[simp] theorem State.issuingTile_flight (s : State) (r : TileRef) : (s.issuingTile r).flight = (s.tile r).flight := by
  rw [s.issuingTile_eq]
@[simp] theorem State.issuingTile_unitBad (s : State) (r : TileRef) : (s.issuingTile r).unitBad = (s.tile r).unitBad := by
  rw [s.issuingTile_eq]
@[simp] theorem State.issuingTile_sramBad (s : State) (r : TileRef) : (s.issuingTile r).sramBad = (s.tile r).sramBad := by
  rw [s.issuingTile_eq]
@[simp] theorem State.issuingTile_sramWeak (s : State) (r : TileRef) :
    (s.issuingTile r).sramWeak = (s.tile r).sramWeak := by
  rw [s.issuingTile_eq]
@[simp] theorem State.issuingTile_inWindow (s : State) (r : TileRef) (a n : Nat) :
    (s.issuingTile r).inWindow a n = (s.tile r).inWindow a n := by
  rw [s.issuingTile_eq]; rfl
@[simp] theorem State.issuingTile_unready (s : State) (r : TileRef) (a n : Nat) :
    (s.issuingTile r).unready a n = (s.tile r).unready a n := by
  rw [s.issuingTile_eq]; rfl
@[simp] theorem State.issuingTile_pendingOn (s : State) (r : TileRef) (n : Nat) (u : RegUse) :
    (s.issuingTile r).pendingOn n u = (s.tile r).pendingOn n u := by
  rw [s.issuingTile_eq]; rfl

/-- Flight whose steps come due later stays as it is. -/
theorem State.runFlight_none (d t upto n : Nat) (s : State)
    (h : ∀ m ∈ ((s.die d).tile t).flight, upto < m.due) :
    State.runFlight d t upto n s = .next s := by
  cases n with
  | zero => rfl
  | succ n =>
    unfold State.runFlight
    simp only
    split
    · rfl
    · next m ms hm =>
      simp only [hm] at h
      simp [Nat.not_le.mpr (h m (List.mem_cons_self ..))]

theorem Tile.corrected_strong {y : Tile} {a n : Nat} (h : wordsIn y.sramWeak a n = 0) :
    y.corrected a n = y := by
  simp [Tile.corrected, h]

/-- `issueTile` of a word that the tile fetches performs its plan. -/
theorem issueTile_fetches {s : State} {q : TileForm} (h : Fetches s q) :
    issueTile q.ref q.unit q.op q.f q.plan q.after s =
      (s.setTile q.ref (s.settledTile q.ref)).perform q.ref.die.val q.ref.tile.val q.unit
        (q.plan (s.setTile q.ref (s.settledTile q.ref)) (s.settledTile q.ref)) q.after := by
  have hm := h.may
  have hrun : (s.tile q.ref).state = .running := by
    simp only [State.mayIssue, State.tile_eq, Bool.and_eq_true] at hm
    simpa using hm.1.1.2
  have hset := State.settledTile_eq s q.ref
  have hp : (s.tile q.ref).fetch.performs (tileWord q.unit q.op q.f) = true := by
    rw [h.word]; simp [Fetch.performs]
  unfold issueTile
  simp only [h.may, State.tile_eq, hp, Bool.not_true, Bool.or_true, Bool.or_self, Bool.false_eq_true, if_false]
  unfold State.throughPast
  simp only [State.tile_eq]
  rw [h.flags]
  simp only [State.setTile_eq]
  rw [State.runFlight_none]
  · show (if ((s.setTile q.ref (s.settledTile q.ref)).tile q.ref).state = .running then _ else _) = _
    rw [State.tile_setTile]
    have hr2 : (s.settledTile q.ref).state = .running := hrun
    have hb : (s.setTile q.ref (s.settledTile q.ref)).budgetDone q.ref.die.val q.ref.tile.val = false := by
      have := h.budget
      have hf : ((s.setTile q.ref (s.settledTile q.ref)).die q.ref.die.val).fill q.ref.die.val
          = (s.die q.ref.die.val).fill q.ref.die.val := by
        rw [State.setTile, State.die_modDie]; rfl
      have hwd : (s.settledTile q.ref).words = (s.tile q.ref).words := rfl
      simp only [State.budgetDone, State.tile_eq, State.tile_setTile, hf, hwd, decide_eq_false_iff_not]
      omega
    have hw : (s.settledTile q.ref).fetch = .word (tileWord q.unit q.op q.f) false := h.word
    show (if (s.settledTile q.ref).state = .running then _ else _) = _
    simp only [hr2, if_true]
    show (if (s.setTile q.ref (s.settledTile q.ref)).budgetDone q.ref.die.val q.ref.tile.val = true then _ else _) = _
    simp only [hb, Bool.false_eq_true, if_false, State.tile_setTile]
    rw [show ((s.tile q.ref).settle (s.tile q.ref).now).1.fetch = .word (tileWord q.unit q.op q.f) false from hw]
    simp only [Bool.false_eq_true, if_false, if_true, State.tile_setTile]
    rfl
  · intro m hm
    simp only [State.tile_eq] at hm
    rw [show ((s.setTile q.ref ((s.tile q.ref).settle (s.tile q.ref).now).1).tile q.ref)
      = ((s.tile q.ref).settle (s.tile q.ref).now).1 from State.tile_setTile _ _ _] at hm
    have : (s.tile q.ref).clk < m.due := h.flight m hm
    show (s.tile q.ref).clk - 1 < m.due
    omega

/-- The flags of a tile with no flag change in flight. -/
theorem Quiet.settled {s : State} {q : TileForm} (h : Quiet s q) : s.settledTile q.ref = s.tile q.ref := by
  have := h.flags
  simp only [State.settledTile, Tile.settle, this, settleOvf]
  rw [← this]

/-- A range whose bytes are ready and have good check bits is read, and changes nothing. -/
theorem State.readRange_good {s : State} {r : TileRef} {y : Tile} {c pc unit : Nat} {w : Option (Nat × Nat)}
    {k : State → Out}
    (h : ∀ v, w = some v → y.unready v.1 v.2 = false ∧ wordsIn y.sramBad v.1 v.2 = 0 ∧ wordsIn y.sramWeak v.1 v.2 = 0) :
    (s.setTile r y).readRange r.die.val r.tile.val c pc unit w k = k (s.setTile r y) := by
  cases w with
  | none => rfl
  | some v =>
    obtain ⟨h1, h2, h3⟩ := h v rfl
    simp only [State.readRange, State.tile_eq, State.tile_setTile, h1, h2, State.modDie_setTile_setTile,
      Tile.corrected_strong h3]
    rfl

theorem State.perform_acts {s : State} {q : TileForm} {a : Act} {y z : Tile} (h : Acts s q a)
    (hy : (s.issuingTile q.ref).writeStore = some y) (hz : y.act a = some z) :
    (s.setTile q.ref (s.settledTile q.ref)).perform q.ref.die.val q.ref.tile.val q.unit (.run a) q.after =
      .next (q.after (match a.hold with
        | none => s.setTile q.ref z
        | some c => (s.setTile q.ref z).raiseFor q.ref.die.val z.bc c)) := by
  have hm := h.may
  have hrun : (s.tile q.ref).state = .running := by
    simp only [State.mayIssue, State.tile_eq, Bool.and_eq_true] at hm
    simpa using hm.1.1.2
  have hu : (s.tile q.ref).unitBad.contains q.unit = false := by
    simpa [List.contains_iff_mem] using h.noError
  unfold State.perform
  simp only [State.modDie_setTile_setTile, State.tile_eq, State.tile_setTile]
  rw [show (s.settledTile q.ref).count tIssued = s.issuingTile q.ref from rfl]
  simp only [State.issuingTile_clk, State.issuingTile_inWindow, State.issuingTile_flight,
    show a.reads.any ((s.issuingTile q.ref).pendingOn (s.tile q.ref).clk) = false by
      simpa using h.reads]
  rw [if_neg Bool.false_ne_true, if_pos h.window, h.hazard]
  simp only
  rw [State.runFlight_none _ _ _ _ _ (by
    simpa [State.tile_eq] using h.flight)]
  simp only [Out.bind, State.tile_setTile, State.issuingTile_state, if_pos hrun]
  rw [State.readRange_good (by simpa using h.touch)]
  simp only [State.tile_setTile, State.issuingTile_unitBad, hu, hy, hz]
  rw [if_neg Bool.false_ne_true]
  simp only [State.setTile_eq, State.setTile_setTile]
  cases a.hold <;> rfl

/-- A tile instruction that acts: the tile, with the line of a STOREV before it written, becomes what the action makes of
it. -/
theorem issueTile_acts {s : State} {q : TileForm} {a : Act} {y z : Tile} (h : Acts s q a)
    (hy : (s.issuingTile q.ref).writeStore = some y) (hz : y.act a = some z) :
    issueTile q.ref q.unit q.op q.f q.plan q.after s =
      .next (q.after (match a.hold with
        | none => s.setTile q.ref z
        | some c => (s.setTile q.ref z).raiseFor q.ref.die.val z.bc c)) := by
  rw [issueTile_fetches h.toFetches, h.plan, State.perform_acts h hy hz]

/-- A tile instruction that reads a register with a pending write (R108). -/
theorem issueTile_reads {s : State} {q : TileForm} {a : Act} (h : Fetches s q)
    (hp : q.plan (s.setTile q.ref (s.settledTile q.ref)) (s.settledTile q.ref) = .run a)
    (hr : a.reads.any ((s.tile q.ref).pendingOn (s.tile q.ref).clk) = true) :
    issueTile q.ref q.unit q.op q.f q.plan q.after s = undef 108 := by
  rw [issueTile_fetches h, hp]
  unfold State.perform
  simp only [State.modDie_setTile_setTile, State.tile_eq, State.tile_setTile]
  exact if_pos hr

/-- A tile instruction with another hazard. -/
theorem issueTile_hazard {s : State} {q : TileForm} {a : Act} {n : Nat} (h : Fetches s q)
    (hp : q.plan (s.setTile q.ref (s.settledTile q.ref)) (s.settledTile q.ref) = .run a)
    (hr : a.reads.any ((s.tile q.ref).pendingOn (s.tile q.ref).clk) = false)
    (hw : (a.window.all fun w => (s.tile q.ref).inWindow w.1 w.2) = true)
    (hz : (s.issuingTile q.ref).hazard a = some n) :
    issueTile q.ref q.unit q.op q.f q.plan q.after s = undef n := by
  rw [issueTile_fetches h, hp]
  unfold State.perform
  simp only [State.modDie_setTile_setTile, State.tile_eq, State.tile_setTile]
  rw [show (s.settledTile q.ref).count tIssued = s.issuingTile q.ref from rfl]
  simp only [State.issuingTile_clk, State.issuingTile_inWindow,
    show a.reads.any ((s.issuingTile q.ref).pendingOn (s.tile q.ref).clk) = false by simpa using hr]
  rw [if_neg Bool.false_ne_true, if_pos hw, hz]

end Sys2Proof.Machine
end

