-- ==== Sys2Proof/Laws/Memory.lean ====
section
/-! SUPPORT. Laws of byte memories: every write keeps the canonical form, a byte read after a write is
the one written, and every other byte stays. -/

namespace Sys2Proof.Machine

theorem Mem.wf_iff (m : List Host.Cell) :
    Mem.wf m = true ↔ m.Pairwise (fun x y => x.1 < y.1) ∧ ∀ c ∈ m, c.2 ≠ Mem.unlisted := by
  simp [Mem.wf]

theorem mem_tdel {α : Type} {m : Table α} {k : Nat} {e : Nat × α} (h : e ∈ tdel m k) : e ∈ m := by
  induction m with
  | nil => simp [tdel] at h
  | cons f m ih =>
    obtain ⟨j, x⟩ := f
    by_cases g : j = k
    · simp only [tdel, g, if_true] at h
      exact List.mem_cons_of_mem _ h
    · simp only [tdel, g, if_false, List.mem_cons] at h
      rcases h with h | h
      · simp [h]
      · exact List.mem_cons_of_mem _ (ih h)

theorem pairwise_tdel {α : Type} {m : Table α} (k : Nat)
    (h : m.Pairwise (fun x y => x.1 < y.1)) : (tdel m k).Pairwise (fun x y => x.1 < y.1) := by
  induction m with
  | nil => simp [tdel]
  | cons f m ih =>
    obtain ⟨j, x⟩ := f
    rw [List.pairwise_cons] at h
    by_cases g : j = k
    · simpa [tdel, g] using h.2
    · simp only [tdel, g, if_false, List.pairwise_cons]
      exact ⟨fun e he => h.1 e (mem_tdel he), ih h.2⟩

theorem pairwise_tput {α : Type} {m : Table α} (k : Nat) (v : α)
    (h : m.Pairwise (fun x y => x.1 < y.1)) : (tput m k v).Pairwise (fun x y => x.1 < y.1) := by
  induction m with
  | nil => simp [tput]
  | cons f m ih =>
    obtain ⟨j, x⟩ := f
    rw [List.pairwise_cons] at h
    rcases Nat.lt_trichotomy j k with g | g | g
    · simp only [tput, g, if_true, List.pairwise_cons]
      refine ⟨fun e he => ?_, ih h.2⟩
      rcases mem_tput he with rfl | he
      · exact g
      · exact h.1 e he
    · subst g
      simpa [tput] using h
    · simp only [tput, Nat.not_lt.mpr (Nat.le_of_lt g), Nat.ne_of_gt g, if_false,
        List.pairwise_cons]
      refine ⟨fun e he => ?_, h⟩
      rcases List.mem_cons.mp he with rfl | he
      · exact g
      · exact Nat.lt_trans g (h.1 e he)

theorem tget_tdel_of_sorted {α : Type} {m : Table α} (k : Nat)
    (h : m.Pairwise (fun x y => x.1 < y.1)) (n : Nat) :
    tget (tdel m k) n = if n = k then none else tget m n := by
  induction m with
  | nil => simp [tdel]
  | cons f m ih =>
    obtain ⟨j, x⟩ := f
    rw [List.pairwise_cons] at h
    by_cases g : j = k
    · subst g
      simp only [tdel, if_true]
      by_cases hn : n = j
      · subst hn
        simp only [if_true]
        cases hm : tget m n with
        | none => rfl
        | some y => exact absurd (h.1 _ (tget_mem hm)) (Nat.lt_irrefl _)
      · simp [tget, hn, Ne.symm hn]
    · simp only [tdel, g, if_false, tget]
      by_cases hn : n = k
      · subst hn
        simp [g, ih h.2]
      · simp [hn, ih h.2]

/-- A byte written is the byte read, and every other byte stays. -/
theorem Mem.read_write {m : List Host.Cell} (h : Mem.wf m = true) (a : Nat) (b : Byte) (n : Nat) :
    Mem.read (Mem.write m a b) n = if n = a then b else Mem.read m n := by
  by_cases hb : b = Mem.unlisted
  · rw [Mem.read, Mem.write, if_pos hb, tgetD, tget_tdel_of_sorted a ((Mem.wf_iff m).mp h).1]
    by_cases hn : n = a
    · simp [hn, hb]
    · simp [hn, Mem.read, tgetD]
  · rw [Mem.read, Mem.write, if_neg hb, tgetD_tput_if]
    rfl

/-- A write keeps the canonical form. -/
theorem Mem.wf_write {m : List Host.Cell} (h : Mem.wf m = true) (a : Nat) (b : Byte) :
    Mem.wf (Mem.write m a b) = true := by
  rw [Mem.wf_iff] at h ⊢
  by_cases hb : b = Mem.unlisted
  · rw [Mem.write, if_pos hb]
    exact ⟨pairwise_tdel a h.1, fun c hc => h.2 c (mem_tdel hc)⟩
  · rw [Mem.write, if_neg hb]
    exact ⟨pairwise_tput a b h.1, forall_mem_tput h.2 hb⟩

theorem Mem.wf_writeBytes {m : List Host.Cell} (h : Mem.wf m = true) (a : Nat) (bs : List Byte) :
    Mem.wf (Mem.writeBytes m a bs) = true := by
  induction bs generalizing m a with
  | nil => exact h
  | cons b bs ih => exact ih (Mem.wf_write h a b) (a + 1)

theorem Mem.wf_writeFlit {m : List Host.Cell} (h : Mem.wf m = true) (a : Nat) (f : Flit) :
    Mem.wf (Mem.writeFlit m a f) = true := Mem.wf_writeBytes h a _

theorem Mem.wf_writeFlits {m : List Host.Cell} (h : Mem.wf m = true) (a : Nat) (fs : List Flit) :
    Mem.wf (Mem.writeFlits m a fs) = true := by
  induction fs generalizing m a with
  | nil => exact h
  | cons f fs ih => exact ih (Mem.wf_writeFlit h a f) (a + 64)

/-- What a byte reads as after bytes were written from `a` on. -/
theorem Mem.read_writeBytes {m : List Host.Cell} (h : Mem.wf m = true) (a : Nat) (bs : List Byte)
    (n : Nat) : Mem.read (Mem.writeBytes m a bs) n =
      if a ≤ n ∧ n < a + bs.length then bs.getD (n - a) 0 else Mem.read m n := by
  induction bs generalizing m a with
  | nil =>
    have : ¬(a ≤ n ∧ n < a) := by omega
    simp [Mem.writeBytes, this]
  | cons b bs ih =>
    rw [Mem.writeBytes, ih (Mem.wf_write h a b) (a + 1), Mem.read_write h]
    simp only [List.length_cons]
    rcases Nat.lt_trichotomy n a with hn | hn | hn
    · have h1 : ¬(a + 1 ≤ n ∧ n < a + 1 + bs.length) := by omega
      have h2 : ¬(a ≤ n ∧ n < a + (bs.length + 1)) := by omega
      rw [if_neg h1, if_neg h2, if_neg (Nat.ne_of_lt hn)]
    · subst hn
      simp
    · obtain ⟨d, rfl⟩ : ∃ d, n = a + 1 + d := ⟨n - a - 1, by omega⟩
      have h3 : a + 1 + d ≠ a := by omega
      by_cases hd : d < bs.length
      · have h1 : a + 1 ≤ a + 1 + d ∧ a + 1 + d < a + 1 + bs.length := by omega
        have h2 : a ≤ a + 1 + d ∧ a + 1 + d < a + (bs.length + 1) := by omega
        have h4 : a + 1 + d - (a + 1) = d := by omega
        have h5 : a + 1 + d - a = d + 1 := by omega
        rw [if_pos h1, if_pos h2, h4, h5]
        rfl
      · have h1 : ¬(a + 1 ≤ a + 1 + d ∧ a + 1 + d < a + 1 + bs.length) := by omega
        have h2 : ¬(a ≤ a + 1 + d ∧ a + 1 + d < a + (bs.length + 1)) := by omega
        rw [if_neg h1, if_neg h2, if_neg h3]

@[simp] theorem leBytes_length (v n : Nat) : (leBytes v n).length = n := by
  induction n generalizing v with
  | zero => rfl
  | succ n ih => simp [leBytes, ih]

@[simp] theorem Mem.readBytes_length (m : List Host.Cell) (a n : Nat) :
    (Mem.readBytes m a n).length = n := by
  induction n generalizing a with
  | zero => rfl
  | succ n ih => simp [Mem.readBytes, ih]

/-- A byte range that is written reads back as what was written. -/
theorem Mem.readBytes_getD (m : List Host.Cell) (a n i : Nat) (h : i < n) :
    (Mem.readBytes m a n).getD i 0 = Mem.read m (a + i) := by
  induction n generalizing a i with
  | zero => omega
  | succ n ih =>
    cases i with
    | zero => simp [Mem.readBytes]
    | succ i =>
      have := ih (a + 1) i (by omega)
      simpa [Mem.readBytes, Nat.add_assoc, Nat.add_comm 1] using this

/-- The bytes of a number, one by one. -/
theorem leBytes_getD (v n i : Nat) (h : i < n) :
    (leBytes v n).getD i 0 = BitVec.ofNat 8 (v / 256 ^ i) := by
  induction n generalizing v i with
  | zero => omega
  | succ n ih =>
    cases i with
    | zero => simp [leBytes]
    | succ i =>
      have := ih (v / 256) i (by omega)
      simp only [leBytes, List.getD_cons_succ, this, Nat.div_div_eq_div_mul]
      rw [Nat.pow_succ, Nat.mul_comm (256 ^ i)]

/-- The bytes of a byte string after it was turned into a number and back. -/
theorem leBytes_leNat (bs : List Byte) : leBytes (leNat bs) bs.length = bs := by
  induction bs with
  | nil => rfl
  | cons b bs ih =>
    have hb : b.toNat < 256 := b.isLt
    have h1 : (b.toNat + 256 * leNat bs) / 256 = leNat bs := by omega
    have h2 : BitVec.ofNat 8 (b.toNat + 256 * leNat bs) = b := by
      apply BitVec.eq_of_toNat_eq
      simp only [BitVec.toNat_ofNat]
      omega
    simp [leBytes, leNat, h1, h2, ih]

end Sys2Proof.Machine
end

