-- ==== Sys2Proof/Laws/Results.lean ====
section
/-! SUPPORT. What an action leaves of a tile with nothing in flight: its registers, counters and the place of the
next word. -/

namespace Sys2Proof.Machine

/-! ## One result -/

@[simp] theorem Tile.readReg_count (y : Tile) (off n : Nat) (k : RegKind) (i : Nat) :
    (y.count off n).readReg k i = y.readReg k i := by
  cases k <;> rfl

/-- Only registers and their pending marks change when a result is written. -/
theorem Tile.write_rest (y : Tile) (w : Wr) : y.write w = { y with
    v := (y.write w).v, a := (y.write w).a, s := (y.write w).s, p := (y.write w).p, busy := (y.write w).busy } := by
  unfold Tile.write
  split
  · rfl
  · cases hk : w.kind <;> simp only [Tile.storeReg]

/-- A register reads the same after a result for another one. -/
theorem Tile.readReg_write_ne (y : Tile) (w : Wr) {k : RegKind} {i : Nat} (h : (k, i) ≠ (w.kind, w.idx)) :
    (y.write w).readReg k i = y.readReg k i := by
  unfold Tile.write
  split
  · rfl
  · have h' : k ≠ w.kind ∨ i ≠ w.idx := by
      by_cases g : k = w.kind
      · right; intro e; exact h (by rw [g, e])
      · left; exact g
    cases hk : w.kind <;> cases k <;> simp_all [Tile.storeReg, Tile.readReg, Tile.readV, Tile.readA, Tile.readS, Tile.readP,
      tgetD_tput_ne]

/-- What a register holds after a result for it, of a tile without pending results for it: the masked bits are those of
the value; a predicate, address or scalar register keeps 32 of them. -/
theorem Tile.readReg_write (y : Tile) (w : Wr) (hb : y.pendingBits w.kind w.idx (fun b => decide (y.now + w.lat < b)) = 0)
    (hk : w.kind ≠ .wb ∧ w.kind ≠ .acc) (hp : ¬ (w.kind = .p ∧ w.idx = 0)) :
    (y.write w).readReg w.kind w.idx =
      if w.kind = .v then (y.readReg w.kind w.idx &&& ~~~w.mask) ||| (w.val &&& w.mask)
      else (((y.readReg w.kind w.idx &&& ~~~w.mask) ||| (w.val &&& w.mask)).setWidth 32).setWidth 1024 := by
  unfold Tile.write
  rw [if_neg hp]
  have h0 : ∀ x : BitVec 1024, x &&& ~~~(0 : BitVec 1024) = x := fun x => by
    apply BitVec.eq_of_getLsbD_eq
    intro i hi
    have hz : (0 : BitVec 1024).getLsbD i = false := BitVec.getLsbD_zero
    rw [BitVec.getLsbD_and, BitVec.getLsbD_not, hz]
    simp only [hi, decide_true, Bool.not_false, Bool.and_true]
  simp only [hb, h0]
  obtain ⟨k, i, m, l, v⟩ := w
  cases k <;> simp_all [Tile.storeReg, Tile.readReg, Tile.readV, Tile.readA, Tile.readS, Tile.readP]

/-! ## Lanes -/

theorem lane_getLsbD (v : BitVec 1024) (n i : Nat) (h : i < 32) : (lane v n).getLsbD i = v.getLsbD (32 * n + i) := by
  rw [lane, BitVec.getLsbD_ofNat, Nat.testBit_shiftRight]
  simp [h, BitVec.getLsbD]

theorem foldr_lanes_testBit (f : Nat → W32) (m k n i : Nat) (h : i < 32) (hn : n < m) :
    (((List.range' k m).foldr (fun i n => (f i).toNat + 2 ^ 32 * n) 0)).testBit (32 * n + i) = (f (k + n)).getLsbD i := by
  induction m generalizing k n with
  | zero => omega
  | succ m ih =>
    rw [List.range'_succ, List.foldr_cons]
    have hf : (f k).toNat < 2 ^ 32 := (f k).isLt
    rw [Nat.add_comm ((f k).toNat), Nat.two_pow_add_eq_or_of_lt hf, Nat.testBit_or]
    cases n with
    | zero =>
      rw [Nat.testBit_two_pow_mul]
      simp only [Nat.mul_zero, Nat.zero_add, Nat.add_zero, Nat.not_le.mpr h, decide_false, Bool.false_and,
        Bool.false_or]
      rfl
    | succ n =>
      have h1 : (f k).toNat.testBit (32 * (n + 1) + i) = false :=
        Nat.testBit_lt_two_pow (Nat.lt_of_lt_of_le hf (Nat.pow_le_pow_right (by decide) (by omega)))
      rw [h1, Bool.or_false, Nat.testBit_two_pow_mul]
      have h2 : 32 * (n + 1) + i - 32 = 32 * n + i := by omega
      have h3 : 32 ≤ 32 * (n + 1) + i := by omega
      rw [h2, ih (k + 1) n (by omega), show k + 1 + n = k + (n + 1) by omega]
      simp [h3]

@[simp] theorem lane_ofLanes (f : Nat → W32) (n : Nat) (h : n < 32) : lane (ofLanes f) n = f n := by
  apply BitVec.eq_of_getLsbD_eq
  intro i hi
  rw [lane_getLsbD _ _ _ hi, ofLanes, BitVec.getLsbD_ofNat]
  have h1 : 32 * n + i < 1024 := by omega
  rw [List.range_eq_range', foldr_lanes_testBit f 32 0 n i hi h]
  simp [h1]

/-- A lane after a masked merge of whole lanes. -/
theorem lane_merge (p : W32) (x v : BitVec 1024) (n : Nat) (h : n < 32) :
    lane ((x &&& ~~~laneMask p) ||| (v &&& laneMask p)) n = if p.getLsbD n then lane v n else lane x n := by
  apply BitVec.eq_of_getLsbD_eq
  intro i hi
  have hm : (laneMask p).getLsbD (32 * n + i) = p.getLsbD n := by
    rw [← lane_getLsbD _ _ _ hi, laneMask, lane_ofLanes _ _ h]
    cases hb : p.getLsbD n
    · simp
    · simp only [if_true]
      have : (0xFFFFFFFF : W32) = BitVec.allOnes 32 := by decide
      rw [this, BitVec.getLsbD_allOnes]; simp [hi]
  have h1 : 32 * n + i < 1024 := by omega
  rw [lane_getLsbD _ _ _ hi]
  simp only [BitVec.getLsbD_or, BitVec.getLsbD_and, BitVec.getLsbD_not, hm, h1, decide_true, Bool.true_and]
  cases hb : p.getLsbD n <;> simp [lane_getLsbD _ _ _ hi]

/-! ## Packed elements -/

theorem foldr_pack_testBit (b : Nat) (f : Nat → Nat) (m k n i : Nat) (h : i < b) :
    ((List.range' k m).foldr (fun i n => f i % 2 ^ b + 2 ^ b * n) 0).testBit (b * n + i) =
      (decide (n < m) && (f (k + n) % 2 ^ b).testBit i) := by
  induction m generalizing k n with
  | zero => simp
  | succ m ih =>
    rw [List.range'_succ, List.foldr_cons]
    have hf : f k % 2 ^ b < 2 ^ b := Nat.mod_lt _ (Nat.two_pow_pos b)
    rw [Nat.add_comm (f k % 2 ^ b), Nat.two_pow_add_eq_or_of_lt hf, Nat.testBit_or, Nat.testBit_two_pow_mul]
    cases n with
    | zero =>
      simp only [Nat.mul_zero, Nat.zero_add, Nat.add_zero, Nat.not_le.mpr h, decide_false, Bool.false_and,
        Bool.false_or, Nat.zero_lt_succ, decide_true, Bool.true_and]
    | succ n =>
      have h1 : (f k % 2 ^ b).testBit (b * (n + 1) + i) = false :=
        Nat.testBit_lt_two_pow (Nat.lt_of_lt_of_le hf (Nat.pow_le_pow_right (by decide) (by rw [Nat.mul_succ]; omega)))
      have h2 : b * (n + 1) + i - b = b * n + i := by rw [Nat.mul_succ]; omega
      have h3 : b ≤ b * (n + 1) + i := by rw [Nat.mul_succ]; omega
      rw [h1, Bool.or_false, h2, ih (k + 1) n, show k + 1 + n = k + (n + 1) by omega]
      simp [h3]

theorem element_testBit (v bits n i : Nat) :
    (element v bits n).testBit i = (decide (i < bits) && v.testBit (bits * n + i)) := by
  simp [element, Nat.testBit_mod_two_pow, Nat.testBit_shiftRight]

theorem packAt_getLsbD {bits : Nat} (first : Nat) (f : Nat → Nat) {n i : Nat} (h : i < bits)
    (hn : (n + 1) * bits ≤ 1024) : (packAt bits (bits * first) f).getLsbD (bits * n + i) =
      (decide (first ≤ n ∧ n < first + 32) && (f (n - first) % 2 ^ bits).testBit i) := by
  have h0 : bits * n + i < 1024 := by rw [Nat.succ_mul, Nat.mul_comm] at hn; omega
  rw [packAt, BitVec.getLsbD_ofNat, Nat.mul_comm _ (2 ^ _), Nat.testBit_two_pow_mul]
  by_cases hf : first ≤ n
  · have h1 : bits * first ≤ bits * n + i := Nat.le_trans (Nat.mul_le_mul_left _ hf) (Nat.le_add_right _ _)
    have h2 : bits * n + i - bits * first = bits * (n - first) + i := by
      rw [Nat.mul_sub]; have := Nat.mul_le_mul_left bits hf; omega
    rw [h2, List.range_eq_range', foldr_pack_testBit bits f 32 0 (n - first) i h]
    have h3 : (n - first < 32) = (n < first + 32) := by apply propext; omega
    simp [h0, h1, hf, h3]
  · have h1 : ¬ bits * first ≤ bits * n + i := by
      have : bits * (n + 1) ≤ bits * first := Nat.mul_le_mul_left _ (by omega)
      rw [Nat.mul_succ] at this; omega
    simp [h1, hf]

/-- An element after a masked merge of whole elements. -/
theorem element_merge (p : W32) (x : BitVec 1024) {bits : Nat} (first : Nat) (f : Nat → Nat) {n : Nat}
    (hn : (n + 1) * bits ≤ 1024) :
    element ((x &&& ~~~packMask bits (bits * first) p) ||| (packAt bits (bits * first) f &&& packMask bits (bits * first) p)).toNat
        bits n = if first ≤ n ∧ n < first + 32 ∧ p.getLsbD (n - first) = true then f (n - first) % 2 ^ bits
          else element x.toNat bits n := by
  apply Nat.eq_of_testBit_eq
  intro i
  rw [element_testBit]
  by_cases hi : i < bits
  · have h0 : bits * n + i < 1024 := by rw [Nat.succ_mul, Nat.mul_comm] at hn; omega
    show (decide (i < bits) && BitVec.getLsbD _ (bits * n + i)) = _
    rw [BitVec.getLsbD_or, BitVec.getLsbD_and, BitVec.getLsbD_and, BitVec.getLsbD_not, packMask,
      packAt_getLsbD first _ hi hn, packAt_getLsbD first _ hi hn]
    have h1 : (2 ^ bits - 1).testBit i = true := by simp [hi]
    have h2 : (2 ^ bits - 1) % 2 ^ bits = 2 ^ bits - 1 := Nat.mod_eq_of_lt (by have := Nat.two_pow_pos bits; omega)
    by_cases hr : first ≤ n ∧ n < first + 32
    · cases hp : p.getLsbD (n - first)
      · simp [h0, hi, hr, element_testBit, BitVec.getLsbD]
      · simp [h0, hi, hr, h2, h1]
    · have h3 : ¬ (first ≤ n ∧ n < first + 32 ∧ p.getLsbD (n - first) = true) := fun g => hr ⟨g.1, g.2.1⟩
      rw [if_neg h3, element_testBit]
      simp [h0, hi, hr, BitVec.getLsbD]
  · split
    · simp only [hi, decide_false, Bool.false_and]
      exact (Nat.testBit_lt_two_pow (Nat.lt_of_lt_of_le (Nat.mod_lt _ (Nat.two_pow_pos bits))
        (Nat.pow_le_pow_right (by decide) (by omega)))).symm
    · rw [element_testBit]
      simp [hi]

/-! ## Actions of a tile with nothing in flight -/

/-- In a tile with nothing in flight an action whose accesses do not meet has no hazard. -/
theorem Quiet.acts {s : State} {q : TileForm} (h : Quiet s q) {a : Act}
    (hp : q.plan (s.setTile q.ref (s.tile q.ref)) (s.tile q.ref) = .run a)
    (hw : (a.window.all fun w => (s.tile q.ref).inWindow w.1 w.2) = true)
    (hb : (a.banks.map fun b => ((s.tile q.ref).clk + b.1, bankOf b.2)).Nodup) (hu : a.undef = none)
    (ht : ∀ w, a.touch = some w → (s.tile q.ref).Usable w.1 w.2) : Acts s q a := by
  have hset := h.settled
  have hsett : ((s.tile q.ref).settle (s.tile q.ref).now).2 = none := by
    simp only [Tile.settle, h.flags, settleOvf]
  refine { may := h.may, budget := h.budget, flags := hsett, word := h.word, flight := ?_, plan := ?_, reads := ?_, window := hw,
           noError := h.noError, hazard := ?_, touch := fun w hw => ⟨(ht w hw).ready, (ht w hw).good, (ht w hw).strong⟩ }
  · rw [h.flight]; simp
  · rw [hset, hp]
  · simp [Tile.pendingOn, h.busy]
  · have e2 : (s.issuingTile q.ref).paths = [] := by simp only [State.issuingTile, hset]; exact h.paths
    have e3 : (s.issuingTile q.ref).banks = [] := by simp only [State.issuingTile, hset]; exact h.banks
    have e4 : (s.issuingTile q.ref).flight = [] := by simp only [State.issuingTile, hset]; exact h.flight
    have e5 : (s.issuingTile q.ref).clk = (s.tile q.ref).clk := rfl
    simp only [Tile.hazard, e2, e3, e4, e5, hu, hb]
    simp

/-- A tile with nothing in flight has no line to write. -/
theorem Quiet.writeStore {s : State} {q : TileForm} (h : Quiet s q) :
    (s.issuingTile q.ref).writeStore = some (s.issuingTile q.ref) := by
  have : (s.issuingTile q.ref).store = none := by
    simp only [State.issuingTile, h.settled]; exact h.store
  simp only [Tile.writeStore, this]

theorem Tile.act_eq (y y' : Tile) (a : Act) (hw : y.writes a.results = some y') : y.act a = some
    (let x := (a.change { y' with
      paths := tput y'.paths a.path (y.clk + a.occ)
      banks := a.banks.map (fun b => (y.clk + b.1, bankOf b.2)) ++ y'.banks.filter (fun b => decide (y.clk < b.1))
      busy := (a.marks.map fun m => { kind := m.1.1, idx := m.1.2.1, lanes := m.1.2.2,
                                      due := y.clk + m.2, ends := y'.now + m.2 })
        ++ y'.busy.filter (fun b => decide (y.clk < b.due))
      flight := a.flight.foldl (fun fs m => insertFlight ⟨y.clk + m.1, y'.pc, m.2⟩ fs) y'.flight }).sequence a.ctl
     { x with words := x.words + 1, clk := x.clk + 1, waiting := a.wait }) := by
  unfold Tile.act
  rw [hw]

/-- The steps of an action in the order in which they are named, if that is the order in which they come due. -/
theorem foldl_insertFlight (c : Nat) (pc : BitVec 13) (l : List (Nat × Micro)) (fs : List InFlight)
    (h : l.Pairwise fun a b => a.1 ≤ b.1) (hf : ∀ m ∈ l, ∀ g ∈ fs, g.due ≤ c + m.1) :
    l.foldl (fun fs m => insertFlight ⟨c + m.1, pc, m.2⟩ fs) fs = fs ++ l.map fun m => ⟨c + m.1, pc, m.2⟩ := by
  induction l generalizing fs with
  | nil => simp
  | cons m l ih =>
    have hi : ∀ fs : List InFlight, (∀ g ∈ fs, g.due ≤ c + m.1) →
        insertFlight ⟨c + m.1, pc, m.2⟩ fs = fs ++ [⟨c + m.1, pc, m.2⟩] := by
      intro fs hg
      induction fs with
      | nil => rfl
      | cons g fs ihf =>
        have h1 := hg g (List.mem_cons_self ..)
        simp only [insertFlight, if_neg (Nat.not_lt.mpr h1)]
        rw [ihf fun x hx => hg x (List.mem_cons_of_mem _ hx)]
        rfl
    rw [List.pairwise_cons] at h
    rw [List.foldl_cons, hi fs (hf m (List.mem_cons_self ..)), ih _ h.2]
    · simp
    · intro n hn g hg
      rw [List.mem_append, List.mem_singleton] at hg
      rcases hg with hg | rfl
      · exact hf n (List.mem_cons_of_mem _ hn) g hg
      · have := h.1 n hn
        show c + m.1 ≤ c + n.1
        omega

theorem Tile.writes_nil (y : Tile) : y.writes [] = some y := rfl

theorem Tile.writes_one {y : Tile} (h : y.busy = []) (w : Wr) : y.writes [w] = some (y.write w) := by
  simp [Tile.writes, Tile.clash, h]

/-- Results for different registers do not meet. -/
theorem Tile.writes_two {y : Tile} (h : y.busy = []) {w v : Wr} (hne : (v.kind, v.idx) ≠ (w.kind, w.idx)) :
    y.writes [w, v] = some ((y.write w).write v) := by
  have hc : (y.write w).clash v = false := by
    unfold Tile.clash Tile.write
    split
    · simp [h]
    · have hb : ∀ k i x, (y.storeReg k i x).busy = [] := by
        intro k i x; cases k <;> exact h
      simp only [hb, List.any_cons, List.any_nil, Bool.or_false, Bool.and_eq_false_iff, beq_eq_false_iff_ne, ne_eq]
      by_cases g : w.kind = v.kind
      · left; right; intro e; exact hne (by rw [g, e])
      · left; left; exact g
  have hd : y.clash w = false := by simp [Tile.clash, h]
  simp [Tile.writes, hc, hd]

theorem Tile.sequence_rest (y : Tile) (c : Ctl) :
    y.sequence c = { y with pc := (y.sequence c).pc, loops := (y.sequence c).loops } := by
  cases c <;> rfl

theorem Tile.sequence_congr {y z : Tile} (hp : y.pc = z.pc) (hl : y.loops = z.loops) (c : Ctl) :
    (y.sequence c).pc = (z.sequence c).pc ∧ (y.sequence c).loops = (z.sequence c).loops := by
  cases c <;> simp [Tile.sequence, hp, hl]

/-- An action that only writes registers. -/
theorem Quiet.wrote {s : State} {q : TileForm} (h : Quiet s q) {a : Act} (ha : Acts s q a) {y' : Tile}
    (hw : (s.issuingTile q.ref).writes a.results = some y') (hr : y' = { s.issuingTile q.ref with
      v := y'.v, a := y'.a, s := y'.s, p := y'.p, busy := y'.busy })
    (hc : a.change = id) (hf : a.flight = []) (hl : a.ctl = .seq) (hwait : a.wait = false) (hh : a.hold = none)
    (wr : List (RegKind × Nat)) (hregs : ∀ k i, (k, i) ∉ wr → y'.readReg k i = (s.tile q.ref).readReg k i) :
    ∃ z, issueTile q.ref q.unit q.op q.f q.plan q.after s = .next (q.after (s.setTile q.ref z))
      ∧ (s.tile q.ref).WroteOnly z wr ∧ ∀ k i, z.readReg k i = y'.readReg k i := by
  have hset := h.settled
  have hwaiting : (s.tile q.ref).waiting = false := by
    have hm := h.may
    simp only [State.mayIssue, State.tile_eq, Bool.and_eq_true] at hm
    simpa using hm.1.2
  have hissue : s.issuingTile q.ref = (s.tile q.ref).count tIssued := by simp only [State.issuingTile, hset]
  obtain ⟨z, hz⟩ : ∃ z, (s.issuingTile q.ref).act a = some z := ⟨_, Tile.act_eq _ _ _ hw⟩
  refine ⟨z, by rw [issueTile_acts ha h.writeStore hz, hh], ?_⟩
  rw [Tile.act_eq _ _ _ hw, hc, hf, hl, hwait, hissue] at hz
  rw [hissue] at hr
  obtain ⟨v, a', s', p, b, rfl⟩ : ∃ v a' s' p b, y' = { (s.tile q.ref).count tIssued with
      v := v, a := a', s := s', p := p, busy := b } := ⟨_, _, _, _, _, hr⟩
  generalize s.tile q.ref = y at *
  simp only [id, List.foldl_nil] at hz
  rw [Tile.sequence_rest] at hz
  injection hz with hz
  subst hz
  refine ⟨⟨⟨rfl, rfl, ?_, ?_⟩, ?_, ?_, ?_, ?_⟩, ?_⟩
  · simp [Tile.counter, Tile.count]
  · intro off ho
    simp [Tile.counter, Tile.count, tgetD_tput_ne _ _ _ ho]
  · simp only [Tile.count, hwaiting]
  · intro k i hk
    rw [← hregs k i hk]
    cases k <;> rfl
  · exact (Tile.sequence_congr rfl rfl _).1
  · exact (Tile.sequence_congr rfl rfl _).2
  · intro k i
    cases k <;> rfl

/-- An instruction that writes one register and raises nothing. -/
theorem Quiet.one {s : State} {q : TileForm} (h : Quiet s q) {a : Act} {w : Wr}
    (hp : q.plan (s.setTile q.ref (s.tile q.ref)) (s.tile q.ref) = .run a) (hr : a.results = [w])
    (hwin : (a.window.all fun w => (s.tile q.ref).inWindow w.1 w.2) = true)
    (hb : (a.banks.map fun b => ((s.tile q.ref).clk + b.1, bankOf b.2)).Nodup) (hu : a.undef = none)
    (ht : ∀ w, a.touch = some w → (s.tile q.ref).Usable w.1 w.2)
    (hc : a.change = id) (hf : a.flight = []) (hl : a.ctl = .seq) (hwait : a.wait = false) (hh : a.hold = none)
    (hk : w.kind ≠ .wb ∧ w.kind ≠ .acc) :
    ∃ z, issueTile q.ref q.unit q.op q.f q.plan q.after s = .next (q.after (s.setTile q.ref z))
      ∧ (s.tile q.ref).WroteOnly z [(w.kind, w.idx)]
      ∧ (¬ (w.kind = .p ∧ w.idx = 0) → z.readReg w.kind w.idx =
        if w.kind = .v then ((s.tile q.ref).readReg w.kind w.idx &&& ~~~w.mask) ||| (w.val &&& w.mask)
        else ((((s.tile q.ref).readReg w.kind w.idx &&& ~~~w.mask) ||| (w.val &&& w.mask)).setWidth 32).setWidth 1024) := by
  have hset := h.settled
  have hissue : s.issuingTile q.ref = (s.tile q.ref).count tIssued := by simp only [State.issuingTile, hset]
  have ha := h.acts hp hwin hb hu ht
  have hbusy : (s.issuingTile q.ref).busy = [] := by rw [hissue]; exact h.busy
  obtain ⟨z, h1, h2, h3⟩ := h.wrote ha (by rw [hr]; exact Tile.writes_one hbusy w) (Tile.write_rest _ _) hc hf hl hwait hh
    [(w.kind, w.idx)] (by
      intro k i hki
      rw [Tile.readReg_write_ne, hissue, Tile.readReg_count]
      simpa using hki)
  refine ⟨z, h1, h2, fun hn => ?_⟩
  rw [h3, Tile.readReg_write _ w (by simp [Tile.pendingBits, hbusy]) hk hn, hissue, Tile.readReg_count]

end Sys2Proof.Machine
end

