-- ==== Sys2Proof/Tests/Slice0.lean ====
section
/-! SUPPORT. The model's own tests: ill-formed commands that the check refuses, states that meet the hypotheses of
the statements, and single steps with results from the spec. -/

namespace Sys2Proof.Tests

open Sys2Proof.Machine

set_option Elab.async false

/-! ## Small states -/

/-- The module after reset but for one die. -/
def onDie (d : Nat) (x : Die) : State := { State.reset with dies := [(d, x)] }

/-- A die with a job: HORIZON 12, FILL 31. -/
def jobDie : Die := { Die.reset with regs := [(rBeatCtrl, 0xB1F01)] }

def t0 : TileRef := ⟨0, 0⟩

/-- A running tile whose window is its whole SRAM, with one word, a landing table and loop levels; its weight
buffers hold FP4 data, dense and sparse. -/
def tileAt (w : W64) (land : Table W64) (loops : List LoopLevel) : Tile :=
  { Tile.reset with
    state := .running, waiting := false, istore := [(0, w)], alloc0 := 0x18000000, valid0 := true
    a := [(0, 0), (1, 0x20000), (2, 0xBFF80)], v := [(0, 0)], s := [(0, 0), (1, 1)], land := land, loops := loops
    wb0 := { rows := [], scales := [], md := [], kind := some (4, false), written := none, readBy := none }
    wb1 := { rows := [], scales := [], md := (List.range 32).map (·, 0x4444444444444444), kind := some (4, true)
             written := none, readBy := none } }

/-- C-die 0 with a job and that tile as its tile 0. -/
def tileState (w : W64) (land : Table W64) (loops : List LoopLevel) : State :=
  onDie 0 { jobDie with tiles := [(0, tileAt w land loops)] }

/-- The instruction stands at the PC of a quiet tile. -/
theorem quiet_at (unit op : Nat) (f : Operands) (plan : State → Tile → Plan) (after : State → State)
    (land : Table W64) (loops : List LoopLevel) :
    Quiet (tileState (tileWord unit op f) land loops) ⟨t0, unit, op, f, plan, after⟩ :=
  ⟨(by decide : (tileState 0 [] []).mayIssue 0 0 = true), (by decide : 0 < jobDie.fill 0), rfl, rfl, rfl, rfl, rfl, rfl, rfl, List.not_mem_nil⟩

/-- The fields of a vector word: PM, D, A, B, C, then the low bits. -/
def vWord (pm d a b c low : Nat) : Operands :=
  BitVec.ofNat 54 (pm * 2 ^ 51 + d * 2 ^ 46 + a * 2 ^ 41 + b * 2 ^ 36 + c * 2 ^ 31 + low)

/-! ## Hypotheses of the statements: tile instructions -/

theorem test_meets_TileInstructionCompletes : ∃ i q s a y z,
    tileForm i = some q ∧ Acts s q a ∧ (s.issuingTile q.ref).writeStore = some y ∧ y.act a = some z :=
  ⟨.nop t0 0, _, tileState (tileWord 3 0 0) [] [], _, _, _, rfl,
    ⟨⟨by decide, by decide, rfl, rfl, by decide⟩, rfl, rfl, rfl, by decide, List.not_mem_nil, by intro w h; cases h⟩,
    rfl, rfl⟩

/-- The matrix path is taken until cycle 9. -/
def busyState (w : W64) : State :=
  onDie 0 { jobDie with tiles := [(0, { tileAt w [] [] with paths := [(pathSq, 9)] })] }

/-- V[2] awaits a result; VADD reads it. -/
def awaitingState (w : W64) : State :=
  onDie 0 { jobDie with tiles := [(0, { tileAt w [] [] with busy := [⟨.v, 2, BitVec.allOnes 1024, 9, 9⟩] })] }

theorem test_meets_HazardStops :
    (∃ i q s a, tileForm i = some q ∧ Fetches s q
      ∧ q.plan (s.setTile q.ref (s.settledTile q.ref)) (s.settledTile q.ref) = .run a
      ∧ a.reads.any ((s.tile q.ref).pendingOn (s.tile q.ref).clk) = true)
    ∧ ∃ i q s a n, tileForm i = some q ∧ Fetches s q
      ∧ q.plan (s.setTile q.ref (s.settledTile q.ref)) (s.settledTile q.ref) = .run a
      ∧ a.reads.any ((s.tile q.ref).pendingOn (s.tile q.ref).clk) = false
      ∧ (a.window.all fun w => (s.tile q.ref).inWindow w.1 w.2) = true
      ∧ (s.issuingTile q.ref).hazard a = some n :=
  ⟨⟨.vadd t0 (vWord 0 1 2 3 0 0), _, awaitingState (tileWord 1 0x10 (vWord 0 1 2 3 0 0)), _, rfl,
      ⟨by decide, by decide, rfl, rfl, by decide⟩, rfl, by decide +kernel⟩,
    ⟨.nop t0 0, _, busyState (tileWord 3 0 0), _, 110, rfl,
      ⟨by decide, by decide, rfl, rfl, by decide⟩, rfl, rfl, rfl, by decide⟩⟩

theorem test_meets_TileFaultsStopTheDie :
    (∃ i q s, tileForm i = some q ∧ Fetches s q ∧ bitOf (s.tile q.ref).faultInfo 31 = false
      ∧ (s.die q.ref.die.val).stopped = false
      ∧ q.plan (s.setTile q.ref (s.settledTile q.ref)) (s.settledTile q.ref) = .invalid)
    ∧ ∃ (r : TileRef) (s : State), s.mayIssue r.die.val r.tile.val = true
      ∧ (s.die r.die.val).fill r.die.val ≤ (s.tile r).words ∧ ((s.tile r).settle (s.tile r).now).2 = none
      ∧ (∀ m ∈ (s.tile r).flight, (s.tile r).clk < m.due) ∧ bitOf (s.tile r).faultInfo 31 = false ∧ (s.die r.die.val).stopped = false :=
  ⟨⟨.nop t0 1, _, tileState (tileWord 3 0 1) [] [], rfl, ⟨by decide, by decide, rfl, rfl, by decide⟩, by decide,
      by decide, rfl⟩,
    ⟨t0, onDie 0 { jobDie with tiles := [(0, { tileAt 0 [] [] with words := 31 })] }, by decide, by decide, rfl,
      by decide, by decide, by decide⟩⟩

theorem test_meets_PredicateZeroIsConstant : ∃ w : Wr, w.kind = .p ∧ w.idx = 0 :=
  ⟨⟨.p, 0, 0xFFFF, 0xFFFFFFFF, 1⟩, rfl, rfl⟩

/-- Every lane-wise form, with fields of the spec, is the next word of a quiet tile. -/
theorem test_meets_LaneWiseInstructions :
    [Instr.vadd t0 (vWord 1 31 2 3 0 0), .vaddI t0 (vWord 0 1 2 0x19 0 (2 ^ 29)), .vmul t0 (vWord 0 1 2 3 0 0),
      .vfma t0 (vWord 0 1 2 3 31 0), .vmax t0 (vWord 7 1 2 0 0 (2 ^ 30 + 0xFFFF)), .vexp t0 (vWord 0 1 2 0 0 0),
      .vrcp t0 (vWord 0 1 2 0 0 0), .vrsq t0 (vWord 0 1 2 0 0 0), .vsrnd t0 (vWord 0 1 2 0 0 (0xA * 2 ^ 18)),
      .vsrnd t0 (vWord 0 1 2 0x19 0 (5 * 2 ^ 26)),
      .vcvt t0 (vWord 0 1 2 0 0 (9 * 2 ^ 22 + 0xB * 2 ^ 18 + 1))].all
        (fun i => (laneForm i).any (·.good)) = true
    ∧ ∀ i l, laneForm i = some l → l.q.ref = t0 → Quiet (tileState (tileWord l.q.unit l.q.op l.q.f) [] []) l.q :=
  ⟨by decide, fun _ l _ h => by
    have := quiet_at l.q.unit l.q.op l.q.f l.q.plan l.q.after [] []
    rwa [← h] at this⟩

/-- The next word of a quiet tile is this vector word, or one of another unit. -/
theorem test_meets_SelectsMoves :
    (∃ f s, Quiet s ⟨t0, 1, 0x30, f, planVsel f, id⟩ ∧ vC f = 0 ∧ noConvert f = true ∧ bGood f = true
      ∧ vMod1 f = false ∧ (vMod0 f = true → vBsel f = 2))
    ∧ (∀ f ∈ [vWord 0 0 1 2 0 7, vWord 1 7 1 0x19 0 (2 ^ 29), vWord 0 7 1 0 0 (2 ^ 30 + 2 ^ 16 + 5)],
      Quiet (tileState (tileWord 1 0x31 f) [] []) ⟨t0, 1, 0x31, f, planVselCmp f, id⟩ ∧ vC f = 0
      ∧ noConvert f = true ∧ vMod1 f = false ∧ vD f < 8 ∧ (vMod0 f = true → vImm f % 8 < 6)
      ∧ match vBsel f with
        | 0 => vImm f < 8
        | 1 => scalarReadable (vB f) = true ∧ vImm f < 8
        | 2 => vB f = 0
        | _ => False)
    ∧ (∃ f s, Quiet s ⟨t0, 1, 0x12, f, planVaddS f, id⟩ ∧ vPM f = 0 ∧ vC f = 0 ∧ noConvert f = true
      ∧ bGood f = true ∧ vBsel f ≠ 0 ∧ scalarWritable (vD f) = true ∧ scalarReadable (vA f) = true)
    ∧ (∀ f ∈ [vWord 0 0x17 1 0 0 31, vWord 0 1 0x19 0 0 (2 ^ 16 + 31), vWord 7 1 0x18 0 0 (2 ^ 17),
        vWord 0 0 0 0 0 (3 * 2 ^ 16 + 0xFFFF)],
      Quiet (tileState (tileWord 1 0x32 f) [] []) ⟨t0, 1, 0x32, f, planVselMov f, id⟩ ∧ fld f 40 18 = 0
      ∧ ((vMod f = 0 ∧ vPM f = 0 ∧ vImm f < 32 ∧ scalarWritable (vD f) = true)
        ∨ (vMod f = 1 ∧ vPM f = 0 ∧ vImm f < 32 ∧ scalarReadable (vA f) = true)
        ∨ (vMod f = 2 ∧ vImm f = 0 ∧ scalarReadable (vA f) = true)
        ∨ (vMod f = 3 ∧ vPM f = 0 ∧ vA f = 0 ∧ scalarWritable (vD f) = true))) :=
  ⟨⟨vWord 2 1 2 0 0 (2 ^ 30 + 2 ^ 16), _, quiet_at _ _ _ _ _ [] [], by decide +kernel⟩,
    List.forall_mem_cons.2 ⟨⟨quiet_at _ _ _ _ _ [] [], by decide +kernel, by decide +kernel, by decide +kernel,
        by decide +kernel, by decide +kernel, by
        simp only [show vBsel (vWord 0 0 1 2 0 7) = 0 from by decide +kernel]; decide +kernel⟩,
      List.forall_mem_cons.2 ⟨⟨quiet_at _ _ _ _ _ [] [], by decide +kernel, by decide +kernel, by decide +kernel,
        by decide +kernel, by decide +kernel, by
        simp only [show vBsel (vWord 1 7 1 0x19 0 (2 ^ 29)) = 1 from by decide +kernel]; decide +kernel⟩,
      List.forall_mem_singleton.2 ⟨quiet_at _ _ _ _ _ [] [], by decide +kernel, by decide +kernel,
        by decide +kernel, by decide +kernel, by decide +kernel, by
        simp only [show vBsel (vWord 0 7 1 0 0 (2 ^ 30 + 2 ^ 16 + 5)) = 2 from by decide +kernel]; decide +kernel⟩⟩⟩,
    ⟨vWord 0 0x17 0x19 1 0 (2 ^ 29), _, quiet_at _ _ _ _ _ [] [], by decide +kernel⟩,
    List.forall_mem_cons.2 ⟨⟨quiet_at _ _ _ _ _ [] [], by decide +kernel⟩,
      List.forall_mem_cons.2 ⟨⟨quiet_at _ _ _ _ _ [] [], by decide +kernel⟩,
      List.forall_mem_cons.2 ⟨⟨quiet_at _ _ _ _ _ [] [], by decide +kernel⟩,
      List.forall_mem_singleton.2 ⟨quiet_at _ _ _ _ _ [] [], by decide +kernel⟩⟩⟩⟩⟩

theorem test_meets_ConversionsAndReductions :
    (∀ f ∈ [vWord 1 1 2 0 0 (0xB * 2 ^ 22 + 0xA * 2 ^ 18 + 1), vWord 0 1 2 0 3 (0xB * 2 ^ 22 + 127 * 2 ^ 9 + 3)],
      Quiet (tileState (tileWord 1 0x20 f) [] []) ⟨t0, 1, 0x20, f, planVcvt f, usedBySru (vRM f)⟩
      ∧ vSF f = 0xB ∧ vDF f ≠ 0xB ∧ cvtGood f (vDF f) = true
      ∧ (fmtIsMx (vDF f) = false ∨ fmtIsMx (vDF f) = true ∧ vPM f = 0))
    ∧ ∃ f s, Quiet s ⟨t0, 1, 0x28, f, planVred f, id⟩ ∧ fld f 40 17 = 0 ∧ vImm f = 0 :=
  ⟨List.forall_mem_cons.2 ⟨⟨quiet_at _ _ _ _ _ [] [], by decide +kernel⟩,
      List.forall_mem_singleton.2 ⟨quiet_at _ _ _ _ _ [] [], by decide +kernel⟩⟩,
    ⟨vWord 1 31 2 0 0 (2 ^ 16), _, quiet_at _ _ _ _ _ [] [], by decide +kernel⟩⟩

/-! ## Numbers -/

theorem test_meets_RoundingAndCommutativity :
    (ofFP32 0x7F800001).isNan = true ∧ (ofFP32 0x7F800000).isNan = false := by decide +kernel

theorem test_meets_MaximumRules :
    (ofFP32 0xFFC00000).isNan = true ∧ (ofFP32 0).isNan = false ∧ (ofFP32 0xFF800000).lt (ofFP32 0x7F800000) = true
    ∧ (ofFP32 0).lt (ofFP32 1) = true := by decide +kernel

/-! ## Movement -/

theorem usable (w : W64) (a n : Nat) (h : ((tileAt w [] []).inWindow a n && !(tileAt w [] []).unready a n) = true) :
    (tileAt w [] []).Usable a n := by
  simp only [Bool.and_eq_true, Bool.not_eq_true'] at h
  exact ⟨h.1, h.2, rfl, rfl⟩

/-- The fields of a movement word, without DOFF. -/
def mWord (pm vr ar xr len cnt nc off : Nat) : Operands :=
  BitVec.ofNat 54 (pm * 2 ^ 51 + vr * 2 ^ 46 + ar * 2 ^ 42 + xr * 2 ^ 38 + len * 2 ^ 32 + cnt * 2 ^ 28 + nc * 2 ^ 24 + off)

/-- The first and the last line of the SRAM. -/
theorem test_meets_LoadReadsItsLine :
    (∃ f s, Quiet s ⟨t0, 2, 0x01, f, planLoadv f, id⟩ ∧ fld f 41 16 = 0 ∧ mvLine (s.tile t0) f = 0
      ∧ (s.tile t0).Usable (mvLine (s.tile t0) f) 128)
    ∧ ∃ f s, Quiet s ⟨t0, 2, 0x01, f, planLoadv f, id⟩ ∧ fld f 41 16 = 0 ∧ mvLine (s.tile t0) f = 0xBFF80
      ∧ (s.tile t0).Usable (mvLine (s.tile t0) f) 128 :=
  ⟨⟨mWord 0 1 0 0 0 0 0 0, _, quiet_at _ _ _ _ _ [] [], by decide +kernel, by decide +kernel,
      usable _ _ _ (by decide +kernel)⟩,
    ⟨mWord 0 31 2 0 0 0 0 127, _, quiet_at _ _ _ _ _ [] [], by decide +kernel, by decide +kernel,
      usable _ _ _ (by decide +kernel)⟩⟩

theorem test_meets_StoreWritesSelectedLanes :
    ∃ f s, Quiet s ⟨t0, 2, 0x02, f, planStorev f, id⟩ ∧ fld f 41 16 = 0 ∧ mvLine (s.tile t0) f = 0xBFF80
      ∧ (s.tile t0).Usable (mvLine (s.tile t0) f) 128 ∧ Mem.wf (s.tile t0).sram = true
      ∧ ((s.tile t0).readP (mPM f)).getLsbD 31 = true :=
  ⟨mWord 0 31 2 0 0 0 0 127, _, quiet_at _ _ _ _ _ [] [], by decide +kernel, by decide +kernel,
    usable _ _ _ (by decide +kernel), by decide +kernel, by decide +kernel⟩

theorem test_meets_SendsLeaveOneFlitACycle :
    (∃ f s, Quiet s ⟨t0, 2, 0x10, f, planSend f, id⟩ ∧ fld f 53 46 = 0 ∧ ncGood f = true ∧ mCNT f = 0
      ∧ (s.tile t0).inWindow (mvDesc (s.tile t0) f 0) 8 = true ∧ isNull (s.tile t0) f = false ∧ mLEN f = 63
      ∧ ∀ m, m ≤ mLEN f / 2 → (s.tile t0).inWindow (mvLine (s.tile t0) f + 128 * m) 128 = true)
    ∧ (∃ f s, Quiet s ⟨t0, 2, 0x11, f, planSendm f, id⟩ ∧ fld f 53 46 = 0 ∧ ncGood f = true
      ∧ (∀ c, c ≤ mCNT f → (s.tile t0).inWindow (mvDesc (s.tile t0) f c) 8 = true) ∧ isNull (s.tile t0) f = true
      ∧ mCNT f = 15)
    ∧ (∃ f s, Quiet s ⟨t0, 2, 0x12, f, planGather f, id⟩ ∧ mPM f = 0 ∧ mCNT f = 0 ∧ ncGood f = true ∧ mLEN f = 31
      ∧ (s.tile t0).inWindow (mvDesc (s.tile t0) f 0) 8 = true
      ∧ ∀ n, n ≤ mLEN f → ∀ a ∈ gatherAddr (s.tile t0) f n, (s.tile t0).inWindow a 64 = true)
    ∧ (∃ f s, Quiet s ⟨t0, 2, 0x30, f, planHbmrd t0.die.val f, id⟩ ∧ fld f 53 46 = 0 ∧ fld f 31 24 = 0
      ∧ mvAddr (s.tile t0) f + mLEN f < hbmUnits ∧ (s.tile t0).inWindow (mvDesc (s.tile t0) f 0) 8 = true)
    ∧ (∃ f s, Quiet s ⟨t0, 2, 0x31, f, planHbmwr t0.die.val f, id⟩ ∧ fld f 53 46 = 0 ∧ fld f 31 16 = 0
      ∧ ((s.tile t0).readA (mXR f)).toNat + mLEN f < hbmUnits
      ∧ ∀ m, m ≤ mLEN f / 2 → (s.tile t0).inWindow (mvLine (s.tile t0) f + 128 * m) 128 = true)
    ∧ ((onDie 0 jobDie).die 0).queue ((onDie 0 jobDie).sendQueue 0 0 0) = [] :=
  ⟨⟨mWord 0 0 1 0 63 0 0 0, _, quiet_at _ _ _ _ _ [] [], by decide +kernel⟩,
    ⟨mWord 0 0 1 0 0 15 8 0, _, quiet_at _ _ _ _ _ [] [], by decide +kernel⟩,
    ⟨mWord 0 0 1 0 31 0 0 0, _, quiet_at _ _ _ _ _ [] [], by decide +kernel⟩,
    ⟨mWord 0 0 1 0 63 0 0 0, _, quiet_at _ _ _ _ _ [] [], by decide +kernel⟩,
    ⟨mWord 0 0 1 1 63 0 0 0, _, quiet_at _ _ _ _ _ [] [], by decide +kernel⟩, by decide +kernel⟩

/-- Entry 511 is VALID and holds a null packet; the last form arms an EMPTY entry. -/
theorem test_meets_LandConsumesAndArms :
    List.Forall (fun (e : Operands × W64) =>
      let f := e.1
      let s := tileState (tileWord 2 0x20 f) [(511, e.2)] []
      Quiet s ⟨t0, 2, 0x20, f, planLand f, id⟩ ∧ fld f 38 16 = 0 ∧ fld f 53 52 ≠ 3
      ∧ (fld f 51 51 = 1 → fld f 53 52 ≠ 1) ∧ (fld f 51 51 = 0 → fld f 50 48 = 0)
      ∧ (fld f 53 52 = 0 ↔ fld f 15 0 = 0) ∧ leEnable ((s.tile t0).landing (fld f 47 39)) = true
      ∧ (fld f 53 52 ≠ 1 → leState ((s.tile t0).landing (fld f 47 39)) = 2))
    [(BitVec.ofNat 54 (2 ^ 51 + 7 * 2 ^ 48 + 511 * 2 ^ 39), 0xC400000000000000),
      (BitVec.ofNat 54 (2 * 2 ^ 52 + 511 * 2 ^ 39 + 0xFFFF), 0xC000000000000000),
      (BitVec.ofNat 54 (2 ^ 52 + 511 * 2 ^ 39 + 1), 0x8000000000000000)] :=
  ⟨⟨quiet_at _ _ _ _ _ _ _, by decide +kernel⟩, ⟨quiet_at _ _ _ _ _ _ _, by decide +kernel⟩,
    ⟨quiet_at _ _ _ _ _ _ _, by decide +kernel⟩⟩

/-! ## Sequencing -/

theorem test_meets_NopSnapAndWaitbeat :
    (∃ s, Quiet s ⟨t0, 3, 0x00, 0, fun _ _ => if (0 : Operands) = 0 then .run { path := pathSq } else .invalid, id⟩)
    ∧ (∃ f s, Quiet s ⟨t0, 3, 0x06, f, planSnap t0.die.val (t0.tile.val / 72) f, id⟩ ∧ fld f 53 51 = 0
      ∧ fld f 47 35 = 0 ∧ fld f 30 0 = 0 ∧ fld f 34 31 = 2)
    ∧ ∃ s, Quiet s ⟨t0, 3, 0x03, 0, fun _ _ => if (0 : Operands) = 0 then .run { path := pathSq, wait := true }
        else .invalid, (·.afterWait t0.die.val t0.tile.val)⟩
      ∧ (s.die 0).hold.slot = none ∧ BitVec.ofNat 48 (s.die 0).job.beat = (s.tile t0).bc
      ∧ lagOf ((s.die 0).region 0).startLag ((s.die 0).region 0).stretches ((s.die 0).period 0 0)
          ((s.tile t0).words + 1) = 0 :=
  ⟨⟨_, quiet_at _ _ _ _ _ [] []⟩,
    ⟨BitVec.ofNat 54 (7 * 2 ^ 48 + 2 * 2 ^ 31), _, quiet_at _ _ _ _ _ [] [], by decide +kernel⟩,
    ⟨_, quiet_at _ _ _ _ _ [] [], by decide +kernel⟩⟩

/-- A fourth level; a branch whose condition holds and one whose does not. -/
theorem test_meets_LoopsAndBranches :
    (∃ f s, Quiet s ⟨t0, 3, 0x01, f, planLoop f, id⟩ ∧ fld f 53 52 = 0 ∧ fld f 51 48 = 0 ∧ fld f 34 20 = 0
      ∧ fld f 19 0 = 0xFFFFF ∧ (s.tile t0).pc.toNat + 1 ≤ qWidx f ∧ (s.tile t0).loops.length = 3
      ∧ ∀ l ls, (s.tile t0).loops = l :: ls → qWidx f ≤ l.fin ∧ (s.tile t0).pc.toNat ≠ l.fin)
    ∧ ∀ b, ∃ f s, Quiet s ⟨t0, 3, 0x02, f, planBr f, id⟩ ∧ condGood f = true ∧ fld f 34 0 = 0
      ∧ (∀ l ls, (s.tile t0).loops = l :: ls → (s.tile t0).pc.toNat ≠ l.fin)
      ∧ condHolds (qCond f) ((s.tile t0).readS (qSR f)) = b :=
  ⟨⟨BitVec.ofNat 54 (2 ^ 35 + 0xFFFFF), _, quiet_at _ _ _ _ _ [] [⟨0, 1, 1⟩, ⟨0, 2, 1⟩, ⟨0, 2, 1⟩], by decide +kernel,
      by decide +kernel, by decide +kernel, by decide +kernel, by decide +kernel, by decide +kernel,
      by intro l ls h; cases h; decide +kernel⟩,
    Bool.forall_bool.2 ⟨⟨BitVec.ofNat 54 (4 * 2 ^ 51 + 2 ^ 48 - 2 ^ 51), _, quiet_at _ _ _ _ _ [] [], by decide +kernel,
        by decide +kernel, (fun _ _ h => nomatch h), by decide +kernel⟩,
      ⟨BitVec.ofNat 54 (4 * 2 ^ 51 + 2 ^ 48), _, quiet_at _ _ _ _ _ [] [], by decide +kernel,
        by decide +kernel, (fun _ _ h => nomatch h), by decide +kernel⟩⟩⟩

/-- Entry 511 is VALID, or EMPTY and allows a hold. -/
theorem test_meets_HoldchkAndFault :
    List.Forall (fun v =>
      let f := BitVec.ofNat 54 (511 * 2 ^ 39)
      let s := tileState (tileWord 3 0x04 f) [(511, v)] []
      Quiet s ⟨t0, 3, 0x04, f, planHoldchk f, id⟩ ∧ fld f 53 48 = 0 ∧ fld f 37 0 = 0 ∧ fld f 38 38 = 0
      ∧ leEnable ((s.tile t0).landing (fld f 47 39)) = true
      ∧ leState ((s.tile t0).landing (fld f 47 39)) = (if v = 0x8000000000000000 then 0 else 2)
      ∧ leNoHold ((s.tile t0).landing (fld f 47 39)) = false ∧ (s.tile t0).heldRaised = false)
      [0xC000000000000000, 0x8000000000000000]
    ∧ ∀ b, ∃ f s, Quiet s ⟨t0, 3, 0x05, f, planFault f, id⟩ ∧ condGood f = true ∧ fld f 47 0 = 0
      ∧ condHolds (qCond f) ((s.tile t0).readS (qSR f)) = b ∧ bitOf (s.tile t0).faultInfo 31 = false
      ∧ (s.die 0).stopped = false ∧ (s.die 0).arrivalFault 0 0 (s.tile t0).words = none :=
  ⟨⟨⟨quiet_at _ _ _ _ _ _ _, by decide +kernel⟩, ⟨quiet_at _ _ _ _ _ _ _, by decide +kernel⟩⟩,
    Bool.forall_bool.2 ⟨⟨BitVec.ofNat 54 (2 ^ 51 + 2 ^ 48), _, quiet_at _ _ _ _ _ [] [], by decide +kernel⟩,
      ⟨0, _, quiet_at _ _ _ _ _ [] [], by decide +kernel⟩⟩⟩

/-! ## Matrix -/

theorem test_meets_MatrixInstructions :
    (∃ f s, Quiet s ⟨t0, 0, 0x05, f, planMxzero f, id⟩ ∧ fld f 51 10 = 0 ∧ fld f 53 52 = 3 ∧ fld f 9 0 = 1023)
    ∧ (∃ f s, Quiet s ⟨t0, 0, 0x01, f, planMxld f, id⟩ ∧ fld f 53 52 = 0 ∧ fld f 46 42 = 0 ∧ fld f 32 25 = 0
      ∧ fld f 23 20 = 0 ∧ fld f 50 47 = 0xA ∧ fld f 24 24 = 0 ∧ fld f 37 33 = 0
      ∧ ((s.tile t0).wb (fld f 51 51)).readBy = none
      ∧ ∀ l, l < weightLines (fld f 50 47) false →
          (s.tile t0).inWindow (mxAddr (s.tile t0) f + 128 * l) 128 = true)
    ∧ (∃ f s, Quiet s ⟨t0, 0, 0x02, f, planMxmul f, id⟩ ∧ fld f 50 47 = 4 ∧ productFieldsGood f = true
      ∧ (s.tile t0).weightKind (fld f 51 51) = (4, false) ∧ ((s.tile t0).wb (fld f 51 51)).written = none
      ∧ fld f 29 25 + fld f 46 42 + 1 = 32
      ∧ ∀ m, m < 8 → (s.tile t0).inWindow (mxAddr (s.tile t0) f + 128 * m) 128 = true)
    ∧ (∃ f s, Quiet s ⟨t0, 0, 0x03, f, planMxsparse f, id⟩ ∧ fld f 50 47 = 4 ∧ productFieldsGood f = true
      ∧ (s.tile t0).weightKind (fld f 51 51) = (4, true) ∧ ((s.tile t0).wb (fld f 51 51)).written = none
      ∧ (∀ j, j < 32 → metaGood ((s.tile t0).weightMeta (fld f 51 51) j) = true)
      ∧ ∀ m, m < 16 → (s.tile t0).inWindow (mxAddr (s.tile t0) f + 128 * m) 128 = true)
    ∧ (∃ f s, Quiet s ⟨t0, 0, 0x04, f, planMxacc f, id⟩ ∧ fld f 51 47 = 0 ∧ fld f 41 38 = 0 ∧ fld f 32 19 = 0
      ∧ fld f 18 0 = 0 ∧ fld f 46 42 = 31)
    ∧ List.Forall (fun f =>
      let s := tileState (tileWord 0 0x06 f) [] []
      Quiet s ⟨t0, 0, 0x06, f, planMxrd f, usedBySru (fld f 32 30)⟩ ∧ (fmtOf (fld f 50 47)).isSome = true
      ∧ (fld f 50 47 = 0xB ∨ fld f 50 47 = 0x9 ∨ fld f 50 47 = 6 ∨ fld f 50 47 = 7)
      ∧ 32 * fld f 26 25 + 32 ≤ 1024 / fmtBits (fld f 50 47) ∧ fld f 51 51 = 0 ∧ fld f 41 38 = 0 ∧ fld f 23 23 = 0
      ∧ fld f 19 0 = 0 ∧ fld f 32 30 ≠ 7 ∧ (fld f 32 30 ≠ 5 → fld f 29 27 = 0)
      ∧ (fld f 24 24 = 0 → fld f 22 20 = 0))
      [BitVec.ofNat 54 (0xB * 2 ^ 47 + 31 * 2 ^ 42 + 5 * 2 ^ 30 + 2 ^ 27 + 2 ^ 24 + 7 * 2 ^ 20),
        BitVec.ofNat 54 (9 * 2 ^ 47 + 2 ^ 25), BitVec.ofNat 54 (6 * 2 ^ 47 + 3 * 2 ^ 25),
        BitVec.ofNat 54 (3 * 2 ^ 52 + 7 * 2 ^ 47 + 3 * 2 ^ 25)] :=
  ⟨⟨BitVec.ofNat 54 (3 * 2 ^ 52 + 1023), _, quiet_at _ _ _ _ _ [] [], by decide +kernel⟩,
    ⟨BitVec.ofNat 54 (2 ^ 51 + 0xA * 2 ^ 47), _, quiet_at _ _ _ _ _ [] [], by decide +kernel⟩,
    ⟨BitVec.ofNat 54 (4 * 2 ^ 47 + 31 * 2 ^ 42), _, quiet_at _ _ _ _ _ [] [], by decide +kernel⟩,
    ⟨BitVec.ofNat 54 (2 ^ 51 + 4 * 2 ^ 47 + 31 * 2 ^ 42), _, quiet_at _ _ _ _ _ [] [], by decide +kernel⟩,
    ⟨BitVec.ofNat 54 (31 * 2 ^ 42), _, quiet_at _ _ _ _ _ [] [], by decide +kernel⟩,
    ⟨⟨quiet_at _ _ _ _ _ _ _, by decide +kernel⟩, ⟨quiet_at _ _ _ _ _ _ _, by decide +kernel⟩,
      ⟨quiet_at _ _ _ _ _ _ _, by decide +kernel⟩, ⟨quiet_at _ _ _ _ _ _ _, by decide +kernel⟩⟩⟩

/-! ## Beats and holds -/

/-- A die with a job and this hold engine. -/
def holdDie (h : Hold) : Die := { jobDie with hold := h }

/-- A standing hold in slot `j`, raised by the die for these causes. -/
def heldSlot (j : Nat) (mine : List Nat) : Hold := { Hold.reset with slot := some j, mine := mine }

def runningTile : Tile := { Tile.reset with state := .running, waiting := false }

/-- A region in the die's slot, and one that still runs the beat before. -/
theorem test_meets_SlotsAndStretches :
    (∀ b, ∃ s : State, (s.die 0).inReset = false ∧ (s.die 0).regionLate 3 = b)
    ∧ ∃ x : Die, x.ns < second ∧ second ≤ x.ns + 16 ∧ x.sec.toNat + 1 < 2 ^ 64 :=
  ⟨Bool.forall_bool.2 ⟨⟨onDie 0 jobDie, by decide +kernel⟩,
      ⟨onDie 0 { jobDie with tiles := [(287, runningTile)], job := { Job.reset with beat := 1 } }, by decide +kernel⟩⟩,
    ⟨{ Die.reset with ns := 999999984 }, by decide +kernel⟩⟩

theorem test_meets_BeatStartPassesSlot :
    List.Forall (fun (x : Die) => x.inReset = false ∧ x.boundary 0 = .beat ∧ x.behind = false)
      [Die.reset, holdDie (heldSlot 0 [1]), jobDie]
    ∧ (((onDie 0 Die.reset).passSlot 0).die 0).jobOn 0 = false
    ∧ (let x := ((onDie 0 (holdDie (heldSlot 0 [1]))).passSlot 0).die 0;
      x.jobOn 0 = true ∧ x.hold.slot = some 0)
    ∧ (let x := ((onDie 0 jobDie).passSlot 0).die 0;
      x.jobOn 0 = true ∧ x.hold.slot = none)
    ∧ List.Forall (fun (x : Die) => (onDie 0 x).boundary 0 = .beat ∧ (onDie 0 x).strayWaits 0 = false)
      [Die.reset, holdDie (heldSlot 0 [1]), jobDie]
    ∧ ((((onDie 0 jobDie).modDie 0 (·.flushRaised 0)).closeSlot 0).die 0).snapDue 0 = false := by decide +kernel

/-- Two raised causes, of which the second tile may still add one; a job beat in which 0x7 is not raised; cause 0x4 open when the timeout of 5 slots has run. -/
theorem test_meets_HoldsAreRaisedAndTimeOut :
    (∃ x : Die, (x.hold.raised.filter (·.1 == 0)).map (·.2) = 2 :: [1] ∧ 0 ∈ x.sliceLinks 0
      ∧ ∃ e ∈ (x.flushRaised 0).hold.raised, e.1 = x.beatNow)
    ∧ (jobDie.inReset = false ∧ jobDie.inJobBeat 0 = true ∧ 7 ∉ jobDie.hold.mine)
    ∧ ∃ s : State, (s.die 0).jobOn 0 = true ∧ (s.die 0).hold.slot = some 5 ∧ (s.die 0).field 0 rHoldTimeout 31 0 = 5
      ∧ 4 ∈ (s.die 0).hold.mine ∧ (s.die 0).clearOf 0 4 = false ∧ (s.die 0).stopped = false :=
  ⟨⟨{ holdDie { Hold.reset with raised := [(0, 2), (0, 1)] } with
        regs := [(rBeatCtrl, 0xB1F01), (rLink + lCtrl, 1)], tiles := [(0, runningTile)] },
      by decide +kernel, by decide +kernel, (0, 2), by decide +kernel, by decide +kernel⟩,
    by decide +kernel,
    ⟨onDie 0 { holdDie (heldSlot 5 [4]) with
        regs := [(rBeatCtrl, 0xB1F01), (rHoldTimeout, 5)], links := [(0, { Link.reset with causeOpen := true })] },
      by decide +kernel⟩⟩

/-- The hold of a release in slot 11 resumes H + 1 = 13 slots later, in slot 24. -/
def endingHold : Hold := { heldSlot 23 [1] with closed := true, holders := [⟨0, 0, 1⟩], releases := [(0, 11)] }

theorem test_meets_HoldsBeginAndEnd :
    (∃ s : State, (s.die 0).inReset = false ∧ s.boundary 0 = .hold ∧ (s.die 0).behind = false
      ∧ s.strayWaits 0 = false ∧ (∀ e ∈ (s.die 0).tiles, e.2.ovfPend = [])
      ∧ ((s.passSlot 0).die 0).jobOn 0 = true
      ∧ (tget ((s.passSlot 0).die 0).tiles 0).any (fun y => y.state == .running && y.waiting) = true)
    ∧ ∃ s : State, (s.die 0).inReset = false ∧ s.boundary 0 = .resume ∧ s.strayWaits 0 = false
      ∧ ((s.passSlot 0).die 0).jobOn 0 = true
      ∧ (tget ((s.passSlot 0).die 0).tiles 0).any (fun y => y.state == .held) = true :=
  ⟨⟨onDie 0 { holdDie { Hold.reset with left := some 0 } with tiles := [(0, { runningTile with waiting := true })] },
      by decide +kernel⟩,
    ⟨onDie 0 { holdDie endingHold with tiles := [(0, { runningTile with state := .held })] }, by decide +kernel⟩⟩

/-- Slots H - 2 = 10 and H - 1 = 11; each way in which no release is sent. -/
theorem test_meets_RollCallReleaseAndResumeSlot :
    (∃ s : State, (s.die 0).jobOn 0 = true ∧ (s.die 0).hold.slot = some 10 ∧ (s.die 0).horizon 0 = 10 + 2)
    ∧ (∃ s : State, (s.die 0).jobOn 0 = true ∧ (s.die 0).hold.slot = some 11 ∧ (s.die 0).horizon 0 = 11 + 1
      ∧ (s.die 0).hold.released = false ∧ (s.die 0).hold.mine = [1]
      ∧ ((s.die 0).hold.mine.all ((s.die 0).clearOf 0)) = true)
    ∧ List.Forall (fun x : Die => x.jobOn 0 = true ∧ x.hold.slot.isSome = true
        ∧ (x.hold.mine = [] ∨ x.hold.released = true ∨ x.hold.slot = some 10 ∨ x.hold.mine.all (x.clearOf 0) = false))
      [holdDie (heldSlot 11 []), holdDie { heldSlot 11 [1] with released := true }, holdDie (heldSlot 10 [1]),
        { holdDie (heldSlot 11 [4]) with links := [(0, { Link.reset with causeOpen := true })] }]
    ∧ endingHold.resumeSlot 12 = some 24 :=
  ⟨⟨onDie 0 (holdDie (heldSlot 10 [1])), by decide +kernel⟩, ⟨onDie 0 (holdDie (heldSlot 11 [1])), by decide +kernel⟩,
    by decide +kernel, by decide +kernel⟩

/-- The symbols come from the die of the highest number in beat 0 of sequence 0. -/
theorem test_meets_HoldSymbolsAndReleases :
    List.Forall (fun (e : Die × W64) =>
      e.1.inReset = false ∧ hasPort 0 5 = true ∧ symbolGood e.2 = true
      ∧ (bitsOf e.2 63 60 = 1 → 1 ≤ bitsOf e.2 59 56 ∧ bitsOf e.2 59 56 ≤ 7) ∧ (bitsOf e.2 63 60 = 2 → bitsOf e.2 59 56 = 0)
      ∧ e.1.hold.seen.contains (symbolKey e.2) = false ∧ bitsOf e.2 15 8 = e.1.hold.seq.toNat
      ∧ e.1.outside 0 5 = false ∧ e.1.jobOn 0 = true ∧ e.1.hold.closed = false
      ∧ ((bitsOf e.2 63 60 = 1 ∧ e.1.hold.slot = none) ∨ (bitsOf e.2 63 60 = 1 ∧ e.1.hold.slot = some 0)
        ∨ bitsOf e.2 63 60 = 2 ∧ e.1.hold.slot = some 11))
      [(jobDie, mkSymbol 1 1 0xFFFF 0 0), (holdDie { Hold.reset with left := some 3 }, mkSymbol 1 1 0xFFFF 0 0),
        (holdDie (heldSlot 0 [1]), mkSymbol 1 1 0xFFFF 0 0), (holdDie (heldSlot 11 [1]), mkSymbol 2 0 0xFFFF 11 0)] := by
  decide +kernel

/-- The header of a packet of two flits for entry 511 of tile 0. -/
def landHeader : Header := mkHeader 0 0 0 0 0 0 1 0 0 (511 * 2 ^ 23) 0

/-- Flit `i` of that packet, for cycle 0 of beat `due`. -/
def landFlit (i due : Nat) : QFlit := ⟨landHeader, i, 7, 0, 0, false, 4, egDeliver, due, 0, 0⟩

/-- Tile 0 in cycle 1 of beat 2, with that flit before its region. -/
def landState (v : W64) (i due : Nat) : State :=
  onDie 0 { jobDie with
    job := { Job.reset with beat := 2 }, tiles := [(0, { tileAt 0 [(511, v)] [] with bc := 2, words := 1 })]
    queues := [(qKey 4 0, [landFlit i due])] }

/-- Entry 511 of two flits at the top of the SRAM: its first flit in its cycle, and its last one late. -/
theorem test_meets_LandingFlitIsWritten :
    List.Forall (fun (e : W64 × Fin 64 × Nat × Nat × Bool) =>
      let s := landState e.1 e.2.1.val e.2.2.1
      (s.die 0).inReset = false ∧ (s.die 0).jobOn 0 = true ∧ hKind landHeader = 0 ∧ hDest landHeader = 0
      ∧ (s.die 0).arriving 0 landHeader e.2.1.val 7 = some (qKey 4 0, landFlit e.2.1.val e.2.2.1, [])
      ∧ (s.die 0).intake 0 0 (landFlit e.2.1.val e.2.2.1) [] = (if e.2.2.2.2 then .late e.2.2.2.1 else .onTime e.2.2.2.1)
      ∧ (s.tile t0).state = .running ∧ (s.tile t0).flight = [] ∧ (s.tile t0).ovfPend = [] ∧ (s.tile t0).span = false
      ∧ hNull landHeader = false ∧ hLand landHeader = 511 ∧ hLen landHeader = 1
      ∧ Mem.wf (s.tile t0).sram = true ∧ (s.tile t0).landFault landHeader e.2.1.val = 0)
      [(BitVec.ofNat 64 (2 ^ 63 + 2 ^ 20 + 0x2FFE), 0, 2, 0, false),
        (BitVec.ofNat 64 (2 ^ 63 + 2 ^ 61 + 2 ^ 51 + 2 ^ 20 + 0x2FFE), 1, 1, 0, true)] := by
  decide +kernel

/-! ## Epochs and stops -/

/-- A die whose usable tiles hold valid tables of both banks. -/
def readyTile : Tile := { Tile.reset with state := .loaded, valid0 := true, valid1 := true, span := false }

def readyDie (regs : Table W64) (a : Option Armed) : Die :=
  let x : Die := { Die.reset with regs := regs, armed := a, horizonSet := true }
  { x with tiles := (x.tilesInUse 0).map (·, readyTile) }

theorem ready_tile (regs : Table W64) (a : Option Armed) (t : Nat) (h : t ∈ (readyDie regs a).tilesInUse 0) :
    (readyDie regs a).tile t = readyTile := by
  have : ∀ l : List Nat, t ∈ l → tgetD (l.map (·, readyTile)) t Tile.reset = readyTile := by
    intro l
    induction l with
    | nil => simp
    | cons n l ih =>
      intro hm
      simp only [List.map_cons, tgetD, tget]
      split
      · rfl
      · next hn => exact ih ((List.mem_cons.1 hm).resolve_left (Ne.symm hn))
  exact this _ h

theorem now_early (s : State) (d : Nat) (h : (s.die d).sec = 0 ∧ (s.die d).ns = 0) : s.nowNs d ≤ 15 := by
  have low : s.tickLow d < 16 := by
    unfold State.tickLow
    split
    · split
      · exact Nat.mod_lt _ (by decide)
      · decide
    · decide
  have : s.tick d < 16 := by
    have := Nat.mod_lt (Config.freeTick s.fz) (by omega : 16 - s.tickLow d > 0)
    unfold State.tick
    omega
  simp only [State.nowNs, State.now, h.1, h.2, Nat.zero_add]
  rw [if_pos (by unfold second; omega : s.tick d < second)]
  simp
  omega

theorem mayArm (regs : Table W64) (a : Nat) (b : Bool)
    (h1 : 1000015 ≤ (tgetD regs rEpochSec (regReset 0 rEpochSec)).toNat * second
      + bitsOf (tgetD regs rEpochNs (regReset 0 rEpochNs)) 29 0)
    (h2 : (a = 1 → bitOf (tgetD regs rBeatCtrl (regReset 0 rBeatCtrl)) 0 = false)
      ∧ (a ≠ 1 → bitOf (tgetD regs rBeatCtrl (regReset 0 rBeatCtrl)) 0 = true) ∧ (a = 2 → b = true)) :
    (onDie 0 (readyDie regs none)).MayArm 0 a b := by
  have e : (onDie 0 (readyDie regs none)).die 0 = readyDie regs none := rfl
  refine ⟨rfl, ?_, fun h => ⟨h2.1 h, rfl, fun t ht => ?_⟩, h2.2.1, fun _ t ht => ?_, fun h => ?_⟩
  · have := now_early (onDie 0 (readyDie regs none)) 0 ⟨rfl, rfl⟩
    exact Nat.le_trans (by omega) h1
  · rw [e] at ht ⊢; rw [ready_tile regs none t ht]; decide
  · rw [e] at ht ⊢; rw [ready_tile regs none t ht]; cases b <;> rfl
  · rw [e, h2.2.2 h]; exact Bool.noConfusion

/-- START, SWITCH and END at a time 1 ms after the slot's last nanosecond. -/
theorem test_meets_ArmingAndDisarming :
    (∃ s : State, (s.die 0).inReset = false ∧ s.MayArm 0 1 false)
    ∧ (∃ s : State, (s.die 0).inReset = false ∧ s.MayArm 0 2 true)
    ∧ (∃ s : State, (s.die 0).inReset = false ∧ s.MayArm 0 3 false) :=
  ⟨⟨_, rfl, mayArm [(rEpochNs, 1000015)] _ _ (by decide +kernel) (by decide +kernel)⟩,
    ⟨_, rfl, mayArm [(rEpochNs, 1000015), (rBeatCtrl, 0xB1F01)] _ _ (by decide +kernel) (by decide +kernel)⟩,
    ⟨_, rfl, mayArm [(rEpochNs, 1000015), (rBeatCtrl, 0xB1F01)] _ _ (by decide +kernel) (by decide +kernel)⟩⟩

/-- Every die holds the same horizon, and a START is armed for the next slot of die 0. -/
def startState : State :=
  { State.reset with dies := allDies.map fun d => (d, { readyDie [(rBeatCtrl, 0xB1F00)] (some ⟨1, false, 16⟩) with tiles := [] }) }

/-- A SWITCH waits in a job beat, and in the last slot of a hold; an END in a job beat. -/
theorem test_meets_JobsStartSwitchAndEnd :
    ((startState.die 0).inReset = false ∧ startState.boundary 0 = .start ∧ startState.evenHorizon = true
      ∧ (startState.die 0).armed = some ⟨1, false, 16⟩)
    ∧ List.Forall (fun x : Die => x.inReset = false ∧ (onDie 0 x).boundary 0 = .switch
        ∧ (onDie 0 x).strayWaits 0 = false ∧ x.unfinished = false
        ∧ x.armed = some ⟨2, true, 16⟩
        ∧ (((((onDie 0 x).passSlot 0).endHoldFirst 0).settleAll 0).die 0).jobOn 0 = true)
      [{ jobDie with armed := some ⟨2, true, 16⟩ }, { holdDie endingHold with armed := some ⟨2, true, 16⟩ }]
    ∧ ∃ x : Die, x.inReset = false ∧ (onDie 0 x).boundary 0 = .finish ∧ (onDie 0 x).strayWaits 0 = false
      ∧ x.unfinished = false ∧ x.armed = some ⟨3, false, 16⟩
      ∧ (((((onDie 0 x).passSlot 0).endHoldFirst 0).settleAll 0).die 0).jobOn 0 = true :=
  ⟨by decide +kernel, by decide +kernel, { jobDie with armed := some ⟨3, false, 16⟩ }, by decide +kernel⟩

theorem test_meets_StopsAndClear :
    (jobDie.inReset = false ∧ jobDie.stopped = false)
    ∧ (∃ v : W64, hasPort 0 5 = true ∧ symbolGood v = true ∧ bitsOf v 63 60 = 3
      ∧ 1 ≤ bitsOf v 59 56 ∧ bitsOf v 59 56 ≤ 4 ∧ jobDie.hold.seen.contains (symbolKey v) = false)
    ∧ Die.reset.inReset = false ∧ Die.reset.jobOn 0 = false :=
  ⟨by decide +kernel, ⟨mkSymbol 3 4 0xFFFF 0 0, by decide +kernel⟩, by decide +kernel⟩

/-! ## Links -/

/-- A die whose link `p` is in this state and phase. -/
def linkDie (p st phase : Nat) (l : Link) : Die :=
  { Die.reset with regs := [(rLink + 0x200 * p + lStatus, BitVec.ofNat 64 (st * 2 ^ 29 + phase * 2 ^ 26))], links := [(p, l)] }

/-- The frame of a fabric port whose one entry, at its last flit time, is a CONTROL flit of number 0xFFFFFF without
payload, and whose CREDIT codes are 15, with its parity: 64-bit pieces at their bit offsets. -/
def wireBits : FrameBits :=
  BitVec.ofNat 131072 ([(13835058055298940927, 0), (3733185573928963, 64), (16907885183070371840, 56960),
    (14126526152869368263, 57024), (141496691687600, 57088), (3850859156378484736, 57216),
    (3851001384891500355, 57280), (142228513015619, 57344), (3805846760395177984, 57408), (72239227484049, 57472),
    (15232018364697149440, 57792), (6058144126926418239, 57856), (9302492967890547344, 57920),
    (274604909696968, 57984)].foldl (fun n e => n + e.1 * 2 ^ e.2) 0)

def wireFrame : RxFrame := ⟨wireBits, 0, false, false⟩

def wirePlaced : Placed := ⟨⟨99, .control, 0xFFF, 0, 1372056228⟩, 0xFFFFFF, none⟩

theorem test_frame_is_codewords : fecDecode wireBits = (wireBits, 0, 0) := by decide +kernel

theorem wire_read : readFrame (isFabricPort 16) wireFrame.bits = (fabricFrame wireBits, 0, 0) := by
  rw [show isFabricPort 16 = true from rfl, readFrame, if_pos rfl, show wireFrame.bits = wireBits from rfl,
    test_frame_is_codewords]

theorem wire_field : PlainField (isFabricPort 16) (fabricFrame wireBits).control :=
  ⟨by decide +kernel, by decide +kernel, by decide +kernel, by decide +kernel, by decide +kernel⟩

theorem wire_entries : (placeEntries (BitVec.ofNat 24 (bitsOf (fabricFrame wireBits).control 23 0))
    (fabricFrame wireBits).headers (fabricFrame wireBits).entries).filter (·.entry.code.sequenced) = [wirePlaced] := by
  have h : ((placeEntries (BitVec.ofNat 24 (bitsOf (fabricFrame wireBits).control 23 0))
      (fabricFrame wireBits).headers (fabricFrame wireBits).entries).filter (·.entry.code.sequenced)).map
        (fun a => (a.entry, a.seq, a.hdr)) = [(wirePlaced.entry, wirePlaced.seq, wirePlaced.hdr)] := by decide +kernel
  obtain ⟨a, h1, h2⟩ := List.map_eq_singleton_iff.1 h
  obtain ⟨e, n, o⟩ := a
  simp only [Prod.mk.injEq] at h2
  rw [h1, h2.1, h2.2.1, h2.2.2]

/-- A CRC whose register is evaluated at each step. -/
def crcForced (r : Nat) : List Bool → Nat
  | [] => r
  | b :: bs => if r = r then crcForced (crcStep 32 0x1EDC6F41 r b) bs else 0

theorem crcForced_eq (bs : List Bool) : ∀ r, crcForced r bs = crcBits 32 0x1EDC6F41 r bs := by
  induction bs with
  | nil => exact fun _ => rfl
  | cons b bs ih => exact fun r => by rw [crcForced, if_pos rfl, ih]; rfl

theorem wire_good (g : List Nat) : wirePlaced.good (isFabricPort 16) g = true := by
  have h : wirePlaced.check = 1372056228 := by
    rw [Placed.check, crc32, ← crcForced_eq]
    decide +kernel
  rw [Placed.good, show isFabricPort 16 = true from rfl, if_pos rfl, h]
  decide +kernel

/-- The frame's number 0xFFFFFF where it is expected, where 0xFFFFFE is, and where 0 is; a full buffer of FP0. -/
theorem test_meets_FramesReplayAndSpill :
    List.Forall (fun (q : BitVec 24) =>
      let s := onDie 32 (linkDie 16 stFull 0 { Link.reset with rxSeq := q })
      let r := readFrame (isFabricPort 16) wireFrame.bits
      let n := BitVec.ofNat 24 (bitsOf r.1.control 23 0)
      (s.die 32).inReset = false ∧ hasPort 32 16 = true ∧ (s.die 32).linkActive 32 16 = true
      ∧ PlainField (isFabricPort 16) r.1.control
      ∧ (placeEntries n r.1.headers r.1.entries).filter (·.entry.code.sequenced) = [wirePlaced]
      ∧ wirePlaced.entry.code = .control
      ∧ wirePlaced.good (isFabricPort 16) (badGroups (isFabricPort 16) r.1 n) = true
      ∧ (wirePlaced.seq = q ∨ wirePlaced.seq ≠ q ∧ (wirePlaced.seq - q).toNat < 2 ^ 23
        ∨ 2 ^ 23 ≤ (wirePlaced.seq - q).toNat))
      [0xFFFFFF, 0xFFFFFE, 0]
    ∧ (∃ (x : Die) (e : TxEntry) (es : List TxEntry), x.inReset = false ∧ x.linkActive 0 0 = true
      ∧ (x.link 0).spill ++ (x.link 0).buffer = e :: es ∧ (x.link 0).replayAt ≠ some x.timeNs)
    ∧ ∃ (x : Die) (n : Nat), x.inReset = false ∧ hasPort 32 16 = true ∧ isFabricPort 16 = true
      ∧ bufferSize 16 ≤ (x.link 16).buffer.length ∧ 0 < n ∧ n ≤ (x.link 16).buffer.length
      ∧ (x.link 16).spill.length + n ≤ spillSize ∧ n ≤ x.spillRoom 32 16
      ∧ ∀ e ∈ (x.link 16).buffer.take n, x.inBlackout (memGroup 32 (spillUnit 32 16 e.seq)) = false := by
  refine ⟨?_, ⟨linkDie 0 stReduced 0 { Link.reset with buffer := [⟨0, .control, 0, 0, 0, 0⟩] }, _, _, rfl,
      by decide +kernel, rfl, by decide +kernel⟩,
    ⟨linkDie 16 stFull 0 { Link.reset with buffer := List.replicate 65536 ⟨0, .control, 0, 0, 0, 0⟩ }, 1, rfl, rfl, rfl,
      Nat.le_of_eq (List.length_replicate ..).symm, Nat.one_pos,
      Nat.le_trans (by decide) (Nat.le_of_eq (List.length_replicate (n := 65536) ..).symm), by decide +kernel,
      by decide +kernel, fun _ _ => rfl⟩⟩
  simp only [wire_read]
  exact ⟨⟨rfl, rfl, by decide +kernel, wire_field, wire_entries, rfl, wire_good _, by decide +kernel⟩,
    ⟨rfl, rfl, by decide +kernel, wire_field, wire_entries, rfl, wire_good _, by decide +kernel⟩,
    ⟨rfl, rfl, by decide +kernel, wire_field, wire_entries, rfl, wire_good _, by decide +kernel⟩⟩

theorem free (d p st phase : Nat) (t : Option Nat) (h : hasPort d p = true)
    (j : (linkDie p st phase { Link.reset with lockLostAt := t }).jobOn d = false) :
    (linkDie p st phase { Link.reset with lockLostAt := t }).Free d p := by
  refine ⟨rfl, h, j, ?_, ?_, ?_⟩ <;> simp [linkDie, Die.link, tgetD, tget, heldControl, Link.reset]

theorem test_meets_LinksReset :
    (∃ x : Die, x.Free 0 5 ∧ x.linkActive 0 5 = true ∧ (x.link 5).lockLostAt ≠ none ∧ x.linkState 0 5 ≠ stDisabled)
    ∧ (∃ x : Die, x.Free 32 16 ∧ x.linkActive 32 16 = true)
    ∧ (∃ x : Die, x.Free 0 5 ∧ x.linkState 0 5 = stDisabled)
    ∧ State.reset.heldOff 5 = false ∧ State.reset.heldOff 16 = true :=
  ⟨⟨_, free 0 5 stFull 0 (some 0) (by decide) (by decide +kernel), by decide +kernel⟩,
    ⟨_, free 32 16 stReduced 0 none (by decide) (by decide +kernel), by decide +kernel⟩,
    ⟨_, free 0 5 stDisabled 0 none (by decide) (by decide +kernel), by decide +kernel⟩, by decide +kernel⟩

/-- A fabric port's transmitter is on, and off. -/
def sendingState (x : Die) : State :=
  { onDie 32 x with boot := { State.reset.boot with cfg := [(cBootStatus, 0x200000)] } }

/-- Every phase of a fabric port, heard or not, phase 1 of a die link, and the links that are down or active. -/
theorem test_meets_TrainingPassesThroughItsPhases :
    List.Forall (fun k => (linkDie 16 stTraining k Link.reset).linkState 32 16 = stTraining
      ∧ (linkDie 16 stTraining k Link.reset).linkPhase 32 16 = k) [0, 1, 2, 3, 4, 5]
    ∧ ((linkDie 16 stTraining 1 Link.reset).link 16).heard = false
    ∧ (linkDie 16 stTraining 1 { Link.reset with heard := true }).linkState 32 16 = stTraining
    ∧ ((linkDie 16 stTraining 1 { Link.reset with heard := true }).link 16).heard = true
    ∧ (linkDie 16 stTraining 1 Link.reset).linkActive 32 16 = false
    ∧ (linkDie 5 stTraining 1 Link.reset).linkState 0 5 = stTraining ∧ (linkDie 5 stTraining 1 Link.reset).linkPhase 0 5 = 1
    ∧ (linkDie 16 stDown 0 Link.reset).linkState 32 16 = stDown ∧ (sendingState (linkDie 16 stDown 0 Link.reset)).heldOff 16 = false
    ∧ State.reset.heldOff 5 = false
    ∧ (linkDie 16 stFull 0 Link.reset).linkActive 32 16 = true ∧ ((linkDie 16 stFull 0 Link.reset).link 16).lockLostAt = none
    ∧ hasPort 32 16 = true ∧ isFabricPort 16 = true ∧ hasPort 0 5 = true ∧ isFabricPort 5 = false := by decide +kernel

/-! ## Control plane -/

/-- A request of die 0 for itself. -/
def reqAt (a n : Nat) (data : List Byte) : Request :=
  ⟨0, 32, 1, false, n, BitVec.ofNat 64 a, 5, data, 0, 0⟩

/-- The last bytes of the SRAM of tile 1, at every width that a request can have there. -/
theorem test_meets_AccessesToTileMemory :
    List.Forall (fun (e : CpOp × Request × Nat) =>
      let s := onDie 0 Die.reset
      (s.die 0).inReset = false ∧ (s.die 0).jobOn 0 = false ∧ s.accessStatus 0 e.1 e.2.1 = 0
      ∧ placeOf 0 (reqOff e.2.1) = some (.sram 1 e.2.2) ∧ (e.1 = .write → 4 ≤ e.2.1.length)
      ∧ Mem.wf ((s.die 0).tile 1).sram = true)
      [(.read, reqAt 0x1BFF00 256 [], 0xBFF00), (.read, reqAt 0x1BFFFF 1 [], 0xBFFFF),
        (.write, reqAt 0x1BFFFC 4 [1, 2, 3, 4], 0xBFFFC), (.addI32, reqAt 0x1BFFFC 4 [], 0xBFFFC),
        (.addI64, reqAt 0x1BFFF8 8 [], 0xBFFF8), (.addF32, reqAt 0x100000 4 [], 0)] := by decide +kernel

/-- The gap above the instruction store, a request longer than 256 bytes, and an access of a running die. -/
theorem test_meets_AccessesTurnedAwayOrDeferred :
    (onDie 0 Die.reset).accessStatus 0 .read (reqAt 0xD0000 4 []) ≠ 0
    ∧ (onDie 0 Die.reset).accessStatus 0 .read (reqAt 0 257 []) ≠ 0
    ∧ (onDie 0 jobDie).accessStatus 0 .read (reqAt 0 4 []) = 0 ∧ placeOf 0 (reqOff (reqAt 0 4 [])) = some (.sram 0 0)
    ∧ (Place.sram 0 0).tile = some 0 ∧ jobDie.jobOn 0 = true ∧ jobDie.inReset = false := by decide +kernel

/-- The module is in recovery. -/
def recoveryState : State :=
  { State.reset with boot := { State.reset.boot with cfg := [(cBootStatus, BitVec.ofNat 64 (3 * 2 ^ 29))] } }

def cpTo (dst tc opcode : Nat) : ControlPacket :=
  cpPacket { dst := dst, src := 1, tc := tc, epoch := 0, dlen := 0, opcode := opcode, tag := 7 } []

/-- The packet with a bit of its CHECK changed. -/
def badCheck (p : ControlPacket) : ControlPacket := { p with header := p.header ^^^ 1 }

/-- From die 0: to die 1 by an active link, to a die number that no die has, and to die 0 itself; from a port; and one
that waits on VC0. -/
theorem test_meets_ControlPacketsAndMessages :
    (let s := onDie 0 (linkDie 0 stFull 0 Link.reset);
      let o := fun p => cpOriginated ((s.die 0).field 0 rCpCtrl 0 0) p;
      (s.die 0).inReset = false ∧ hasPort 0 5 = true
      ∧ List.Forall (fun p => cpClean p = true ∧ (cpHeader p).opcode ≠ 0x40 ∧ p.data.length = cDlen p)
          [cpTo 1 1 1, cpTo 40 2 0x81, cpTo 0 2 0x81]
      ∧ (match s.cpRoute 0 (o (cpTo 1 1 1)), s.cpRoute 0 (cpTo 1 1 1) with
        | .out e _ _, .out g _ _ => e == 0 && g == 0
        | _, _ => false) = true
      ∧ (match s.cpRoute 0 (o (cpTo 40 2 0x81)) with
        | .error _ => !cpRequest (cpHeader (o (cpTo 40 2 0x81)))
        | _ => false) = true
      ∧ (match s.cpRoute 0 (o (cpTo 40 1 1)) with
        | .error _ => cpRequest (cpHeader (o (cpTo 40 1 1)))
        | _ => false) = true
      ∧ cpClean (cpTo 40 1 1) = true ∧ (cpTo 40 1 1).data.length = cDlen (cpTo 40 1 1)
      ∧ (match s.cpRoute 0 (badCheck (cpTo 0 1 1)) with
        | .deliver => !cpGood (badCheck (cpTo 0 1 1)) && cpRequest (cpHeader (badCheck (cpTo 0 1 1)))
        | _ => false) = true
      ∧ (match s.cpRoute 0 (o (cpTo 0 2 0x81)) with
        | .deliver => cpGood (o (cpTo 0 2 0x81)) && (cpHeader (o (cpTo 0 2 0x81))).tc == 2
            && decide (0x80 ≤ (cpHeader (o (cpTo 0 2 0x81))).opcode)
        | _ => false) = true)
    ∧ (let c : CpWait := ⟨cpTo 1 1 1, 3, 0, some 0⟩;
      let s := onDie 0 { linkDie 0 stFull 0 Link.reset with
        ns := 160, regs := (rCpEscapeTime, 160) :: (linkDie 0 stFull 0 Link.reset).regs
        links := [(5, { Link.reset with ctl := [c] })] };
      hasPort 0 5 = true ∧ (s.die 0).overdue 0 5 = some c
      ∧ (s.die 0).egressStatus 0 (escapeEgress (s.dieNumber 0) (cpHeader c.pkt).dst) = 0
      ∧ escapeEgress (s.dieNumber 0) (cpHeader c.pkt).dst ≠ 5)
    ∧ (let s := onDie 32 Die.reset;
      (s.die 32).inReset = false ∧ s.mgmtOn = true ∧ s.mgmt.queue.length < 8 ∧ isEDie 32 = true
      ∧ (reqAt 0 4 [0x31, 0, 0, 0]).data.length = 4 ∧ knownMessage ((reqAt 0 4 [0x31, 0, 0, 0]).data.getD 0 0) = true
      ∧ 32 ≤ (reqAt 0 4 []).src.toNat % 64 ∧ (reqAt 0 4 []).src.toNat % 64 < 40)
    ∧ (recoveryState.mgmtOn = false ∧ (recoveryState.die 32).inReset = false) := by decide +kernel

/-- E-die 32 with a host's read of 8 bytes outstanding. -/
def windowDie : Die := { Die.reset with outstanding := [⟨3, some (1, true, 8), false⟩] }

theorem test_meets_FabricWindowAndRequestEnds :
    (windowDie.inReset = false ∧ (windowDie.outstanding.find? (·.tag == 3)) = some ⟨3, some (1, true, 8), false⟩)
    ∧ (({ Die.reset with outstanding := [⟨3, none, false⟩] } : Die).outstanding.find? (·.tag == 3)) = some ⟨3, none, false⟩
    ∧ (let s := onDie 32 windowDie;
      s.germ.rails = .on ∧ (0xFFFFFF8 : BitVec 28).toNat % 8 = 0 ∧ s.inRecovery = false ∧ (s.die 32).inReset = false)
    ∧ (let s : State := { State.reset with boot := { State.reset.boot with cfg := [(cBootStatus, BitVec.ofNat 64 (3 * 2 ^ 29))] } };
      s.inRecovery = true ∧ (0x7FFFF8 : BitVec 28).toNat < 0x800000 ∧ (0x7FFFF8 : BitVec 28).toNat % 8 = 0
      ∧ s.fwStatus = 0 ∧ Mem.wf (s.port 1).recovery = true) := by decide +kernel

/-! ## Fabric time -/

/-- E-die 32 with these registers. -/
def core32 (regs : Table W64) : State := onDie 32 { Die.reset with regs := regs }

theorem test_meets_TimeIsSetAndLost :
    ((State.reset.die 32).inReset = false ∧ State.reset.anyJob = false)
    ∧ (onDie 0 jobDie).anyJob = true ∧ ((onDie 0 jobDie).die 32).inReset = false
    ∧ (2 : BitVec 2).toNat ≠ State.reset.source
    ∧ List.Forall (fun v => let s := core32 [(rServoCtrl, 0), (rServoStatus, BitVec.ofNat 64 (v * 2 ^ 30))];
        s.source ≠ 3 ∧ s.servoState = v) [svAcquiring, svLocked]
    ∧ (let s := onDie 32 { Die.reset with ns := 2000000, regs := [(rServoCtrl, 0), (rServoStatus, 0x80000000)] };
      s.source = 0 ∧ s.servoState = svLocked ∧ (s.die 32).inReset = false
      ∧ s.servo.lastSample + sourceWait s.source ≤ (s.die 32).timeNs)
    ∧ State.reset.servo.ref10m ≠ true
    ∧ (let s := core32 [(rPpsCtrl, 0x80000000)];
      (s.die 32).bit 32 rPpsCtrl 31 = true ∧ (s.die 32).inReset = false ∧ (s.die 32).ns = 0 ∧ s.servo.ppsHigh = false)
    ∧ (let s := onDie 32 { Die.reset with inReset := true, regs := [(rPpsCtrl, 0x80000000), (rPwrStatus, 0x60000000)] };
      (s.die 32).bit 32 rPpsCtrl 31 = true ∧ s.germOnly = true ∧ (s.die 32).timeNs / second + 1 < 2 ^ 64)
    ∧ (let s := { onDie 32 { Die.reset with ns := 100000000, regs := [(rPpsCtrl, 0x80640000)] } with
          servo := { State.reset.servo with ppsHigh := true } };
      s.servo.ppsHigh = true
      ∧ s.servo.ppsAt + (s.die 32).field 32 rPpsCtrl 23 16 * 1000000 ≤ (s.die 32).timeNs) := by
  decide +kernel

/-- A servo in ACQUIRING or LOCKED on each source; theta 0 lies inside the jump limit. -/
theorem test_meets_SamplesDriveTheServo :
    (let s := core32 [(rServoCtrl, 0x20000000), (rServoStatus, 0x40000000)];
      (s.die 32).inReset = false ∧ s.servoState = svAcquiring ∧ s.source = 2
      ∧ (0 : Int).natAbs ≤ 16 * (s.die 32).field 32 rJump 15 0
      ∧ 16 * (s.die 32).field 32 rJump 15 0 < (8000000000 : Int).natAbs ∧ s.servo.stepAllow = false)
    ∧ (let s := { core32 [(rServoCtrl, 0x10000000), (rServoStatus, 0x80000000)] with
          mgmt := { State.reset.mgmt with inForce := [(2, 0)] }
          servo := { State.reset.servo with ptpDelay := some 0, ptpSync := some (7, ⟨0, 0⟩, none) } };
      s.servoState = svLocked ∧ s.source = 1 ∧ s.ptpTakes 0 = true ∧ s.ptpTakes 1 = false ∧ s.servo.ptpDelay = some 0
      ∧ s.servo.ptpSync = some (7, ⟨0, 0⟩, none))
    ∧ (let s := { core32 [(rServoCtrl, 0x10000000), (rServoStatus, 0x80000000)] with
          mgmt := { State.reset.mgmt with inForce := [(2, 0)] }
          servo := { State.reset.servo with ptpSync := some (7, ⟨0, 0⟩, some ⟨0, 0⟩), ptpLast := some (⟨0, 0⟩, ⟨0, 0⟩) } };
      s.source = 1 ∧ s.ptpTakes 0 = true ∧ s.servo.ptpLast = some (⟨0, 0⟩, ⟨0, 0⟩) ∧ s.servo.ptpSync = some (7, ⟨0, 0⟩, some ⟨0, 0⟩))
    ∧ (let s : State := { State.reset with servo := { State.reset.servo with ptpLast := some (⟨0, 0⟩, ⟨0, 0⟩) } };
      s.servo.ptpSync = none ∧ s.servo.ptpLast = some (⟨0, 0⟩, ⟨0, 0⟩)) := by decide +kernel

/-- A TIME_EXCHANGE packet from die 1 with an empty payload. -/
def exchangePacket : ControlPacket :=
  ⟨3121748550315992231381597394335945234039020415819528703546195571261351196589252816399681436059981335361821695731965175032006968064145734350089575, [0]⟩

theorem exchange_check : cpCheck exchangePacket.header.toNat exchangePacket.data = cField exchangePacket 31 0 := by
  rw [cpCheck, crc32, ← crcForced_eq]
  decide +kernel

theorem exchange_bad : cpGood (badCheck exchangePacket) = false := by
  have h : cpCheck (badCheck exchangePacket).header.toNat (badCheck exchangePacket).data = cField exchangePacket 31 0 := by
    rw [cpCheck, crc32, ← crcForced_eq]
    decide +kernel
  rw [cpGood, h]
  decide +kernel

theorem exchange_good : cpGood exchangePacket = true := by rw [cpGood, exchange_check, beq_self_eq_true]

/-- Fabric port 0, monitored by its table, whose exchange follows 0xFFFF, and a die link in a hold. -/
theorem test_meets_ExchangesAreRecorded :
    (let s := onDie 32 { Die.reset with
        regs := [(rLink + 0x200 * 16 + lStatus, 0x40000000), (rLink + 0x200 * 16 + lDelay, 0x80000000), (rNbr0, 1)]
        links := [(16, { Link.reset with rxXseq := some 0xFFFF })] };
      (s.die 32).inReset = false ∧ hasPort 32 16 = true ∧ (s.die 32).linkActive 32 16 = true ∧ s.role false 0 = 1
      ∧ ((Stamp.total ((s.die 32).link 16).rxStamp : Int) - xPrevTx 0 - 4 * bitsOf ((s.die 32).lreg 32 16 lDelay) 23 0
          - sextInt 16 ((s.die 32).field 32 rPortAsym 15 0)).natAbs ≤ 96
      ∧ BitVec.ofNat 16 (xXseq 0) = (0xFFFF : BitVec 16) + 1 ∧ xResent 0 = false ∧ xHeld 0 = false ∧ xSteps 0 ≠ 15
      ∧ bitOf ((s.die 32).lreg 32 16 lDelay) 31 = true)
    ∧ hasPort 0 5 = true ∧ isFabricPort 5 = false ∧ (linkDie 5 stFull 0 Link.reset).linkActive 0 5 = true
    ∧ xHeld (BitVec.ofNat 512 (2 ^ 18)) = true
    ∧ cField exchangePacket 389 382 = 0x40 ∧ exchangePacket.data = [0] ∧ cpGood exchangePacket = true
    ∧ (badCheck exchangePacket).data = exchangePacket.data
    ∧ cField (badCheck exchangePacket) 389 382 = 0x40 ∧ cpGood (badCheck exchangePacket) = false :=
  ⟨by decide +kernel, by decide +kernel, by decide +kernel, by decide +kernel, by decide +kernel, by decide +kernel, by decide +kernel,
    exchange_good, by decide +kernel, by decide +kernel, exchange_bad⟩

/-! ## Registers and snapshots -/

theorem test_meets_RegistersAreWrittenAndRead :
    List.Forall (fun off => off ∈ plainRegs ∧ Die.reset.bit 0 rSnapCtrl 31 = false
      ∧ ∃ r, dieReg 0 off = some r ∧ (1 : W64) &&& ~~~r.rw = 0) plainRegs
    ∧ ((0x83FF00FF : W32) &&& ~~~0x83FF00FF = 0 ∧ State.reset.imageResident = false
      ∧ ({ State.reset with placed0 := some 0 } : State).imageResident = true)
    ∧ (let s := onDie 0 Die.reset;
      gatedTile ((s.die 0).reg 0 rSpareMap) 0 = false ∧ (s.tile t0).inUse = false
      ∧ (0x18000000 : W64) &&& ~~~(maskOf 28 16 ||| maskOf 12 0) = 0 ∧ s.germ.rails = .on ∧ s.inRecovery = false
      ∧ (maskOf 63 28) &&& ~~~(maskOf 63 28) = 0)
    ∧ ((onDie 0 jobDie).die 0).inReset = false ∧ ((onDie 0 jobDie).die 0).jobOn 0 = true
    ∧ gatedTile (((onDie 0 jobDie).die 0).reg 0 rSpareMap) 0 = false ∧ ((onDie 0 Die.reset).die 0).jobOn 0 = false
    ∧ ∃ r, dieReg 32 rServoStatus = some r ∧ rServoStatus < rShadow :=
  ⟨⟨⟨by decide, rfl, _, rfl, by decide +kernel⟩, ⟨by decide, rfl, _, rfl, by decide +kernel⟩,
      ⟨by decide, rfl, _, rfl, by decide +kernel⟩, ⟨by decide, rfl, _, rfl, by decide +kernel⟩,
      ⟨by decide, rfl, _, rfl, by decide +kernel⟩⟩, by decide +kernel, by decide +kernel, by decide +kernel,
    by decide +kernel, by decide +kernel, by decide +kernel, ⟨_, rfl, by decide⟩⟩

theorem test_meets_SnapshotsLatch :
    Die.reset.bit 0 rSnapCtrl 31 = false
    ∧ (let s := onDie 0 { jobDie with regs := [(rSnapNs, 15), (rSnapCtrl, 0x80000000)], tiles := [(0, Tile.reset)] };
      (s.die 0).inReset = false ∧ (s.die 0).bit 0 rSnapCtrl 31 = true
      ∧ ((s.die 0).reg 0 rSnapSec).toNat * second + (s.die 0).field 0 rSnapNs 29 0 < (s.die 0).timeNs + 16
      ∧ (s.die 0).batchDue 0 = none ∧ s.snaps = [])
    ∧ (let s := onDie 39 { Die.reset with regs := [(rSnapCtrl, 0x40000000)] };
      (s.die 39).inReset = false ∧ (s.die 39).bit 39 rSnapCtrl 30 = true ∧ s.snaps = []) := by decide +kernel

/-! ## Host rings -/

/-- A port with ring 63 on, with 16 entries, and a DMA window over every host address. -/
def ringPort : HostPort :=
  { State.reset.port1 with regs := [(bSqCfg + 0x20 * 63, 0x8004000F), (bCqCfg + 0x20 * 63, 0x80040000),
      (0x40000 + 0x1000 * 63, 8), (bDmaWin, 1), (bDmaWin + 8, 0xFFFFFFFFFFFFF000)] }

def r63 : RingRef := ⟨1, 63⟩

theorem test_meets_DoorbellsAndRings :
    (doorbellGood (ringPort.sqCfg 63) 0 = true ∧ doorbellGood (ringPort.sqCfg 63) 15 = true
      ∧ doorbellGood (ringPort.sqCfg 63) 16 = false ∧ doorbellGood (ringPort.cqCfg 63) 15 = true
      ∧ tgetD ringPort.owed 63 [] = [])
    ∧ (ringPort.cqFull 63 = false ∧ bitsOf (ringPort.sqCfg 63) 15 0 ≠ (0 : W32).toNat
      ∧ knownOpcode (descOpcode 0x32) = true
      ∧ ringPort.dmaAllowed (ringPort.reg (bSqBase + 0x20 * 63) + BitVec.ofNat 64
          (64 * bitsOf (ringPort.sqCfg 63) 15 0)).toNat 64 = true)
    ∧ (State.reset.inRecovery = false ∧ State.reset.served = true ∧ State.reset.taken = []
      ∧ tgetD ringPort.untaken 63 [] = [])
    ∧ ((0x80100000 : W32).setWidth 64 &&& ~~~(ringFields false) = 0 ∧ bitOf (0x80100000 : W32) 31 = true
      ∧ bitOf (State.reset.port0.sqCfg 0) 31 = false ∧ bitOf (ringPort.sqCfg 63) 31 = true
      ∧ (0 : W32).setWidth 64 &&& ~~~(ringFields false) = 0) := by decide +kernel

/-- A descriptor for the last context with these arguments. -/
def ctxDesc (args : BitVec 320) : Desc := ⟨0, 9, 0x3FFFF, 0, 0, 0, args⟩

/-- E-die 39 whose last context is `y`. -/
def ctxState (y : Ctx) : State :=
  onDie 39 { Die.reset with ctx := { CtxEngine.reset with records := [(32767, y)] } }

def entries4 : List CtxEntry := List.replicate 4 ⟨0, 64, 0, 0⟩

theorem test_meets_ContextCommands :
    (let s := ctxState Ctx.reset;
      (s.die 39).inReset = false ∧ (ctxDesc 0).context.toNat % 2 ^ 18 / 32768 = 7
      ∧ s.ready r63 (ctxDesc 0) = true ∧ cmdClean (ctxDesc 0) false = true ∧ openModify (ctxDesc 0) = false
      ∧ openGood (ctxDesc 0) = true ∧ cArg (ctxDesc 0) 0x3C 4 = 0
      ∧ ((s.die 39).ctx.ctx 32767).state = .idle ∧ openModify (ctxDesc 0x3F0301) = true ∧ openGood (ctxDesc 0x3F0301) = true
      ∧ argsClean (ctxDesc 0) [] = true ∧ entryGood (ctxDesc (BitVec.ofNat 320 (64 * 2 ^ 64))) = true
      ∧ (cmdClean (ctxDesc 1) false && entryGood (ctxDesc 1)) = false
      ∧ s.ready r63 { ctxDesc 0 with flags := 1, launchSec := 1 } = false)
    ∧ List.Forall (fun st => ((ctxState { Ctx.reset with state := st }).die 39).ctx.ctx 32767
        = { Ctx.reset with state := st }) [.queued, .faulted, .running, .held, .admitted]
    ∧ ((ctxState Ctx.reset).weights.loading = none ∧ (ctxState Ctx.reset).weights.rolling = none)
    ∧ (Ctx.reset.closing = none ∧ Ctx.reset.inputs.length < 4 ∧ Ctx.reset.outputs.length < 4)
    ∧ (let t : Taken := ⟨r63, 0, BitVec.ofNat 512 (0x03 + 2 ^ 8 + 9 * 2 ^ 16 + 0x3FFFF * 2 ^ 32 + 64 * 2 ^ 256), true⟩;
      let s := { ctxState Ctx.reset with taken := [t] };
      s.taken.find? (·.ring == r63) = some t ∧ bitOf t.words 8 = true ∧ descOpcode t.words = 0x03
      ∧ descOf t.words = { ctxDesc (BitVec.ofNat 320 (64 * 2 ^ 64)) with flags := 1 } ∧ s.ready r63 (descOf t.words) = true
      ∧ cmdClean (descOf t.words) false = true ∧ entryGood (descOf t.words) = true)
    ∧ entries4.length = 4 := by decide +kernel

/-- A descriptor of a module command. -/
def modDesc (args : Nat) : Desc := ⟨0, 9, 0, 0, 0, 0, BitVec.ofNat 320 args⟩

/-- Every die waits for an END; a START; a SNAPSHOT 200 us ahead. -/
theorem test_meets_SwitchEpochAndSnapshot :
    (State.reset.ready r63 (modDesc 0) = true ∧ cmdClean (modDesc 0) true = true
      ∧ argsClean (modDesc 0) [(9, 3), wholeArg 0x20 8, wholeArg 0x28 4] = true ∧ nsGood (modDesc 0) 0x28 = true
      ∧ switchBits (modDesc 0) / 2 = 0 ∧ ∀ d, d < 40 → (State.reset.die d).inReset = false)
    ∧ (let c := modDesc (3 * 2 ^ 10 + 1000016 * 2 ^ 128);
      let s : State := { State.reset with dies := allDies.map fun d => (d, jobDie) };
      s.ready r63 c = true ∧ cmdClean c true = true ∧ argsClean c [(9, 3), wholeArg 0x20 8, wholeArg 0x28 4] = true
      ∧ nsGood c 0x28 = true ∧ switchBits c / 2 = 3
      ∧ ∀ d, d < 40 → (s.die d).inReset = false
          ∧ (s.die d).timeNs + 1000016 ≤ cArg c 0x20 8 * second + cArg c 0x28 4 ∧ (s.die d).ns < second
          ∧ (s.die d).armed = none ∧ (s.die d).jobOn d = true)
    ∧ (let c := modDesc (200000 * 2 ^ 64);
      argsClean c [wholeArg 0x18 8, wholeArg 0x20 4] = true ∧ nsGood c 0x20 = true ∧ State.reset.snaps = []
      ∧ 15 + 100000 ≤ snapTime c) := by decide +kernel

theorem sign_ready (s : State) (msg : State → Nat → List Byte) (h : s.canSign = true) (n : s.idxNext ≠ s.idxReserved) :
    s.sign msg = (s.useIndex, some (msg s s.idxNext, identitySign s.flash.seeds s.idxNext (msg s s.idxNext))) := by
  simp [State.sign, h, n]

theorem attest_ready (s : State) (nonce : List Byte) (h : s.canSign = true) (n : s.idxNext ≠ s.idxReserved)
    (l : ¬ 2 ^ 40 - 1024 ≤ ((s.setCfg cIdxNext (BitVec.ofNat 64 (s.idxNext + 1))).bumpCfg cSignatures).idxNext) (k : nonce.length = 16) (f : s.flash.live recCertificate = none) :
    ∃ u bs, s.attest nonce = (u, some bs) ∧ bs.length = reportLength ∧ u.port0 = s.port0 ∧ u.port1 = s.port1 := by
  have u0 : s.useIndex.port0 = s.port0 ∧ s.useIndex.port1 = s.port1 := by
    unfold State.useIndex
    dsimp only
    rw [if_neg l]
    exact ⟨rfl, rfl⟩
  unfold State.attest
  rw [sign_ready s _ h n]
  refine ⟨_, _, rfl, ?_, u0⟩
  simp [State.reportBody, identitySign, Flash.serial, f, k, reportLength, beBytes]

/-- The identity signs, and a report of three bytes is kept. -/
def signState : State :=
  { State.reset with
    port1 := ringPort
    boot := { State.reset.boot with cfg := [(cBootStatus, 0x400000), (cIdxReserved, 1024)], report := [1, 2, 3] } }

theorem test_meets_LogsAndPowerByRing :
    (let c := modDesc (0x22 + 1 * 2 ^ 32 + 0x1000 * 2 ^ 64 + 2 * 2 ^ 128);
      signState.ready r63 c = true ∧ cmdClean c true = true ∧ logSelector c ≠ 0x20 ∧ argsClean c logArgs = true
      ∧ (signState.takeCmd r63 c).1.logContents (logSelector c) = some [1, 2, 3]
      ∧ logPiece [1, 2, 3] (logStart c) (logLength c) ≠ [] ∧ (signState.port 1).dmaAllowed (logAddr c) 2 = true)
    ∧ (let c := modDesc (0x20 + 0x1000 * 2 ^ 64 + reportLength * 2 ^ 128);
      signState.ready r63 c = true ∧ logSelector c = 0x20 ∧ argsClean c (wholeArg 0x30 16 :: logArgs) = true
      ∧ logStart c = 0 ∧ reportLength ≤ logLength c ∧ signState.canSign = true
      ∧ (signState.port 1).dmaAllowed (logAddr c) reportLength = true
      ∧ ∃ u bs, (signState.takeCmd r63 c).1.attest (logNonce c) = (u, some bs) ∧ bs.length = reportLength
        ∧ u.port0 = signState.port0 ∧ u.port1 = signState.port1)
    ∧ (let c := modDesc 0x100;
      argsClean c [wholeArg 0x18 1, (8, 1)] = true ∧ cArg c 0x18 1 = State.reset.pst ∧ State.reset.germ.move = .none
      ∧ State.reset.germ.latched = false ∧ cArg c 0x18 1 ≤ 4) :=
  ⟨by decide +kernel,
    ⟨by decide +kernel, by decide +kernel, by decide +kernel, by decide +kernel, by decide +kernel, by decide +kernel,
      by decide +kernel, attest_ready _ _ (by decide +kernel) (by decide +kernel) (by decide +kernel)
        (by simp [logNonce]) (by decide +kernel)⟩, by decide +kernel⟩

/-! ## Schedules and weights -/

/-- An image with one empty section, of kind 6 for die 0; its digest is that of SHAKE256 computed elsewhere. -/
def smallImage : List Byte :=
  leBytes 0x314C4341 4 ++ leBytes 1 2 ++ leBytes 1 2 ++ leBytes 120 8
    ++ leBytes 45046994248437643641499777670370896264354973618533096429759283502751653258687 32
    ++ leBytes 12 2 ++ leBytes 31 1 ++ leBytes 0 45 ++ leBytes 6 2 ++ leBytes 0 2 ++ leBytes 0xFFFF 2 ++ leBytes 0 2
    ++ leBytes 120 8 ++ leBytes 0 8

/-- Every link of the module is in this state, and in phase 1. -/
def linksState (st : Nat) : State :=
  { State.reset with dies := allDies.map fun d => (d, { Die.reset with
      regs := (portsOf d).map fun p => (rLink + 0x200 * p + lStatus, BitVec.ofNat 64 (st * 2 ^ 29 + 2 ^ 26)) }) }

def linkedState : State := linksState stFull

def someJob : LoadJob := ⟨⟨r63, 9, 0⟩, [], 0, false, .checking⟩

theorem test_small_image_loads : (match linkedState.checkLoad smallImage 0 true true with
  | (.pass, some _) => true
  | _ => false) = true := by decide +kernel

/-- A START of bank 1 is armed on die 0. -/
def armedState : State := onDie 0 { Die.reset with armed := some ⟨1, true, 16⟩ }

theorem test_meets_SchedulesLoad :
    (let c := modDesc (0x1000 + 120 * 2 ^ 64);
      let s := { State.reset with port1 := ringPort };
      s.ready r63 c = true ∧ s.entering = false ∧ loadClean c = true ∧ s.load = none
      ∧ (s.port r63.port).dmaAllowed (loadAddr c) (loadLength c) = true)
    ∧ (∀ b, ∃ (s : State) (j : LoadJob), s.load = some j ∧ j.stage = .checking ∧ j.linksDone = b)
    ∧ (allDies.any fun d => (armedState.die d).armedAgainst) = true
    ∧ (allDies.any fun d => (linkedState.die d).armedAgainst) = false ∧ linkedState.liveLoad = false
    ∧ (match linkedState.checkLoad [] 0 true true with
      | (.fail e, _) => e != 0
      | _ => false) = true
    ∧ (match (linksState stTraining).checkLoad smallImage 0 true true with
      | (.wait, none) => true
      | _ => false) = true :=
  ⟨by decide +kernel, fun b => ⟨{ State.reset with load := some { someJob with linksDone := b } }, _, rfl, rfl, rfl⟩,
    by decide +kernel⟩

/-- The manifest of set 1 in slot 63, version 2, with one layer and no shard. -/
def manifestBytes : List Byte :=
  leBytes 0x464E4D57 4 ++ leBytes 1 2 ++ leBytes 63 2 ++ leBytes 2 4 ++ leBytes 1 4 ++ leBytes 0 8 ++ leBytes 1 4 ++ leBytes 0 4

def smallManifest : Manifest := ⟨1, 63, 2, 1, 1, [], []⟩

def weightArgs (more : Nat) : Desc := modDesc (0x1000 + 32 * 2 ^ 64 + more)

def weightCmd (more : Nat) : WeightCmd := { ring := r63, desc := weightArgs more, manifest := .bytes manifestBytes }

/-- Version 1 of the set is resident in its slot. -/
def oldSet : WeightSet := ⟨1, 63, 1, 1, 0, false, false, [], []⟩

def weightState (sets : List WeightSet) (j : Journal) : State :=
  { State.reset with port1 := ringPort, weights := { State.reset.weights with sets := sets, journal := j } }

theorem weight_ready (more : Nat) (roll : Bool) (sets : List WeightSet) (j : Journal)
    (h : (weightState sets j).ready r63 (weightArgs more) = true) (c : weightClean (weightArgs more) roll = true)
    (d : ringPort.dmaAllowed (cArg (weightArgs more) 0x18 8) (cArg (weightArgs more) 0x20 4) = true)
    (m : parseManifest (manifestBytes.take (cArg (weightArgs more) 0x20 4)) = some smallManifest) :
    (weightState sets j).WeightReady (weightCmd more) roll smallManifest :=
  ⟨h, c, rfl, by cases roll <;> rfl, d, ⟨_, rfl, m⟩⟩

theorem roll_ready (more : Nat) (j : Journal)
    (r : (weightState [oldSet] j).WeightReady (weightCmd more) true smallManifest)
    (h : let s := weightState [oldSet] j;
      (s.weights.loading.any fun j => sameSet j.set (s.setOf (weightCmd more) smallManifest)) = false
      ∧ s.weights.find (s.setOf (weightCmd more) smallManifest) = some oldSet ∧ s.slotTaken smallManifest = false
      ∧ s.badShard smallManifest (weightPlace (weightArgs more)) = none) :
    (weightState [oldSet] j).RollReady (weightCmd more) smallManifest oldSet :=
  ⟨r, h.1, h.2.1, ⟨h.2.2.1, rfl⟩, h.2.2.2⟩

def noJournal : Journal := State.reset.weights.journal

/-- The journal of a roll of set 1 from version 1 to version 2 (or from 2 to 3) that stopped. -/
def rollJournal (fromV : W32) : Journal := ⟨5, 1, 1, 63, fromV, fromV + 1, 1, 0⟩

theorem test_meets_WeightSetsLoadAndRoll :
    (let s := weightState [] noJournal;
      s.WeightReady (weightCmd 0) false smallManifest ∧ weightUnload (weightArgs 0) = false
      ∧ s.weights.isRolled (s.setOf (weightCmd 0) smallManifest) = false ∧ s.slotTaken smallManifest = false
      ∧ s.badShard smallManifest (weightPlace (weightArgs 0)) = none
      ∧ s.weights.find (s.setOf (weightCmd 0) smallManifest) = none)
    ∧ (let s := weightState [oldSet] noJournal;
      s.WeightReady (weightCmd (2 ^ 128)) false smallManifest ∧ weightUnload (weightArgs (2 ^ 128)) = true
      ∧ s.weights.rolling = none ∧ s.weights.journal.state = 0
      ∧ s.weights.find (s.setOf (weightCmd (2 ^ 128)) smallManifest) = some oldSet ∧ oldSet.wsid.toNat ≠ adapterWsid)
    ∧ ((weightState [oldSet] noJournal).RollReady (weightCmd 0) smallManifest oldSet ∧ rollMode (weightArgs 0) = 0
      ∧ oldSet.mixed = false)
    ∧ (let s := weightState [oldSet] (rollJournal 1);
      s.RollReady (weightCmd (2 ^ 136)) smallManifest oldSet ∧ rollMode (weightArgs (2 ^ 136)) = 1
      ∧ (s.weights.rolling.all fun j => sameSet j.set (s.setOf (weightCmd (2 ^ 136)) smallManifest)) = true
      ∧ s.weights.rolling = none ∧ s.stoppedRoll oldSet = true ∧ (s.setOf (weightCmd (2 ^ 136)) smallManifest).version = s.weights.journal.toV)
    ∧ (let s := weightState [oldSet] (rollJournal 2);
      s.RollReady (weightCmd (2 ^ 137)) smallManifest oldSet ∧ rollMode (weightArgs (2 ^ 137)) = 2
      ∧ (s.weights.rolling.all fun j => sameSet j.set (s.setOf (weightCmd (2 ^ 137)) smallManifest)) = true
      ∧ s.stoppedRoll oldSet = true ∧ (s.setOf (weightCmd (2 ^ 137)) smallManifest).version = s.weights.journal.fromV)
    ∧ (let j : WeightJob :=
        { cmd := ⟨r63, 9, 0⟩, waiting := true, reader := true, set := { oldSet with version := 2 }, sends := [] };
      let s := { State.reset with weights := { State.reset.weights with sets := [oldSet], rolling := some j } };
      s.weights.rolling = some j ∧ j.waiting = true ∧ s.inFlight j.set.wsid = false
      ∧ s.weights.find j.set = some oldSet) :=
  ⟨⟨weight_ready _ _ _ _ (by decide +kernel) (by decide +kernel) (by decide +kernel) (by decide +kernel), by decide +kernel⟩,
    ⟨weight_ready _ _ _ _ (by decide +kernel) (by decide +kernel) (by decide +kernel) (by decide +kernel), by decide +kernel⟩,
    ⟨roll_ready _ _ (weight_ready _ _ _ _ (by decide +kernel) (by decide +kernel) (by decide +kernel) (by decide +kernel))
        (by decide +kernel), by decide +kernel⟩,
    ⟨roll_ready _ _ (weight_ready _ _ _ _ (by decide +kernel) (by decide +kernel) (by decide +kernel) (by decide +kernel))
        (by decide +kernel), by decide +kernel⟩,
    ⟨roll_ready _ _ (weight_ready _ _ _ _ (by decide +kernel) (by decide +kernel) (by decide +kernel) (by decide +kernel))
        (by decide +kernel), by decide +kernel⟩,
    by decide +kernel⟩

/-! ## Batches -/

/-- A batch of 256 beats with one slot, emitted in its last beat, and one record flit each way. -/
def batch : BatchSched :=
  ⟨256, 0, 64, 64, 200, [⟨5, true, 255, mkHeader 0 0 0 0 0 0 1 0 0 0 0⟩]⟩

/-- E-die 39 in beat `k` of a job, with that schedule. -/
def batchDie (k : Nat) (started : Bool) (sl : SlotState) (y : Ctx) : Die :=
  { jobDie with
    job := { Job.reset with beat := k, ran := k }
    ctx := { CtxEngine.reset with
      sched0 := some batch, started := started, slots := [(0, sl)], records := [(32767, y)] } }

theorem batching (k : Nat) (b : Bool) (sl : SlotState) (y : Ctx) :
    (onDie 39 (batchDie k b sl y)).Batching 39 batch :=
  ⟨rfl, (by decide +kernel : ({ jobDie with hold := Hold.reset } : Die).inJobBeat 39 = true), rfl⟩

def freeSlot : SlotState := ⟨none, none, false, false, false, false, false, false, 0, 0⟩
def fullSlot : SlotState := { freeSlot with ctx := some 32767 }

theorem test_meets_BatchesBeginAndEmit :
    (∃ s : State, s.Batching 39 batch ∧ batch.batchAt (s.die 39).job.beat = some 0 ∧ (s.die 39).ctx.started = false)
    ∧ (∃ s : State, s.Batching 39 batch ∧ (s.die 39).ctx.started = true ∧ (s.die 39).ctx.resDone = false
      ∧ (s.die 39).batchOffset batch = batch.resSel
      ∧ (bitOf (s.die 39).ctx.ctrlInForce 0 = false ∨ s.stillAdmits (s.die 39).ctx = false))
    ∧ List.Forall (fun sl => (onDie 39 (batchDie 255 true sl Ctx.reset)).Batching 39 batch
        ∧ (batchDie 255 true sl Ctx.reset).ctx.started = true ∧ (batch.entries[0]?).isSome = true
        ∧ (batchDie 255 true sl Ctx.reset).ctx.slot 0 = some sl ∧ sl.emitted = false ∧ sl.owed = false
        ∧ (batchDie 255 true sl Ctx.reset).batchOffset batch = 255)
      [{ fullSlot with record := some [0] }, freeSlot, { fullSlot with failed := true }, fullSlot] :=
  ⟨⟨_, batching 0 false freeSlot Ctx.reset, by decide +kernel⟩,
    ⟨_, batching 200 true freeSlot Ctx.reset, by decide +kernel⟩,
    ⟨⟨batching _ _ _ _, by decide +kernel⟩, ⟨batching _ _ _ _, by decide +kernel⟩, ⟨batching _ _ _ _, by decide +kernel⟩,
      ⟨batching _ _ _ _, by decide +kernel⟩⟩⟩

/-- A header of a result packet of two flits, and its flit `i` in the link switch. -/
def resHeader : Header := mkHeader 0 0 0 0 0 0 1 0 0 0 0

def stored (h : Header) (i : Nat) (v : Flit) (egress due : Nat) : QFlit := ⟨h, i, v, 0, 0, false, 288, egress, due, 0, 0⟩

/-- The result flit of the context: 64 bytes. -/
def resultFlit : Flit := BitVec.ofNat 512 (7 * 2 ^ 15 + 32767 + 64 * 2 ^ 64)

def outCtx : Ctx := { Ctx.reset with state := .running, outputs := [⟨0x1000, 64, 0, 1⟩] }

def outState : State :=
  { onDie 39 { batchDie 255 true fullSlot outCtx with
      relay := [stored resHeader 0 resultFlit egDeliver 255, stored resHeader 1 0 egDeliver 255] } with port1 := ringPort }

theorem test_meets_RecordsAndResults :
    (∃ s : State, s.Batching 39 batch ∧ (s.die 39).ctx.slot 0 = some fullSlot ∧ fullSlot.ctx = some 32767
      ∧ fullSlot.record = none ∧ fullSlot.failed = false ∧ fullSlot.owed = false ∧ [(0 : Flit)].length = batch.inBytes / 64)
    ∧ outState.Batching 39 batch
    ∧ (match (outState.die 39).resultFate 39 resHeader [resultFlit, 0] with
      | .accept b n c sl f => b == batch && n == 0 && c == 32767 && sl == fullSlot && f == resultFlit
      | _ => false) = true
    ∧ ((outState.die 39).arrival resHeader [resultFlit, 0] 4).isSome = true ∧ fullSlot.inGone = false
    ∧ ((outState.die 39).ctx.ctx 32767).outputs = [⟨0x1000, 64, 0, 1⟩] ∧ 0 < batch.outBytes ∧ 0 < resBytes resultFlit
    ∧ ((outState.die 39).ctx.ctx 32767).closing = none
    ∧ (outState.port 1).dmaAllowed 0x1000 (min (resBytes resultFlit) batch.outBytes) = true :=
  ⟨⟨_, batching 255 true fullSlot Ctx.reset, by decide +kernel⟩,
    ⟨rfl, (by decide +kernel : ({ jobDie with hold := Hold.reset } : Die).inJobBeat 39 = true), rfl⟩, by decide +kernel⟩

/-! ## Memory -/

/-- A transfer of 32 units in the die's beat. -/
def xfer (k : XferKind) (late : Bool) : Xfer :=
  { beat := 0, order := 1, time := 0, tile := 288, serial := 0, unit := 0, units := 32, kind := k, bound := none
    wsel := none, late := late, got := [] }

def xferState (t : Xfer) (used : Nat) : State :=
  onDie 0 { jobDie with mem := { MemCtl.reset with xfers := [t], used := used } }

/-- 256 of 288 units are used when 32 more are due, written, read, or late; with 257 used they cannot be performed. -/
theorem test_meets_TransfersMoveUnits :
    List.Forall (fun (e : XferKind × Bool) =>
      let t := xfer e.1 e.2
      (xferState t 256).Performs 0 t e.2 ∧ (if e.2 then t else (xferState t 256).fixXfer 0 t).kind = e.1
      ∧ t.got = [] ∧ (e.1 = .write (List.replicate 32 7) ∨ e.1 = .read 0))
      [(.write (List.replicate 32 7), false), (.read 0, false), (.write (List.replicate 32 7), true), (.read 0, true)]
    ∧ (let t := xfer (.read 0) false;
      let s := xferState t 257;
      let x := s.die 0;
      x.inReset = false ∧ x.inJobBeat 0 = true ∧ (x.beatNow, 5) ∉ x.hold.raised
      ∧ (x.mem.xfers.find? fun a => !a.late && decide (a.beat ≤ x.beatNow)) = some t
      ∧ ¬(t.beat = x.beatNow ∧ x.canPerform 0 (s.fixXfer 0 t) (memCapacity 0 - x.memUsed) = true
        ∧ x.xferBlocked t = false)) :=
  ⟨⟨⟨⟨rfl, by decide +kernel, by decide +kernel, by decide +kernel, by decide +kernel, by decide +kernel⟩,
        by decide +kernel⟩,
      ⟨⟨rfl, by decide +kernel, by decide +kernel, by decide +kernel, by decide +kernel, by decide +kernel⟩,
        by decide +kernel⟩,
      ⟨⟨rfl, by decide +kernel, by decide +kernel, by decide +kernel, by decide +kernel, by decide +kernel⟩,
        by decide +kernel⟩,
      ⟨⟨rfl, by decide +kernel, by decide +kernel, by decide +kernel, by decide +kernel, by decide +kernel⟩,
        by decide +kernel⟩⟩, by decide +kernel⟩

/-- A write of the last unit of the memory, by region 3, whose flit is here in the beat that it reserved, and one that
no image reserves. -/
theorem test_meets_IntakeEmissionMaintenance :
    (let h := mkHeader 0 0x1FF 1 0 0 0 0 0 0 (memUnits 0 - 1) 0;
      let x := fun g => { jobDie with
        job := { Job.reset with beat := 2 }, relay := [{ stored h 0 7 g 2 with src := 216 }] };
      (x egDeliver).inReset = false ∧ (x egDeliver).jobOn 0 = true
      ∧ ((x egDeliver).arrival h [7] ((some (3 : Fin 4)).elim 4 (·.val))).any (fun a =>
          (a.reserved && intakeGood 0 h [7]) && !a.late && decide ((x egDeliver).beatNow ≤ a.due)) = true
      ∧ ((x egNone).arrival h [7] ((some (3 : Fin 4)).elim 4 (·.val))).any (fun a => !(a.reserved && intakeGood 0 h [7])) = true)
    ∧ (let e : Emit := ⟨0, mkHeader 0 0 0 0 0 0 0 0 0 0 0, [7], false⟩;
      let s := onDie 0 { jobDie with
        mem := { MemCtl.reset with emits := [e] }
        regs := [(rBeatCtrl, 0xB1F01), (rRoute0, BitVec.ofNat 64 (2 ^ 63 + egDeliver * 2 ^ 52))] };
      ((s.die 0).mem.emits.find? fun e => e.late || ((s.die 0).hold.slot.isNone && decide (e.beat ≤ (s.die 0).beatNow)))
        = some e ∧ s.headerGood 0 (emitHeader e.hdr false (e.beat - (s.die 0).job.base)) = true)
    ∧ ((onDie 0 { jobDie with mem := { MemCtl.reset with blackout := [(7, 1)] } }).die 0).inBlackout 7 = true
    ∧ (∀ b ∈ ((onDie 0 { jobDie with mem := { MemCtl.reset with blackout := [(7, 1)] } }).die 0).mem.blackout,
        b.1 = 7 → b.2 ≤ 1)
    ∧ (let x := { jobDie with
        job := { Job.reset with beat := 63 }, teleNext := 4, deferred := [.register (.tile t0 0) false none] };
      x.inReset = false ∧ x.isMaint 0 = true ∧ x.maintDone = false ∧ x.behind = false
      ∧ (∀ w ∈ x.deferred, w = .register (.tile t0 0) false none)
      ∧ x.teleNext < sensors 0) := by
  decide +kernel

/-- Shard 0 of die 0: 64 bytes at unit 0. -/
def shardHeader : List Byte :=
  leBytes 0x53444853 4 ++ leBytes 1 4 ++ leBytes 2 4 ++ leBytes 0 4 ++ leBytes 64 4 ++ leBytes 0 12 ++ leBytes 0 32

def shardSet (verified : Bool) : WeightSet := { oldSet with shards := [⟨shardHeader, 0, verified, 2⟩] }

theorem test_meets_ShardsAreChecked :
    (Die.reset.inReset = false ∧ Die.reset.field 0 rShardStatus 31 29 ≠ 1 ∧ shardHeaderGood 0 shardHeader = true)
    ∧ (let s := onDie 0 { Die.reset with regs := [(rShardStatus, 0x20000000)], mem := { MemCtl.reset with check := words8 shardHeader, checkRead := [7] } };
      (s.die 0).field 0 rShardStatus 31 29 = 1 ∧ (s.die 0).checkRead = true ∧ s.weights.shardOf 0 (shardBytes (s.die 0).mem.check) = none)
    ∧ (let w := { State.reset.weights with sets := [shardSet false] };
      w.shardOf 0 shardHeader = some (shardSet false, ⟨shardHeader, 0, false, 2⟩) ∧ w.rolling = none ∧ w.loading = none)
    ∧ (let g : ShardSend := { header := shardHeader, dest := 0, stage := .status, resends := 2 };
      let j : WeightJob := { cmd := ⟨r63, 9, 0⟩, waiting := false, reader := true, set := shardSet false, sends := [g] };
      let w := { State.reset.weights with sets := [shardSet false], loading := some j };
      w.allSends[0]? = some (false, 0, g) ∧ g.resends < ((core32 [(rWtCtrl, 0x03000000)]).die 32).field 32 rWtCtrl 31 24
      ∧ ((core32 [(rWtCtrl, 0x02000000)]).die 32).field 32 rWtCtrl 31 24 ≤ g.resends)
    ∧ (let s := { core32 [(rWtCtrl, 0x10000)] with weights := { State.reset.weights with sets := [shardSet true] } };
      s.weights.allShards[0]? = some (shardSet true, ⟨shardHeader, 0, true, 2⟩) ∧ (s.die 32).field 32 rWtCtrl 23 16 ≠ 0
      ∧ (shardSet true).rolling = false ∧ s.weights.jobOf (shardSet true) = none ∧ (s.die 0).inReset = false
      ∧ (s.die 0).field 0 rShardStatus 31 29 ≠ 1 ∧ shardHeader.length = 64 ∧ (⟨shardHeader, 0, true, 2⟩ : Shard).die < 40) := by decide +kernel

/-! ## Power and reset -/

/-- E-die 32 with these registers, and this germ. -/
def germState (regs : Table W64) (g : Germ) : State := { core32 regs with germ := g }

def pstReg (n : Nat) : Table W64 := [(rPwrStatus, BitVec.ofNat 64 (n * 2 ^ 29))]

def g0 : Germ := State.reset.germ

theorem test_meets_InputSamplesAndTrips :
    (g0.rails = .on ∧ g0.rails ≠ .lost ∧ g0.warm = [])
    ∧ 4200 * 65536 ≤ (48 * 256 : BitVec 16).toNat * (22400 : BitVec 16).toNat
    ∧ (let s := germState [] { g0 with lowRun := 10 }; s.germ.rails ≠ .lost ∧ s.inputFailed = true)
    ∧ (let s := germState [] { g0 with underRun := some (1001, 37 * 256) }; s.inputFailed = true)
    ∧ (let s := germState [(rPwrInput, BitVec.ofNat 64 ((54 * 256 + 1) * 2 ^ 16))] g0;
      s.germ.rails = .on ∧ s.overvoltage = true)
    ∧ (let s := germState [] { g0 with overRun := some (1001, 51 * 256) }; s.germ.rails = .on ∧ s.overvoltage = true)
    ∧ (hasSensor 31 4 = true ∧ hasSensor 39 1 = true ∧ hasSensor 39 2 = false ∧ 1680 ≤ sensorTemp 1680
      ∧ 1760 ≤ sensorTemp 1760 ∧ 1600 ≤ sensorTemp 1600 ∧ sensorTemp 1519 < 1520)
    ∧ (let s := germState (pstReg 1) { g0 with clampRun := 1000 }; s.germ.rails = .on ∧ 1000 ≤ s.germ.clampRun ∧ s.pst = 1) := by
  decide +kernel

/-- A power-on reset by the pin from P4 and after a trip with 48 V at the input. -/
theorem test_meets_ResetsAndBoot :
    (∃ s : State, s.germ.rails = .p4)
    ∧ (let s := germState [(rPwrInput, 0x30000000)] { g0 with rails := .tripped };
      s.germ.rails = .tripped ∧ s.tripOver = true)
    ∧ (let s := germState [(rPwrInput, 0x30000000)] { g0 with rails := .tripped, warm := [(0, 1440)] };
      s.germ.rails = .tripped ∧ s.tripOver = false)
    ∧ (State.reset.germ.rails = .on ∧ State.reset.boot.programming = none ∧ (State.reset.die 32).inReset = false
      ∧ State.reset.bootState ≠ 1)
    ∧ List.Forall (fun d => let s := onDie d { Die.reset with inReset := true };
        (s.die d).inReset = true ∧ s.mayRelease d = true) [0, 31, 39]
    ∧ State.reset.heldOff 5 = false ∧ (sendingState Die.reset).heldOff 16 = false
    ∧ (let s := { onDie 39 { Die.reset with inReset := true } with
          boot := { State.reset.boot with cfg := [(cBootStatus, 0x20000000)] } };
      s.bootState = 1 ∧ (s.die 39).inReset = true ∧ s.germ.rails = .on ∧ (s.die 32).inReset = false)
    ∧ (State.reset.bootState ≠ 3 ∧ State.reset.bootState ≠ 4) :=
  ⟨⟨{ State.reset with germ := { g0 with rails := .p4 } }, rfl⟩, by decide +kernel⟩

theorem test_meets_PowerStatesChange :
    List.Forall (fun n => (germState [] { g0 with move := .entering n }).germ.move = .entering n
      ∧ (germState [] { g0 with move := .entering n }).germ.asked = [] ∧ 1 ≤ n
      ∧ (germState [] { g0 with move := .entering n }).commandRuns = false
      ∧ (germState [] { g0 with move := .entering n }).mayLeaveRun = true) [1, 2, 3, 4]
    ∧ (let s := core32 [(rIdleCtrl, 0xB0000000)];
      (s.die 32).field 32 rIdleCtrl 30 28 = 3 ∧ s.germ.rails = .on ∧ s.germ.move = .none
      ∧ s.germ.latched = false ∧ (s.die 32).bit 32 rIdleCtrl 31 = true ∧ s.pst < 3 ∧ s.commandRuns = false ∧ s.mayLeaveRun = true)
    ∧ (State.reset.WakeSource (.wakeN 1000) 3 ∧ (germState (pstReg 3) g0).WakeSource (.wakePatternDetected 15) 31
      ∧ (germState [] { g0 with move := .entering 3 }).WakeSource (.electricalIdleExit 1) 1)
    ∧ (let s := germState [(rPwrStatus, 0x60000000), (rWakeEn, 0xFFFF000B)] g0;
      (s.die 32).bit 32 rWakeEn 31 = true ∧ (s.die 32).bit 32 rWakeEn 2 = false ∧ s.germ.move = .none ∧ s.germ.latched = false
      ∧ s.pst ≠ 0)
    ∧ (State.reset.pst = 0 ∧ (sendingState Die.reset).txOn = true ∧ (2 : BitVec 2).getLsbD 1 = true
      ∧ (State.reset.die 39).linkActive 39 31 = false)
    ∧ (let s := germState [] { g0 with latched := true }; s.germ.rails = .on ∧ s.germ.latched = true ∧ s.germ.move = .none)
    ∧ (let s := germState [] { g0 with move := .restoring }; s.germ.move = .restoring ∧ s.germ.asked = []
      ∧ s.trimmed 0 = true) :=
  ⟨by decide +kernel, by decide +kernel, ⟨.inl ⟨_, rfl, Nat.le_refl _, rfl, rfl⟩,
      .inr (.inl ⟨15, rfl, by decide +kernel, rfl⟩), .inr (.inr ⟨1, rfl, by decide +kernel, rfl⟩)⟩, by decide +kernel⟩

theorem test_meets_PortsResetAndLinkUp :
    (∃ (p : Fin 2) (i : Instr), (true = false ∧ (i = .perstAssert p ∨ i = .hotReset p ∨ i = .pcieLinkLoss p))
      ∨ (true = true ∧ i = .functionLevelReset p))
    ∧ (∃ (p : Fin 2) (i : Instr), (false = false ∧ (i = .perstAssert p ∨ i = .hotReset p ∨ i = .pcieLinkLoss p))
      ∨ (false = true ∧ i = .functionLevelReset p))
    ∧ State.reset.germ.rails = .on ∧ State.reset.asleep = false :=
  ⟨⟨0, _, .inr ⟨rfl, rfl⟩⟩, ⟨1, _, .inl ⟨rfl, .inr (.inr rfl)⟩⟩, rfl, by decide +kernel⟩

/-! ## Firmware, identity and management -/

/-- A firmware image with an empty body, whose digest is the published SHAKE256 of no bytes. -/
def fwImage : List Byte :=
  leBytes 0x4D574654 4 ++ leBytes 7 4 ++ leBytes (0x40 + 2820) 4 ++ leBytes 0 4
    ++ leBytes 0x2f76d56e64270cb5821bb862ea52cd3f24eb3e74eb3f3b23138da80b2bddb946 32 ++ leBytes 0 16 ++ leBytes 0 2820

theorem test_firmware_image_passes (h : Config.signatureGood 0 (fwImage.take 0x40)
    ((fwImage.drop (0x40 + fwBody fwImage)).take 2820) = true) : fwTest fwImage 0 = 0 := by
  unfold fwTest
  dsimp only
  rw [if_neg (by decide +kernel), if_neg (by decide +kernel), if_neg (by decide +kernel), h]
  decide +kernel

/-- A factory map whose first region has no spare cluster left. -/
def mapRecord : Record :=
  { type := BitVec.ofNat 16 recMap, signer := 0, seq := 1, subject := 0xFFFF, payload := List.replicate 256 9
    sig := List.replicate 2820 0 }

def mapFlash : Flash := { State.reset.boot.flash with factory := [mapRecord], banks := [] }

theorem test_no_spare_left (h : Config.signatureGood 1 mapRecord.message mapRecord.sig = true) :
    spareEntry (mapFlash.mapEntry 31 3) 0 = none := by
  have g : mapFlash.good mapRecord = true := by
    rw [Flash.good, Record.factoryGood, h]
    decide +kernel
  have l : mapFlash.live recMap = some mapRecord := by
    rw [Flash.live, Flash.liveAll, show mapFlash.records = [mapRecord] from rfl, List.filter_cons_of_pos g]
    decide +kernel
  rw [Flash.mapEntry, l]
  decide +kernel

/-- A message on the first PCIe port. -/
def pcieMsg (args : List Byte) : MgmtMsg := { path := .pcie0, tag := 7, args := args, vendor := Config.vendorId }

theorem pcie_fits (args : List Byte) (n : args.length ≤ 249) : messageFits (pcieMsg args) = true := by
  have h : 7 + args.length ≤ 256 := by omega
  simp [messageFits, pcieMsg, MgmtPath.isMctp, h]

theorem serves (s : State) (c : Byte) (args : List Byte) (h : s.mgmtOn = true) (q : s.mgmt.queue = [])
    (n : args.length ≤ 249) : s.Serves c (pcieMsg args) none s :=
  ⟨by simp [State.hears, pcieMsg, h], pcie_fits args n, rfl, .inl ⟨(by intro e; cases e), q, rfl, rfl⟩⟩

/-- A message from the control plane, and its packet. -/
def queuedMsg : MgmtMsg := { path := .control, tag := 7, args := [] }

def queued (c : Byte) : MgmtReq := ⟨0, c, queuedMsg, some (reqAt 0 4 [c, 7, 0, 0])⟩

/-- The module with `n` such messages waiting. -/
def queueState (c : Byte) (n : Nat) : State :=
  { State.reset with mgmt := { State.reset.mgmt with queue := List.replicate n (queued c) } }

theorem test_meets_FirmwareAndIdentity :
    (State.reset.germ.rails = .on ∧ State.reset.boot.programming = none ∧ State.reset.inRecovery = false
      ∧ signState.canSign = true ∧ signState.inRecovery = false ∧ recoveryState.inRecovery = true
      ∧ fwTest [] 0 ≠ 0)
    ∧ (∀ r f, ∃ (j : Programming) (s : State), s.boot.programming = some j ∧ s.boot.delayedReset = none
      ∧ j.recovery = r ∧ j.floor = f ∧ j.image.length ≤ slotSize)
    ∧ (signState.Serves 0x01 (pcieMsg (List.replicate 16 5)) none signState
      ∧ ∃ v r, signState.attest (List.replicate 16 5) = (v, some r))
    ∧ (State.reset.Serves 0x02 (pcieMsg []) none State.reset ∧ State.reset.canSign = false)
    ∧ (signState.Serves 0x10 (pcieMsg [31, 3, 8]) none signState
      ∧ spareEntry (signState.flash.mapEntry 31 3) 8 = some 8 ∧ signState.idxNext ≠ signState.idxReserved
      ∧ signState.idxNext + 1024 < 2 ^ 40 ∧ signState.flash.mapPayload.length = 256
      ∧ signState.flash.used + 10240 ≤ bankSize) := by
  refine ⟨by decide +kernel, fun r f => ⟨⟨0, r, f, []⟩, { State.reset with boot := { State.reset.boot with
      programming := some ⟨0, r, f, []⟩ } }, rfl, rfl, rfl, rfl, Nat.zero_le _⟩, ⟨serves _ _ _ (by decide +kernel) rfl (by decide), ?_⟩,
    ⟨serves _ _ _ (by decide +kernel) rfl (by decide), by decide +kernel⟩, ⟨serves _ _ _ (by decide +kernel) rfl (by decide), by decide +kernel⟩⟩
  obtain ⟨v, r, h, -⟩ := attest_ready signState (List.replicate 16 5) (by decide +kernel) (by decide +kernel)
    (by decide +kernel) (by simp) (by decide +kernel)
  exact ⟨v, r, h⟩

theorem test_meets_ManagementMessagesAreServed :
    (recoveryState.hears .pcie0 = false ∧ State.reset.hears .ethernet = true
      ∧ messageFits { path := .control, tag := 7, args := List.replicate 253 0 } = false
      ∧ State.reset.ethRefuses 0x40 .ethernet = true ∧ MgmtPath.ethernet ≠ .control ∧ State.reset.mgmt.queue = []
      ∧ messageFits { path := .ethernet, tag := 7, args := List.replicate 1396 0 } = true)
    ∧ List.Forall (fun n => (queueState 0x31 n).hears .pcie0 = true
        ∧ (queueState 0x31 n).mgmt.queue = queued 0x31 :: List.replicate (n - 1) (queued 0x31)
        ∧ (pcieMsg []).path ≠ queuedMsg.path) [1, 7, 8]
    ∧ messageFits (pcieMsg []) = true
    ∧ State.reset.Serves 0x31 (pcieMsg (List.replicate 17 0)) none State.reset
    ∧ (queueState 0x31 1).Serves 0x31 queuedMsg (queued 0x31).packet State.reset
    ∧ List.Forall (fun (n : Byte × Nat) => let s := core32 (pstReg n.2);
        s.Serves 0x20 (pcieMsg [n.1, 1]) none s ∧ s.germ.move = .none ∧ s.germ.latched = false ∧ s.commandRuns = false ∧ s.mayLeaveRun = true
        ∧ s.pst = n.2) [(0, 0), (4, 0), (2, 3)]
    ∧ (State.reset.Serves 0x21 (pcieMsg [0x54, 0x57]) none State.reset ∧ State.reset.germ.move = .none
      ∧ State.reset.boot.programming = none)
    ∧ (let a : List Byte := [0x22, 0, 0, 0, 0, 0, 4];
      a.length = 7 ∧ fieldLE a 5 2 ≤ readLimit .pcie0 ∧ signState.Serves 0x30 (pcieMsg a) none signState
      ∧ signState.logContents (fieldLE a 0 1) = some [1, 2, 3])
    ∧ (let a : List Byte := [3, 0xFF, 0xFF, 0, 0, 0, 0, 0, 0];
      a.length = 9 ∧ settingFits (fieldLE a 0 1) (fieldLE a 1 8) = true
      ∧ signState.Serves 0x40 (pcieMsg a) none signState ∧ signState.canSign = true
      ∧ State.reset.Serves 0x40 (pcieMsg a) none State.reset ∧ State.reset.canSign = false
      ∧ signState.idxNext ≠ signState.idxReserved ∧ signState.idxNext + 1024 < 2 ^ 40
      ∧ signState.flash.used + 10048 ≤ bankSize) :=
  ⟨by decide +kernel, by decide +kernel, pcie_fits _ (by decide), serves _ _ _ (by decide +kernel) rfl (by decide),
    ⟨by decide +kernel, rfl, rfl, .inr ⟨_, _, rfl, rfl, rfl, rfl, rfl⟩⟩,
    ⟨⟨serves _ _ _ (by decide +kernel) rfl (by decide), by decide +kernel⟩, ⟨serves _ _ _ (by decide +kernel) rfl (by decide), by decide +kernel⟩,
      ⟨serves _ _ _ (by decide +kernel) rfl (by decide), by decide +kernel⟩⟩,
    ⟨serves _ _ _ (by decide +kernel) rfl (by decide), by decide +kernel⟩,
    ⟨rfl, by decide +kernel, serves _ _ _ (by decide +kernel) rfl (by decide), by decide +kernel⟩,
    ⟨rfl, by decide +kernel, serves _ _ _ (by decide +kernel) rfl (by decide), by decide +kernel, serves _ _ _ (by decide +kernel) rfl (by decide),
      by decide +kernel⟩⟩

theorem test_meets_StandardProtocolsAreAnswered :
    List.Forall (fun p => State.reset.hearsMctp p = true)
      [.pcie0, .pcie1, .smbus State.reset.mgmt.smbusAddr true, .i3c State.reset.mgmt.i3cOwn]
    ∧ List.Forall (fun p => State.reset.hearsMctp p = false)
      [.control, .ethernet, .smbus State.reset.mgmt.smbusAddr false, .i3c (State.reset.mgmt.i3cOwn + 1)]
    ∧ State.reset.mgmtOn = true ∧ (1 : Byte) ≠ 0 ∧ (0xFE : Byte) ≠ 0xFF
    ∧ List.Forall (fun n => (numericSensor n).isSome = true) [1, 2, 3, 0x127, 0x21F]
    ∧ List.Forall (fun n => (State.reset.stateSensor n).isSome = true) [0x1000, 0x1001, 0x1002]
    ∧ State.reset.germ.move = .none ∧ State.reset.germ.latched = false ∧ State.reset.pst ≤ 4 ∧ State.reset.mgmt.i3cAddr = 0
    ∧ pdrTable[(BitVec.ofNat 32 pdrCount).toNat - 1]?.isSome = true ∧ 1 ≤ (BitVec.ofNat 32 pdrCount).toNat
    ∧ ({ State.reset with mgmt := { State.reset.mgmt with ip4 := 0x0A000001 } } : State).mgmt.ip4 ≠ 0 := by
  decide +kernel

/-! ## The machine -/

/-- A sound state with a command in front of another one, which answers a next state. -/
theorem test_meets_machine :
    (∃ s : State, ∃ cs, s.sound ∧ s.pending = .inputPowerSample 1 1 false true :: cs ∧ cs ≠ [])
    ∧ State.reset.pending = []
    ∧ ∃ t, exec (.inputPowerSample 1 1 false true) State.reset = .next t :=
  ⟨⟨{ State.reset with pending := [.inputPowerSample 1 1 false true, .inputLost] }, [.inputLost],
      ⟨fun e h => (nomatch h), by decide, by decide, by decide⟩, rfl, by simp⟩, rfl, ⟨_, rfl⟩⟩

/-! ## Well-formed commands: one ill-formed term for each check -/

def lateStamp : Stamp := ⟨0, 16000000000⟩

theorem test_ill_formed_stamps : [Instr.ppsInEdge lateStamp, .ptpFollowUpReceived ⟨0, 0⟩ lateStamp,
    .ptpSyncReceived true ⟨0, 0⟩ lateStamp ⟨0, 0⟩, .ptpSyncReceived true ⟨0, 0⟩ ⟨0, 0⟩ lateStamp,
    .ptpDelayRespReceived 0 ⟨lateStamp, ⟨0, 0⟩⟩, .ptpDelayRespReceived 0 ⟨⟨0, 0⟩, lateStamp⟩,
    .timeExchangeReceived 0 0 false 0 lateStamp].all (!·.wf) = true := by decide +kernel

theorem test_ill_formed_requests : [Instr.read 0 (reqAt 0 257 []), .write 0 (reqAt 0 0 (List.replicate 257 0)),
    .addI32 0 { reqAt 0 4 [] with rrlen := 17 }, .controlResponseArrival 0 ⟨0, 0, 0, List.replicate 257 0⟩].all (!·.wf)
    = true := by decide +kernel

theorem test_ill_formed_control_packets : [Instr.controlPacketArrival 0 none ⟨0, List.replicate 5 0⟩,
    .controlPacketArrival 0 none ⟨0, [0]⟩].all (!·.wf) = true := by decide +kernel

/-- A bit above the 58,032 of a fabric port's frame. -/
theorem test_ill_formed_frames :
    [Instr.frameReceived 32 16 ⟨BitVec.ofNat 131072 (2 ^ 58032), 0, false, false⟩].all (!·.wf) = true := by decide +kernel

/-- Phase 4 without credit counts, 63 measurements, and a stamp of a second. -/
theorem test_ill_formed_training : [Instr.trainingPhaseComplete 32 16 (.exchange ⟨0, 0, 0, true, true, true, []⟩),
    .trainingPhaseComplete 0 5 (.measure (List.replicate 63 ⟨⟨0, 0⟩, ⟨0, 0⟩, ⟨0, 0⟩, ⟨0, 0⟩⟩)),
    .maintenanceBeat 0 { sensor := 0, power := 0, hot := false, delays := [(5, ⟨⟨0, 0⟩, ⟨0, 0⟩, lateStamp, ⟨0, 0⟩⟩)] }].all
    (!·.wf) = true := by decide +kernel

theorem test_ill_formed_host : [Instr.bar2Read 0 0 0, .bar2Write 0 0xFFFFFFF 2 0,
    .registerWrite (.die 0 4) true 0, .readClear (.bar0 0 2) false, .registerWrite (.tile t0 4) true 0,
    .sqTailDoorbell r63 0 (List.replicate 65537 0)].all (!·.wf) = true := by decide +kernel

theorem test_ill_formed_packets : [Instr.inputRecordDmaDone 0 0 [], .resultArrival 0 0 (List.replicate 65 0),
    .resultDmaFailed 0 0 [], .memoryPacketArrival 0 0 [] none].all (!·.wf) = true := by decide +kernel

theorem test_ill_formed_management : [Instr.getStatus (pcieMsg (List.replicate 1397 0)), .setdasa ⟨0x4C, 0⟩, .entdaa 0].all
    (!·.wf) = true := by decide +kernel

/-- The greatest terms that the checks admit. -/
theorem test_well_formed : [Instr.ppsInEdge ⟨0, 15999999999⟩, .read 0 (reqAt 0 256 []),
    .write 0 (reqAt 0 256 (List.replicate 256 0)), .controlPacketArrival 0 none (cpTo 1 1 1),
    .frameReceived 32 16 wireFrame, .frameReceived 0 5 ⟨BitVec.allOnes 131072, 0, false, false⟩,
    .bar2Write 0 0xFFFFFF8 8 0, .registerWrite (.die 0 8) true 0, .resultArrival 0 0 (List.replicate 64 0),
    .getStatus (pcieMsg (List.replicate 1396 0)), .setdasa ⟨0x4C, 1⟩, .nop t0 0].all (·.wf) = true := by decide +kernel

/-! ## The spec's worked examples, and published check values -/

/-- The words of the examples of 04 and 05, with their fields. -/
theorem test_words :
    (let f := (0x01600000000003E0 : W64).setWidth 54;
      tileWord 0 0x05 f = 0x01600000000003E0 ∧ fld f 53 52 = 2 ∧ (BitVec.ofNat 10 (fld f 9 0)).toInt = -32)
    ∧ (let f := (0x00A074CA00000000 : W64).setWidth 54;
      tileWord 0 0x02 f = 0x00A074CA00000000 ∧ fld f 53 52 = 2 ∧ fld f 50 47 = 0 ∧ fld f 46 42 = 29 ∧ fld f 41 38 = 3
      ∧ fld f 37 33 = 5)
    ∧ (let f := (0x881006000000000C : W64).setWidth 54;
      tileWord 2 0x20 f = 0x881006000000000C ∧ fld f 53 52 = 1 ∧ fld f 47 39 = 12 ∧ fld f 15 0 = 12)
    ∧ (let f := (0x8400158700030000 : W64).setWidth 54;
      tileWord 2 0x10 f = 0x8400158700030000 ∧ mAR f = 5 ∧ mXR f = 6 ∧ mLEN f = 7 ∧ mDOFF f = 3)
    ∧ (let f := (0x80435C0000000180 : W64).setWidth 54;
      tileWord 2 0x01 f = 0x80435C0000000180 ∧ mVR f = 13 ∧ mAR f = 7 ∧ mOFF f = 0x180) := by decide +kernel

/-- The MXFP4 example of 03: block results of weight row 0 with WBASE -64, in FP32 and BF16. -/
def fp4Tile : Tile :=
  { Tile.reset with
    wbase := [(2, BitVec.ofInt 10 (-64))]
    wb0 := { rows := [(0, BitVec.ofNat 256 (0x137 + 0x15 * 2 ^ 128))], scales := [(0, 0x7A), (1, 0x6D)], md := []
             kind := some (4, false), written := none, readBy := none } }

theorem test_mxfp4_example :
    let bs := (fp4Tile.denseBlocks 0 4 0 0 (0x197 + 0x12 * 2 ^ 128) 0x7F84).map fun b => (0, b)
    let e := (fp4Tile.addRow 2 0 0 0 bs).accElem 2 0 0
    e = ⟨0x238000D00000000000, .finite⟩
    ∧ fmtFP32.convert .rne (accValue (-64) e) = 0x420E0003 ∧ fmtFP32.convert .rup (accValue (-64) e) = 0x420E0004
    ∧ fmtBF16.convert .rne (accValue (-64) e) = 0x420E ∧ fmtBF16.convert .rup (accValue (-64) e) = 0x420F := by
  decide +kernel

/-- The readouts of the MXFP8 example of 04. -/
theorem test_mxfp8_readouts : let x := accValue (-32) ⟨0x840500000, .finite⟩
    fmtFP32.convert .rne x = 0x41040500 ∧ fmtBF16.convert .rne x = 0x4104 ∧ fmtBF16.convert .rup x = 0x4105
    ∧ fmtE4M3.convert .rne x = 0x50 ∧ fmtE4M3.convert .rup x = 0x51 := by decide +kernel

/-- IEEE 754 by hand: 1 + 2^-24 ties to even, 1 + 3 * 2^-24 rounds up; a fused product rounds once. -/
theorem test_fp32 :
    fpAdd false false 0x3F800000 0x33800000 = 0x3F800000 ∧ fpAdd false false 0x3F800000 0x34400000 = 0x3F800002
    ∧ fpMul 0x40400000 0xBF000000 = 0xBFC00000 ∧ fpFma false false 0x3F800001 0x3F800001 0xBF800002 = 0x28800000
    ∧ fpAdd false false 0x7F800000 0xFF800000 = 0x7FC00000 := by decide +kernel

/-- The published check values over the digits 1 to 9. -/
theorem test_checks : let bs := byteBits (leBytes 0x393837363534333231 9)
    crc8 bs = 0xF4 ∧ crc16 bs = 0x29B1 := by decide +kernel

/-- The placement example of 07. -/
theorem test_placement :
    let p : W32 := BitVec.ofNat 32 (0x101 + 0x008 * 2 ^ 10 + 2 ^ 23 + 2 ^ 25 + 2 ^ 27)
    let r : Reloc := ⟨p, 0x04C, true, 0x18D, (List.range 32).map fun d => if d = 4 then 0xF3FF else 0xFFFF, 0⟩
    placementGood p [(2, 1, false), (3, 1, false), (6, 1, false)] 0x18D = true ∧ physDie p 0x1106 = 0x6344
    ∧ r.desc 0x11064E83002B0000 = some 0x63446A83202B0000 := by decide +kernel

/-- Number 45,414 of E-die 38 of module 0x2C5 (01). -/
theorem test_die_number :
    (onDie 38 { Die.reset with regs := [(rDieId, 0x02C50000)] }).dieNumber 38 = 45414 := by decide +kernel

/-- The holds of 06: releases in slots 63 and 300 of H = 64 resume the job in slots 128 and 365. -/
theorem test_resume_slots :
    ({ endingHold with releases := [(0, 63)] } : Hold).resumeSlot 64 = some 128
    ∧ ({ endingHold with holders := [⟨0xC6, 40000, 1⟩, ⟨0x311, 40064, 5⟩], releases := [(0xC6, 63), (0x311, 300)] }
        : Hold).resumeSlot 64 = some 365 := by decide +kernel

/-- The sample of 12: +5/16 ns with KP 128, KI 4 and acc -12 ppb. -/
theorem test_servo_sample :
    (match exec (.ppsInEdge ⟨0, 5⟩) { core32 [(rServoCtrl, 0x200003E8), (rServoStatus, 0x80000000),
        (rServoGain, 0x00800004)] with servo := { State.reset.servo with acc := -49152 } } with
      | .next t => (t.servo.acc, t.servo.adj)
      | _ => (0, 0)) = (-49132, -48492) := by decide +kernel

/-- Waiting commands are taken first in, first out. -/
theorem test_queue_order :
    (match step { onDie 0 Die.reset with pending := [.reqHoldWrite 0 true, .inputLost] } with
      | .next t => (t.pending, (t.die 0).bit 0 rBeatCtrl 31)
      | _ => ([], false)) = ([.inputLost], true) := by decide +kernel

theorem test_reset_idles : step State.reset = .next State.reset := rfl

/-- VADD of 1.5 and 2.5 under P1: lane 0 is selected, lane 1 keeps its value. -/
theorem test_vadd_selects :
    (match exec (.vadd t0 (vWord 1 3 1 2 0 0)) (onDie 0 { jobDie with tiles := [(0, { tileAt (tileWord 1 0x10
        (vWord 1 3 1 2 0 0)) [] [] with v := [(1, 0x3FC00000), (2, 0x40200000), (3, 7 * 2 ^ 32)], p := [(1, 1)] })] }) with
      | .next t => (lane ((t.tile t0).readV 3) 0, lane ((t.tile t0).readV 3) 1)
      | _ => (0, 0)) = (0x40800000, 7) := by decide +kernel

/-- R585: both pins are released after reset; a clamp pulls both low, a warning one. -/
theorem test_status_pins :
    Machine.State.reset.pwrFaultN = true ∧ Machine.State.reset.alertN = true
      ∧ (Machine.State.reset.setPwr 26 26 1).pwrFaultN = false
      ∧ (Machine.State.reset.setPwr 26 26 1).alertN = false
      ∧ (Machine.State.reset.setPwr 23 23 1).alertN = false
      ∧ (Machine.State.reset.setPwr 23 23 1).pwrFaultN = true := by
  decide +kernel


end Sys2Proof.Tests
end

/-! # Reading and writing registers (R13 to R18, R42)

A register starts at a multiple of its width and no other register starts inside it, so that an access of its width
finds it and no other. On that rest the rules of the accesses: what each one stores or clears, and what it leaves. -/

namespace Sys2Proof.Machine

/-! ## Registers lie apart -/

@[simp] theorem ro32_wide (v : W64) : (ro32 v).wide = false := rfl
@[simp] theorem ro64_wide (v : W64) : (ro64 v).wide = true := rfl
@[simp] theorem rw32_wide (m v : W64) : (rw32 m v).wide = false := rfl
@[simp] theorem rw64_wide (m v : W64) : (rw64 m v).wide = true := rfl
@[simp] theorem ctr64_wide : ctr64.wide = true := rfl

/-- A register of the map at `off` lies at a multiple of its width, and none starts in the upper half of a wide one. -/
structure FitsAt (info : Nat → Option RegInfo) (off : Nat) : Prop where
  aligned : (info off).isSome → off % 4 = 0
  wide : (info off).any (·.wide) → off % 8 = 0 ∧ (info (off + 4)).isSome = false

/-- A map fits where it agrees with one that fits. -/
theorem FitsAt.window {info f : Nat → Option RegInfo} {lo hi off : Nat} (hf : FitsAt f off)
    (heq : ∀ o, lo ≤ o → o < hi → info o = f o) (h8 : hi % 8 = 0) (hlo : lo ≤ off) (hhi : off < hi) :
    FitsAt info off where
  aligned h := hf.aligned (by rwa [heq off hlo hhi] at h)
  wide h := by
    rw [heq off hlo hhi] at h
    have ⟨ho, hn⟩ := hf.wide h
    exact ⟨ho, by rwa [heq (off + 4) (by omega) (by omega)]⟩

/-! The maps are finite tables: whether a map has a register, or a wide one, at an offset is a statement of linear
arithmetic about the offset. -/

theorem linkReg_fits (fabric : Bool) (off : Nat) : FitsAt (linkReg fabric) off := by
  constructor <;>
  · simp [linkReg, apply_ite Option.isSome, apply_ite (Option.any RegInfo.wide), lCtrl, lStatus, lDownTime,
      lReplayTimeout, lDelay, lStarveMap]
    omega

theorem beatReg_fits (d off : Nat) : FitsAt (beatReg d) off := by
  constructor <;>
  · simp [beatReg, regionReg, apply_ite Option.isSome, apply_ite (Option.any RegInfo.wide), ite_prop_iff_or,
      rBeatCtrl, rJobBeat, rHoldStatus, rHoldTimeout, rHoldLastInfo, rHoldLastLen, rHoldLastBeat, rHoldBeatsJob,
      rHoldsTaken, rHoldBeats, rHoldsRaised, rSymbolsSent, rSymbolsLost, rRegion, rEpochCtrl, rEpochSec, rEpochNs,
      rStopInfo, rStopBeat, rStopDetail, rStopFlits]
    omega

theorem fabReg_fits (d off : Nat) : FitsAt (fabReg d) off := by
  constructor <;>
  · simp [fabReg, egressReg, apply_ite Option.isSome, apply_ite (Option.any RegInfo.wide), ite_prop_iff_or, rFence0,
      rCpCtrl, rCpEscapeTime, rCpReqTimeout, rCpMap0, rCpDelivered, rCpTimedOut, rCpRate, rCpRateWaits, rEgress]
    omega

theorem memReg_fits (d off : Nat) : FitsAt (memReg d) off := by
  constructor <;>
  · simp [memReg, apply_ite Option.isSome, apply_ite (Option.any RegInfo.wide), ite_prop_iff_or, rMemStatus, rWsel,
      rAperture0, rAperture1, rErrUnit, rSetBase, rLpddrRegion, rShardHdr, rShardStatus, rShardsVerified,
      rShardsMismatched, rWtCtrl, rWtRefetched, rWtRedigest]
    omega

theorem ctxReg_fits (d off : Nat) : FitsAt (ctxReg d) off := by
  constructor <;>
  · simp [ctxReg, apply_ite Option.isSome, apply_ite (Option.any RegInfo.wide), ite_prop_iff_or, rBatchCtrl,
      rBatchIndex, rRotation, rRotationLen, rBatchOvf]
    omega

theorem pwrReg_fits (d off : Nat) : FitsAt (pwrReg d) off := by
  constructor <;>
  · simp [pwrReg, apply_ite Option.isSome, apply_ite (Option.any RegInfo.wide), ite_prop_iff_or, rDieTempMax,
      rDiePower, rRegionTemp, rWakeSend, rPwrStatus, rIdleCtrl, rWakeEn, rWakeCause, rResetCtrl, rDieResetMask,
      rPwrInput, rModulePower, rTripInfo, rClampTrips, rDieResets]
    omega

/-- The registers of the time map that do not lie at a multiple of 8 stand among the servo's, which are narrow, and
after TIME_SNAP_NS, which is narrow. -/
theorem timeReg_narrow (d off : Nat) :
    ((timeReg d off).isSome → off % 8 = 0 ∨ off % 4 = 0 ∧ (0x20420 ≤ off ∧ off < 0x20500 ∨ off = 0x2050C))
    ∧ ((timeReg d off).any (·.wide) → off % 8 = 0 ∧ (off < 0x20420 ∨ 0x20500 ≤ off) ∧ off ≠ 0x20508) := by
  constructor <;>
  · intro h
    simp [timeReg, apply_ite Option.isSome, apply_ite (Option.any RegInfo.wide), ite_prop_iff_or, rTimeNow,
      rTimeSecHi, rSetSec, rSetNs, rServoCtrl, rServoStatus, rServoOffset, rServoFreq, rServoGain, rJump, rPpsCtrl,
      rNbr0, rNbr1, rPortAsym, rPortOffset, rSnapSec, rSnapNs, rSnapCtrl, rSnapBeat, rCtxShadow, rExchSent, rExchRecv,
      rSamplesDisc, rBeatChecks, rBeatSkipped, rServoUpdates, rStepsRefused, rHoldovers, rAlignAlarms] at h
    omega

theorem timeReg_fits (d off : Nat) : FitsAt (timeReg d) off where
  aligned h := by
    have := (timeReg_narrow d off).1 h
    omega
  wide h := by
    have ⟨h8, hband, hne⟩ := (timeReg_narrow d off).2 h
    refine ⟨h8, Bool.eq_false_iff.mpr fun hs => ?_⟩
    have := (timeReg_narrow d (off + 4)).1 hs
    omega

/-- The link blocks of a die (R394). -/
def linkBlock (d off : Nat) : Option RegInfo :=
  if hasPort d ((off - rLink) / 0x200) then
    linkReg (isFabricPort ((off - rLink) / 0x200)) ((off - rLink) % 0x200)
  else none

theorem linkBlock_fits (d off : Nat) (h : rLink ≤ off) : FitsAt (linkBlock d) off := by
  have hlink : 0x40000 ≤ off := h
  have hf := linkReg_fits (isFabricPort ((off - rLink) / 0x200)) ((off - rLink) % 0x200)
  by_cases hp : hasPort d ((off - rLink) / 0x200) = true
  · have he : linkBlock d off = linkReg (isFabricPort ((off - rLink) / 0x200)) ((off - rLink) % 0x200) := by
      simp [linkBlock, hp]
    constructor
    · intro hs
      have := hf.aligned (he ▸ hs)
      simp only [rLink] at this
      omega
    · intro hw
      have ⟨h8, hn⟩ := hf.wide (he ▸ hw)
      simp only [rLink] at h8
      have hdiv : (off + 4 - rLink) / 0x200 = (off - rLink) / 0x200 := by simp only [rLink]; omega
      have hmod : (off + 4 - rLink) % 0x200 = (off - rLink) % 0x200 + 4 := by simp only [rLink]; omega
      exact ⟨by omega, by simp [linkBlock, hdiv, hmod, hp, hn]⟩
  · exact ⟨by simp [linkBlock, hp], by simp [linkBlock, hp]⟩

section

variable {d off : Nat}

theorem dieReg_beat (hlo : 0x20000 ≤ off) (hhi : off < 0x20400) : dieReg d off = beatReg d off := by
  grind [dieReg]

theorem dieReg_time (hlo : 0x20400 ≤ off) (hhi : off < 0x30000) : dieReg d off = timeReg d off := by
  grind [dieReg]

theorem dieReg_fab (hlo : 0x30000 ≤ off) (hhi : off < 0x40000) : dieReg d off = fabReg d off := by
  grind [dieReg]

theorem dieReg_link (hlo : 0x40000 ≤ off) (hhi : off < 0x44000) : dieReg d off = linkBlock d off := by
  grind [dieReg, linkBlock]

theorem dieReg_mem (hlo : 0x50000 ≤ off) (hhi : off < 0x60000) : dieReg d off = memReg d off := by
  grind [dieReg]

theorem dieReg_ctx (hlo : 0x60000 ≤ off) (hhi : off < 0x70000) :
    dieReg d off = if isEDie d then ctxReg d off else none := by
  grind [dieReg]

theorem dieReg_pwr (hlo : 0x80000 ≤ off) (hhi : off < 0x90000) : dieReg d off = pwrReg d off := by
  grind [dieReg]

end

/-- The offset lies in no block of the die's map that has a map of its own. -/
def OutsideBlocks (off : Nat) : Prop :=
  off < 0x20000 ∨ 0x44000 ≤ off ∧ off < 0x50000 ∨ 0x70000 ≤ off ∧ off < 0x80000 ∨ 0x90000 ≤ off

/-- Outside the blocks only CDIE_SPARE_MAP_NEXT does not lie at a multiple of 8, and the register before it is narrow. -/
theorem dieReg_narrow (d : Nat) {off : Nat} (hout : OutsideBlocks off) :
    ((dieReg d off).isSome → off % 4 = 0 ∧ (off % 8 = 0 ∨ off = 0xC))
    ∧ ((dieReg d off).any (·.wide) → off % 8 = 0 ∧ off ≠ 0x8) := by
  unfold OutsideBlocks at hout
  constructor <;>
  · intro h
    simp [dieReg, apply_ite Option.isSome, apply_ite (Option.any RegInfo.wide), ite_prop_iff_or, rDieId, rSpareMap,
      rSpareMapNext, rLink, rFaultLog, rLogHead, rLogOverwritten, rRoute0] at h
    omega

theorem dieReg_outside_fits {d off : Nat} (hout : OutsideBlocks off) : FitsAt (dieReg d) off where
  aligned h := ((dieReg_narrow d hout).1 h).1
  wide h := by
    have ⟨h8, hne⟩ := (dieReg_narrow d hout).2 h
    have hnext : OutsideBlocks (off + 4) := by
      unfold OutsideBlocks at hout ⊢
      omega
    refine ⟨h8, Bool.eq_false_iff.mpr fun hs => ?_⟩
    have := (dieReg_narrow d hnext).1 hs
    omega

theorem dieReg_fits (d off : Nat) : FitsAt (dieReg d) off := by
  by_cases hbeat : 0x20000 ≤ off ∧ off < 0x20400
  · exact (beatReg_fits d off).window (fun _ => dieReg_beat) (by decide) hbeat.1 hbeat.2
  by_cases htime : 0x20400 ≤ off ∧ off < 0x30000
  · exact (timeReg_fits d off).window (fun _ => dieReg_time) (by decide) htime.1 htime.2
  by_cases hfab : 0x30000 ≤ off ∧ off < 0x40000
  · exact (fabReg_fits d off).window (fun _ => dieReg_fab) (by decide) hfab.1 hfab.2
  by_cases hlink : 0x40000 ≤ off ∧ off < 0x44000
  · exact (linkBlock_fits d off hlink.1).window (fun _ => dieReg_link) (by decide) hlink.1 hlink.2
  by_cases hmem : 0x50000 ≤ off ∧ off < 0x60000
  · exact (memReg_fits d off).window (fun _ => dieReg_mem) (by decide) hmem.1 hmem.2
  by_cases hctx : 0x60000 ≤ off ∧ off < 0x70000
  · refine FitsAt.window ?_ (fun _ => dieReg_ctx) (by decide) hctx.1 hctx.2
    by_cases he : isEDie d = true
    · simpa [he] using ctxReg_fits d off
    · exact ⟨by simp [he], by simp [he]⟩
  by_cases hpwr : 0x80000 ≤ off ∧ off < 0x90000
  · exact (pwrReg_fits d off).window (fun _ => dieReg_pwr) (by decide) hpwr.1 hpwr.2
  exact dieReg_outside_fits (by unfold OutsideBlocks; omega)

theorem dieOrShadow_of_lt {d off : Nat} (h : off < rShadow) : dieOrShadow d off = dieReg d off := if_pos h

theorem dieOrShadow_fits {d off : Nat} (h : off < rShadow) : FitsAt (dieOrShadow d) off :=
  (dieReg_fits d off).window (lo := 0) (fun _ _ => dieOrShadow_of_lt) (by decide) (Nat.zero_le _) h

/-! ## An access of a register's width finds the register -/

/-- The width of a register in bytes. -/
def RegInfo.bytes (r : RegInfo) : Nat := if r.wide then 8 else 4

/-- An access of the width of `r` at `off` is aligned, and its first and last byte belong to the register there. -/
structure Accessed (info : Nat → Option RegInfo) (off : Nat) (r : RegInfo) : Prop where
  first : regAt info off = some off
  last : regAt info (off + r.bytes - 1) = some off
  aligned : off % r.bytes = 0

theorem FitsAt.accessed {info : Nat → Option RegInfo} {off : Nat} {r : RegInfo} (hf : FitsAt info off)
    (hr : info off = some r) : Accessed info off r := by
  have h4 := hf.aligned (by simp [hr])
  have hfirst : regAt info off = some off := by
    have hw : off / 4 * 4 = off := by omega
    simp [regAt, hw, hr]
  cases hwide : r.wide with
  | false =>
    have hword : (off + 4 - 1) / 4 * 4 = off := by omega
    have hbytes : r.bytes = 4 := by simp [RegInfo.bytes, hwide]
    exact ⟨hfirst, by rw [hbytes, regAt, hword]; simp [hr], by rw [hbytes, h4]⟩
  | true =>
    have ⟨h8, hn⟩ := hf.wide (by simp [hr, hwide])
    have hword : (off + 8 - 1) / 4 * 4 = off + 4 := by omega
    have hbytes : r.bytes = 8 := by simp [RegInfo.bytes, hwide]
    have hhigh : (off + 4) % 8 = 4 := by omega
    exact ⟨hfirst, by rw [hbytes, regAt, hword]; simp [hn, hhigh, hr, hwide], by rw [hbytes, h8]⟩

theorem dieOrShadow_accessed {d off : Nat} {r : RegInfo} (h : off < rShadow) (hr : dieReg d off = some r) :
    Accessed (dieOrShadow d) off r :=
  (dieOrShadow_fits h).accessed (by rw [dieOrShadow_of_lt h, hr])

/-! ## What the three commands call -/

theorem exec_readClear (r : RegTarget) (wide : Bool) (s : State) :
    exec (.readClear r wide) s = execReadClear r wide s := rfl

theorem exec_moduleNumWrite (d : DieId) (v : W32) (s : State) :
    exec (.moduleNumWrite d v) s = execModuleNumWrite d v s := rfl

theorem exec_registerWrite (r : RegTarget) (wide : Bool) (v : W64) (s : State) :
    exec (.registerWrite r wide v) s = execRegisterWrite r wide v s := rfl

/-! ## Reading a die register -/

/-- A read of a die register is answered with the value from before its read-clear fields clear (R13). -/
theorem exec_readClear_die {d : DieId} {off : BitVec 24} {r : RegInfo} {s : State}
    (hin : (s.die d.val).inReset = false) (ho : off.toNat < rShadow) (hr : dieReg d.val off.toNat = some r) :
    exec (.readClear (.die d off) r.wide) s = .next ((s.seen d.val off.toNat).emit
      (.regRead (.die d off) (regPart (s.viewDie d.val off.toNat) off.toNat off.toNat r.wide))) := by
  obtain ⟨hfirst, hlast, halign⟩ := dieOrShadow_accessed ho hr
  simp only [RegInfo.bytes] at hlast halign
  simp [exec_readClear, execReadClear, hfirst, hlast, halign, hin]

theorem and_not_zero {n : Nat} (x : BitVec n) : x &&& ~~~0#n = x := by
  rw [BitVec.not_zero, BitVec.and_allOnes]

theorem State.SameBut.sent {s t : State} {d : Nat} (h : s.SameBut t d) : t.sent = s.sent := by rw [h.rest]
theorem State.SameBut.port0 {s t : State} {d : Nat} (h : s.SameBut t d) : t.port0 = s.port0 := by rw [h.rest]
theorem State.SameBut.port1 {s t : State} {d : Nat} (h : s.SameBut t d) : t.port1 = s.port1 := by rw [h.rest]

theorem Die.clearOnRead_regs (x : Die) (d off : Nat) :
    x.clearOnRead d off = { x with regs := (x.clearOnRead d off).regs } := by
  unfold Die.clearOnRead
  split
  · split <;> rfl
  · rfl

theorem Die.reg_clearOnRead {x : Die} {d off : Nat} {r : RegInfo} (hr : dieReg d off = some r) (o : Nat) :
    (x.clearOnRead d off).reg d o = if o = off then x.reg d off &&& ~~~r.rc else x.reg d o := by
  simp only [Die.clearOnRead, hr]
  split
  next hrc =>
    split
    next ho =>
      rw [hrc, ho]
      exact (and_not_zero _).symm
    next => rfl
  next => exact x.reg_setReg_if d off o _

theorem State.seen_die (s : State) (d off e : Nat) :
    (s.seen d off).die e = if e = d then (s.die d).clearOnRead d off else s.die e := by
  have hmod : (s.modDie d (·.clearOnRead d off)).die e = if e = d then (s.die d).clearOnRead d off else s.die e :=
    s.die_setDie_if d e _
  unfold State.seen
  split
  · exact ((onlyHost_timed _ d).die e).trans hmod
  · exact hmod

theorem State.sameBut_seen (s : State) (d off : Nat) : s.SameBut (s.seen d off) d := by
  unfold State.seen
  split
  · exact (s.sameBut_modDie d _).trans ⟨fun _ _ => rfl, rfl⟩
  · exact s.sameBut_modDie d _

theorem readClear_die (d : DieId) (off : BitVec 24) (r : RegInfo) (s : State)
    (hin : (s.die d.val).inReset = false) (ho : off.toNat < rShadow) (hr : dieReg d.val off.toNat = some r) :
    ∃ t, exec (.readClear (.die d off) r.wide) s = .next t ∧ (∀ e, e ≠ d.val → t.die e = s.die e)
      ∧ t.sent = .regRead (.die d off) (regPart (s.viewDie d.val off.toNat) off.toNat off.toNat r.wide) :: s.sent
      ∧ t.port0 = s.port0 ∧ t.port1 = s.port1
      ∧ (t.die d.val).reg d.val off.toNat = (s.die d.val).reg d.val off.toNat &&& ~~~r.rc
      ∧ (∀ o, o ≠ off.toNat → (t.die d.val).reg d.val o = (s.die d.val).reg d.val o)
      ∧ t.die d.val = { s.die d.val with regs := (t.die d.val).regs } := by
  have hrest := s.sameBut_seen d.val off.toNat
  refine ⟨_, exec_readClear_die hin ho hr, fun e he => ?_, ?_, ?_, ?_, ?_, fun o hne => ?_, ?_⟩
  · simp [State.seen_die, he]
  · rw [State.emit_sent, hrest.sent]
  · rw [State.emit_port0, hrest.port0]
  · rw [State.emit_port1, hrest.port1]
  · simp [State.seen_die, Die.reg_clearOnRead hr]
  · simp [State.seen_die, Die.reg_clearOnRead hr, hne]
  · simp only [State.die_emit, State.seen_die, if_true]
    exact Die.clearOnRead_regs _ _ _

/-! ## What a write stores -/

/-- The bits that an access of a register's width covers. -/
def RegInfo.mask (r : RegInfo) : W64 := if r.wide then all64 else all32

theorem getLsbD_of_and_not_eq_zero {v m : W64} (hv : v &&& ~~~m = 0) {i : Nat} (hi : v.getLsbD i = true) :
    m.getLsbD i = true := by
  have h := congrArg (·.getLsbD i) hv
  simpa [hi, BitVec.lt_of_getLsbD hi] using h

theorem and_eq_self_of_and_not_eq_zero {v m : W64} (hv : v &&& ~~~m = 0) : v &&& m = v := by
  apply BitVec.eq_of_getLsbD_eq
  intro i _
  cases hi : v.getLsbD i
  · simp [hi]
  · simp [hi, getLsbD_of_and_not_eq_zero hv hi]

/-- A register without W1C bits: the named bits become those of the value. -/
theorem RegInfo.store_of_rw {r : RegInfo} {v : W64} (old : W64) (hw1c : r.w1c = 0) (hrw : r.rw &&& r.mask = r.rw)
    (hv : v &&& ~~~r.rw = 0) : r.store old v r.mask = old &&& ~~~r.rw ||| v := by
  simp only [RegInfo.store, hw1c, hrw, and_eq_self_of_and_not_eq_zero hv, BitVec.ofNat_eq_ofNat, BitVec.and_zero,
    and_not_zero]

theorem RegInfo.reservedHit_of_rw {r : RegInfo} {v : W64} (ro m : W64) (hv : v &&& ~~~r.rw = 0) :
    r.reservedHit ro v m = false := by
  rw [RegInfo.reservedHit, bne_eq_false_iff_eq]
  apply BitVec.eq_of_getLsbD_eq
  intro i _
  cases hi : v.getLsbD i
  · simp [hi]
  · simp [hi, getLsbD_of_and_not_eq_zero hv hi]

theorem bitsOf_eq_of_bits {n m : Nat} {x : BitVec n} {y : BitVec m} {hi lo : Nat}
    (h : ∀ i, lo ≤ i → i ≤ hi → x.getLsbD i = y.getLsbD i) : bitsOf x hi lo = bitsOf y hi lo := by
  apply Nat.eq_of_testBit_eq
  intro i
  rw [bitsOf_testBit, bitsOf_testBit]
  by_cases hi' : i < hi + 1 - lo
  · rw [h (lo + i) (by omega) (by omega)]
  · simp [hi']

/-- A merge takes the bits of its mask from the value. -/
theorem getLsbD_merge {old m v : W64} {i : Nat} (h : m.getLsbD i = true) :
    ((old &&& ~~~m) ||| v).getLsbD i = v.getLsbD i := by
  simp [h]

theorem getLsbD_maskOf {hi lo : Nat} (h : hi < 64) (g : lo ≤ hi) (i : Nat) :
    (maskOf hi lo).getLsbD i = decide (lo ≤ i ∧ i ≤ hi) := by
  rw [maskOf, getLsbD_setBits 0 _ h g, Nat.testBit_two_pow_sub_one]
  by_cases hr : lo ≤ i ∧ i ≤ hi
  · simp [hr]
    omega
  · simp [hr]

/-! ## Writing a die register -/

theorem placeOf_dieReg {d o k : Nat} (h : regAt (dieOrShadow d) o = some k) (ho : o < 0x1000000) :
    placeOf d (0xF000000000 + o) = some (.dieReg o) := by
  have hrange : 0xF000000000 ≤ 0xF000000000 + o ∧ 0xF000000000 + o < 0xF001000000 := by omega
  simp [placeOf, hrange, h]

/-- A write of a die register of the register's width is performed at once. -/
theorem exec_registerWrite_die {d : DieId} {off : BitVec 24} {r : RegInfo} {v : W64} {s : State}
    (hin : (s.die d.val).inReset = false) (ho : off.toNat < rShadow) (hr : dieReg d.val off.toNat = some r) :
    exec (.registerWrite (.die d off) r.wide v) s = (s.writeDie d.val off.toNat r.bytes v).out s := by
  obtain ⟨hfirst, hlast, halign⟩ := dieOrShadow_accessed ho hr
  have hb : r.bytes = if r.wide then 8 else 4 := rfl
  have hn : r.bytes = 4 ∨ r.bytes = 8 := by unfold RegInfo.bytes; split <;> simp
  have hp := placeOf_dieReg hfirst (Nat.lt_trans ho (by decide))
  have hq : placeOf d (0xF000000000 + off.toNat + r.bytes - 1) = some (.dieReg (off.toNat + r.bytes - 1)) := by
    rw [Nat.add_assoc, Nat.add_sub_assoc (by omega)]
    exact placeOf_dieReg hlast (by simp only [rShadow] at ho; omega)
  have hw : (Place.dieReg off.toNat).widthGood r.bytes = true := by
    simp [Place.widthGood, hn, halign]
  simp only [exec_registerWrite, execRegisterWrite, hp]
  simp [← hb, hin, hw, hq, Place.joins, hfirst, hlast]

/-- A write that names only RW bits hits no reserved field (R17). -/
theorem State.writeDie_of_rw {s : State} {d off : Nat} {r : RegInfo} {v : W64} (ho : off < rShadow)
    (hr : dieReg d off = some r) (hw : r.writable = true) (hv : v &&& ~~~r.rw = 0) :
    s.writeDie d off r.bytes v
      = s.actDie d off (r.store ((s.die d).reg d off) v r.mask) (v &&& r.mask) := by
  have hb := dieOrShadow_accessed ho hr
  have hm : (if r.wide = true then coverMask off r.bytes else maskOf 31 0) = r.mask := by
    unfold RegInfo.mask RegInfo.bytes coverMask
    split <;> rfl
  have hlow : ¬ (off % 8 = 4 ∧ r.wide = true) := by
    rintro ⟨h4, hwide⟩
    have := hb.aligned
    simp only [RegInfo.bytes, hwide, if_true] at this
    omega
  simp only [State.writeDie, hb.first, dieOrShadow_of_lt ho, hr, hm, if_neg hlow, RegInfo.reservedHit_of_rw _ _ hv, hw,
    Bool.false_eq_true, Bool.not_true, if_false]

theorem plainRegs_info {d off : Nat} {r : RegInfo} (h : off ∈ plainRegs) (hr : dieReg d off = some r) :
    off < rShadow ∧ r.w1c = 0 ∧ r.rw &&& r.mask = r.rw ∧ r.writable = true := by
  simp only [plainRegs, List.mem_cons, List.not_mem_nil, or_false] at h
  rcases h with rfl | rfl | rfl | rfl | rfl <;> cases hr <;> decide

/-- A plain register stores what is written; a snapshot's time only while none is armed (R520). -/
theorem State.actDie_plain {s : State} {d off : Nat} (h : off ∈ plainRegs)
    (harm : off = rSnapSec ∨ off = rSnapNs → (s.die d).bit d rSnapCtrl 31 = false) (new v : W64) :
    s.actDie d off new v = .done (s.setDie d ((s.die d).setReg off new)) := by
  simp only [plainRegs, List.mem_cons, List.not_mem_nil, or_false] at h
  rcases h with rfl | rfl | rfl | rfl | rfl
  · rfl
  · rfl
  · rfl
  · simp only [State.actDie, harm (.inl rfl)]
    rfl
  · simp only [State.actDie, harm (.inr rfl)]
    rfl

theorem registerWrite_die (d : DieId) (off : BitVec 24) (r : RegInfo) (v : W64) (s : State)
    (hin : (s.die d.val).inReset = false) (hplain : off.toNat ∈ plainRegs) (hr : dieReg d.val off.toNat = some r)
    (hv : v &&& ~~~r.rw = 0)
    (harm : off.toNat = rSnapSec ∨ off.toNat = rSnapNs → (s.die d.val).bit d.val rSnapCtrl 31 = false) :
    ∃ t, exec (.registerWrite (.die d off) r.wide v) s = .next t ∧ s.SameBut t d.val
      ∧ (t.die d.val).reg d.val off.toNat = ((s.die d.val).reg d.val off.toNat &&& ~~~r.rw) ||| v
      ∧ (∀ o, o ≠ off.toNat → (t.die d.val).reg d.val o = (s.die d.val).reg d.val o)
      ∧ t.die d.val = { s.die d.val with regs := (t.die d.val).regs } := by
  obtain ⟨hlt, hw1c, hmask, hw⟩ := plainRegs_info hplain hr
  have hexec : exec (.registerWrite (.die d off) r.wide v) s = .next (s.setDie d.val ((s.die d.val).setReg off.toNat
      (((s.die d.val).reg d.val off.toNat &&& ~~~r.rw) ||| v))) := by
    rw [exec_registerWrite_die hin hlt hr, State.writeDie_of_rw hlt hr hw hv, State.actDie_plain hplain harm,
      RegInfo.store_of_rw _ hw1c hmask hv]
    rfl
  refine ⟨_, hexec, s.sameBut_setDie _ _, ?_, fun o ho => ?_, ?_⟩
  · simp
  · simp [Die.reg_setReg_if, ho]
  · simp [Die.setReg]

/-! ## MODULE_NUM (R42) -/

theorem Die.reg_setBit_ne (x : Die) (d : Nat) {off o : Nat} (i : Nat) (b : Bool) (h : o ≠ off) :
    (x.setBit d off i b).reg d o = x.reg d o := x.reg_setField_ne d i i _ h

/-- A field keeps its value when a bit apart from it is set. -/
theorem Die.field_setBit (x : Die) (d off : Nat) {i hi lo : Nat} (b : Bool) (h : i < 64) (hne : hi < i ∨ i < lo) :
    (x.setBit d off i b).field d off hi lo = x.field d off hi lo := by
  rw [Die.field, Die.setBit, Die.reg_setField]
  exact bitsOf_setBits_ne _ _ h (Nat.le_refl i) hne

/-- Whether some entry passes a test stays as it was when the entry that is set passes it as the old one did. -/
theorem any_tput {α : Type} (P : Nat × α → Bool) (m : Table α) (k : Nat) (x z : α) (hz : P (k, z) = false)
    (hx : P (k, x) = P (k, tgetD m k z)) : (tput m k x).any P = m.any P := by
  induction m with
  | nil => simp_all [tput]
  | cons e m ih =>
    obtain ⟨j, y⟩ := e
    rcases Nat.lt_trichotomy j k with h | h | h
    · have hx' : P (k, x) = P (k, tgetD m k z) := by simpa [tgetD, tget, Nat.ne_of_lt h] using hx
      simp [tput, h, ih hx']
    · subst h
      have hx' : P (j, x) = P (j, y) := by simpa [tgetD, tget] using hx
      simp [tput, hx']
    · have hx' : P (k, x) = P (k, tgetD m k z) := by simpa [tgetD, tget, Nat.ne_of_gt h] using hx
      have hmem : P (k, tgetD m k z) = true → m.any P = true := by
        intro hp
        cases hg : tget m k with
        | none => simp [tgetD, hg, hz] at hp
        | some w => exact List.any_eq_true.mpr ⟨_, tget_mem hg, by simpa [tgetD, hg] using hp⟩
      simp only [tput, Nat.not_lt.mpr (Nat.le_of_lt h), Nat.ne_of_gt h, if_false, List.any_cons, hx']
      cases hp : P (k, tgetD m k z)
      · simp
      · simp [hmem hp]

/-- Only the tiles of a die bear on whether an image is resident. -/
theorem State.imageResident_modDie (s : State) (d : Nat) (f : Die → Die) (h : (f (s.die d)).tiles = (s.die d).tiles) :
    (s.modDie d f).imageResident = s.imageResident := by
  have hany := any_tput (fun e => e.2.tiles.any fun t => t.2.valid0 || t.2.valid1) s.dies d (f (s.die d)) Die.reset rfl
    (congrArg (·.any fun t => t.2.valid0 || t.2.valid1) h)
  unfold State.imageResident
  rw [State.modDie_placed0, State.modDie_placed1, State.modDie_dies, hany]

/-- A write of one to ID_WRITE_REFUSED clears it. -/
def State.ackIdRefused (s : State) (d : Nat) (v : W64) : State :=
  if bitOf v 31 then s.modDie d (·.setBit d rDieId 31 false) else s

/-- ID_WRITE_REFUSED does not bear on whether an image is resident, so its clearing comes first (R42). -/
theorem State.writeDieId_eq (s : State) (d : Nat) (v : W64) : s.writeDieId d v =
    if s.imageResident then (s.ackIdRefused d v).modDie d (·.setBit d rDieId 31 true)
    else (s.ackIdRefused d v).modDie d fun x =>
      { x.setField d rDieId 25 16 (bitsOf v 25 16) with
        numChanged := x.numChanged || x.field d rDieId 25 16 != bitsOf v 25 16 } := by
  have hres : (s.ackIdRefused d v).imageResident = s.imageResident := by
    unfold State.ackIdRefused
    split
    · exact s.imageResident_modDie d _ rfl
    · rfl
  rw [← hres]
  rfl

theorem State.sameBut_ackIdRefused (s : State) (d : Nat) (v : W64) : s.SameBut (s.ackIdRefused d v) d := by
  unfold State.ackIdRefused
  split
  · exact s.sameBut_modDie d _
  · exact s.sameBut_refl d

theorem State.ackIdRefused_reg_ne (s : State) (d : Nat) (v : W64) {o : Nat} (ho : o ≠ rDieId) :
    ((s.ackIdRefused d v).die d).reg d o = (s.die d).reg d o := by
  unfold State.ackIdRefused
  split
  · rw [State.die_modDie, Die.reg_setBit_ne _ _ _ _ ho]
  · rfl

theorem State.ackIdRefused_moduleNum (s : State) (d : Nat) (v : W64) :
    (s.ackIdRefused d v).moduleNum d = s.moduleNum d := by
  unfold State.ackIdRefused
  split
  · rw [State.moduleNum, State.die_modDie]
    exact Die.field_setBit _ _ _ false (by decide) (.inl (by decide))
  · rfl

theorem State.sameBut_writeDieId (s : State) (d : Nat) (v : W64) : s.SameBut (s.writeDieId d v) d := by
  rw [s.writeDieId_eq]
  split <;> exact (s.sameBut_ackIdRefused d v).modDie _

theorem State.writeDieId_reg_ne (s : State) (d : Nat) (v : W64) {o : Nat} (ho : o ≠ rDieId) :
    ((s.writeDieId d v).die d).reg d o = (s.die d).reg d o := by
  rw [← s.ackIdRefused_reg_ne d v ho, s.writeDieId_eq]
  split
  · rw [State.die_modDie, Die.reg_setBit_ne _ _ _ _ ho]
  · rw [State.die_modDie]
    exact Die.reg_setField_ne _ _ _ _ _ ho

theorem State.writeDieId_moduleNum (s : State) (d : Nat) (v : W64) (hres : s.imageResident = false) :
    (s.writeDieId d v).moduleNum d = bitsOf v 25 16 := by
  rw [s.writeDieId_eq, hres, State.moduleNum]
  simp only [Bool.false_eq_true, if_false, State.die_modDie, Die.moduleNum, Die.field]
  change bitsOf (Die.reg (Die.setField _ _ _ _ _ _) _ _) _ _ = _
  rw [Die.reg_setField, bitsOf_setBits _ _ (by decide) (by decide)]
  exact Nat.mod_eq_of_lt (bitsOf_lt v 25 16)

theorem State.writeDieId_refused (s : State) (d : Nat) (v : W64) (hres : s.imageResident = true) :
    (s.writeDieId d v).moduleNum d = s.moduleNum d ∧ ((s.writeDieId d v).die d).bit d rDieId 31 = true := by
  rw [← s.ackIdRefused_moduleNum d v, s.writeDieId_eq, hres, if_pos rfl]
  constructor
  · rw [State.moduleNum, State.die_modDie]
    exact Die.field_setBit _ _ _ true (by decide) (.inl (by decide))
  · rw [State.die_modDie, Die.bit_setBit _ _ _ _ (by decide), if_pos rfl]

theorem bitsOf_setWidth_64 (v : W32) (hi lo : Nat) : bitsOf (v.setWidth 64) hi lo = bitsOf v hi lo := by
  rw [bitsOf, BitVec.toNat_setWidth, Nat.mod_eq_of_lt (Nat.lt_trans v.isLt (by decide)), bitsOf]

theorem moduleNumWrite_die (d : DieId) (v : W32) (s : State) (hin : (s.die d.val).inReset = false)
    (hv : v &&& ~~~0x83FF00FF = 0) :
    ∃ t, exec (.moduleNumWrite d v) s = .next t ∧ s.SameBut t d.val
      ∧ (s.imageResident = false → t.moduleNum d.val = bitsOf v 25 16)
      ∧ (s.imageResident = true → t.moduleNum d.val = s.moduleNum d.val ∧ (t.die d.val).bit d.val rDieId 31 = true)
      ∧ ∀ o, o ≠ rDieId → (t.die d.val).reg d.val o = (s.die d.val).reg d.val o := by
  have hexec : exec (.moduleNumWrite d v) s = .next (s.writeDieId d.val (v.setWidth 64)) := by
    rw [exec_moduleNumWrite, execModuleNumWrite, hin, if_neg Bool.false_ne_true, if_neg (not_not_intro hv)]
  exact ⟨_, hexec, s.sameBut_writeDieId _ _,
    fun h => (s.writeDieId_moduleNum _ _ h).trans (bitsOf_setWidth_64 v 25 16), s.writeDieId_refused _ _,
    fun _ ho => s.writeDieId_reg_ne _ _ ho⟩

/-! ## TILE_ALLOC0 -/

/-- TILE_ALLOC0 as the map of the tile registers has it. -/
def alloc0Info : RegInfo := rw32 (maskOf 28 16 ||| maskOf 12 0) 0

theorem tileReg_alloc0 : tileReg tAlloc0 = some alloc0Info := rfl

/-- A tile register waits for a maintenance beat while a job runs (R51). -/
theorem exec_registerWrite_alloc0 {r : TileRef} {v : W64} {s : State} (hin : (s.die r.die.val).inReset = false)
    (hg : gatedTile ((s.die r.die.val).reg r.die.val rSpareMap) r.tile.val = false) :
    exec (.registerWrite (.tile r (BitVec.ofNat 16 tAlloc0)) false v) s =
      if (s.die r.die.val).jobOn r.die.val then
        .next (s.deferReg r.die.val (.tile r (BitVec.ofNat 16 tAlloc0)) false (some v))
      else (s.writeTile r.die.val r.tile.val tAlloc0 4 v).out s := by
  rw [exec_registerWrite, execRegisterWrite, hin, hg]
  rfl

theorem Die.actTile_alloc0 {x : Die} {t : Nat} (huse : (x.tile t).inUse = false) (new v : W64) :
    x.actTile t tAlloc0 new v = some (x.setTile t { x.tile t with alloc0 := new.setWidth 32 }) := by
  have hact : x.actTile t tAlloc0 new v = some (if (x.tile t).inUse && !(x.tile t).active then x
      else x.setTile t { x.tile t with alloc0 := new.setWidth 32 }) := rfl
  rw [hact, huse]
  rfl

theorem State.writeTile_alloc0 {s : State} {r : TileRef} {v : W64} (huse : (s.tile r).inUse = false)
    (hv : v &&& ~~~alloc0Info.rw = 0) :
    s.writeTile r.die.val r.tile.val tAlloc0 4 v =
      .done (s.setTile r { s.tile r with alloc0 :=
        (((s.tile r).alloc0.setWidth 64 &&& ~~~alloc0Info.rw) ||| v).setWidth 32 }) := by
  have hwrite : s.writeTile r.die.val r.tile.val tAlloc0 4 v =
      if alloc0Info.reservedHit (tileRo tAlloc0) v alloc0Info.mask then .undef 17
      else match (s.die r.die.val).actTile r.tile.val tAlloc0
          (alloc0Info.store ((s.tile r).alloc0.setWidth 64) v alloc0Info.mask) (v &&& alloc0Info.mask) with
        | some x => .done (s.setDie r.die.val x)
        | none => .refused := rfl
  rw [hwrite, RegInfo.reservedHit_of_rw _ _ hv, Die.actTile_alloc0 huse, RegInfo.store_of_rw _ rfl (by decide) hv]
  rfl

/-- A field of TILE_ALLOC0 is that of the value written. -/
theorem alloc0_merge (old v : W64) {hi lo : Nat} (h : hi < 32)
    (hm : ∀ i, lo ≤ i → i ≤ hi → alloc0Info.rw.getLsbD i = true) :
    bitsOf (((old &&& ~~~alloc0Info.rw) ||| v).setWidth 32) hi lo = bitsOf v hi lo := by
  apply bitsOf_eq_of_bits
  intro i h1 h2
  rw [BitVec.getLsbD_setWidth, getLsbD_merge (hm i h1 h2)]
  simp only [decide_eq_true (Nat.lt_of_le_of_lt h2 h), Bool.true_and]

theorem registerWrite_alloc0 (r : TileRef) (v : W64) (s : State) (hin : (s.die r.die.val).inReset = false)
    (hg : gatedTile ((s.die r.die.val).reg r.die.val rSpareMap) r.tile.val = false)
    (hv : v &&& ~~~(maskOf 28 16 ||| maskOf 12 0) = 0) :
    ((s.die r.die.val).jobOn r.die.val = false → (s.tile r).inUse = false →
      ∃ t, exec (.registerWrite (.tile r (BitVec.ofNat 16 tAlloc0)) false v) s = .next t
        ∧ ∃ w : W32, t = s.setTile r { s.tile r with alloc0 := w } ∧ bitsOf w 28 16 = bitsOf v 28 16
          ∧ bitsOf w 12 0 = bitsOf v 12 0)
    ∧ ((s.die r.die.val).jobOn r.die.val = true →
      exec (.registerWrite (.tile r (BitVec.ofNat 16 tAlloc0)) false v) s
        = .next (s.setDie r.die.val { s.die r.die.val with
            deferred := (s.die r.die.val).deferred
              ++ [.register (.tile r (BitVec.ofNat 16 tAlloc0)) false (some v)] })) := by
  rw [exec_registerWrite_alloc0 hin hg]
  constructor
  · intro hjob huse
    rw [hjob, State.writeTile_alloc0 huse hv]
    refine ⟨_, rfl, _, rfl, alloc0_merge _ _ (by decide) ?_, alloc0_merge _ _ (by decide) ?_⟩
    all_goals
      intro i h1 h2
      simp [alloc0Info, rw32, getLsbD_maskOf]
      omega
  · intro hjob
    rw [hjob]
    rfl

/-! ## FAB_WIN and FAB_LAST_ERR of a host port -/

theorem HostPort.reg_setReg_ne (h : HostPort) {off o : Nat} (v : W64) (ho : o ≠ off) :
    (h.setReg off v).reg o = h.reg o := by
  simp [HostPort.reg, tgetD_tput_ne _ _ _ ho]

/-- FAB_WIN as the map of BAR0 has it. -/
def fabWinInfo : RegInfo := rw64 (maskOf 63 28) 0

theorem bar0Reg_fabWin : bar0Reg bFabWin = some fabWinInfo := rfl

theorem exec_registerWrite_fabWin {p : Fin 2} {v : W64} {s : State} (hon : s.germ.rails = .on)
    (hrec : s.inRecovery = false) (hv : v &&& ~~~fabWinInfo.rw = 0) :
    exec (.registerWrite (.bar0 p (BitVec.ofNat 20 bFabWin)) true v) s = .next (s.setPort p
      ((s.port p).setReg bFabWin (((s.port p).reg bFabWin &&& ~~~fabWinInfo.rw) ||| v))) := by
  have hwrite : s.writeBar0 p bFabWin 8 v =
      if s.inRecovery && !isCfg bFabWin then .next s
      else if fabWinInfo.reservedHit (bar0Ro bFabWin) v fabWinInfo.mask then undef 17
      else .next (s.setPort p ((s.port p).setReg bFabWin
        (fabWinInfo.store ((s.port p).reg bFabWin) v fabWinInfo.mask))) := rfl
  rw [exec_registerWrite, execRegisterWrite, if_neg (not_not_intro hon)]
  change s.writeBar0 p bFabWin 8 v = _
  rw [hwrite, hrec, RegInfo.reservedHit_of_rw _ _ hv, RegInfo.store_of_rw _ rfl (by decide) hv]
  rfl

theorem registerWrite_fabWin (p : Fin 2) (v : W64) (s : State) (hon : s.germ.rails = .on)
    (hrec : s.inRecovery = false) (hv : v &&& ~~~(maskOf 63 28) = 0) :
    ∃ t, exec (.registerWrite (.bar0 p (BitVec.ofNat 20 bFabWin)) true v) s = .next t
      ∧ bitsOf ((t.port p).reg bFabWin) 63 28 = bitsOf v 63 28 ∧ t.dies = s.dies
      ∧ ∀ o, o ≠ bFabWin → (t.port p).reg o = (s.port p).reg o := by
  refine ⟨_, exec_registerWrite_fabWin hon hrec hv, ?_, (s.onlyHost_setPort p _).dies, fun o ho => ?_⟩
  · rw [State.port_setPort, HostPort.reg_setReg]
    refine bitsOf_eq_of_bits fun i h1 h2 => getLsbD_merge ?_
    simp [fabWinInfo, rw64, getLsbD_maskOf, h1, h2]
  · rw [State.port_setPort, HostPort.reg_setReg_ne _ _ ho]

theorem exec_readClear_fabLastErr {p : Fin 2} {s : State} (hon : s.germ.rails = .on) (hrec : s.inRecovery = false) :
    exec (.readClear (.bar0 p (BitVec.ofNat 20 bFabLastErr)) false) s
      = .next ((s.modPort p (·.setReg bFabLastErr 0)).emit
        (.regRead (.bar0 p (BitVec.ofNat 20 bFabLastErr)) ((s.port p).reg bFabLastErr &&& 0xFFFFFFFF))) := by
  have hview : s.viewBar0 p bFabLastErr = if s.inRecovery then 0 else (s.port p).reg bFabLastErr := rfl
  rw [exec_readClear, execReadClear]
  simp only [if_neg (not_not_intro hon)]
  change (Host.Outcome.next (State.emit (if bFabLastErr = bFabLastErr ∧ (!s.inRecovery) = true then
    s.modPort p (·.setReg bFabLastErr 0) else s) (.regRead (.bar0 p (BitVec.ofNat 20 bFabLastErr))
      ((s.viewBar0 p bFabLastErr >>> 0) &&& 0xFFFFFFFF))) : Out) = _
  simp [hview, hrec]

theorem State.setPort_sent (s : State) (p : Fin 2) (h : HostPort) : (s.setPort p h).sent = s.sent := by
  unfold State.setPort
  split <;> rfl

theorem State.port_emit (s : State) (e : Emission) (p : Fin 2) : (s.emit e).port p = s.port p := rfl

theorem readClear_fabLastErr (p : Fin 2) (s : State) (hon : s.germ.rails = .on) (hrec : s.inRecovery = false) :
    ∃ t, exec (.readClear (.bar0 p (BitVec.ofNat 20 bFabLastErr)) false) s = .next t
      ∧ t.sent = .regRead (.bar0 p (BitVec.ofNat 20 bFabLastErr)) ((s.port p).reg bFabLastErr &&& 0xFFFFFFFF) :: s.sent
      ∧ (t.port p).reg bFabLastErr = 0 ∧ t.dies = s.dies
      ∧ ∀ o, o ≠ bFabLastErr → (t.port p).reg o = (s.port p).reg o := by
  refine ⟨_, exec_readClear_fabLastErr hon hrec, ?_, ?_, (s.onlyHost_modPort p _).dies, fun o ho => ?_⟩
  · rw [State.emit_sent, State.modPort, State.setPort_sent]
  · rw [State.port_emit, State.modPort, State.port_setPort, HostPort.reg_setReg]
  · rw [State.port_emit, State.modPort, State.port_setPort, HostPort.reg_setReg_ne _ _ ho]

/-! ## The statement -/

/-- Settles O41: each access has its rule above, which says what it stores and that every other register stays. -/
theorem registersAreWrittenAndRead : Obligations.RegistersAreWrittenAndRead :=
  ⟨⟨registerWrite_die, moduleNumWrite_die, registerWrite_alloc0, registerWrite_fabWin⟩,
    readClear_die, readClear_fabLastErr⟩

end Sys2Proof.Machine

/-! # The predicate P0 (R70)

P0 holds no state: reading it does not consult the predicate file, and a result for it leaves the whole tile as it
was, so that it does not become a pending write either. -/

namespace Sys2Proof.Machine

@[simp] theorem Tile.readP_zero (y : Tile) : y.readP 0 = 0xFFFFFFFF := if_pos rfl

/-- The hypotheses are those under which `Tile.readReg_write` does not apply. -/
theorem Tile.write_of_predicate_zero (y : Tile) {w : Wr} (hk : w.kind = .p) (hi : w.idx = 0) : y.write w = y :=
  if_pos ⟨hk, hi⟩

/-- Settles O8: the rules of reading P0 and of writing a result for it. -/
theorem predicateZeroIsConstant : Obligations.PredicateZeroIsConstant :=
  fun y _ => ⟨y.readP_zero, y.write_of_predicate_zero⟩

end Sys2Proof.Machine

/-! # Results of the vector unit (R146, R180 to R193)

A vector instruction of a quiet tile has one result, or two for different registers. Each instruction's rule is its
plan, read as such results, and what merging a result into a register gives lane by lane, element by element or byte
by byte. -/

namespace Sys2Proof.Machine

/-! ## Merging one field, or a whole register -/

theorem field_getLsbD {b : Nat} (v : BitVec b) (i : Nat) {n j : Nat} (hj : j < b) (hn : b * n + j < 1024) :
    (v.setWidth 1024 <<< (b * i)).getLsbD (b * n + j) = (decide (n = i) && v.getLsbD j) := by
  rw [BitVec.getLsbD_shiftLeft, BitVec.getLsbD_setWidth]
  rcases Nat.lt_trichotomy n i with h | h | h
  · have : b * (n + 1) ≤ b * i := Nat.mul_le_mul_left _ h
    have h1 : b * n + j < b * i := by rw [Nat.mul_succ] at this; omega
    simp [h1, Nat.ne_of_lt h]
  · subst h
    have h1 : j < 1024 := by omega
    simp [hn, h1]
  · have : b * (i + 1) ≤ b * n := Nat.mul_le_mul_left _ h
    rw [Nat.mul_succ] at this
    have h1 : b ≤ b * n + j - b * i := by omega
    simp [Nat.ne_of_gt h, BitVec.getLsbD_of_ge v _ h1]

/-- The bits of field `n` after a masked merge of field `i`. -/
theorem field_merge_getLsbD (x : BitVec 1024) {b : Nat} (v : BitVec b) (i : Nat) {n j : Nat} (hj : j < b)
    (hn : b * n + j < 1024) :
    ((x &&& ~~~((BitVec.allOnes b).setWidth 1024 <<< (b * i)))
        ||| (v.setWidth 1024 <<< (b * i) &&& (BitVec.allOnes b).setWidth 1024 <<< (b * i))).getLsbD (b * n + j) =
      if n = i then v.getLsbD j else x.getLsbD (b * n + j) := by
  simp only [BitVec.getLsbD_or, BitVec.getLsbD_and, BitVec.getLsbD_not, field_getLsbD _ i hj hn, hn,
    BitVec.getLsbD_allOnes, hj]
  by_cases h : n = i <;> simp [h]

theorem allOnes_setWidth (b n : Nat) : (BitVec.allOnes b).setWidth n = BitVec.ofNat n (2 ^ b - 1) := by
  apply BitVec.eq_of_toNat_eq
  rw [BitVec.toNat_setWidth, BitVec.toNat_allOnes, BitVec.toNat_ofNat]

theorem mask_word : (0xFFFFFFFF : BitVec 1024) = (BitVec.allOnes 32).setWidth 1024 := (allOnes_setWidth 32 1024).symm

theorem mask_byte : (0xFF : BitVec 1024) = (BitVec.allOnes 8).setWidth 1024 := (allOnes_setWidth 8 1024).symm

/-- A lane after a masked merge of lane `i`. -/
theorem lane_merge_lane (x : BitVec 1024) (v : W32) (i : Nat) {n : Nat} (h : n < 32) :
    lane ((x &&& ~~~((0xFFFFFFFF : BitVec 1024) <<< (32 * i)))
        ||| (v.setWidth 1024 <<< (32 * i) &&& (0xFFFFFFFF : BitVec 1024) <<< (32 * i))) n =
      if n = i then v else lane x n := by
  apply BitVec.eq_of_getLsbD_eq
  intro j hj
  rw [lane_getLsbD _ _ _ hj, mask_word, field_merge_getLsbD x v i hj (by omega)]
  split
  · rfl
  · exact (lane_getLsbD _ _ _ hj).symm

theorem lane_merge_first (x : BitVec 1024) (v : W32) {n : Nat} (h : n < 32) :
    lane ((x &&& ~~~(0xFFFFFFFF : BitVec 1024)) ||| (v.setWidth 1024 &&& 0xFFFFFFFF)) n =
      if n = 0 then v else lane x n := by
  simpa only [Nat.mul_zero, BitVec.shiftLeft_zero] using lane_merge_lane x v 0 h

theorem byteOf_getLsbD (v : BitVec 1024) (n : Nat) {j : Nat} (h : j < 8) :
    (byteOf v.toNat n).getLsbD j = v.getLsbD (8 * n + j) := by
  rw [byteOf, BitVec.getLsbD_ofNat, Nat.testBit_shiftRight]
  simp [h, BitVec.getLsbD]

/-- A byte after a masked merge of byte `i`. -/
theorem byteOf_merge_byte (x : BitVec 1024) (v : Byte) (i : Nat) {n : Nat} (h : n < 128) :
    byteOf ((x &&& ~~~((0xFF : BitVec 1024) <<< (8 * i)))
        ||| (BitVec.ofNat 1024 (v.toNat * 2 ^ (8 * i)) &&& (0xFF : BitVec 1024) <<< (8 * i))).toNat n =
      if n = i then v else byteOf x.toNat n := by
  have hv : BitVec.ofNat 1024 (v.toNat * 2 ^ (8 * i)) = v.setWidth 1024 <<< (8 * i) := by
    apply BitVec.eq_of_toNat_eq
    simp only [BitVec.toNat_ofNat, BitVec.toNat_shiftLeft, BitVec.toNat_setWidth, Nat.shiftLeft_eq, Nat.mod_mul_mod]
  apply BitVec.eq_of_getLsbD_eq
  intro j hj
  rw [hv, byteOf_getLsbD _ _ hj, mask_byte, field_merge_getLsbD x v i hj (by omega)]
  split
  · rfl
  · exact (byteOf_getLsbD _ _ hj).symm

theorem merge_allLanes (x v : BitVec 1024) : (x &&& ~~~allLanes) ||| (v &&& allLanes) = v := by
  apply BitVec.eq_of_getLsbD_eq
  intro i hi
  simp only [allLanes, BitVec.getLsbD_or, BitVec.getLsbD_and, BitVec.getLsbD_not, BitVec.getLsbD_allOnes, hi,
    decide_true, Bool.not_true, Bool.and_false, Bool.and_true, Bool.false_or]

/-- A register of 32 bits takes the whole of a result for it. -/
theorem merge_low32 (x v : BitVec 1024) :
    ((x &&& ~~~(0xFFFFFFFF : BitVec 1024)) ||| (v &&& 0xFFFFFFFF)).setWidth 32 = v.setWidth 32 := by
  apply BitVec.eq_of_getLsbD_eq
  intro i hi
  have h1 : i < 1024 := by omega
  rw [mask_word]
  simp only [BitVec.getLsbD_setWidth, BitVec.getLsbD_or, BitVec.getLsbD_and, BitVec.getLsbD_not,
    BitVec.getLsbD_allOnes, hi, h1, decide_true, Bool.true_and, Bool.not_true, Bool.and_false, Bool.and_true,
    Bool.false_or]

theorem setWidth_1024_32 (v : W32) : (v.setWidth 1024).setWidth 32 = v :=
  BitVec.setWidth_setWidth_of_le v (by decide) |>.trans v.setWidth_eq

theorem setWidth_1024_inj {u v : W32} (h : u.setWidth 1024 = v.setWidth 1024) : u = v := by
  rw [← setWidth_1024_32 u, h, setWidth_1024_32]

/-- The bits of a predicate that is built from its lanes. -/
theorem predicate_getLsbD (p : Nat → Bool) {n : Nat} (h : n < 32) :
    ((BitVec.ofNat 1024 ((List.range 32).foldr (fun i n => (p i).toNat + 2 * n) 0)).setWidth 32).getLsbD n = p n := by
  have hp : (List.range 32).foldr (fun i n => (p i).toNat + 2 * n) 0 =
      (List.range' 0 32).foldr (fun i n => (p i).toNat % 2 ^ 1 + 2 ^ 1 * n) 0 := by
    rw [List.range_eq_range']
    congr 1
    funext i n
    cases p i <;> rfl
  have hb := foldr_pack_testBit 1 (fun i => (p i).toNat) 32 0 n 0 (by decide)
  rw [Nat.one_mul, Nat.add_zero, Nat.zero_add] at hb
  have h1 : n < 1024 := by omega
  rw [BitVec.getLsbD_setWidth, BitVec.getLsbD_ofNat, hp, hb]
  cases p n <;> simp [h, h1]

theorem ones_getLsbD {n : Nat} (h : n < 32) : (0xFFFFFFFF : W32).getLsbD n = true := by
  rw [show (0xFFFFFFFF : W32) = BitVec.allOnes 32 by decide, BitVec.getLsbD_allOnes, decide_eq_true h]

/-- An element after a merge of 32 whole elements, none left out. -/
theorem element_merge_all (x : BitVec 1024) {bits : Nat} (first : Nat) (f : Nat → Nat) {n : Nat}
    (hn : (n + 1) * bits ≤ 1024) :
    element ((x &&& ~~~packMask bits (bits * first) 0xFFFFFFFF)
        ||| (packAt bits (bits * first) f &&& packMask bits (bits * first) 0xFFFFFFFF)).toNat bits n =
      if first ≤ n ∧ n < first + 32 then f (n - first) % 2 ^ bits else element x.toNat bits n := by
  rw [element_merge _ _ _ _ hn]
  refine if_congr ⟨fun hs => ⟨hs.1, hs.2.1⟩, fun hs => ⟨hs.1, hs.2, ones_getLsbD ?_⟩⟩ rfl rfl
  omega

/-! ## Results of a quiet tile -/

/-- An instruction whose action is one result. -/
theorem Quiet.result {s : State} {q : TileForm} (h : Quiet s q) {path : Nat} {reads : List RegUse} {w : Wr}
    (hp : q.plan (s.setTile q.ref (s.tile q.ref)) (s.tile q.ref) =
      .run { path := path, reads := reads, results := [w] })
    (hk : w.kind ≠ .wb ∧ w.kind ≠ .acc) :
    ∃ z, issueTile q.ref q.unit q.op q.f q.plan q.after s = .next (q.after (s.setTile q.ref z))
      ∧ (s.tile q.ref).WroteOnly z [(w.kind, w.idx)]
      ∧ (¬ (w.kind = .p ∧ w.idx = 0) → z.readReg w.kind w.idx =
        if w.kind = .v then ((s.tile q.ref).readReg w.kind w.idx &&& ~~~w.mask) ||| (w.val &&& w.mask)
        else
          ((((s.tile q.ref).readReg w.kind w.idx &&& ~~~w.mask) ||| (w.val &&& w.mask)).setWidth 32).setWidth 1024) :=
  h.one hp rfl rfl List.nodup_nil rfl (fun _ hn => nomatch hn) rfl rfl rfl rfl rfl hk

theorem Quiet.result_v {s : State} {q : TileForm} (h : Quiet s q) {path idx lat : Nat} {reads : List RegUse}
    {mask val : BitVec 1024} (hp : q.plan (s.setTile q.ref (s.tile q.ref)) (s.tile q.ref) =
      .run { path := path, reads := reads, results := [⟨.v, idx, mask, lat, val⟩] }) :
    ∃ z, issueTile q.ref q.unit q.op q.f q.plan q.after s = .next (q.after (s.setTile q.ref z))
      ∧ (s.tile q.ref).WroteOnly z [(.v, idx)]
      ∧ z.readV idx = ((s.tile q.ref).readV idx &&& ~~~mask) ||| (val &&& mask) := by
  obtain ⟨z, hz, hw, hv⟩ := h.result hp ⟨nofun, nofun⟩
  exact ⟨z, hz, hw, hv (fun hn => nomatch hn.1)⟩

/-- A register of 32 bits after a result for all its bits. -/
theorem Quiet.result_word {s : State} {q : TileForm} (h : Quiet s q) {path : Nat} {reads : List RegUse} {w : Wr}
    (hp : q.plan (s.setTile q.ref (s.tile q.ref)) (s.tile q.ref) =
      .run { path := path, reads := reads, results := [w] })
    (hk : w.kind ≠ .wb ∧ w.kind ≠ .acc) (hv : w.kind ≠ .v) (hm : w.mask = 0xFFFFFFFF) :
    ∃ z, issueTile q.ref q.unit q.op q.f q.plan q.after s = .next (q.after (s.setTile q.ref z))
      ∧ (s.tile q.ref).WroteOnly z [(w.kind, w.idx)]
      ∧ (¬ (w.kind = .p ∧ w.idx = 0) → z.readReg w.kind w.idx = (w.val.setWidth 32).setWidth 1024) := by
  obtain ⟨z, hz, hw, hr⟩ := h.result hp hk
  refine ⟨z, hz, hw, fun h0 => ?_⟩
  rw [hr h0, if_neg hv, hm, merge_low32]

theorem Quiet.result_p {s : State} {q : TileForm} (h : Quiet s q) {path idx lat : Nat} {reads : List RegUse}
    {val : BitVec 1024} (hp : q.plan (s.setTile q.ref (s.tile q.ref)) (s.tile q.ref) =
      .run { path := path, reads := reads, results := [⟨.p, idx, 0xFFFFFFFF, lat, val⟩] }) :
    ∃ z, issueTile q.ref q.unit q.op q.f q.plan q.after s = .next (q.after (s.setTile q.ref z))
      ∧ (s.tile q.ref).WroteOnly z [(.p, idx)] ∧ (idx ≠ 0 → z.readP idx = val.setWidth 32) := by
  obtain ⟨z, hz, hw, hv⟩ := h.result_word hp ⟨nofun, nofun⟩ nofun rfl
  exact ⟨z, hz, hw, fun hi => setWidth_1024_inj (hv fun hn => hi hn.2)⟩

theorem Quiet.result_scalar {s : State} {q : TileForm} (h : Quiet s q) {path c lat : Nat} {reads : List RegUse}
    {v : W32} (hc : scalarWritable c = true) (hp : q.plan (s.setTile q.ref (s.tile q.ref)) (s.tile q.ref) =
      .run { path := path, reads := reads, results := [scalarResult c lat v] }) :
    ∃ z, issueTile q.ref q.unit q.op q.f q.plan q.after s = .next (q.after (s.setTile q.ref z))
      ∧ (s.tile q.ref).WroteOnly z [scalarReg c] ∧ z.readScalar c = v := by
  by_cases ha : c < 0x10
  · rw [scalarResult, if_pos ha] at hp
    obtain ⟨z, hz, hw, hv⟩ := h.result_word hp ⟨nofun, nofun⟩ nofun rfl
    refine ⟨z, hz, by rwa [scalarReg, if_pos ha], ?_⟩
    rw [Tile.readScalar, if_pos ha]
    exact (setWidth_1024_inj (hv fun hn => nomatch hn.1)).trans (setWidth_1024_32 v)
  · rw [scalarResult, if_neg ha] at hp
    obtain ⟨z, hz, hw, hv⟩ := h.result_word hp ⟨nofun, nofun⟩ nofun rfl
    have hs : c < 0x18 := by
      simp only [scalarWritable, decide_eq_true_eq] at hc
      omega
    refine ⟨z, hz, by rwa [scalarReg, if_neg ha], ?_⟩
    rw [Tile.readScalar, if_neg ha, if_pos hs]
    exact (setWidth_1024_inj (hv fun hn => nomatch hn.1)).trans (setWidth_1024_32 v)

theorem Tile.write_busy_nil_pendingBits {y : Tile} (hy : y.busy = []) {w : Wr} {k : RegKind} {i : Nat}
    (hne : (k, i) ≠ (w.kind, w.idx)) (g : Nat → Bool) : (y.write w).pendingBits k i g = 0 := by
  have hki : ¬ (w.kind = k ∧ w.idx = i) := fun e => hne (by rw [e.1, e.2])
  unfold Tile.write
  split
  · simp [Tile.pendingBits, hy]
  · cases hk : w.kind <;> simp_all [Tile.pendingBits, Tile.storeReg]

/-- An instruction whose action is two results in different vector registers. -/
theorem Quiet.results_v {s : State} {q : TileForm} (h : Quiet s q) {path i j lat : Nat} {reads : List RegUse}
    {m n u v : BitVec 1024} (hij : i ≠ j) (hp : q.plan (s.setTile q.ref (s.tile q.ref)) (s.tile q.ref) =
      .run { path := path, reads := reads, results := [⟨.v, i, m, lat, u⟩, ⟨.v, j, n, lat, v⟩] }) :
    ∃ z, issueTile q.ref q.unit q.op q.f q.plan q.after s = .next (q.after (s.setTile q.ref z))
      ∧ (s.tile q.ref).WroteOnly z [(.v, i), (.v, j)]
      ∧ z.readV i = ((s.tile q.ref).readV i &&& ~~~m) ||| (u &&& m)
      ∧ z.readV j = ((s.tile q.ref).readV j &&& ~~~n) ||| (v &&& n) := by
  have hissue : s.issuingTile q.ref = (s.tile q.ref).count tIssued := by simp only [State.issuingTile, h.settled]
  have hbusy : ((s.tile q.ref).count tIssued).busy = [] := h.busy
  have hne : ((.v, j) : RegKind × Nat) ≠ (.v, i) := by simpa using hij.symm
  have hacts := h.acts hp rfl List.nodup_nil rfl (fun _ hn => nomatch hn)
  obtain ⟨z, hz, hw, hv⟩ := h.wrote hacts (by rw [hissue]; exact Tile.writes_two hbusy hne)
    (by rw [hissue, Tile.write_rest (Tile.write _ _), Tile.write_rest (Tile.count _ _)])
    rfl rfl rfl rfl rfl [(.v, i), (.v, j)] (by
      intro k l hkl
      rw [Tile.readReg_write_ne _ _ (fun e => hkl (by simp [e])),
        Tile.readReg_write_ne _ _ (fun e => hkl (by simp [e])), Tile.readReg_count])
  refine ⟨z, hz, hw, (hv .v i).trans ?_, (hv .v j).trans ?_⟩
  · rw [Tile.readReg_write_ne _ _ hne.symm, Tile.readReg_write _ ⟨.v, i, m, lat, u⟩
      (by rw [Tile.pendingBits, hbusy]; rfl) ⟨nofun, nofun⟩ (fun hn => nomatch hn.1), Tile.readReg_count]
    rfl
  · rw [Tile.readReg_write _ ⟨.v, j, n, lat, v⟩ (Tile.write_busy_nil_pendingBits hbusy hne _) ⟨nofun, nofun⟩
      (fun hn => nomatch hn.1), Tile.readReg_write_ne _ _ hne, Tile.readReg_count]
    rfl

/-! ## Selection and comparison (R191, R192) -/

theorem vsel_selects (r : TileRef) (f : Operands) (s : State) (h : Quiet s ⟨r, 1, 0x30, f, planVsel f, id⟩)
    (hc : vC f = 0) (hn : noConvert f = true) (hb : bGood f = true) (h1 : vMod1 f = false)
    (h0 : vMod0 f = true → vBsel f = 2) :
    ∃ z, exec (.vsel r f) s = .next (s.setTile r z) ∧ (s.tile r).WroteOnly z [(.v, vD f)]
      ∧ ∀ n, n < 32 → lane (z.readV (vD f)) n =
          if ((s.tile r).readP (vPM f)).getLsbD n then lane ((s.tile r).readV (vA f)) n
          else (s.tile r).bOperand f (vMod0 f) (vImm f) n := by
  obtain ⟨z, hz, hw, hv⟩ := h.result_v (if_neg (by simpa [hc, hn, hb, h1] using h0))
  refine ⟨z, hz, hw, fun n hn => ?_⟩
  rw [hv, merge_allLanes, lane_ofLanes _ _ hn]

/-- The word is valid in each form of B: beside a register or a scalar IMM16 is the condition code alone (R191). -/
theorem vselCmp_compares (r : TileRef) (f : Operands) (s : State) (h : Quiet s ⟨r, 1, 0x31, f, planVselCmp f, id⟩)
    (hc : vC f = 0) (hn : noConvert f = true) (h1 : vMod1 f = false) (hd : vD f < 8)
    (h0 : vMod0 f = true → vImm f % 8 < 6)
    (hb : match vBsel f with
      | 0 => vImm f < 8
      | 1 => scalarReadable (vB f) = true ∧ vImm f < 8
      | 2 => vB f = 0
      | _ => False) :
    ∃ z, exec (.vselCmp r f) s = .next (s.setTile r z) ∧ (s.tile r).WroteOnly z [(.p, vD f)]
      ∧ (vD f ≠ 0 → ∀ n, n < 32 → (z.readP (vD f)).getLsbD n =
          (((s.tile r).readP (vPM f)).getLsbD n
            && (if vMod0 f then cmpInt else cmpFp) (vImm f % 8) (lane ((s.tile r).readV (vA f)) n)
                ((s.tile r).bOperand f (vMod0 f) (vImm f / 8 * 8) n))) := by
  obtain ⟨z, hz, hw, hp⟩ := h.result_p (if_neg (by
    have h8 : vD f / 8 = 0 := Nat.div_eq_of_lt hd
    rcases hB : vBsel f with _ | _ | _ | _ <;> simp only [hB] at hb
    · simpa [hc, hn, h1, h8, Nat.div_eq_of_lt hb] using h0
    · simpa [hc, hn, h1, h8, hb.1, Nat.div_eq_of_lt hb.2] using h0
    · simpa [hc, hn, h1, h8, hb] using h0))
  refine ⟨z, hz, hw, fun h0 n hn => ?_⟩
  rw [hp h0]
  exact predicate_getLsbD _ hn

/-! ## Scalar addition and moves (R181, R184, R193) -/

theorem vaddS_adds (r : TileRef) (f : Operands) (s : State) (h : Quiet s ⟨r, 1, 0x12, f, planVaddS f, id⟩)
    (hpm : vPM f = 0) (hc : vC f = 0) (hn : noConvert f = true) (hb : bGood f = true) (hB : vBsel f ≠ 0)
    (hd : scalarWritable (vD f) = true) (ha : scalarReadable (vA f) = true) :
    ∃ z, exec (.vaddS r f) s = .next (s.setTile r z) ∧ (s.tile r).WroteOnly z [scalarReg (vD f)]
      ∧ z.readScalar (vD f) =
          (if vMod1 f then -(s.tile r).readScalar (vA f) else (s.tile r).readScalar (vA f))
            + (if vMod0 f then -(s.tile r).bOperand f true (vImm f) 0
               else (s.tile r).bOperand f true (vImm f) 0) :=
  h.result_scalar hd (if_neg (by simp [hpm, hc, hn, hb, hB, hd, ha]))

/-- VSEL.MOV: a lane to a scalar. -/
theorem vselMov_laneToScalar (r : TileRef) (f : Operands) (s : State)
    (h : Quiet s ⟨r, 1, 0x32, f, planVselMov f, id⟩) (hf : fld f 40 18 = 0) (hm : vMod f = 0) (hpm : vPM f = 0)
    (hi : vImm f < 32) (hd : scalarWritable (vD f) = true) :
    ∃ z, exec (.vselMov r f) s = .next (s.setTile r z) ∧ (s.tile r).WroteOnly z [scalarReg (vD f)]
      ∧ z.readScalar (vD f) = lane ((s.tile r).readV (vA f)) (vImm f) := by
  have hlane : vImm f % 32 = vImm f := Nat.mod_eq_of_lt hi
  refine h.result_scalar (path := pathVx) (lat := 1) (reads := [useV (vA f)]) hd ?_
  simp [planVselMov, hf, hm, hpm, hlane, Nat.div_eq_of_lt hi, hd]

/-- VSEL.MOV: a scalar to a lane. -/
theorem vselMov_scalarToLane (r : TileRef) (f : Operands) (s : State)
    (h : Quiet s ⟨r, 1, 0x32, f, planVselMov f, id⟩) (hf : fld f 40 18 = 0) (hm : vMod f = 1) (hpm : vPM f = 0)
    (hi : vImm f < 32) (ha : scalarReadable (vA f) = true) :
    ∃ z, exec (.vselMov r f) s = .next (s.setTile r z) ∧ (s.tile r).WroteOnly z [(.v, vD f)]
      ∧ ∀ n, n < 32 → lane (z.readV (vD f)) n =
          if n = vImm f then (s.tile r).readScalar (vA f) else lane ((s.tile r).readV (vD f)) n := by
  have hlane : vImm f % 32 = vImm f := Nat.mod_eq_of_lt hi
  obtain ⟨z, hz, hw, hv⟩ := h.result_v (path := pathVx) (idx := vD f) (lat := 1) (reads := scalarUse (vA f))
    (mask := (0xFFFFFFFF : BitVec 1024) <<< (32 * vImm f))
    (val := ((s.tile r).readScalar (vA f)).setWidth 1024 <<< (32 * vImm f))
    (by simp [planVselMov, hf, hm, hpm, hlane, Nat.div_eq_of_lt hi, ha])
  refine ⟨z, hz, hw, fun n hn => ?_⟩
  rw [hv, lane_merge_lane _ _ _ hn]

/-- VSEL.MOV: a scalar to every selected lane. -/
theorem vselMov_scalarToLanes (r : TileRef) (f : Operands) (s : State)
    (h : Quiet s ⟨r, 1, 0x32, f, planVselMov f, id⟩) (hf : fld f 40 18 = 0) (hm : vMod f = 2) (hi : vImm f = 0)
    (ha : scalarReadable (vA f) = true) :
    ∃ z, exec (.vselMov r f) s = .next (s.setTile r z) ∧ (s.tile r).WroteOnly z [(.v, vD f)]
      ∧ ∀ n, n < 32 → lane (z.readV (vD f)) n =
          if ((s.tile r).readP (vPM f)).getLsbD n then (s.tile r).readScalar (vA f)
          else lane ((s.tile r).readV (vD f)) n := by
  obtain ⟨z, hz, hw, hv⟩ := h.result_v (path := pathVx) (idx := vD f) (lat := 1)
    (reads := useP (vPM f) :: scalarUse (vA f)) (mask := laneMask ((s.tile r).readP (vPM f)))
    (val := ofLanes fun _ => (s.tile r).readScalar (vA f)) (by simp [planVselMov, vectorAct, hf, hm, hi, ha])
  refine ⟨z, hz, hw, fun n hn => ?_⟩
  rw [hv, lane_merge _ _ _ _ hn, lane_ofLanes _ _ hn]

/-- VSEL.MOV: an immediate to a scalar. -/
theorem vselMov_immediateToScalar (r : TileRef) (f : Operands) (s : State)
    (h : Quiet s ⟨r, 1, 0x32, f, planVselMov f, id⟩) (hf : fld f 40 18 = 0) (hm : vMod f = 3) (hpm : vPM f = 0)
    (ha : vA f = 0) (hd : scalarWritable (vD f) = true) :
    ∃ z, exec (.vselMov r f) s = .next (s.setTile r z) ∧ (s.tile r).WroteOnly z [scalarReg (vD f)]
      ∧ z.readScalar (vD f) = BitVec.ofInt 32 (sextInt 16 (vImm f)) := by
  refine h.result_scalar (path := pathVx) (lat := 1) (reads := []) hd ?_
  simp [planVselMov, hf, hm, hpm, ha, hd, immOperand]

/-! ## Conversion from FP32 (R186 to R189) -/

/-- A VCVT word from FP32 to a plain format has one result: the codes of the selected elements. -/
theorem planVcvt_plain {f : Operands} (hsf : vSF f = 0xB) (hdf : vDF f ≠ 0xB) (hg : cvtGood f (vDF f) = true)
    (hx : fmtIsMx (vDF f) = false) (s : State) (y : Tile) :
    planVcvt f s y = .run {
      path := pathVx, reads := useP (vPM f) :: useV (vA f) :: seedUse f
      results := [{
        kind := .v, idx := vD f, lat := 3
        mask := packMask (fmtBits (vDF f)) (32 * fmtBits (vDF f) * (vImm f % 16)) (y.readP (vPM f))
        val := packAt (fmtBits (vDF f)) (32 * fmtBits (vDF f) * (vImm f % 16)) fun e =>
          convertCode (vDF f) (roundOf (vRM f) (y.readScalar (vB f)) y.bc s.fz e)
            (ofFP32 (lane (y.readV (vA f)) e)) }] } := by
  simp only [cvtGood, hx, Bool.and_eq_true, bne_iff_ne, decide_eq_true_eq, beq_iff_eq, Bool.false_eq_true,
    if_false] at hg
  obtain ⟨⟨⟨⟨⟨⟨⟨hcode, hrm⟩, himm⟩, hslot⟩, hbsel⟩, hmod⟩, hseed⟩, hsb, hc⟩ := hg
  have hbyte : vImm f < 512 := by omega
  simp [planVcvt, hsf, hdf, hx, hrm, himm, hbsel, hmod, hseed, hbyte, hc, Nat.not_lt.2 hcode, Nat.not_le.2 hslot]

/-- A VCVT word from FP32 to a block format has two results: the codes of all elements, and the scale. -/
theorem planVcvt_block {f : Operands} (hsf : vSF f = 0xB) (hdf : vDF f ≠ 0xB) (hg : cvtGood f (vDF f) = true)
    (hx : fmtIsMx (vDF f) = true) (hpm : vPM f = 0) (s : State) (y : Tile) {b : Byte × List Nat}
    (hb : toBlock (vDF f) (roundOf (vRM f) (y.readScalar (vB f)) y.bc s.fz)
      ((List.range 32).map fun e => ofFP32 (lane (y.readV (vA f)) e)) = b) :
    vD f ≠ vC f ∧ planVcvt f s y = .run {
      path := pathVx, reads := useV (vA f) :: seedUse f
      results := [
        { kind := .v, idx := vD f, lat := 3
          mask := packMask (fmtBits (vDF f)) (32 * fmtBits (vDF f) * (vImm f % 16)) 0xFFFFFFFF
          val := packAt (fmtBits (vDF f)) (32 * fmtBits (vDF f) * (vImm f % 16)) fun e => b.2.getD e 0 },
        { kind := .v, idx := vC f, lat := 3
          mask := (0xFF : BitVec 1024) <<< (8 * (vImm f / 2 ^ 9))
          val := BitVec.ofNat 1024 (b.1.toNat * 2 ^ (8 * (vImm f / 2 ^ 9))) }] } := by
  simp only [cvtGood, hx, Bool.and_eq_true, bne_iff_ne, decide_eq_true_eq, beq_iff_eq, if_true] at hg
  obtain ⟨⟨⟨⟨⟨⟨⟨hcode, hrm⟩, himm⟩, hslot⟩, hbsel⟩, hmod⟩, hseed⟩, hdc⟩ := hg
  refine ⟨hdc, ?_⟩
  simp [planVcvt, hsf, hdf, hx, hpm, hrm, himm, hbsel, hmod, hseed, hdc, Nat.not_lt.2 hcode, Nat.not_le.2 hslot, hb]

/-- A slot of a narrow format begins at its first element. -/
theorem slot_offset (bits slot : Nat) : 32 * bits * slot = bits * (32 * slot) := by
  rw [Nat.mul_comm 32 bits, Nat.mul_assoc]

theorem vcvt_writesCodes (r : TileRef) (f : Operands) (s : State)
    (h : Quiet s ⟨r, 1, 0x20, f, planVcvt f, usedBySru (vRM f)⟩) (hsf : vSF f = 0xB) (hdf : vDF f ≠ 0xB)
    (hg : cvtGood f (vDF f) = true) (hx : fmtIsMx (vDF f) = false) :
    ∃ z, exec (.vcvt r f) s = .next (usedBySru (vRM f) (s.setTile r z)) ∧ (s.tile r).WroteOnly z [(.v, vD f)]
      ∧ ∀ n, (n + 1) * fmtBits (vDF f) ≤ 1024 → element (z.readV (vD f)).toNat (fmtBits (vDF f)) n =
          if 32 * (vImm f % 16) ≤ n ∧ n < 32 * (vImm f % 16) + 32
              ∧ ((s.tile r).readP (vPM f)).getLsbD (n - 32 * (vImm f % 16)) = true then
            convertCode (vDF f) (s.roundAt r f (n - 32 * (vImm f % 16)))
              (ofFP32 (lane ((s.tile r).readV (vA f)) (n - 32 * (vImm f % 16)))) % 2 ^ fmtBits (vDF f)
          else element ((s.tile r).readV (vD f)).toNat (fmtBits (vDF f)) n := by
  obtain ⟨z, hz, hw, hv⟩ := h.result_v (planVcvt_plain hsf hdf hg hx _ _)
  refine ⟨z, hz, hw, fun n hn => ?_⟩
  rw [hv, slot_offset]
  exact element_merge _ _ _ _ hn

theorem vcvt_writesBlock (r : TileRef) (f : Operands) (s : State)
    (h : Quiet s ⟨r, 1, 0x20, f, planVcvt f, usedBySru (vRM f)⟩) (hsf : vSF f = 0xB) (hdf : vDF f ≠ 0xB)
    (hg : cvtGood f (vDF f) = true) (hx : fmtIsMx (vDF f) = true) (hpm : vPM f = 0) {b : Byte × List Nat}
    (hb : toBlock (vDF f) (s.roundAt r f)
      ((List.range 32).map fun e => ofFP32 (lane ((s.tile r).readV (vA f)) e)) = b) :
    ∃ z, exec (.vcvt r f) s = .next (usedBySru (vRM f) (s.setTile r z))
      ∧ (s.tile r).WroteOnly z [(.v, vD f), (.v, vC f)]
      ∧ (∀ n, (n + 1) * fmtBits (vDF f) ≤ 1024 → element (z.readV (vD f)).toNat (fmtBits (vDF f)) n =
          if 32 * (vImm f % 16) ≤ n ∧ n < 32 * (vImm f % 16) + 32 then
            b.2.getD (n - 32 * (vImm f % 16)) 0 % 2 ^ fmtBits (vDF f)
          else element ((s.tile r).readV (vD f)).toNat (fmtBits (vDF f)) n)
      ∧ ∀ n, n < 128 → byteOf (z.readV (vC f)).toNat n =
          if n = vImm f / 2 ^ 9 then b.1 else byteOf ((s.tile r).readV (vC f)).toNat n := by
  obtain ⟨hdc, hp⟩ := planVcvt_block hsf hdf hg hx hpm (s.setTile r (s.tile r)) (s.tile r) hb
  obtain ⟨z, hz, hw, hcodes, hscale⟩ := h.results_v hdc hp
  refine ⟨z, hz, hw, fun n hn => ?_, fun n hn => ?_⟩
  · rw [hcodes, slot_offset]
    exact element_merge_all _ _ _ hn
  · rw [hscale, byteOf_merge_byte _ _ _ hn]

/-! ## Reduction (R146, R190) -/

theorem vred_reduces (r : TileRef) (f : Operands) (s : State) (h : Quiet s ⟨r, 1, 0x28, f, planVred f, id⟩)
    (hf : fld f 40 17 = 0) (hi : vImm f = 0) :
    ∃ z, exec (.vred r f) s = .next (s.setTile r z) ∧ (s.tile r).WroteOnly z [(.v, vD f)]
      ∧ lane (z.readV (vD f)) 0 = treeFold (if vMod0 f then fpMax false else fpAdd false false)
          ((List.range 32).map fun n => if ((s.tile r).readP (vPM f)).getLsbD n
            then lane ((s.tile r).readV (vA f)) n else if vMod0 f then 0xFF800000 else 0)
      ∧ ∀ n, 0 < n → n < 32 → lane (z.readV (vD f)) n = lane ((s.tile r).readV (vD f)) n := by
  obtain ⟨z, hz, hw, hv⟩ := h.result_v (if_neg (by simp [hf, hi]))
  refine ⟨z, hz, hw, ?_, fun n h0 hn => ?_⟩
  · rw [hv, lane_merge_first _ _ (by decide), if_pos rfl]
    cases vMod0 f <;> rfl
  · rw [hv, lane_merge_first _ _ hn, if_neg (Nat.ne_of_gt h0)]

/-! ## The statement -/

/-- Settles O10: each instruction has its rule above, for its results and what it leaves. -/
theorem selectsMovesConversionsAndReductions : Obligations.SelectsMovesConversionsAndReductions := by
  refine ⟨⟨vsel_selects, vselCmp_compares⟩, ⟨vaddS_adds, fun r f s h hf => ?moves⟩,
    fun r f s h hsf hdf hg => ?conversions, vred_reduces⟩
  case moves =>
    exact ⟨vselMov_laneToScalar r f s h hf, vselMov_scalarToLane r f s h hf, vselMov_scalarToLanes r f s h hf,
      vselMov_immediateToScalar r f s h hf⟩
  case conversions =>
    exact ⟨vcvt_writesCodes r f s h hsf hdf hg, fun hx hpm => vcvt_writesBlock r f s h hsf hdf hg hx hpm rfl⟩

end Sys2Proof.Machine

/-! # Departing flits and full crossing queues (R243, R244)

Entries that the link switch has given their places, but whose flit times are not yet there, still fill the region's
crossing queue though the queue's list no longer names them (R243). A flit that departs into a queue filled so is not
pushed: it stops the die (R244). -/

namespace Sys2Proof.Machine

/-! ## When a crossing queue is full -/

/-- The flit time of an entry that is reserved in a later beat has not passed. -/
theorem Die.passed_of_due_later {x : Die} {f : QFlit} (h : x.beatNow < f.due) (ps : Nat) : x.passed f ps = false := by
  have hpast : decide (f.due < x.beatNow) = false := decide_eq_false (Nat.lt_asymm h)
  have hnow : (f.due == x.beatNow) = false := beq_false_of_ne (Nat.ne_of_gt h)
  simp [Die.passed, Die.tookIn, hpast, hnow]

/-- Relayed entries of a region with places in later beats all count in its queue toward the link switch. -/
theorem Die.relay_length_le_occupied {x : Die} {q : Nat} (hq : q % 5 = qSwitch)
    (h : ∀ f ∈ x.relay, f.src < 288 ∧ f.src / 72 = q / 5 ∧ x.beatNow < f.due) (ps : Nat) :
    x.relay.length ≤ x.occupied q ps := by
  have hall : x.relay.countP (x.standing (q / 5) ps) = x.relay.length := by
    refine List.countP_eq_length.2 fun f hf => ?_
    obtain ⟨hsrc, hregion, hdue⟩ := h f hf
    simp [Die.standing, hsrc, hregion, Die.passed_of_due_later hdue]
  simp only [Die.occupied, if_pos hq, hall]
  omega

/-! ## A push into a full queue -/

theorem State.push_of_full {s : State} {d q ps : Nat} (f : QFlit) (h : queueDepth ≤ (s.die d).occupied q ps) :
    s.push d q ps f = s.dieFault d 0x31 (stopDetailAt 0 0 f.hdr) := if_neg (Nat.not_lt.2 h)

/-- The stop discards the flits of every queue. -/
theorem State.queue_push_of_full {s : State} {d q ps : Nat} (f : QFlit) (hrun : (s.die d).stopped = false)
    (h : queueDepth ≤ (s.die d).occupied q ps) (p : Nat) : ((s.push d q ps f).die d).queue p = [] := by
  have hempty : ((s.push d q ps f).die d).queues = [] := by
    rw [State.push_of_full f h]
    exact (State.raiseStop_halts s d 0x31 _ _ hrun).1.queues
  rw [Die.queue, hempty]
  rfl

/-- A flit that departs toward the link switch is pushed into its crossing queue; of the die only its tile has changed
before. -/
theorem State.depart_toSwitch {s : State} {d t : Nat} {hs : HdrSrc} (due i : Nat) (src : FlitSrc)
    (hkey : s.sendQueue d (t / 72) (((s.die d).tile t).header hs) % 5 = qSwitch) :
    ∃ y ps f, s.depart d t due hs i src =
      (s.modDie d (·.setTile t y)).push d (s.sendQueue d (t / 72) (((s.die d).tile t).header hs)) ps f :=
  ⟨_, _, _, if_pos hkey⟩

theorem State.queue_depart_of_full {s : State} {d t q : Nat} {hs : HdrSrc} (due i : Nat) (src : FlitSrc)
    (hkey : s.sendQueue d (t / 72) (((s.die d).tile t).header hs) = q) (hq : q % 5 = qSwitch)
    (hrun : (s.die d).stopped = false) (hfull : ∀ ps, queueDepth ≤ (s.die d).occupied q ps) (p : Nat) :
    ((s.depart d t due hs i src).die d).queue p = [] := by
  obtain ⟨y, ps, f, hpush⟩ := State.depart_toSwitch due i src (hkey.symm ▸ hq)
  rw [hpush, hkey]
  refine State.queue_push_of_full f ?_ ?_ p <;> rw [State.die_modDie]
  · exact hrun
  · exact hfull ps

/-! ## A die whose queue toward the link switch is full -/

/-- Flit `i` of a packet that tile 0 pushed in job beat 0. Its port-table entry gives it flit time `i` of beat 2 at
link 0. -/
def relayedFlit (i : Nat) : QFlit :=
  { hdr := descHeader 0 false 7 0, fidx := i, payload := 0, beat := 0, ready := 0, late := false, src := 0
    egress := 0, due := 2, time := i, serial := 0 }

/-- A C-die in job beat 1: its crossing queues list no flit, but the eight flits of that packet wait for their
flit times. Entry 0 of the port table leads to link 0 with DBEAT 1. -/
def overflowingDie : Die :=
  { Die.reset with
    regs := [(rBeatCtrl, 0xB1F01), (rRoute0, 0x8000010000000000)]
    tiles := [(0, { Tile.reset with state := .running, bc := 1, waiting := false })]
    job := { Job.reset with beat := 1 }
    relay := (List.range 8).map relayedFlit }

def overflowingState : State := { State.reset with dies := [(0, overflowingDie)] }

theorem overflowingDie_occupied (ps : Nat) : queueDepth ≤ overflowingDie.occupied (qKey 0 qSwitch) ps :=
  Die.relay_length_le_occupied (x := overflowingDie) rfl (by decide) ps

/-- The packet that tile 0 sends in beat 1 goes to link 0 too. -/
theorem overflowingState_sendQueue :
    overflowingState.sendQueue 0 (0 / 72) (((overflowingState.die 0).tile 0).header (.descriptor false 0 1)) =
      qKey 0 qSwitch := by
  decide +kernel

/-! ## The statement -/

/-- Refutes O15: a crossing queue whose list is shorter than its depth may yet be full, with entries that wait for
their flit times (R243); then the flit that departs does not join it but stops the die (R244). -/
theorem not_sendsLeaveOneFlitACycle : ¬ Obligations.SendsLeaveOneFlitACycle := by
  unfold Obligations.SendsLeaveOneFlitACycle
  rintro ⟨-, -, hdepart⟩
  have hlist : (overflowingDie.queue (qKey 0 qSwitch)).length < queueDepth := by decide
  obtain ⟨⟨g, hjoined, -⟩, -⟩ := hdepart overflowingState 0 0 0 (.descriptor false 0 1) 0 (.line 0)
    (overflowingState_sendQueue.symm ▸ hlist)
  have hstopped := State.queue_depart_of_full (s := overflowingState) (d := 0) (t := 0) 0 0 (.line 0)
    overflowingState_sendQueue rfl rfl overflowingDie_occupied
  rw [hstopped] at hjoined
  exact List.append_ne_nil_of_right_ne_nil _ (List.cons_ne_nil _ _) hjoined.symm

end Sys2Proof.Machine
